-- ==== Sys2Proof/Word.lean ====
section
/-! DEFINITION. The 32-bit word, and the unpacked floating-point value that arithmetic works on. -/

namespace Sys2Proof

/-- A 32-bit word of the control port or of the audio stream (00_scope R12, 20_memory R103). -/
abbrev Word := BitVec 32

/-- A byte address of the control address space (20_memory R100). -/
abbrev Addr := BitVec 20

/-- An unpacked floating-point value: a NaN, an infinity, or the finite value
`(-1)^neg * mant * 2^exp` (00_scope R13). -/
inductive Fl where
  | nan
  | inf (neg : Bool)
  | fin (neg : Bool) (mant : Nat) (exp : Int)
  deriving DecidableEq, Repr, Inhabited

end Sys2Proof
end

