-- ==== Sys2Proof/Syntax.lean ====
section
/-! DEFINITION. The instructions: one constructor per row of spec/opcode_table.json. -/

namespace Sys2Proof

/-- The operations of the block (30_encoding R132 to R137). Fields are the raw fields of the word. -/
inductive Instr where
  /-- NOP, command 0x00 (42_parameter_snapshot R236). -/
  | nop
  /-- PREPARE, command 0x01 (41_filter_chain R190). -/
  | prepare
  /-- TICK, command 0x02 (42_parameter_snapshot R234). -/
  | tick
  /-- DESIGN_PEAK, command 0x03 (40_coefficient_factory R167). -/
  | designPeak
  /-- DESIGN_LOWCUT, command 0x04 (40_coefficient_factory R168). -/
  | designLowcut
  /-- DESIGN_HIGHCUT, command 0x05 (40_coefficient_factory R169). -/
  | designHighcut
  /-- UPDATE_COEF, command 0x06 with STAGE, SLOT and the channel mask CH (41_filter_chain R210). -/
  | updateCoef (stage : BitVec 4) (slot : BitVec 2) (ch : BitVec 2)
  /-- SET_BYPASS, command 0x07 with TGT, VAL and the channel mask CH (41_filter_chain R215). -/
  | setBypass (tgt : BitVec 4) (val : BitVec 1) (ch : BitVec 2)
  /-- AN_STEP, command 0x08 (43_fifo_fft R270). -/
  | anStep
  /-- FFT_GET, command 0x09 (43_fifo_fft R286). -/
  | fftGet
  /-- GEN_PATH, command 0x0A (44_path_response R300). -/
  | genPath
  /-- RESPONSE, command 0x0B (44_path_response R310). -/
  | response
  /-- ARESET, command 0x0C (43_fifo_fft R290). -/
  | areset
  /-- PROCESS_BLOCK, stream header 0x01 with the frame count NFR (41_filter_chain R200). -/
  | processBlock (nfr : BitVec 16)
  /-- RD, a 32-bit CTRL read of a byte address (20_memory R105). -/
  | rd (addr : Addr)
  /-- WR, a 32-bit CTRL write of a byte address with its data word (20_memory R106, 30_encoding R132). -/
  | wr (addr : Addr) (data : Word)
  deriving DecidableEq, Repr

end Sys2Proof
end

