-- ==== Sys2Proof/WellFormed.lean ====
section
/-! DEFINITION. Which instructions are legal as words (30_encoding R132, R134, R135). -/

namespace Sys2Proof

/-- The operand fields are in their legal ranges. An instruction that is not well-formed still decodes; it
raises BAD_CMD or BAD_ACCESS when it runs (30_encoding R131, R132). -/
def Instr.wf : Instr → Bool
  | .nop => true
  | .prepare => true
  | .tick => true
  | .designPeak => true
  | .designLowcut => true
  | .designHighcut => true
  | .updateCoef stage _ ch => stage ≤ 8#4 && ch != 0#2
  | .setBypass tgt _ ch => tgt ≤ 10#4 && ch != 0#2
  | .anStep => true
  | .fftGet => true
  | .genPath => true
  | .response => true
  | .areset => true
  | .processBlock _ => true
  | .rd addr => addr.toNat % 4 == 0
  | .wr addr _ => addr.toNat % 4 == 0

end Sys2Proof
end

