-- ==== Sys2Proof/Decode.lean ====
section
/-! DEFINITION. Decoding the three kinds of word (30_encoding), rejecting by name, and the encoder. -/

namespace Sys2Proof

/-- The three kinds of word the block decodes (30_encoding R130). -/
inductive Lane where
  | bus
  | command
  | stream
  deriving DecidableEq, Repr

/-- A word as it reaches the block: its kind, the word, and the data word beside a bus descriptor
(0 for the other kinds and for a read) (30_encoding R130, R132). -/
structure Packet where
  lane : Lane
  word : Word
  data : Word
  deriving DecidableEq, Repr

/-- Why a word is no instruction (30_encoding R140, R141). -/
inductive Reject where
  /-- Command opcode 0x0D to 0xFF. -/
  | reservedOpcode
  /-- A command word with a nonzero "0" bit of its format. -/
  | commandZeroBits
  /-- A bus descriptor with a nonzero bit 31:23. -/
  | busZeroBits
  /-- A bus descriptor with SIZE other than 2. -/
  | busSize
  /-- A stream header with SOP other than 0x01. -/
  | streamOpcode
  /-- A stream header with a nonzero bit 15:8. -/
  | streamZeroBits
  deriving DecidableEq, Repr

/-- The field of `w` from bit `lo` up, `n` bits wide (00_scope R12). -/
def field (w : Word) (lo n : Nat) : BitVec n := w.extractLsb' lo n

/-- Decoding a bus descriptor and its data word (30_encoding R132). -/
def decodeBus (w data : Word) : Except Reject Instr :=
  if field w 23 9 ≠ 0#9 then .error .busZeroBits
  else if field w 21 2 ≠ 2#2 then .error .busSize
  else if field w 20 1 = 0#1 then .ok (.rd (field w 0 20))
  else .ok (.wr (field w 0 20) data)

/-- A command of format C0: every bit above the opcode is 0 (30_encoding R133). -/
def decodeC0 (w : Word) (i : Instr) : Except Reject Instr :=
  if field w 8 24 = 0#24 then .ok i else .error .commandZeroBits

/-- Decoding a command word by its opcode (30_encoding R131 steps 1 and 2, R133 to R135, R137). The range of
a field (step 3) is checked when the command runs. -/
def decodeCommand (w : Word) : Except Reject Instr :=
  match (field w 0 8).toNat with
  | 0x00 => decodeC0 w .nop
  | 0x01 => decodeC0 w .prepare
  | 0x02 => decodeC0 w .tick
  | 0x03 => decodeC0 w .designPeak
  | 0x04 => decodeC0 w .designLowcut
  | 0x05 => decodeC0 w .designHighcut
  | 0x06 =>
    if field w 14 2 = 0#2 ∧ field w 18 14 = 0#14 then
      .ok (.updateCoef (field w 8 4) (field w 12 2) (field w 16 2))
    else .error .commandZeroBits
  | 0x07 =>
    if field w 13 3 = 0#3 ∧ field w 18 14 = 0#14 then
      .ok (.setBypass (field w 8 4) (field w 12 1) (field w 16 2))
    else .error .commandZeroBits
  | 0x08 => decodeC0 w .anStep
  | 0x09 => decodeC0 w .fftGet
  | 0x0A => decodeC0 w .genPath
  | 0x0B => decodeC0 w .response
  | 0x0C => decodeC0 w .areset
  | _ => .error .reservedOpcode

/-- Decoding a stream header (30_encoding R136, R141). -/
def decodeStream (w : Word) : Except Reject Instr :=
  if field w 0 8 ≠ 1#8 then .error .streamOpcode
  else if field w 8 8 ≠ 0#8 then .error .streamZeroBits
  else .ok (.processBlock (field w 16 16))

/-- Decoding a word of any kind. -/
def decode (p : Packet) : Except Reject Instr :=
  match p.lane with
  | .bus => decodeBus p.word p.data
  | .command => decodeCommand p.word
  | .stream => decodeStream p.word

/-- The kind of word an instruction is (30_encoding R130, R137). -/
def Instr.lane : Instr → Lane
  | .nop => .command
  | .prepare => .command
  | .tick => .command
  | .designPeak => .command
  | .designLowcut => .command
  | .designHighcut => .command
  | .updateCoef _ _ _ => .command
  | .setBypass _ _ _ => .command
  | .anStep => .command
  | .fftGet => .command
  | .genPath => .command
  | .response => .command
  | .areset => .command
  | .processBlock _ => .stream
  | .rd _ => .bus
  | .wr _ _ => .bus

/-- The word of an instruction, from the formats of 30_encoding R132 to R136, upper field first. -/
def encodeWord : Instr → Word
  | .nop => 0x00000000#32
  | .prepare => 0x00000001#32
  | .tick => 0x00000002#32
  | .designPeak => 0x00000003#32
  | .designLowcut => 0x00000004#32
  | .designHighcut => 0x00000005#32
  | .updateCoef stage slot ch => 0#14 ++ ch ++ 0#2 ++ slot ++ stage ++ 0x06#8
  | .setBypass tgt val ch => 0#14 ++ ch ++ 0#3 ++ val ++ tgt ++ 0x07#8
  | .anStep => 0x00000008#32
  | .fftGet => 0x00000009#32
  | .genPath => 0x0000000A#32
  | .response => 0x0000000B#32
  | .areset => 0x0000000C#32
  | .processBlock nfr => nfr ++ 0#8 ++ 0x01#8
  | .rd addr => 0#9 ++ 2#2 ++ 0#1 ++ addr
  | .wr addr _ => 0#9 ++ 2#2 ++ 1#1 ++ addr

/-- The data word beside a bus write; 0 elsewhere (30_encoding R132). -/
def encodeData : Instr → Word
  | .nop => 0#32
  | .prepare => 0#32
  | .tick => 0#32
  | .designPeak => 0#32
  | .designLowcut => 0#32
  | .designHighcut => 0#32
  | .updateCoef _ _ _ => 0#32
  | .setBypass _ _ _ => 0#32
  | .anStep => 0#32
  | .fftGet => 0#32
  | .genPath => 0#32
  | .response => 0#32
  | .areset => 0#32
  | .processBlock _ => 0#32
  | .rd _ => 0#32
  | .wr _ data => data

/-- The encoder. -/
def encode (i : Instr) : Packet := ⟨i.lane, encodeWord i, encodeData i⟩

/-- The word `w` as a bus descriptor with its data word above it (host interface; log 18). -/
def tableBus (w : Nat) : Packet := ⟨.bus, BitVec.ofNat 32 w, BitVec.ofNat 32 (w >>> 32)⟩

/-- The word `w` as a command word. -/
def tableCommand (w : Nat) : Packet := ⟨.command, BitVec.ofNat 32 w, 0#32⟩

/-- The word `w` as a stream header. -/
def tableStream (w : Nat) : Packet := ⟨.stream, BitVec.ofNat 32 w, 0#32⟩

/-- Which kind of word a word of the opcode table is read as: the table mixes the three kinds, so a command
word is tried first, then a bus descriptor, then a stream header (log 18). -/
def tablePacket (w : Nat) : Packet :=
  match decode (tableCommand w), decode (tableBus w), decode (tableStream w) with
  | .ok _, _, _ => tableCommand w
  | .error _, .ok _, _ => tableBus w
  | .error _, .error _, .ok _ => tableStream w
  | .error _, .error _, .error _ => tableCommand w

/-- The instruction this decoder reads from a word of the opcode table (host interface). -/
def decodeTableWord (_nbits w : Nat) : Option Instr := (decode (tablePacket w)).toOption

end Sys2Proof
end

