-- ==== Sys2Proof/Config.lean ====
section
/-! DEFINITION. What is fixed when the block is built (00_scope R8), and the free values the spec leaves open. -/

namespace Sys2Proof

/-- SUBNORMAL_MODE (00_scope R8): how binary32 arithmetic treats subnormals. -/
inductive SubnormalMode where
  | ieee
  | ftzDaz
  deriving DecidableEq, Repr

/-- DESIGN_FMT (00_scope R8): the format of the design and response formulas. -/
inductive DesignFmt where
  | binary64
  | binary32
  deriving DecidableEq, Repr

/-- The functions of MATH (00_scope R8). -/
inductive MathFn where
  | sin
  | cos
  | tan
  | sqrt
  | log10
  | exp10
  deriving DecidableEq, Repr

/-- MATH (00_scope R8): the correctly rounded functions, or another implementation, named by a number. -/
inductive MathImpl where
  | reference
  | other (k : Nat)
  deriving DecidableEq, Repr

/-- FFT_IMPL (00_scope R8, 43_fifo_fft R283): the exact transform rounded once, or another implementation. -/
inductive FftImpl where
  | reference
  | other (k : Nat)
  deriving DecidableEq, Repr

/-- WINDOW (43_fifo_fft R281): the normalised Blackman-Harris window, or N binary32 values. -/
inductive WindowImpl where
  | reference
  | values (ws : List Word)
  deriving DecidableEq, Repr

/-- The build parameters of 00_scope R8. NCH_MAX and STAGES_CUT have one legal value each and are the
shape of the state. -/
structure Build where
  fftOrder : Nat
  fifoCap : Nat
  fifoBlock : Nat
  fftqCap : Nat
  pathStride : Nat
  respMax : Nat
  window : WindowImpl
  subnormal : SubnormalMode
  designFmt : DesignFmt
  math : MathImpl
  fftImpl : FftImpl
  deriving DecidableEq, Repr

/-- The reference build (00_scope R8). -/
def Build.reference : Build where
  fftOrder := 11
  fifoCap := 32
  fifoBlock := 512
  fftqCap := 5
  pathStride := 1
  respMax := 8192
  window := .reference
  subnormal := .ieee
  designFmt := .binary64
  math := .reference
  fftImpl := .reference

/-- `N = 2^FFT_ORDER`, the FFT size (00_scope R8). -/
def Build.fftSize (b : Build) : Nat := 2 ^ b.fftOrder

/-- `N/2`, the number of bins kept (43_fifo_fft R280). -/
def Build.bins (b : Build) : Nat := b.fftSize / 2

/-- A WINDOW of given values has N of them (43_fifo_fft R281). -/
def WindowImpl.fits (n : Nat) : WindowImpl → Bool
  | .reference => true
  | .values ws => ws.length == n

/-- The legal values of the build parameters (00_scope R8). -/
def Build.legal (b : Build) : Bool :=
  (4 ≤ b.fftOrder && b.fftOrder ≤ 14) &&
  (1 ≤ b.fifoCap && b.fifoCap ≤ 255) &&
  (1 ≤ b.fifoBlock && b.fifoBlock ≤ b.fftSize) &&
  (5 ≤ b.fftqCap && b.fftqCap ≤ 255) &&
  (1 ≤ b.pathStride && b.pathStride ≤ 255) &&
  (b.respMax == 8192) &&
  b.window.fits b.fftSize

/-- A free value: sign and payload of the quiet NaN an operation produces (NAN_PAYLOAD, 93 U6). The list
names the operation and its operands. -/
opaque Config.nanPayload : List Word → BitVec 23

/-- A free value: the functions of a MATH other than the reference (93 U8). -/
opaque Config.math : Nat → MathFn → Fl → Fl

/-- A free value: bin `k`'s magnitude in an FFT_IMPL other than the reference, from the window and the samples
(93 U9). -/
opaque Config.fftMagnitude : Nat → WindowImpl → List Word → Nat → Fl

/-- A free value: bin `k`'s magnitude, from the window and the samples, where a sample or a value of a given
WINDOW is infinite and none is a NaN; the spec states no result there (43_fifo_fft R281, R282; log 13). -/
opaque Config.fftInfinite : WindowImpl → List Word → Nat → Fl

/-- Free values: the output words of a refused block, drawn one by one (93 U3). -/
opaque Config.freeWord : Nat → Word

/-- Free values: whether CTRL moves when both agents can and the schedule says nothing (93 U13). -/
opaque Config.freeTurn : Nat → Bool

end Sys2Proof
end

