-- ==== Sys2Proof/Machine/Float.lean ====
section
/-! DEFINITION. IEEE 754 arithmetic with round-to-nearest-even on unpacked values, and binary32 on words
(00_scope R13, 41_filter_chain R201). -/

namespace Sys2Proof

/-- A binary format: precision in bits, exponent of the smallest ulp, largest exponent of a leading bit. -/
structure Fmt where
  prec : Nat
  emin : Int
  emax : Int
  deriving DecidableEq, Repr

/-- IEEE 754 binary32. -/
def Fmt.binary32 : Fmt := ⟨24, -149, 127⟩

/-- IEEE 754 binary64. -/
def Fmt.binary64 : Fmt := ⟨53, -1074, 1023⟩

/-- An arithmetic: a format, and whether subnormals are flushed (SUBNORMAL_MODE, 41_filter_chain R201). -/
structure Arith where
  fmt : Fmt
  ftz : Bool
  deriving DecidableEq, Repr

/-- `num / den * 2^e` rounded to nearest even in `fmt` (00_scope R13); `den` is positive. -/
def roundRat (fmt : Fmt) (neg : Bool) (num den : Nat) (e : Int) : Fl :=
  if num = 0 then .fin neg 0 0 else
  let l : Int := (num.log2 : Int) - (den.log2 : Int)
  let atLeast : Bool := decide (den <<< l.toNat ≤ num <<< (-l).toNat)
  let top : Int := (if atLeast then l else l - 1) + e
  let u : Int := max (top - ((fmt.prec : Int) - 1)) fmt.emin
  let a := num <<< (e - u).toNat
  let d := den <<< (u - e).toNat
  let q := a / d
  let r := a % d
  let m := if d < 2 * r ∨ (d = 2 * r ∧ q % 2 = 1) then q + 1 else q
  if m = 0 then .fin neg 0 0
  else if fmt.emax < (m.log2 : Int) + u then .inf neg
  else .fin neg m u

/-- A value rounded to nearest even in `fmt`. -/
def Fl.round (fmt : Fmt) : Fl → Fl
  | .nan => .nan
  | .inf s => .inf s
  | .fin s m e => roundRat fmt s m 1 e

/-- The finite value is nonzero and below the smallest normal number of `fmt`. -/
def Fl.subnormal (fmt : Fmt) : Fl → Bool
  | .nan => false
  | .inf _ => false
  | .fin _ m e => m != 0 && decide ((m.log2 : Int) + e < fmt.emin + ((fmt.prec : Int) - 1))

/-- FTZ_DAZ: a subnormal becomes a zero of the same sign (41_filter_chain R201). -/
def Arith.flush (a : Arith) (x : Fl) : Fl :=
  if a.ftz && x.subnormal a.fmt then
    match x with
    | .nan => .nan
    | .inf s => .inf s
    | .fin s _ _ => .fin s 0 0
  else x

/-- The value of a finite magnitude as a signed integer multiple of `2^k`, for `k ≤ e`. -/
def scaled (neg : Bool) (m : Nat) (e k : Int) : Int :=
  let v : Int := (m <<< (e - k).toNat : Nat)
  if neg then -v else v

/-- The exact value `v * 2^k` with the sign of zero given. -/
def Fl.ofInt (zeroNeg : Bool) (v k : Int) : Fl :=
  if v = 0 then .fin zeroNeg 0 0 else .fin (decide (v < 0)) v.natAbs k

/-- Negation: the sign bit changes. -/
def Fl.neg : Fl → Fl
  | .nan => .nan
  | .inf s => .inf (!s)
  | .fin s m e => .fin (!s) m e

/-- The exact sum; an exact zero sum of nonzero or differently signed operands is `+0`. -/
def Fl.addExact : Fl → Fl → Fl
  | .nan, _ => .nan
  | _, .nan => .nan
  | .inf s, .inf t => if s = t then .inf s else .nan
  | .inf s, .fin _ _ _ => .inf s
  | .fin _ _ _, .inf t => .inf t
  | .fin s m e, .fin t n f =>
    let k := min e f
    Fl.ofInt (s && t && m == 0 && n == 0) (scaled s m e k + scaled t n f k) k

/-- The exact product. -/
def Fl.mulExact : Fl → Fl → Fl
  | .nan, _ => .nan
  | _, .nan => .nan
  | .inf s, .inf t => .inf (s != t)
  | .inf s, .fin t n _ => if n = 0 then .nan else .inf (s != t)
  | .fin s m _, .inf t => if m = 0 then .nan else .inf (s != t)
  | .fin s m e, .fin t n f => .fin (s != t) (m * n) (e + f)

/-- The quotient rounded to `fmt`. -/
def Fl.divRound (fmt : Fmt) : Fl → Fl → Fl
  | .nan, _ => .nan
  | _, .nan => .nan
  | .inf _, .inf _ => .nan
  | .inf s, .fin t _ _ => .inf (s != t)
  | .fin s _ _, .inf t => .fin (s != t) 0 0
  | .fin s m e, .fin t n f =>
    if n = 0 then (if m = 0 then .nan else .inf (s != t))
    else roundRat fmt (s != t) m n (e - f)

/-- Addition, rounded once (00_scope R13). -/
def Arith.add (a : Arith) (x y : Fl) : Fl :=
  a.flush ((Fl.addExact (a.flush x) (a.flush y)).round a.fmt)

/-- Subtraction, rounded once (00_scope R13). -/
def Arith.sub (a : Arith) (x y : Fl) : Fl := a.add x y.neg

/-- Multiplication, rounded once (00_scope R13). -/
def Arith.mul (a : Arith) (x y : Fl) : Fl :=
  a.flush ((Fl.mulExact (a.flush x) (a.flush y)).round a.fmt)

/-- Division, rounded once (00_scope R13). -/
def Arith.div (a : Arith) (x y : Fl) : Fl :=
  a.flush (Fl.divRound a.fmt (a.flush x) (a.flush y))

/-- `x < y` as IEEE numbers; false when either is a NaN. -/
def Fl.lt : Fl → Fl → Bool
  | .nan, _ => false
  | _, .nan => false
  | .inf s, .inf t => s && !t
  | .inf s, .fin _ _ _ => s
  | .fin _ _ _, .inf t => !t
  | .fin s m e, .fin t n f =>
    let k := min e f
    decide (scaled s m e k < scaled t n f k)

/-- `x ≤ y` as IEEE numbers; false when either is a NaN. -/
def Fl.le : Fl → Fl → Bool
  | .nan, _ => false
  | _, .nan => false
  | .inf s, .inf t => s || !t
  | .inf s, .fin _ _ _ => s
  | .fin _ _ _, .inf t => !t
  | .fin s m e, .fin t n f =>
    let k := min e f
    decide (scaled s m e k ≤ scaled t n f k)

/-- Neither a NaN nor an infinity. -/
def Fl.finite : Fl → Bool
  | .nan => false
  | .inf _ => false
  | .fin _ _ _ => true

/-- The exact integer `n`. -/
def Fl.nat (n : Nat) : Fl := .fin false n 0

/-- The larger of `lo` and `x`; `lo` when `x` is a NaN (43_fifo_fft R282, 93 U6). -/
def Fl.maxFloor (lo x : Fl) : Fl := if Fl.lt lo x then x else lo

/-- The value of a binary32 word (00_scope R13). -/
def Fl.ofWord (w : Word) : Fl :=
  let s := w.getLsbD 31
  let ef := (w.extractLsb' 23 8).toNat
  let frac := (w.extractLsb' 0 23).toNat
  if ef = 255 then (if frac = 0 then .inf s else .nan)
  else if ef = 0 then .fin s frac (-149)
  else .fin s (0x800000 + frac) ((ef : Int) - 150)

/-- A quiet NaN of binary32 with the given sign and payload bits. -/
def quietNan (bits : BitVec 23) : Word :=
  bits.extractLsb' 22 1 ++ 0xFF#8 ++ 1#1 ++ bits.extractLsb' 0 22

/-- The binary32 word of sign, exponent field and fraction field. -/
def packWord (neg : Bool) (ef frac : Nat) : Word :=
  BitVec.ofBool neg ++ BitVec.ofNat 8 ef ++ BitVec.ofNat 23 frac

/-- The binary32 word of a value that is already rounded. A NaN takes the free sign and payload that `key`, the
operation and its operands, gives (93 U6). -/
def Fl.bits (key : List Word) : Fl → Word
  | .nan => quietNan (Config.nanPayload key)
  | .inf s => packWord s 255 0
  | .fin s m e =>
    if m = 0 then packWord s 0 0
    else if m < 0x800000 then packWord s 0 m
    else if m < 0x1000000 then packWord s (e + 150).toNat (m - 0x800000)
    else packWord s (e + 151).toNat (m / 2 - 0x800000)

/-- `rnd32`: the value rounded to nearest even in binary32, as a word (00_scope R13). -/
def Fl.toWord (key : List Word) (x : Fl) : Word := (x.round .binary32).bits key

/-- The arithmetic of samples, coefficients and filter state: binary32 under SUBNORMAL_MODE
(00_scope R13, 41_filter_chain R201). -/
def Build.sample (b : Build) : Arith := ⟨.binary32, b.subnormal == .ftzDaz⟩

/-- The format DESIGN_FMT names (00_scope R8). -/
def DesignFmt.format : DesignFmt → Fmt
  | .binary64 => .binary64
  | .binary32 => .binary32

/-- The DESIGN_FMT arithmetic (00_scope R13). It keeps subnormals in every build: a coefficient depends on
DESIGN_FMT and MATH alone (40_coefficient_factory R172; log 8). -/
def Build.design (b : Build) : Arith := ⟨b.designFmt.format, false⟩

/-- `fadd(a, b)` (00_scope R13). -/
def fadd (b : Build) (x y : Word) : Word :=
  (b.sample.add (Fl.ofWord x) (Fl.ofWord y)).toWord [0#32, x, y]

/-- `fsub(a, b)` (00_scope R13). -/
def fsub (b : Build) (x y : Word) : Word :=
  (b.sample.sub (Fl.ofWord x) (Fl.ofWord y)).toWord [1#32, x, y]

/-- `fmul(a, b)` (00_scope R13). -/
def fmul (b : Build) (x y : Word) : Word :=
  (b.sample.mul (Fl.ofWord x) (Fl.ofWord y)).toWord [2#32, x, y]

/-- `fdiv(a, b)` (00_scope R13). -/
def fdiv (b : Build) (x y : Word) : Word :=
  (b.sample.div (Fl.ofWord x) (Fl.ofWord y)).toWord [3#32, x, y]

end Sys2Proof
end

