-- ==== Sys2Proof/Machine/Elementary.lean ====
section
/-! DEFINITION. The functions of MATH (00_scope R8, R13): sin, cos, tan, sqrt, log10 and exp10, correctly
rounded. Each is evaluated in fixed point with a precision far above the format's and rounded once
(log 10). A fixed-point value `v` at `p` stands for `v / 2^p`. -/

namespace Sys2Proof

/-- `floor (pi * 2^1536)`. -/
def piFix1536 : Nat :=
  0x3243f6a8885a308d313198a2e03707344a4093822299f31d0082efa98ec4e6c89452821e638d01377be5466cf34e90c6cc0ac29b7c97c50dd3f84d5b5b54709179216d5d98979fb1bd1310ba698dfb5ac2ffd72dbd01adfb7b8e1afed6a267e96ba7c9045f12c7f9924a19947b3916cf70801f2e2858efc16636920d871574e69a458fea3f4933d7e0d95748f728eb658718bcd5882154aee7b54a41dc25a59b59c30d5392af26013c5d1b023286085f0ca417918b8db38ef8e79dcb0603a180e

/-- `floor (ln 2 * 2^512)`. -/
def ln2Fix512 : Nat :=
  0xb17217f7d1cf79abc9e3b39803f2f6af40f343267298b62d8a0d175b8baafa2be7b876206debac98559552fb4afa1b10ed2eae35c138214427573b291169b825

/-- `floor (ln 10 * 2^512)`. -/
def ln10Fix512 : Nat :=
  0x24d763776aaa2b05ba95b58ae0b4c28a38a3fb3e76977e43a0f187a0807c0b5ca58bc0b5ec6a0417331c32f00b17c35a0b1889061042f8b6bee3de2100b945b59

/-- `pi` in fixed point; `p` is at most 1536. -/
def piFix (p : Nat) : Int := (piFix1536 >>> (1536 - p) : Nat)

/-- `ln 2` in fixed point; `p` is at most 512. -/
def ln2Fix (p : Nat) : Int := (ln2Fix512 >>> (512 - p) : Nat)

/-- `ln 10` in fixed point; `p` is at most 512. -/
def ln10Fix (p : Nat) : Int := (ln10Fix512 >>> (512 - p) : Nat)

/-- The product of two fixed-point values. -/
def mulFix (p : Nat) (x y : Int) : Int := (x * y) / ((2 ^ p : Nat) : Int)

/-- The quotient of two fixed-point values. -/
def divFix (p : Nat) (x y : Int) : Int := (x * ((2 ^ p : Nat) : Int)) / y

/-- `m * 2^e` with its sign in fixed point, rounded toward minus infinity. -/
def toFix (p : Nat) (neg : Bool) (m : Nat) (e : Int) : Int :=
  let v : Int := (((m <<< (e + p).toNat) >>> (-(e + p)).toNat : Nat) : Int)
  if neg then -v else v

/-- A fixed-point value rounded once to `fmt`. -/
def Fl.ofFix (fmt : Fmt) (p : Nat) (v : Int) : Fl :=
  roundRat fmt (decide (v < 0)) v.natAbs 1 (-(p : Int))

/-- The terms `t, -t x^2/((n+1)(n+2)), …` of an alternating Taylor series, summed. -/
def trigSeries (p : Nat) (x2 : Int) : Nat → Nat → Int → Int
  | 0, _, _ => 0
  | fuel + 1, n, t =>
    if t = 0 then 0
    else t + trigSeries p x2 fuel (n + 2) (-(mulFix p t x2 / (((n + 1) * (n + 2) : Nat) : Int)))

/-- `sin r` for a small `r`. -/
def sinFix (p : Nat) (r : Int) : Int := trigSeries p (mulFix p r r) 120 1 r

/-- `cos r` for a small `r`. -/
def cosFix (p : Nat) (r : Int) : Int := trigSeries p (mulFix p r r) 120 0 ((2 ^ p : Nat) : Int)

/-- `(sin x, cos x)`: `x` reduced by the nearest multiple of `pi/2`. -/
def sinCosFix (p : Nat) (x : Int) : Int × Int :=
  let h := piFix p / 2
  let q := if x.natAbs < (2 ^ p : Nat) / 2 then 0 else (2 * x + h) / (2 * h)
  let r := x - q * h
  let s := sinFix p r
  let c := cosFix p r
  match (q % 4).toNat with
  | 0 => (s, c)
  | 1 => (c, -s)
  | 2 => (-s, -c)
  | _ => (-c, s)

/-- The working precision for an angle of magnitude `m * 2^e`: 400 bits below the leading bit, and 400 bits
below the binary point. -/
def anglePrec (m : Nat) (e : Int) : Nat := 400 + ((m.log2 : Int) + e).natAbs

/-- `sin`, correctly rounded. -/
def sinRounded (fmt : Fmt) : Fl → Fl
  | .nan => .nan
  | .inf _ => .nan
  | .fin s m e =>
    if m = 0 then .fin s 0 0
    else
      let p := anglePrec m e
      Fl.ofFix fmt p (sinCosFix p (toFix p s m e)).1

/-- `cos`, correctly rounded. -/
def cosRounded (fmt : Fmt) : Fl → Fl
  | .nan => .nan
  | .inf _ => .nan
  | .fin s m e =>
    if m = 0 then .fin false 1 0
    else
      let p := anglePrec m e
      Fl.ofFix fmt p (sinCosFix p (toFix p s m e)).2

/-- `tan`, correctly rounded. -/
def tanRounded (fmt : Fmt) : Fl → Fl
  | .nan => .nan
  | .inf _ => .nan
  | .fin s m e =>
    if m = 0 then .fin s 0 0
    else
      let p := anglePrec m e
      let sc := sinCosFix p (toFix p s m e)
      roundRat fmt (decide (sc.1 < 0) != decide (sc.2 < 0)) sc.1.natAbs sc.2.natAbs 0

/-- Bits `k-1 … 0` of the square root of `n`, given the bits above them. -/
def isqrtBits (n : Nat) : Nat → Nat → Nat
  | 0, r => r
  | k + 1, r =>
    let r' := r + 2 ^ k
    isqrtBits n k (if r' * r' ≤ n then r' else r)

/-- The integer square root. -/
def isqrt (n : Nat) : Nat := isqrtBits n (n.log2 / 2 + 1) 0

/-- `sqrt`, correctly rounded: an integer root of at least 130 bits, with a sticky bit. -/
def sqrtRounded (fmt : Fmt) : Fl → Fl
  | .nan => .nan
  | .inf s => if s then .nan else .inf false
  | .fin s m e =>
    if m = 0 then .fin s 0 0
    else if s then .nan
    else
      let k := 260 + (e % 2).toNat
      let n := m <<< k
      let r := isqrt n
      let sticky := if r * r = n then 0 else 1
      roundRat fmt false (2 * r + sticky) 1 ((e - k) / 2 - 1)

/-- The odd powers `t, t^3, …` divided by `1, 3, …`, summed: `atanh`. -/
def atanhSeries (p : Nat) (t2 : Int) : Nat → Nat → Int → Int
  | 0, _, _ => 0
  | fuel + 1, n, t =>
    if t = 0 then 0 else t / (n : Int) + atanhSeries p t2 fuel (n + 2) (mulFix p t t2)

/-- `ln y` for a fixed-point `y` near 1. -/
def lnFix (p : Nat) (y : Int) : Int :=
  let one : Int := ((2 ^ p : Nat) : Int)
  let t := divFix p (y - one) (y + one)
  2 * atanhSeries p (mulFix p t t) 130 1 t

/-- `log10`, correctly rounded: the argument is `y * 2^k` with `y` in `[3/4, 3/2)`. -/
def log10Rounded (fmt : Fmt) : Fl → Fl
  | .nan => .nan
  | .inf s => if s then .nan else .inf false
  | .fin s m e =>
    if m = 0 then .inf true
    else if s then .nan
    else
      let p := 400
      let low := decide (2 * m < 3 * 2 ^ m.log2)
      let k : Int := if low then (m.log2 : Int) else (m.log2 : Int) + 1
      let y := toFix p false m (-k)
      Fl.ofFix fmt p (divFix p (lnFix p y + (k + e) * ln2Fix p) (ln10Fix p))

/-- The terms `t, t r/n, t r^2/(n (n+1)), …` of the exponential series, summed. -/
def expSeries (p : Nat) (r : Int) : Nat → Nat → Int → Int
  | 0, _, _ => 0
  | fuel + 1, n, t =>
    if t = 0 then 0 else t + expSeries p r fuel (n + 1) (mulFix p t r / (n : Int))

/-- The value is an integer: its bits below the binary point are 0. -/
def isInteger (m : Nat) (e : Int) : Bool := m % 2 ^ (-e).toNat == 0

/-- `exp10`, correctly rounded: exact for an integer argument, the exponential series otherwise. -/
def exp10Rounded (fmt : Fmt) : Fl → Fl
  | .nan => .nan
  | .inf s => if s then .fin false 0 0 else .inf false
  | .fin s m e =>
    if m = 0 then .fin false 1 0
    else if 9 ≤ (m.log2 : Int) + e then
      (if s then roundRat fmt false 1 (10 ^ 400) 0 else roundRat fmt false (10 ^ 400) 1 0)
    else if isInteger m e then
      let n := (m <<< e.toNat) >>> (-e).toNat
      (if s then roundRat fmt false 1 (10 ^ n) 0 else roundRat fmt false (10 ^ n) 1 0)
    else
      let p := 400
      let x := mulFix p (toFix p s m e) (ln10Fix p)
      let l := ln2Fix p
      let k := (2 * x + l) / (2 * l)
      let r := x - k * l
      roundRat fmt false (expSeries p r 130 1 ((2 ^ p : Nat) : Int)).natAbs 1 (k - p)

/-- The reference MATH: correctly rounded (00_scope R8). -/
def mathReference (fmt : Fmt) : MathFn → Fl → Fl
  | .sin, x => sinRounded fmt x
  | .cos, x => cosRounded fmt x
  | .tan, x => tanRounded fmt x
  | .sqrt, x => sqrtRounded fmt x
  | .log10, x => log10Rounded fmt x
  | .exp10, x => exp10Rounded fmt x

/-- A function of MATH of this build, its result in DESIGN_FMT (00_scope R8, R13; log 11). -/
def Build.fn (b : Build) (f : MathFn) (x : Fl) : Fl :=
  match b.math with
  | .reference => mathReference b.design.fmt f x
  | .other k => (Config.math k f x).round b.design.fmt

/-- `pi`, the DESIGN_FMT value nearest to it (00_scope R13). -/
def Build.pi (b : Build) : Fl := roundRat b.design.fmt false piFix1536 1 (-1536)

end Sys2Proof
end

