-- ==== Sys2Proof/Machine/State.lean ====
section
/-! DEFINITION. The state of the block (10_state), as plain data, and its reset value (70_reset R361). -/

namespace Sys2Proof.Machine

/-- The reasons the machine stops: none. Every precondition violation is a recorded fault after which the
block keeps running (60_exceptions R331), so no step ends in a machine fault. Nothing raises one: safe. -/
inductive Fault where
  deriving DecidableEq, Repr

/-- The reasons a step has no meaning. -/
inductive Refusal where
  /-- The instruction has no meaning in this model; raised only by `exec`'s refused arms, of which there is
  none. Safe. -/
  | notModelled (mnemonic : String)
  deriving DecidableEq, Repr

/-- A storage of 32-bit words: (index, word) pairs, indices strictly rising, no word equal to 0. An index
that is not listed holds 0 (log 16). -/
abbrev Memory := List (Nat × Word)

/-- A coefficient set (00_scope R16). -/
structure CoefSet where
  b0 : Word
  b1 : Word
  b2 : Word
  a1 : Word
  a2 : Word
  deriving DecidableEq, Repr

/-- `ID5 = (1, 0, 0, 0, 0)`, the identity set (00_scope R16). -/
def CoefSet.id5 : CoefSet := ⟨0x3F800000#32, 0#32, 0#32, 0#32, 0#32⟩

/-- The delay values `(s1, s2)` of one stage (10_state R71). -/
structure Delay where
  s1 : Word
  s2 : Word
  deriving DecidableEq, Repr

/-- Both delay values 0.0. -/
def Delay.zero : Delay := ⟨0#32, 0#32⟩

/-- A channel number: 0 is left, 1 is right (00_scope R15). -/
inductive Ch where
  | c0
  | c1
  deriving DecidableEq, Repr

/-- A stage number 0..8 (00_scope R15). -/
abbrev Stage := Fin 9

/-- Position bypass flags by position: LowCut, Peak, HighCut (10_state R72). -/
abbrev PosFlags := Vector Bool 3

/-- One filter chain: coefficients, delays, position bypass flags, and the stage bypass flags of the
LowCut and of the HighCut stages (10_state R70 to R73). The peak stage has no stage flag. -/
structure Channel where
  coef : Vector CoefSet 9
  st : Vector Delay 9
  pbyp : PosFlags
  lcByp : Vector Bool 4
  hcByp : Vector Bool 4
  deriving DecidableEq, Repr

/-- A chain after reset (70_reset R361). -/
def Channel.reset : Channel where
  coef := #v[.id5, .id5, .id5, .id5, .id5, .id5, .id5, .id5, .id5]
  st := #v[.zero, .zero, .zero, .zero, .zero, .zero, .zero, .zero, .zero]
  pbyp := #v[false, false, false]
  lcByp := #v[false, true, true, true]
  hcByp := #v[false, true, true, true]

/-- The parameter registers, which are also a ChainSettings snapshot (10_state R44 to R50,
42_parameter_snapshot R230, R233). -/
structure Params where
  lowcutFreq : Word
  highcutFreq : Word
  peakFreq : Word
  peakGainDb : Word
  peakQ : Word
  settings : Word
  deriving DecidableEq, Repr

/-- The parameter registers after reset (70_reset R361). -/
def Params.reset : Params where
  lowcutFreq := 0x41A00000#32
  highcutFreq := 0x469C4000#32
  peakFreq := 0x447A0000#32
  peakGainDb := 0#32
  peakQ := 0x3F800000#32
  settings := 0#32

/-- The drawing bounds (10_state R55). -/
structure Bounds where
  x : Word
  y : Word
  w : Word
  h : Word
  deriving DecidableEq, Repr

/-- The analysis state (10_state R75 to R79). -/
structure Analysis where
  ring : Memory
  fifoRd : Nat
  fifoCount : Nat
  fill : Memory
  fillCount : Nat
  rb : Memory
  rbCount : Nat
  fq : Memory
  fqRd : Nat
  fqCount : Nat
  fftOut : Memory
  fftOutValid : Bool
  path : Memory
  pathLen : Nat
  pathSeq : Word
  pathValid : Bool
  deriving DecidableEq, Repr

/-- The analysis state after reset and after ARESET (70_reset R361, 43_fifo_fft R290). -/
def Analysis.reset : Analysis where
  ring := []
  fifoRd := 0
  fifoCount := 0
  fill := []
  fillCount := 0
  rb := []
  rbCount := 0
  fq := []
  fqRd := 0
  fqCount := 0
  fftOut := []
  fftOutValid := false
  path := []
  pathLen := 0
  pathSeq := 0#32
  pathValid := false

/-- The response storage (10_state R80). -/
structure Curve where
  db : Memory
  pt : Memory
  len : Nat
  valid : Bool
  deriving DecidableEq, Repr

/-- One atomic install step of a CTRL command (20_memory R111). -/
inductive Install where
  /-- `install(c, s, set)` of UPDATE_COEF (41_filter_chain R193). -/
  | coef (c : Ch) (s : Stage) (set : CoefSet)
  /-- `stageInstall(c, s, set, b)` of TICK (41_filter_chain R194). -/
  | stage (c : Ch) (s : Stage) (set : CoefSet) (b : Bool)
  /-- `flagInstall(c, P)` of TICK (41_filter_chain R195). -/
  | flags (c : Ch) (p : PosFlags)
  /-- The flag write of SET_BYPASS (41_filter_chain R215). -/
  | bypass (c : Ch) (tgt : BitVec 4) (val : Bool)
  deriving DecidableEq, Repr

/-- A CTRL command in progress: its opcode and the install steps still to run (20_memory R111). -/
structure CtrlOp where
  opcode : BitVec 8
  todo : List Install
  deriving DecidableEq, Repr

/-- What AUDIO does next: read a header; run `left` more frame steps of a block whose `nchBlk` is 2 exactly
when `stereo` (41_filter_chain R200); or consume the `left` words of a refused block (R207). -/
inductive AudioOp where
  | header
  | frames (left : Nat) (stereo : Bool)
  | drain (left : Nat)
  deriving DecidableEq, Repr

/-- A CTRL transaction as the host issues it: a descriptor and the data of a write (30_encoding R132). -/
structure Transaction where
  desc : Word
  data : Word
  deriving DecidableEq, Repr

/-- The host's timing (20_memory R110, 70_reset R360). -/
inductive Turn where
  | ctrl
  | audio
  | reset
  deriving DecidableEq, Repr

/-- The two ports as the host sees them, and its timing (log 2, log 3). -/
structure HostSide where
  /-- Transactions not yet performed, oldest first. -/
  ctrlIn : List Transaction
  /-- Words that CTRL reads returned, oldest first. -/
  ctrlOut : List Word
  /-- Stream words not yet taken, oldest first. -/
  audioIn : List Word
  /-- Stream words emitted, oldest first. -/
  audioOut : List Word
  /-- Who moves next, then next, … -/
  schedule : List Turn
  /-- The number of free values drawn so far. -/
  draws : Nat
  deriving DecidableEq, Repr

/-- Nothing issued, nothing returned. -/
def HostSide.empty : HostSide := ⟨[], [], [], [], [], 0⟩

/-- The whole state. -/
structure State where
  /-- The build parameters (00_scope R8); no step changes them. -/
  build : Build
  /-- CONFIG (10_state R38). -/
  config : Word
  /-- FAULT (10_state R39). -/
  fault : Word
  /-- FAULT_INFO (10_state R39). -/
  faultInfo : Word
  /-- CMD_RESULT (10_state R40). -/
  cmdResult : Word
  /-- SAMPLE_RATE (10_state R41). -/
  sampleRate : Word
  /-- MAX_BLOCK (10_state R42). -/
  maxBlock : Word
  /-- SR_ACTIVE (10_state R43). -/
  srActive : Word
  /-- MAXBLK_ACTIVE (10_state R43). -/
  maxblkActive : Word
  /-- The parameter registers (10_state R44). -/
  params : Params
  /-- BOUNDS_X, _Y, _W, _H (10_state R55). -/
  bounds : Bounds
  /-- FLOOR_DB (10_state R56). -/
  floorDb : Word
  /-- RESP_POINTS (10_state R57). -/
  respPoints : Word
  /-- CSTG (10_state R58). -/
  cstg : Vector CoefSet 4
  /-- Channel 0's chain (10_state R70 to R73). -/
  ch0 : Channel
  /-- Channel 1's chain. -/
  ch1 : Channel
  /-- `prepared` (10_state R74). -/
  prepared : Bool
  /-- `dirty` (10_state R74). -/
  dirty : Bool
  /-- `stereoActive` (10_state R74). -/
  stereoActive : Bool
  /-- The analysis state (10_state R75 to R79). -/
  an : Analysis
  /-- The response storage (10_state R80). -/
  curve : Curve
  /-- The CTRL command in progress, if any (20_memory R111). -/
  ctrlOp : Option CtrlOp
  /-- The PROCESS_BLOCK in progress, if any (41_filter_chain R191, R207). -/
  audioOp : AudioOp
  /-- The host's side of the ports. -/
  host : HostSide
  deriving DecidableEq, Repr

/-- The state after reset of a build, with the host's side given (70_reset R360, R361). -/
def State.resetOf (b : Build) (h : HostSide) : State where
  build := b
  config := 0x00000001#32
  fault := 0#32
  faultInfo := 0#32
  cmdResult := 0#32
  sampleRate := 0x473B8000#32
  maxBlock := 0x00000200#32
  srActive := 0#32
  maxblkActive := 0#32
  params := .reset
  bounds := ⟨0#32, 0#32, 0#32, 0#32⟩
  floorDb := 0xC2400000#32
  respPoints := 0x00000200#32
  cstg := #v[.id5, .id5, .id5, .id5]
  ch0 := .reset
  ch1 := .reset
  prepared := false
  dirty := true
  stereoActive := false
  an := .reset
  curve := ⟨[], [], 0, false⟩
  ctrlOp := none
  audioOp := .header
  host := h

/-- The reference build right after reset (00_scope R8, 70_reset R361). -/
def State.reset : State := State.resetOf .reference .empty

end Sys2Proof.Machine
end

