-- ==== Sys2Proof/Machine/Flags.lean ====
section
/-! DEFINITION. Flags and the words made of flags: STATUS, FAULT, CMD_RESULT, CHAIN_FLAGS, SETTINGS and
BUILD fields (10_state R37 to R40, R50, R59, R60), and the predicate `active` (41_filter_chain R192). -/

namespace Sys2Proof.Machine

/-- Fault causes (60_exceptions R332). -/
inductive Cause where
  | badAccess
  | badCmd
  | badParam
  | notPrepared
  | blockTooLong
  | badGeometry
  | designDomain
  | badStream
  deriving DecidableEq, Repr

/-- The cause code (60_exceptions R332). -/
def Cause.code : Cause → BitVec 8
  | .badAccess => 1#8
  | .badCmd => 2#8
  | .badParam => 3#8
  | .notPrepared => 4#8
  | .blockTooLong => 5#8
  | .badGeometry => 6#8
  | .designDomain => 7#8
  | .badStream => 8#8

/-- The FAULT word of a cause: FAULTED in bit 31, the code in bits 7:0 (10_state R39). -/
def Cause.word (c : Cause) : Word := 1#1 ++ 0#23 ++ c.code

/-- FAULT.FAULTED (10_state R39). -/
def State.faulted (s : State) : Bool := s.fault.getLsbD 31

/-- The CMD_RESULT word: OPCODE in bits 15:8, FFT_DROPPED, FFT_PRODUCED, OK in bits 2:0 (10_state R40). -/
def resultWord (op : BitVec 8) (ok produced dropped : Bool) : Word :=
  0#16 ++ op ++ 0#5 ++ BitVec.ofBool dropped ++ BitVec.ofBool produced ++ BitVec.ofBool ok

/-- The STATUS view (10_state R37). -/
def State.status (s : State) : Word :=
  0#26 ++ BitVec.ofBool s.curve.valid ++ BitVec.ofBool s.an.pathValid ++ BitVec.ofBool s.an.fftOutValid ++
    BitVec.ofBool s.stereoActive ++ BitVec.ofBool s.dirty ++ BitVec.ofBool s.prepared

/-- The CHAIN_FLAGS view of a chain (10_state R59). -/
def Channel.flagsWord (k : Channel) : Word :=
  0#20 ++
    BitVec.ofBool k.hcByp[3] ++ BitVec.ofBool k.hcByp[2] ++ BitVec.ofBool k.hcByp[1] ++
    BitVec.ofBool k.hcByp[0] ++
    BitVec.ofBool k.lcByp[3] ++ BitVec.ofBool k.lcByp[2] ++ BitVec.ofBool k.lcByp[1] ++
    BitVec.ofBool k.lcByp[0] ++
    0#1 ++ BitVec.ofBool k.pbyp[2] ++ BitVec.ofBool k.pbyp[1] ++ BitVec.ofBool k.pbyp[0]

/-- The BUILD0 view (10_state R60). -/
def build0Word (b : Build) : Word :=
  BitVec.ofNat 8 b.pathStride ++ BitVec.ofNat 8 b.fftqCap ++ BitVec.ofNat 8 b.fifoCap ++ 0#3 ++
    BitVec.ofNat 5 b.fftOrder

/-- The BUILD1 view (10_state R60). -/
def build1Word (b : Build) : Word := BitVec.ofNat 16 b.respMax ++ BitVec.ofNat 16 b.fifoBlock

/-- SETTINGS.LC_SLOPE (10_state R50). -/
def Params.lcSlope (p : Params) : Nat := (p.settings.extractLsb' 0 2).toNat

/-- SETTINGS.HC_SLOPE (10_state R50). -/
def Params.hcSlope (p : Params) : Nat := (p.settings.extractLsb' 2 2).toNat

/-- SETTINGS.LC_BYP (10_state R50). -/
def Params.lcByp (p : Params) : Bool := p.settings.getLsbD 4

/-- SETTINGS.PK_BYP (10_state R50). -/
def Params.pkByp (p : Params) : Bool := p.settings.getLsbD 5

/-- SETTINGS.HC_BYP (10_state R50). -/
def Params.hcByp (p : Params) : Bool := p.settings.getLsbD 6

/-- SETTINGS.AN_BYP (10_state R50). -/
def Params.anByp (p : Params) : Bool := p.settings.getLsbD 7

/-- CONFIG.STEREO (10_state R38). -/
def State.stereoBit (s : State) : Bool := s.config.getLsbD 0

/-- Words per frame: `nchBlk` (10_state R74, 30_encoding R136). -/
def frameWords (stereo : Bool) : Nat := if stereo then 2 else 1

/-- The position of a stage (41_filter_chain R192). -/
def pos (s : Stage) : Fin 3 := if s.val < 4 then 0 else if s.val = 4 then 1 else 2

/-- `sbyp[c][s]`; the peak stage has no such flag and reads as not bypassed (10_state R73). -/
def Channel.sbyp (k : Channel) (s : Stage) : Bool :=
  match s with
  | 0 => k.lcByp[0]
  | 1 => k.lcByp[1]
  | 2 => k.lcByp[2]
  | 3 => k.lcByp[3]
  | 4 => false
  | 5 => k.hcByp[0]
  | 6 => k.hcByp[1]
  | 7 => k.hcByp[2]
  | 8 => k.hcByp[3]

/-- `active(c, s)` (41_filter_chain R192). -/
def Channel.active (k : Channel) (s : Stage) : Bool := !k.pbyp[pos s] && !k.sbyp s

end Sys2Proof.Machine
end

