-- ==== Sys2Proof/Machine/Operands.lean ====
section
/-! DEFINITION. The named registers and window entries that operands are (10_state R33), and the address map. -/

namespace Sys2Proof.Machine

/-- The plain registers of the map, by name (10_state R33). -/
inductive Reg where
  | id
  | version
  | config
  | status
  | fault
  | faultInfo
  | cmd
  | cmdResult
  | sampleRate
  | maxBlock
  | srActive
  | maxblkActive
  | lowcutFreq
  | highcutFreq
  | peakFreq
  | peakGainDb
  | peakQ
  | settings
  | fifoCount
  | fillCount
  | rbCount
  | fftqCount
  | pathSeq
  | pathLen
  | respLen
  | boundsX
  | boundsY
  | boundsW
  | boundsH
  | floorDb
  | respPoints
  | build0
  | build1
  | chainFlags0
  | chainFlags1
  deriving DecidableEq, Repr

/-- What a mapped address names: a register, a staging entry (10_state R58), or an entry of a read-only
window (R61 to R67). The entries of the windows of pairs count words: `2 p` is x, `2 p + 1` is y. -/
inductive Loc where
  | reg (r : Reg)
  | cstg (j : Fin 4) (i : Fin 5)
  | coef (c : Ch) (s : Stage) (i : Fin 5)
  | delay (c : Ch) (s : Stage) (i : Fin 2)
  | fftOut (k : Nat)
  | path (w : Nat)
  | respDb (i : Nat)
  | respPath (w : Nat)
  | rb (n : Nat)
  deriving DecidableEq, Repr

/-- Access kinds (10_state R32). -/
inductive Access where
  | rw
  | ro
  | cmd
  deriving DecidableEq, Repr

/-- The byte offset of a register (10_state R33). -/
def Reg.offset : Reg → Nat
  | .id => 0x000
  | .version => 0x004
  | .config => 0x008
  | .status => 0x00C
  | .fault => 0x010
  | .faultInfo => 0x014
  | .cmd => 0x018
  | .cmdResult => 0x01C
  | .sampleRate => 0x020
  | .maxBlock => 0x024
  | .srActive => 0x028
  | .maxblkActive => 0x02C
  | .lowcutFreq => 0x040
  | .highcutFreq => 0x044
  | .peakFreq => 0x048
  | .peakGainDb => 0x04C
  | .peakQ => 0x050
  | .settings => 0x054
  | .fifoCount => 0x060
  | .fillCount => 0x064
  | .rbCount => 0x068
  | .fftqCount => 0x06C
  | .pathSeq => 0x070
  | .pathLen => 0x074
  | .respLen => 0x078
  | .boundsX => 0x080
  | .boundsY => 0x084
  | .boundsW => 0x088
  | .boundsH => 0x08C
  | .floorDb => 0x090
  | .respPoints => 0x094
  | .build0 => 0x098
  | .build1 => 0x09C
  | .chainFlags0 => 0x0F0
  | .chainFlags1 => 0x0F4

/-- Every register of the map (10_state R33). -/
def regs : List Reg :=
  [.id, .version, .config, .status, .fault, .faultInfo, .cmd, .cmdResult, .sampleRate,
   .maxBlock, .srActive, .maxblkActive, .lowcutFreq, .highcutFreq, .peakFreq, .peakGainDb,
   .peakQ, .settings, .fifoCount, .fillCount, .rbCount, .fftqCount, .pathSeq, .pathLen,
   .respLen, .boundsX, .boundsY, .boundsW, .boundsH, .floorDb, .respPoints, .build0,
   .build1, .chainFlags0, .chainFlags1]

/-- The register rows of the map (10_state R33). -/
def regMap : List (Nat × Reg) := regs.map fun r => (r.offset, r)

/-- The byte address of a register. -/
def Reg.addr (r : Reg) : Addr := BitVec.ofNat 20 r.offset

/-- The byte address of CSTG[j][i] (10_state R58). -/
def cstgAddr (j : Fin 4) (i : Fin 5) : Addr := BitVec.ofNat 20 (0x0A0 + 20 * j.val + 4 * i.val)

/-- The number of a channel (00_scope R15). -/
def Ch.num : Ch → Nat
  | .c0 => 0
  | .c1 => 1

/-- The byte address of an entry of the COEF window (10_state R61). -/
def coefAddr (c : Ch) (s : Stage) (i : Fin 5) : Addr :=
  BitVec.ofNat 20 (0x1000 + 4 * ((9 * c.num + s.val) * 5 + i.val))

/-- The byte address of an entry of the STATE window (10_state R62). -/
def delayAddr (c : Ch) (s : Stage) (i : Fin 2) : Addr :=
  BitVec.ofNat 20 (0x1400 + 4 * ((9 * c.num + s.val) * 2 + i.val))

/-- The byte address of word `w` of a window based at `base` (10_state R63 to R67). -/
def windowAddr (base w : Nat) : Addr := BitVec.ofNat 20 (base + 4 * w)

/-- Channel number of an index (00_scope R15). -/
def chOf (n : Nat) : Ch := if n = 0 then .c0 else .c1

/-- What the aligned byte address `a` names; `none` where it is unmapped (10_state R33, R34, R58, R61 to
R67, 20_memory R104). The lengths of FFT_OUT, PATH and RB depend on N, those of RESP_* on RESP_MAX. -/
def locate (b : Build) (a : Nat) : Option Loc :=
  if 0x0A0 ≤ a ∧ a < 0x0F0 then
    let w := (a - 0x0A0) / 4
    some (.cstg (Fin.ofNat 4 (w / 5)) (Fin.ofNat 5 w))
  else if a < 0x1000 then (regMap.lookup a).map .reg
  else if a < 0x1168 then
    let w := (a - 0x1000) / 4
    some (.coef (chOf (w / 45)) (Fin.ofNat 9 (w / 5)) (Fin.ofNat 5 w))
  else if a < 0x1400 then none
  else if a < 0x1490 then
    let w := (a - 0x1400) / 4
    some (.delay (chOf (w / 18)) (Fin.ofNat 9 (w / 2)) (Fin.ofNat 2 w))
  else if a < 0x10000 then none
  else if a < 0x20000 then
    let w := (a - 0x10000) / 4
    if w < b.bins then some (.fftOut w) else none
  else if a < 0x30000 then
    let w := (a - 0x20000) / 4
    if w < 2 * b.bins then some (.path w) else none
  else if a < 0x40000 then
    let w := (a - 0x30000) / 4
    if w < b.respMax then some (.respDb w) else none
  else if a < 0x50000 then
    let w := (a - 0x40000) / 4
    if w < 2 * b.respMax then some (.respPath w) else none
  else
    let w := (a - 0x50000) / 4
    if w < b.fftSize then some (.rb w) else none

/-- The access kind of a register (10_state R33). -/
def Reg.access : Reg → Access
  | .id => .ro
  | .version => .ro
  | .config => .rw
  | .status => .ro
  | .fault => .ro
  | .faultInfo => .ro
  | .cmd => .cmd
  | .cmdResult => .ro
  | .sampleRate => .rw
  | .maxBlock => .rw
  | .srActive => .ro
  | .maxblkActive => .ro
  | .lowcutFreq => .rw
  | .highcutFreq => .rw
  | .peakFreq => .rw
  | .peakGainDb => .rw
  | .peakQ => .rw
  | .settings => .rw
  | .fifoCount => .ro
  | .fillCount => .ro
  | .rbCount => .ro
  | .fftqCount => .ro
  | .pathSeq => .ro
  | .pathLen => .ro
  | .respLen => .ro
  | .boundsX => .rw
  | .boundsY => .rw
  | .boundsW => .rw
  | .boundsH => .rw
  | .floorDb => .rw
  | .respPoints => .rw
  | .build0 => .ro
  | .build1 => .ro
  | .chainFlags0 => .ro
  | .chainFlags1 => .ro

/-- The access kind of a mapped address: the windows are read-only, the staging entries are not
(10_state R33). -/
def Loc.access : Loc → Access
  | .reg r => r.access
  | .cstg _ _ => .rw
  | .coef _ _ _ => .ro
  | .delay _ _ _ => .ro
  | .fftOut _ => .ro
  | .path _ => .ro
  | .respDb _ => .ro
  | .respPath _ => .ro
  | .rb _ => .ro

/-- Coefficient `i` of a set: 0 b0, 1 b1, 2 b2, 3 a1, 4 a2 (10_state R58). -/
def CoefSet.get (k : CoefSet) (i : Fin 5) : Word :=
  match i with
  | 0 => k.b0
  | 1 => k.b1
  | 2 => k.b2
  | 3 => k.a1
  | 4 => k.a2

/-- The set with coefficient `i` replaced (10_state R58). -/
def CoefSet.put (k : CoefSet) (i : Fin 5) (v : Word) : CoefSet :=
  match i with
  | 0 => { k with b0 := v }
  | 1 => { k with b1 := v }
  | 2 => { k with b2 := v }
  | 3 => { k with a1 := v }
  | 4 => { k with a2 := v }

/-- Delay value `i` of a stage: 0 s1, 1 s2 (10_state R62). -/
def Delay.get (d : Delay) (i : Fin 2) : Word :=
  match i with
  | 0 => d.s1
  | 1 => d.s2

end Sys2Proof.Machine
end

