-- ==== Sys2Proof/Machine/Ops.lean ====
section
/-! DEFINITION. The named operations over storage, chains and registers, and raising a fault. -/

namespace Sys2Proof.Machine

/-! Storage (log 16). -/

/-- The word at an index; 0 where nothing is listed. -/
def Memory.read : Memory → Nat → Word
  | [], _ => 0#32
  | (j, v) :: m, i => if i = j then v else Memory.read m i

/-- The listed entries of the words `ws` stored from index `base` up: those that are not 0. -/
def Memory.entries : Nat → List Word → Memory
  | _, [] => []
  | base, v :: ws =>
    if v = 0#32 then Memory.entries (base + 1) ws else (base, v) :: Memory.entries (base + 1) ws

/-- The words `ws` stored at the indices from `base` up; every other index keeps its word. -/
def Memory.load (m : Memory) (base : Nat) (ws : List Word) : Memory :=
  m.filter (fun e => decide (e.1 < base)) ++
    (Memory.entries base ws ++ m.filter (fun e => decide (base + ws.length ≤ e.1)))

/-- One word stored. -/
def Memory.write (m : Memory) (i : Nat) (v : Word) : Memory := m.load i [v]

/-- The `n` words from index `base` up. -/
def Memory.slice (m : Memory) (base n : Nat) : List Word := (List.range n).map fun j => m.read (base + j)

/-- Every word moved down by `k` indices; the first `k` words are gone. -/
def Memory.shiftDown (m : Memory) (k : Nat) : Memory :=
  m.filterMap fun e => if k ≤ e.1 then some (e.1 - k, e.2) else none

/-- The canonical form: indices strictly rising from `lo` up, no word 0. -/
def Memory.wfFrom : Nat → Memory → Bool
  | _, [] => true
  | lo, (i, v) :: m => decide (lo ≤ i) && v != 0#32 && Memory.wfFrom (i + 1) m

/-- The canonical form (log 16). -/
def Memory.wf (m : Memory) : Bool := Memory.wfFrom 0 m

/-- Only indices below `n` are listed. -/
def Memory.within (m : Memory) (n : Nat) : Bool := m.all fun e => decide (e.1 < n)

/-! Chains. -/

/-- The chain of a channel. -/
def State.chan (s : State) : Ch → Channel
  | .c0 => s.ch0
  | .c1 => s.ch1

/-- The state with the chain of a channel replaced. -/
def State.setChan (s : State) (c : Ch) (k : Channel) : State :=
  match c with
  | .c0 => { s with ch0 := k }
  | .c1 => { s with ch1 := k }

/-- The chain with `sbyp[s]` written; the peak stage has no flag (10_state R73). -/
def Channel.setSbyp (k : Channel) (s : Stage) (v : Bool) : Channel :=
  match s with
  | 0 => { k with lcByp := k.lcByp.set 0 v }
  | 1 => { k with lcByp := k.lcByp.set 1 v }
  | 2 => { k with lcByp := k.lcByp.set 2 v }
  | 3 => { k with lcByp := k.lcByp.set 3 v }
  | 4 => k
  | 5 => { k with hcByp := k.hcByp.set 0 v }
  | 6 => { k with hcByp := k.hcByp.set 1 v }
  | 7 => { k with hcByp := k.hcByp.set 2 v }
  | 8 => { k with hcByp := k.hcByp.set 3 v }

/-- The chain with a coefficient set replaced wholesale (41_filter_chain R193). -/
def Channel.setCoef (k : Channel) (s : Stage) (set : CoefSet) : Channel :=
  { k with coef := k.coef.set s set }

/-- The chain with the delays of a stage replaced. -/
def Channel.setDelay (k : Channel) (s : Stage) (d : Delay) : Channel := { k with st := k.st.set s d }

/-- The chain with the flag that TGT names written (30_encoding R139). TGT 11..15 name none. -/
def Channel.setTarget (k : Channel) (tgt : BitVec 4) (v : Bool) : Channel :=
  match tgt.toNat with
  | 0 => { k with pbyp := k.pbyp.set 0 v }
  | 1 => { k with pbyp := k.pbyp.set 1 v }
  | 2 => { k with pbyp := k.pbyp.set 2 v }
  | 3 => k.setSbyp 0 v
  | 4 => k.setSbyp 1 v
  | 5 => k.setSbyp 2 v
  | 6 => k.setSbyp 3 v
  | 7 => k.setSbyp 5 v
  | 8 => k.setSbyp 6 v
  | 9 => k.setSbyp 7 v
  | 10 => k.setSbyp 8 v
  | _ => k

/-! Faults and results. -/

/-- `raise Fault(cause, info)`: the first fault since reset is recorded, and the operation ends with no
other effect (60_exceptions R331). There is no handler and no return from one (R342). -/
def State.raise (s : State) (c : Cause) (info : Word) : State :=
  { s with
    fault := if s.faulted then s.fault else c.word
    faultInfo := if s.faulted then s.faultInfo else info }

/-- `result(ok, bits)` of the command with opcode `op` (10_state R40). -/
def State.result (s : State) (op : BitVec 8) (ok : Bool) (produced dropped : Bool := false) : State :=
  { s with cmdResult := resultWord op ok produced dropped }

/-- A CTRL read returns `w`. -/
def State.answer (s : State) (w : Word) : State :=
  { s with host := { s.host with ctrlOut := s.host.ctrlOut ++ [w] } }

/-- AUDIO emits the words `ws`, in order. -/
def State.emit (s : State) (ws : List Word) : State :=
  { s with host := { s.host with audioOut := s.host.audioOut ++ ws } }

/-- The analysis state replaced. -/
def State.setAn (s : State) (a : Analysis) : State := { s with an := a }

/-- The CTRL command in progress replaced. -/
def State.setCtrlOp (s : State) (o : Option CtrlOp) : State := { s with ctrlOp := o }

/-- What AUDIO does next replaced. -/
def State.setAudioOp (s : State) (o : AudioOp) : State := { s with audioOp := o }

/-- The host's side replaced. -/
def State.setHost (s : State) (h : HostSide) : State := { s with host := h }

/-! Reading a mapped address (20_memory R105). -/

/-- The value of a plain register (10_state R36 to R60). -/
def State.readReg (s : State) : Reg → Word
  | .id => 0x33424551#32
  | .version => 0x00000007#32
  | .config => s.config
  | .status => s.status
  | .fault => s.fault
  | .faultInfo => s.faultInfo
  | .cmd => 0#32
  | .cmdResult => s.cmdResult
  | .sampleRate => s.sampleRate
  | .maxBlock => s.maxBlock
  | .srActive => s.srActive
  | .maxblkActive => s.maxblkActive
  | .lowcutFreq => s.params.lowcutFreq
  | .highcutFreq => s.params.highcutFreq
  | .peakFreq => s.params.peakFreq
  | .peakGainDb => s.params.peakGainDb
  | .peakQ => s.params.peakQ
  | .settings => s.params.settings
  | .fifoCount => BitVec.ofNat 32 s.an.fifoCount
  | .fillCount => BitVec.ofNat 32 s.an.fillCount
  | .rbCount => BitVec.ofNat 32 s.an.rbCount
  | .fftqCount => BitVec.ofNat 32 s.an.fqCount
  | .pathSeq => s.an.pathSeq
  | .pathLen => BitVec.ofNat 32 s.an.pathLen
  | .respLen => BitVec.ofNat 32 s.curve.len
  | .boundsX => s.bounds.x
  | .boundsY => s.bounds.y
  | .boundsW => s.bounds.w
  | .boundsH => s.bounds.h
  | .floorDb => s.floorDb
  | .respPoints => s.respPoints
  | .build0 => build0Word s.build
  | .build1 => build1Word s.build
  | .chainFlags0 => s.ch0.flagsWord
  | .chainFlags1 => s.ch1.flagsWord

/-- The value of a mapped address (10_state R58, R61 to R67). A path point at PATH_LEN or above and a
response point at RESP_LEN or above read 0.0 (R64 to R66). -/
def State.readLoc (s : State) : Loc → Word
  | .reg r => s.readReg r
  | .cstg j i => s.cstg[j].get i
  | .coef c t i => (s.chan c).coef[t].get i
  | .delay c t i => (s.chan c).st[t].get i
  | .fftOut k => s.an.fftOut.read k
  | .path w => if w < 2 * s.an.pathLen then s.an.path.read w else 0#32
  | .respDb i => if i < s.curve.len then s.curve.db.read i else 0#32
  | .respPath w => if w < 2 * s.curve.len then s.curve.pt.read w else 0#32
  | .rb n => s.an.rb.read n

/-- What an aligned address names in this build; `none` where the address is misaligned or unmapped
(20_memory R103, R104). -/
def State.mapped (s : State) (a : Addr) : Option Loc :=
  if a.toNat % 4 = 0 then locate s.build a.toNat else none

/-- The word a read of `a` returns: 0 where the access faults (20_memory R105). -/
def State.peek (s : State) (a : Addr) : Word :=
  match s.mapped a with
  | none => 0#32
  | some l => s.readLoc l

end Sys2Proof.Machine
end

