-- ==== Sys2Proof/Machine/Design.lean ====
section
/-! DEFINITION. The coefficient factory (40_coefficient_factory): the design functions, the full design, and
DESIGN_PEAK, DESIGN_LOWCUT, DESIGN_HIGHCUT. Formulas are evaluated operation by operation in DESIGN_FMT, in
the order written, products and quotients from left to right (00_scope R13, log 9). -/

namespace Sys2Proof.Machine

/-- The outcome of an operation. -/
abbrev Result := Host.Outcome State Fault Refusal

/-- `f < fs/2`, compared in DESIGN_FMT (40_coefficient_factory R160). -/
def belowHalf (b : Build) (fs f : Word) : Bool :=
  Fl.lt (Fl.ofWord f) (b.design.div (Fl.ofWord fs) (Fl.nat 2))

/-- `gain(gdb)` (40_coefficient_factory R161). -/
def gain (b : Build) (gdb : Word) : Fl := b.fn .exp10 (b.design.div (Fl.ofWord gdb) (Fl.nat 20))

/-- `peakDesign(fs, f, Q, gdb)` (40_coefficient_factory R162). -/
def peakDesign (b : Build) (fs f q gdb : Word) : CoefSet :=
  let ar := b.design
  let one := Fl.nat 1
  let two := Fl.nat 2
  let g := gain b gdb
  let amp := b.fn .sqrt g
  let w := ar.div (ar.mul (ar.mul two b.pi) (Fl.ofWord f)) (Fl.ofWord fs)
  let alpha := ar.div (b.fn .sin w) (ar.mul two (Fl.ofWord q))
  let c := ar.mul two.neg (b.fn .cos w)
  let b0 := ar.add one (ar.mul alpha amp)
  let b2 := ar.sub one (ar.mul alpha amp)
  let a0 := ar.add one (ar.div alpha amp)
  let a2 := ar.sub one (ar.div alpha amp)
  let inv := ar.div one a0
  let out := fun (i : Nat) (x : Fl) => (ar.mul x inv).toWord [16#32, fs, f, q, gdb, BitVec.ofNat 32 i]
  ⟨out 0 b0, out 1 c, out 2 b2, out 3 c, out 4 a2⟩

/-- The Butterworth quality factor `Q_i` of slope index `k` (40_coefficient_factory R163). -/
def butterworthQ (b : Build) (k i : Nat) : Fl :=
  let ar := b.design
  let angle := ar.div (ar.mul (Fl.nat (2 * i + 1)) b.pi) (Fl.nat (2 * (2 * (k + 1))))
  ar.div (Fl.nat 1) (ar.mul (Fl.nat 2) (b.fn .cos angle))

/-- `tan(pi * f / fs)` (40_coefficient_factory R164, R165). -/
def prewarp (b : Build) (fs f : Word) : Fl :=
  let ar := b.design
  b.fn .tan (ar.div (ar.mul b.pi (Fl.ofWord f)) (Fl.ofWord fs))

/-- `hpSection(fs, f, Q_i)` for slope index `k` (40_coefficient_factory R164). -/
def hpSection (b : Build) (fs f : Word) (k i : Nat) : CoefSet :=
  let ar := b.design
  let one := Fl.nat 1
  let two := Fl.nat 2
  let n := prewarp b fs f
  let n2 := ar.mul n n
  let iq := ar.div one (butterworthQ b k i)
  let c1 := ar.div one (ar.add (ar.add one (ar.mul iq n)) n2)
  let out := fun (j : Nat) (x : Fl) =>
    x.toWord [17#32, fs, f, BitVec.ofNat 32 k, BitVec.ofNat 32 i, BitVec.ofNat 32 j]
  ⟨out 0 c1, out 1 (ar.mul two.neg c1), out 0 c1, out 3 (ar.mul (ar.mul two c1) (ar.sub n2 one)),
    out 4 (ar.mul c1 (ar.add (ar.sub one (ar.mul iq n)) n2))⟩

/-- `lpSection(fs, f, Q_i)` for slope index `k` (40_coefficient_factory R165). DESIGN CHOICE (log 23): where
`rnd32(2 * c1)` underflows, at very small `f / fs`, `b1` is zero as R165 computes it, though R171 says that
every section has `b1 != 0`. -/
def lpSection (b : Build) (fs f : Word) (k i : Nat) : CoefSet :=
  let ar := b.design
  let one := Fl.nat 1
  let two := Fl.nat 2
  let n := ar.div one (prewarp b fs f)
  let n2 := ar.mul n n
  let iq := ar.div one (butterworthQ b k i)
  let c1 := ar.div one (ar.add (ar.add one (ar.mul iq n)) n2)
  let out := fun (j : Nat) (x : Fl) =>
    x.toWord [18#32, fs, f, BitVec.ofNat 32 k, BitVec.ofNat 32 i, BitVec.ofNat 32 j]
  ⟨out 0 c1, out 1 (ar.mul two c1), out 0 c1, out 3 (ar.mul (ar.mul two c1) (ar.sub one n2)),
    out 4 (ar.mul c1 (ar.add (ar.sub one (ar.mul iq n)) n2))⟩

/-- One section of the low-cut cascade of slope index `k`: identity beyond the order
(40_coefficient_factory R166). -/
def hpSet (b : Build) (fs f : Word) (k i : Nat) : CoefSet := if i ≤ k then hpSection b fs f k i else .id5

/-- One section of the high-cut cascade of slope index `k` (40_coefficient_factory R166). -/
def lpSet (b : Build) (fs f : Word) (k i : Nat) : CoefSet := if i ≤ k then lpSection b fs f k i else .id5

/-- `cutCascade(HP, fs, f, k)` (40_coefficient_factory R166). -/
def hpCascade (b : Build) (fs f : Word) (k : Nat) : Vector CoefSet 4 :=
  #v[hpSet b fs f k 0, hpSet b fs f k 1, hpSet b fs f k 2, hpSet b fs f k 3]

/-- `cutCascade(LP, fs, f, k)` (40_coefficient_factory R166). -/
def lpCascade (b : Build) (fs f : Word) (k : Nat) : Vector CoefSet 4 :=
  #v[lpSet b fs f k 0, lpSet b fs f k 1, lpSet b fs f k 2, lpSet b fs f k 3]

/-- What the full design returns: nine sets and the new flags (40_coefficient_factory R170). -/
structure FullDesign where
  coef : Vector CoefSet 9
  pbyp : PosFlags
  lcByp : Vector Bool 4
  hcByp : Vector Bool 4
  deriving DecidableEq, Repr

/-- The stage bypass flags a slope index implies: set beyond it (40_coefficient_factory R170). -/
def slopeFlags (k : Nat) : Vector Bool 4 :=
  #v[decide (k < 0), decide (k < 1), decide (k < 2), decide (k < 3)]

/-- The nine sets and the flags of a snapshot, its frequencies being in range (40_coefficient_factory R170). -/
def designOf (b : Build) (p : Params) (fs : Word) : FullDesign where
  coef := #v[
    hpSet b fs p.lowcutFreq p.lcSlope 0, hpSet b fs p.lowcutFreq p.lcSlope 1,
    hpSet b fs p.lowcutFreq p.lcSlope 2, hpSet b fs p.lowcutFreq p.lcSlope 3,
    peakDesign b fs p.peakFreq p.peakQ p.peakGainDb,
    lpSet b fs p.highcutFreq p.hcSlope 0, lpSet b fs p.highcutFreq p.hcSlope 1,
    lpSet b fs p.highcutFreq p.hcSlope 2, lpSet b fs p.highcutFreq p.hcSlope 3]
  pbyp := #v[p.lcByp, p.pkByp, p.hcByp]
  lcByp := slopeFlags p.lcSlope
  hcByp := slopeFlags p.hcSlope

/-- The address of the first frequency register at or above `fs/2`, in the order LOWCUT, PEAK, HIGHCUT; `none`
where every frequency is below it (40_coefficient_factory R160, R170). -/
def domainFault (b : Build) (p : Params) (fs : Word) : Option Word :=
  if !belowHalf b fs p.lowcutFreq then some 0x040#32
  else if !belowHalf b fs p.peakFreq then some 0x048#32
  else if !belowHalf b fs p.highcutFreq then some 0x044#32
  else none

/-- `fullDesign(S, fs)`, or the address DESIGN_DOMAIN reports (40_coefficient_factory R170). -/
def fullDesign (b : Build) (p : Params) (fs : Word) : Except Word FullDesign :=
  match domainFault b p fs with
  | some a => .error a
  | none => .ok (designOf b p fs)

/-- DESIGN_PEAK (40_coefficient_factory R167). -/
def execDesignPeak (s : State) : Result :=
  if !s.prepared then .next (s.raise .notPrepared 0x00000003#32)
  else if !belowHalf s.build s.srActive s.params.peakFreq then .next (s.raise .designDomain 0x048#32)
  else
    let set := peakDesign s.build s.srActive s.params.peakFreq s.params.peakQ s.params.peakGainDb
    .next ({ s with cstg := s.cstg.set 0 set }.result 0x03#8 true)

/-- DESIGN_LOWCUT (40_coefficient_factory R168). -/
def execDesignLowcut (s : State) : Result :=
  if !s.prepared then .next (s.raise .notPrepared 0x00000004#32)
  else if !belowHalf s.build s.srActive s.params.lowcutFreq then .next (s.raise .designDomain 0x040#32)
  else
    let sets := hpCascade s.build s.srActive s.params.lowcutFreq s.params.lcSlope
    .next ({ s with cstg := sets }.result 0x04#8 true)

/-- DESIGN_HIGHCUT (40_coefficient_factory R169). -/
def execDesignHighcut (s : State) : Result :=
  if !s.prepared then .next (s.raise .notPrepared 0x00000005#32)
  else if !belowHalf s.build s.srActive s.params.highcutFreq then .next (s.raise .designDomain 0x044#32)
  else
    let sets := lpCascade s.build s.srActive s.params.highcutFreq s.params.hcSlope
    .next ({ s with cstg := sets }.result 0x05#8 true)

end Sys2Proof.Machine
end

