-- ==== Sys2Proof/Machine/Fft.lean ====
section
/-! DEFINITION. The FFTDataBlock (43_fifo_fft R280 to R283): window, transform and decibels. The reference
FFT_IMPL evaluates the transform exactly, in fixed point, rounds each component once to binary64, and forms
the decibels in binary64 (log 12). -/

namespace Sys2Proof.Machine

/-- The precision of the window and of the twiddle factors. -/
def fftPrec : Nat := 256

/-- `(cos, sin)` of `2 pi num / den`, in fixed point. -/
def turn (num den : Nat) : Int × Int :=
  let sc := sinCosFix fftPrec (2 * piFix fftPrec * (num : Int) / (den : Int))
  (sc.2, sc.1)

/-- `100000 w0[n]` of the 4-term Blackman-Harris window, in fixed point (43_fifo_fft R281). -/
def blackmanHarris (size n : Nat) : Int :=
  let c := fun (j : Nat) => (turn (j * n % (size - 1)) (size - 1)).1
  35875 * ((2 ^ fftPrec : Nat) : Int) - 48829 * c 1 + 14128 * c 2 - 1168 * c 3

/-- A finite binary32 word as a multiple of `2^-149`; 0 for a NaN or an infinity. -/
def wordFix (w : Word) : Int :=
  match Fl.ofWord w with
  | .nan => 0
  | .inf _ => 0
  | .fin s m e => toFix 149 s m e

/-- The window `w[0..N-1]` in fixed point (43_fifo_fft R281): the reference is normalised to a sum of N. -/
def windowFix (b : Build) : List Int :=
  match b.window with
  | .reference =>
    let raw := (List.range b.fftSize).map (blackmanHarris b.fftSize)
    let sum := raw.foldl (· + ·) 0
    raw.map fun x => x * (b.fftSize : Int) * ((2 ^ fftPrec : Nat) : Int) / sum
  | .values ws => ws.map fun w => wordFix w * ((2 ^ (fftPrec - 149) : Nat) : Int)

/-- The words the window is made of, where it is given as words. -/
def windowWords : WindowImpl → List Word
  | .reference => []
  | .values ws => ws

/-- One bin's sums of `v * cos` and `- v * sin` over the windowed samples, the twiddle index advancing by
`k` modulo the size (43_fifo_fft R280). -/
def dftSum (tw : Array (Int × Int)) (size k : Nat) : List Int → Nat → Int → Int → Int × Int
  | [], _, re, im => (re, im)
  | v :: vs, at_, re, im =>
    let z := tw.getD at_ (0, 0)
    dftSum tw size k vs ((at_ + k) % size) (re + v * z.1) (im - v * z.2)

/-- `m = |X[k]| / (N/2)` in binary64, each component of `X[k]` rounded once (43_fifo_fft R282, R283). -/
def fftMagnitude (size : Nat) (z : Int × Int) : Fl :=
  let ar : Arith := ⟨.binary64, false⟩
  let re := Fl.ofFix .binary64 (2 * fftPrec + 149) z.1
  let im := Fl.ofFix .binary64 (2 * fftPrec + 149) z.2
  ar.div (sqrtRounded .binary64 (ar.add (ar.mul re re) (ar.mul im im))) (Fl.nat (size / 2))

/-- The word is a NaN. -/
def isNan (w : Word) : Bool := Fl.ofWord w == .nan

/-- The word is a NaN or an infinity. -/
def notFinite (w : Word) : Bool := !(Fl.ofWord w).finite

/-- The magnitudes `m` of the bins 0..N/2-1 (43_fifo_fft R280 to R283). A NaN among the samples or the values
of a given WINDOW makes every bin a NaN; without one, an infinite sample or an infinite value of the WINDOW
gives free magnitudes, the model's choice (log 13). -/
def fftMagnitudes (b : Build) (rb : List Word) : List Fl :=
  match b.fftImpl with
  | .other j => (List.range b.bins).map (Config.fftMagnitude j b.window rb)
  | .reference =>
    if rb.any isNan || (windowWords b.window).any isNan then (List.range b.bins).map fun _ => Fl.nan
    else if rb.any notFinite || (windowWords b.window).any notFinite then
      (List.range b.bins).map (Config.fftInfinite b.window rb)
    else
      let tw := ((List.range b.fftSize).map fun n => turn n b.fftSize).toArray
      let vs := (windowFix b).zipWith (fun w x => w * wordFix x) rb
      (List.range b.bins).map fun k => fftMagnitude b.fftSize (dftSum tw b.fftSize k vs 0 0 0)

/-- A magnitude in decibels with the floor (43_fifo_fft R282). -/
def toDecibels (floor : Word) (m : Fl) : Word :=
  let ar : Arith := ⟨.binary64, false⟩
  let fl := Fl.ofWord floor
  let v := if Fl.lt (Fl.nat 0) m then
      Fl.maxFloor fl (ar.mul (Fl.nat 20) (log10Rounded .binary64 m))
    else fl
  v.toWord [19#32, floor]

/-- `fftBlock(rb, FLOOR)`: the N/2 decibel values (43_fifo_fft R280 to R283). -/
def fftBlock (b : Build) (rb : List Word) (floor : Word) : List Word :=
  (fftMagnitudes b rb).map (toDecibels floor)

end Sys2Proof.Machine
end

