-- ==== Sys2Proof/Machine/Analysis.lean ====
section
/-! DEFINITION. The audio block FIFO and the FFT data generator (43_fifo_fft): the tap, AN_STEP, FFT_GET and
ARESET. -/

namespace Sys2Proof.Machine

/-- `push(block)` (43_fifo_fft R262): a full FIFO drops the new block. -/
def push (b : Build) (a : Analysis) (block : List Word) : Analysis :=
  if a.fifoCount < b.fifoCap then
    { a with
      ring := a.ring.load ((a.fifoRd + a.fifoCount) % b.fifoCap * b.fifoBlock) block
      fifoCount := a.fifoCount + 1 }
  else a

/-- `analysisTap(x)` (43_fifo_fft R261). -/
def tap (b : Build) (a : Analysis) (x : Word) : Analysis :=
  let a' := { a with fill := a.fill.write a.fillCount x, fillCount := a.fillCount + 1 }
  if a'.fillCount = b.fifoBlock then
    { push b a' (a'.fill.slice 0 b.fifoBlock) with fillCount := 0 }
  else a'

/-- `rbShift(blk)`: the rolling buffer's new words (43_fifo_fft R271). -/
def rbShift (b : Build) (rb : Memory) (blk : List Word) : Memory :=
  if b.fftSize ≤ b.fifoBlock then Memory.load [] 0 (blk.drop (b.fifoBlock - b.fftSize))
  else (rb.shiftDown b.fifoBlock).load (b.fftSize - b.fifoBlock) blk

/-- The pop and the shift of AN_STEP: the oldest block leaves the FIFO and enters the rolling buffer
(43_fifo_fft R270, R271). -/
def popShift (b : Build) (a : Analysis) : Analysis :=
  let blk := a.ring.slice (a.fifoRd * b.fifoBlock) b.fifoBlock
  { a with
    fifoRd := (a.fifoRd + 1) % b.fifoCap
    fifoCount := a.fifoCount - 1
    rb := rbShift b a.rb blk
    rbCount := min b.fftSize (a.rbCount + b.fifoBlock) }

/-- An FFTDataBlock enqueued at the tail of the FFT queue (43_fifo_fft R270). -/
def enqueue (b : Build) (a : Analysis) (block : List Word) : Analysis :=
  { a with
    fq := a.fq.load ((a.fqRd + a.fqCount) % b.fftqCap * b.bins) block
    fqCount := a.fqCount + 1 }

/-- AN_STEP (43_fifo_fft R270). -/
def execAnStep (s : State) : Result :=
  let b := s.build
  if s.params.anByp then .next (s.result 0x08#8 false)
  else if s.an.fifoCount = 0 then .next (s.result 0x08#8 false)
  else
    let a := popShift b s.an
    if a.rbCount < b.fftSize then .next ((s.setAn a).result 0x08#8 true)
    else if a.fqCount < b.fftqCap then
      let block := fftBlock b (a.rb.slice 0 b.fftSize) s.floorDb
      .next ((s.setAn (enqueue b a block)).result 0x08#8 true (produced := true))
    else .next ((s.setAn a).result 0x08#8 true (produced := true) (dropped := true))

/-- The oldest FFTDataBlock moved into FFT_OUT (43_fifo_fft R286). -/
def takeBlock (b : Build) (a : Analysis) : Analysis :=
  { a with
    fftOut := a.fftOut.load 0 (a.fq.slice (a.fqRd * b.bins) b.bins)
    fqRd := (a.fqRd + 1) % b.fftqCap
    fqCount := a.fqCount - 1
    fftOutValid := true }

/-- FFT_GET (43_fifo_fft R286). -/
def execFftGet (s : State) : Result :=
  if s.an.fqCount = 0 then .next (s.result 0x09#8 false)
  else .next ((s.setAn (takeBlock s.build s.an)).result 0x09#8 true)

/-- ARESET (43_fifo_fft R290). -/
def execAreset (s : State) : Result := .next ((s.setAn .reset).result 0x0C#8 true)

end Sys2Proof.Machine
end

