-- ==== Sys2Proof/Machine/Chain.lean ====
section
/-! DEFINITION. The filter chain (41_filter_chain): PREPARE, PROCESS_BLOCK and the frame step, the install
steps, UPDATE_COEF and SET_BYPASS. -/

namespace Sys2Proof.Machine

/-! Install steps (20_memory R111). -/

/-- One atomic install step (41_filter_chain R193 to R195, R215). -/
def Install.apply (s : State) : Install → State
  | .coef c t set => s.setChan c ((s.chan c).setCoef t set)
  | .stage c t set b => s.setChan c (((s.chan c).setCoef t set).setSbyp t b)
  | .flags c p => s.setChan c { s.chan c with pbyp := p }
  | .bypass c tgt v => s.setChan c ((s.chan c).setTarget tgt v)

/-- The next install step of a command in progress; the last one completes the command with `result(1, 0)`
(20_memory R111, log 4). -/
def installStep (s : State) (op : BitVec 8) : List Install → State
  | [] => (s.setCtrlOp none).result op true
  | i :: [] => ((Install.apply s i).setCtrlOp none).result op true
  | i :: j :: rest => (Install.apply s i).setCtrlOp (some ⟨op, j :: rest⟩)

/-- The channels of a mask CH, channel 0 first (30_encoding R134). -/
def channels (ch : BitVec 2) : List Ch :=
  (if ch.getLsbD 0 then [.c0] else []) ++ (if ch.getLsbD 1 then [.c1] else [])

/-- UPDATE_COEF (41_filter_chain R210): its first install step. The set is read here, once. -/
def execUpdateCoef (stage : BitVec 4) (slot ch : BitVec 2) (s : State) : Result :=
  if (Instr.updateCoef stage slot ch).wf then
    let set := s.cstg[slot.toFin]
    .next (installStep s 0x06#8 ((channels ch).map fun c => .coef c (Fin.ofNat 9 stage.toNat) set))
  else .next (s.raise .badCmd (encodeWord (.updateCoef stage slot ch)))

/-- SET_BYPASS (41_filter_chain R215): its first flag write. -/
def execSetBypass (tgt : BitVec 4) (val : BitVec 1) (ch : BitVec 2) (s : State) : Result :=
  if (Instr.setBypass tgt val ch).wf then
    .next (installStep s 0x07#8 ((channels ch).map fun c => .bypass c tgt (val == 1#1)))
  else .next (s.raise .badCmd (encodeWord (.setBypass tgt val ch)))

/-! PREPARE. -/

/-- The chain PREPARE leaves: the full design, every delay zero (41_filter_chain R190). -/
def preparedChain (d : FullDesign) : Channel where
  coef := d.coef
  st := #v[.zero, .zero, .zero, .zero, .zero, .zero, .zero, .zero, .zero]
  pbyp := d.pbyp
  lcByp := d.lcByp
  hcByp := d.hcByp

/-- PREPARE (41_filter_chain R190). -/
def execPrepare (s : State) : Result :=
  match fullDesign s.build s.params s.sampleRate with
  | .error a => .next (s.raise .designDomain a)
  | .ok d =>
    .next ({ s with
      srActive := s.sampleRate
      maxblkActive := s.maxBlock
      stereoActive := s.stereoBit
      ch0 := preparedChain d
      ch1 := preparedChain d
      dirty := false
      prepared := true }.result 0x01#8 true)

/-! The frame step. -/

/-- `biquad(cs, st, x)` in transposed direct form II (41_filter_chain R201). -/
def biquad (b : Build) (k : CoefSet) (d : Delay) (x : Word) : Word × Delay :=
  let y := fadd b (fmul b k.b0 x) d.s1
  let s1n := fadd b (fsub b (fmul b k.b1 x) (fmul b k.a1 y)) d.s2
  let s2n := fsub b (fmul b k.b2 x) (fmul b k.a2 y)
  (y, ⟨s1n, s2n⟩)

/-- The stages in processing order: LowCut, Peak, HighCut (00_scope R15). -/
def stages : List Stage := [0, 1, 2, 3, 4, 5, 6, 7, 8]

/-- One stage of a frame: an inactive stage passes its input through (41_filter_chain R202, R204). -/
def stageStep (b : Build) (k : Channel) (t : Stage) (x : Word) : Word × Channel :=
  if k.active t then
    let r := biquad b k.coef[t] k.st[t] x
    (r.1, k.setDelay t r.2)
  else (x, k)

/-- A frame's sample through the stages of a chain (41_filter_chain R202). -/
def runStages (b : Build) : List Stage → Channel → Word → Word × Channel
  | [], k, x => (x, k)
  | t :: ts, k, x =>
    let r := stageStep b k t x
    runStages b ts r.2 r.1

/-- A frame's sample through a chain. -/
def runChain (b : Build) (k : Channel) (x : Word) : Word × Channel := runStages b stages k x

/-- What a frame step writes: the two chains, the analysis state, the output words. -/
def State.frame (s : State) (k0 k1 : Channel) (a : Analysis) (ws : List Word) : State :=
  { s with ch0 := k0, ch1 := k1, an := a, host := { s.host with audioOut := s.host.audioOut ++ ws } }

/-- The frame step on one mono frame (41_filter_chain R202). -/
def frameMono (s : State) (x0 : Word) : State :=
  let r0 := runChain s.build s.ch0 x0
  s.frame r0.2 s.ch1 (tap s.build s.an r0.1) [r0.1]

/-- The frame step on one stereo frame (41_filter_chain R202). Only channel 0's output is tapped. -/
def frameStereo (s : State) (x0 x1 : Word) : State :=
  let r0 := runChain s.build s.ch0 x0
  let r1 := runChain s.build s.ch1 x1
  s.frame r0.2 r1.2 (tap s.build s.an r0.1) [r0.1, r1.1]

/-- What AUDIO does with `n` frames to go. -/
def framesLeft (n : Nat) (stereo : Bool) : AudioOp := if n = 0 then .header else .frames n stereo

/-- What AUDIO does with `n` words of a refused block to go. -/
def drainLeft (n : Nat) : AudioOp := if n = 0 then .header else .drain n

/-- PROCESS_BLOCK: the header step (41_filter_chain R200). The frames follow, one step each. A refused block
consumes its words (R207). -/
def execProcessBlock (nfr : BitVec 16) (s : State) : Result :=
  let h := encodeWord (.processBlock nfr)
  let refused := drainLeft (nfr.toNat * frameWords s.stereoActive)
  if !s.prepared then .next ((s.raise .notPrepared h).setAudioOp refused)
  else if s.maxblkActive.toNat < nfr.toNat then .next ((s.raise .blockTooLong h).setAudioOp refused)
  else .next (s.setAudioOp (framesLeft nfr.toNat s.stereoActive))

end Sys2Proof.Machine
end

