-- ==== Sys2Proof/Machine/Params.lean ====
section
/-! DEFINITION. Parameter writes, TICK and NOP (42_parameter_snapshot). -/

namespace Sys2Proof.Machine

/-- `v` is a number from `lo` to `hi`, bounds included (42_parameter_snapshot R231). -/
def inRange (lo hi v : Word) : Bool :=
  Fl.le (Fl.ofWord lo) (Fl.ofWord v) && Fl.le (Fl.ofWord v) (Fl.ofWord hi)

/-- The range [20, 20000] of the frequency registers (10_state R45 to R47). -/
def freqOk (v : Word) : Bool := inRange 0x41A00000#32 0x469C4000#32 v

/-- The range [-24, 24] of PEAK_GAIN_DB (10_state R48). -/
def gainOk (v : Word) : Bool := inRange 0xC1C00000#32 0x41C00000#32 v

/-- The range [rnd32(0.1), 10] of PEAK_Q (10_state R49). -/
def qOk (v : Word) : Bool := inRange 0x3DCCCCCD#32 0x41200000#32 v

/-- A parameter register stored, and DIRTY set (42_parameter_snapshot R231). -/
def State.setParams (s : State) (p : Params) : State := { s with params := p, dirty := true }

/-- A parameter write: refused with BAD_PARAM where `ok` fails (42_parameter_snapshot R231). -/
def State.writeParam (s : State) (ok : Bool) (a : Addr) (p : Params) : State :=
  if ok then s.setParams p else s.raise .badParam (a.setWidth 32)

/-- NOP (42_parameter_snapshot R236). -/
def execNop (s : State) : Result := .next (s.result 0x00#8 true)

/-- The nine stage installs and the flag install of one channel, in order (42_parameter_snapshot R234). -/
def channelInstalls (c : Ch) (d : FullDesign) : List Install :=
  [.stage c 0 d.coef[0] d.lcByp[0], .stage c 1 d.coef[1] d.lcByp[1], .stage c 2 d.coef[2] d.lcByp[2],
   .stage c 3 d.coef[3] d.lcByp[3], .stage c 4 d.coef[4] false, .stage c 5 d.coef[5] d.hcByp[0],
   .stage c 6 d.coef[6] d.hcByp[1], .stage c 7 d.coef[7] d.hcByp[2], .stage c 8 d.coef[8] d.hcByp[3],
   .flags c d.pbyp]

/-- The 20 install steps of a TICK, channel 0 first (42_parameter_snapshot R234). -/
def tickInstalls (d : FullDesign) : List Install := channelInstalls .c0 d ++ channelInstalls .c1 d

/-- TICK: the decision step (42_parameter_snapshot R234). An installing TICK leaves its 20 install steps to
run, one step each. -/
def execTick (s : State) : Result :=
  if !s.prepared then .next (s.result 0x02#8 false)
  else if !s.dirty then .next (s.result 0x02#8 false)
  else
    match fullDesign s.build s.params s.srActive with
    | .error a => .next (s.raise .designDomain a)
    | .ok d => .next ({ s with dirty := false }.setCtrlOp (some ⟨0x02#8, tickInstalls d⟩))

end Sys2Proof.Machine
end

