-- ==== Sys2Proof/Machine/Curves.lean ====
section
/-! DEFINITION. The path generator and the response curve engine (44_path_response): GEN_PATH and RESPONSE.
Formulas are evaluated as in Design.lean (log 9). -/

namespace Sys2Proof.Machine

/-- `W > 0 and H > 0` (60_exceptions R336). -/
def Bounds.ok (g : Bounds) : Bool :=
  Fl.lt (Fl.nat 0) (Fl.ofWord g.w) && Fl.lt (Fl.nat 0) (Fl.ofWord g.h)

/-! GEN_PATH. -/

/-- `ymap(v, FL)`, rounded to binary32 (44_path_response R301). -/
def ymap (b : Build) (g : Bounds) (v fl : Word) : Word :=
  let ar := b.design
  let y := Fl.ofWord g.y
  let h := Fl.ofWord g.h
  let f := Fl.ofWord fl
  let top := ar.sub (Fl.maxFloor f (Fl.ofWord v)) f
  (ar.sub (ar.add y h) (ar.div (ar.mul h top) f.neg)).toWord [20#32, g.y, g.h, v, fl]

/-- `xmap(k * fs / N)`, rounded to binary32 (44_path_response R300, R302). -/
def xmap (b : Build) (g : Bounds) (fs : Word) (k : Nat) : Word :=
  let ar := b.design
  let f := ar.div (ar.mul (Fl.nat k) (Fl.ofWord fs)) (Fl.nat b.fftSize)
  let lg := b.fn .log10 (ar.div f (Fl.nat 20))
  (ar.add (Fl.ofWord g.x) (ar.div (ar.mul (Fl.ofWord g.w) lg) (Fl.nat 3))).toWord
    [21#32, g.x, g.w, fs, BitVec.ofNat 32 k]

/-- The bins of a path: 0, then 1, 1 + S, 1 + 2 S, … below N/2 (44_path_response R303). -/
def pathBins (b : Build) : List Nat :=
  0 :: (List.range b.bins).filter fun k => 1 ≤ k && (k - 1) % b.pathStride == 0

/-- The point of bin `k`; bin 0 stands at the left edge (44_path_response R303). -/
def pathPoint (s : State) (k : Nat) : Word × Word :=
  let x := if k = 0 then s.bounds.x else xmap s.build s.bounds s.srActive k
  (x, ymap s.build s.bounds (s.an.fftOut.read k) s.floorDb)

/-- Both coordinates are finite (44_path_response R303). -/
def finitePoint (p : Word × Word) : Bool := (Fl.ofWord p.1).finite && (Fl.ofWord p.2).finite

/-- The points of the path, those with a non-finite coordinate left out (44_path_response R300, R303,
log 14). -/
def pathPoints (s : State) : List (Word × Word) :=
  ((pathBins s.build).map (pathPoint s)).filter finitePoint

/-- Points as words, x before y (10_state R64). -/
def pointWords (pts : List (Word × Word)) : List Word := pts.flatMap fun p => [p.1, p.2]

/-- The analysis state with a new path stored: every other point is (0.0, 0.0) (44_path_response R300). -/
def storePath (a : Analysis) (pts : List (Word × Word)) : Analysis :=
  { a with
    path := Memory.load [] 0 (pointWords pts)
    pathLen := pts.length
    pathSeq := a.pathSeq + 1#32
    pathValid := true }

/-- GEN_PATH (44_path_response R300). -/
def execGenPath (s : State) : Result :=
  if !s.prepared then .next (s.raise .notPrepared 0x0000000A#32)
  else if !s.bounds.ok then .next (s.raise .badGeometry 0x0000000A#32)
  else if !s.an.fftOutValid then .next (s.result 0x0A#8 false)
  else .next ((s.setAn (storePath s.an (pathPoints s))).result 0x0A#8 true)

/-! RESPONSE. -/

/-- `|re + j im|` (44_path_response R311). -/
def modulus (b : Build) (re im : Fl) : Fl :=
  let ar := b.design
  b.fn .sqrt (ar.add (ar.mul re re) (ar.mul im im))

/-- The magnitude of `k0 + k1 z1 + k2 z2` for `z1 = exp(-j w)`, `z2 = exp(-2 j w)` (44_path_response R311). -/
def polyMagnitude (b : Build) (k0 k1 k2 w : Fl) : Fl :=
  let ar := b.design
  let w2 := ar.mul (Fl.nat 2) w
  let re := ar.add (ar.add k0 (ar.mul k1 (b.fn .cos w))) (ar.mul k2 (b.fn .cos w2))
  let im := ar.add (ar.mul k1 (b.fn .sin w).neg) (ar.mul k2 (b.fn .sin w2).neg)
  modulus b re im

/-- The value is a zero. -/
def isZero : Fl → Bool
  | .nan => false
  | .inf _ => false
  | .fin _ m _ => m == 0

/-- `magH(cs, f, fs)`; a zero denominator gives plus infinity (44_path_response R311, log 15). -/
def magH (b : Build) (k : CoefSet) (f fs : Fl) : Fl :=
  let ar := b.design
  let w := ar.div (ar.mul (ar.mul (Fl.nat 2) b.pi) f) fs
  let num := polyMagnitude b (Fl.ofWord k.b0) (Fl.ofWord k.b1) (Fl.ofWord k.b2) w
  let den := polyMagnitude b (Fl.nat 1) (Fl.ofWord k.a1) (Fl.ofWord k.a2) w
  if isZero den then .inf false else ar.div num den

/-- The magnitude of a chain: the product over its active stages (44_path_response R310, R312). Where one stage
gives plus infinity by a zero denominator (R311) and another a zero or a NaN, the product is a NaN and the point
takes -100, the model's choice (log 15). -/
def chainMagnitude (b : Build) (k : Channel) (f fs : Fl) : Fl :=
  (stages.filter fun t => k.active t).foldl (fun m t => b.design.mul m (magH b k.coef[t] f fs)) (Fl.nat 1)

/-- `f_i = 20 * 10^(3 i / P)` (44_path_response R313). -/
def gridFreq (b : Build) (p i : Nat) : Fl :=
  let ar := b.design
  ar.mul (Fl.nat 20) (b.fn .exp10 (ar.div (ar.mul (Fl.nat 3) (Fl.nat i)) (Fl.nat p)))

/-- `db`, limited below at -100 (44_path_response R310, R314). -/
def responseDb (b : Build) (mag : Fl) : Fl :=
  let low := (Fl.nat 100).neg
  if Fl.lt (Fl.nat 0) mag then Fl.maxFloor low (b.design.mul (Fl.nat 20) (b.fn .log10 mag)) else low

/-- The decibel value of response point `i` of `p` (44_path_response R310). -/
def curveDb (s : State) (p i : Nat) : Fl :=
  responseDb s.build (chainMagnitude s.build s.ch0 (gridFreq s.build p i) (Fl.ofWord s.srActive))

/-- `respDb[i]` (44_path_response R310). -/
def curveWord (s : State) (p i : Nat) : Word :=
  (curveDb s p i).toWord [22#32, BitVec.ofNat 32 p, BitVec.ofNat 32 i]

/-- `respPt[i]` (44_path_response R310, R314). -/
def curvePoint (s : State) (p i : Nat) : Word × Word :=
  let ar := s.build.design
  let g := s.bounds
  let key := [g.x, g.y, g.w, g.h, BitVec.ofNat 32 p, BitVec.ofNat 32 i]
  let x := ar.add (Fl.ofWord g.x) (ar.div (ar.mul (Fl.ofWord g.w) (Fl.nat i)) (Fl.nat p))
  let h := Fl.ofWord g.h
  let y := ar.sub (ar.add (Fl.ofWord g.y) h)
    (ar.div (ar.mul h (ar.add (curveDb s p i) (Fl.nat 24))) (Fl.nat 48))
  (x.toWord (23#32 :: key), y.toWord (24#32 :: key))

/-- The response storage with a new curve: entries at P and above keep their words and read 0.0
(44_path_response R310, log 21). -/
def storeCurve (s : State) : Curve :=
  let p := s.respPoints.toNat
  { db := s.curve.db.load 0 ((List.range p).map (curveWord s p))
    pt := s.curve.pt.load 0 (pointWords ((List.range p).map (curvePoint s p)))
    len := p
    valid := true }

/-- RESPONSE (44_path_response R310). -/
def execResponse (s : State) : Result :=
  if !s.prepared then .next (s.raise .notPrepared 0x0000000B#32)
  else if !s.bounds.ok then .next (s.raise .badGeometry 0x0000000B#32)
  else .next ({ s with curve := storeCurve s }.result 0x0B#8 true)

end Sys2Proof.Machine
end

