-- ==== Sys2Proof/Machine/Bus.lean ====
section
/-! DEFINITION. The CTRL port: register writes with their checks, the command a write to CMD executes, RD and
WR (20_memory R105, R106; 30_encoding R131). -/

namespace Sys2Proof.Machine

/-- The command a word encodes, executed; an illegal word raises BAD_CMD (30_encoding R131). -/
def execCommand (v : Word) (s : State) : Result :=
  match decodeCommand v with
  | .error _ => .next (s.raise .badCmd v)
  | .ok .nop => execNop s
  | .ok .prepare => execPrepare s
  | .ok .tick => execTick s
  | .ok .designPeak => execDesignPeak s
  | .ok .designLowcut => execDesignLowcut s
  | .ok .designHighcut => execDesignHighcut s
  | .ok (.updateCoef stage slot ch) => execUpdateCoef stage slot ch s
  | .ok (.setBypass tgt val ch) => execSetBypass tgt val ch s
  | .ok .anStep => execAnStep s
  | .ok .fftGet => execFftGet s
  | .ok .genPath => execGenPath s
  | .ok .response => execResponse s
  | .ok .areset => execAreset s
  -- `decodeCommand` gives none of these three
  | .ok (.processBlock _) => .next (s.raise .badCmd v)
  | .ok (.rd _) => .next (s.raise .badCmd v)
  | .ok (.wr _ _) => .next (s.raise .badCmd v)

/-- The word is a finite number. -/
def finiteWord (v : Word) : Bool := (Fl.ofWord v).finite

/-- SAMPLE_RATE accepts a finite value above 0.0 (10_state R41). -/
def rateOk (v : Word) : Bool := finiteWord v && Fl.lt (Fl.nat 0) (Fl.ofWord v)

/-- MAX_BLOCK accepts 1..65535 (10_state R42). -/
def blockOk (v : Word) : Bool := 1 ≤ v.toNat && v.toNat ≤ 65535

/-- FLOOR_DB accepts a finite value below 0.0 (10_state R56). -/
def floorOk (v : Word) : Bool := finiteWord v && Fl.lt (Fl.ofWord v) (Fl.nat 0)

/-- RESP_POINTS accepts 1..RESP_MAX (10_state R57). -/
def pointsOk (b : Build) (v : Word) : Bool := 1 ≤ v.toNat && v.toNat ≤ b.respMax

/-- A write to a checked register that is no parameter: stored, or refused with BAD_PARAM
(60_exceptions R334). -/
def State.checked (s : State) (ok : Bool) (a : Addr) (stored : State) : State :=
  if ok then stored else s.raise .badParam (a.setWidth 32)

/-- A write of `v` to a writable register at address `a` (20_memory R106; 10_state R38, R41, R42, R55 to
R57; 42_parameter_snapshot R231). A read-only register refuses it. -/
def State.writeReg (s : State) (a : Addr) (v : Word) : Reg → State
  | .config => { s with config := v &&& 0x00000001#32 }
  | .sampleRate => s.checked (rateOk v) a { s with sampleRate := v }
  | .maxBlock => s.checked (blockOk v) a { s with maxBlock := v }
  | .lowcutFreq => s.writeParam (freqOk v) a { s.params with lowcutFreq := v }
  | .highcutFreq => s.writeParam (freqOk v) a { s.params with highcutFreq := v }
  | .peakFreq => s.writeParam (freqOk v) a { s.params with peakFreq := v }
  | .peakGainDb => s.writeParam (gainOk v) a { s.params with peakGainDb := v }
  | .peakQ => s.writeParam (qOk v) a { s.params with peakQ := v }
  | .settings => s.writeParam true a { s.params with settings := v &&& 0x000000FF#32 }
  | .boundsX => s.checked (finiteWord v) a { s with bounds := { s.bounds with x := v } }
  | .boundsY => s.checked (finiteWord v) a { s with bounds := { s.bounds with y := v } }
  | .boundsW => s.checked (finiteWord v) a { s with bounds := { s.bounds with w := v } }
  | .boundsH => s.checked (finiteWord v) a { s with bounds := { s.bounds with h := v } }
  | .floorDb => s.checked (floorOk v) a { s with floorDb := v }
  | .respPoints => s.checked (pointsOk s.build v) a { s with respPoints := v }
  | .id => s.raise .badAccess (a.setWidth 32)
  | .version => s.raise .badAccess (a.setWidth 32)
  | .status => s.raise .badAccess (a.setWidth 32)
  | .fault => s.raise .badAccess (a.setWidth 32)
  | .faultInfo => s.raise .badAccess (a.setWidth 32)
  | .cmd => s.raise .badAccess (a.setWidth 32)
  | .cmdResult => s.raise .badAccess (a.setWidth 32)
  | .srActive => s.raise .badAccess (a.setWidth 32)
  | .maxblkActive => s.raise .badAccess (a.setWidth 32)
  | .fifoCount => s.raise .badAccess (a.setWidth 32)
  | .fillCount => s.raise .badAccess (a.setWidth 32)
  | .rbCount => s.raise .badAccess (a.setWidth 32)
  | .fftqCount => s.raise .badAccess (a.setWidth 32)
  | .pathSeq => s.raise .badAccess (a.setWidth 32)
  | .pathLen => s.raise .badAccess (a.setWidth 32)
  | .respLen => s.raise .badAccess (a.setWidth 32)
  | .build0 => s.raise .badAccess (a.setWidth 32)
  | .build1 => s.raise .badAccess (a.setWidth 32)
  | .chainFlags0 => s.raise .badAccess (a.setWidth 32)
  | .chainFlags1 => s.raise .badAccess (a.setWidth 32)

/-- A write of `v` to a mapped address (20_memory R106). The CMD register is `execWr`'s. -/
def State.writeLoc (s : State) (a : Addr) (v : Word) : Loc → State
  | .reg r => s.writeReg a v r
  | .cstg j i => { s with cstg := s.cstg.set j (s.cstg[j].put i v) }
  | .coef _ _ _ => s.raise .badAccess (a.setWidth 32)
  | .delay _ _ _ => s.raise .badAccess (a.setWidth 32)
  | .fftOut _ => s.raise .badAccess (a.setWidth 32)
  | .path _ => s.raise .badAccess (a.setWidth 32)
  | .respDb _ => s.raise .badAccess (a.setWidth 32)
  | .respPath _ => s.raise .badAccess (a.setWidth 32)
  | .rb _ => s.raise .badAccess (a.setWidth 32)

/-- RD (20_memory R105): a misaligned or unmapped address raises BAD_ACCESS and returns 0. -/
def execRd (addr : Addr) (s : State) : Result :=
  match s.mapped addr with
  | none => .next ((s.raise .badAccess (addr.setWidth 32)).answer 0#32)
  | some l => .next (s.answer (s.readLoc l))

/-- WR (20_memory R106): a misaligned, unmapped or read-only address raises BAD_ACCESS; a write to CMD
executes the command; any other write is stored after the register's own check. -/
def execWr (addr : Addr) (data : Word) (s : State) : Result :=
  match s.mapped addr with
  | none => .next (s.raise .badAccess (addr.setWidth 32))
  | some l =>
    match l.access with
    | .ro => .next (s.raise .badAccess (addr.setWidth 32))
    | .cmd => execCommand data s
    | .rw => .next (s.writeLoc addr data l)

end Sys2Proof.Machine
end

