-- ==== Sys2Proof/Machine/Dispatch.lean ====
section
/-! DEFINITION. One arm per instruction. -/

namespace Sys2Proof.Machine

def exec (i : Instr) (s : State) : Host.Outcome State Fault Refusal :=
  match i with
  | .nop => Sys2Proof.Machine.execNop s
  | .prepare => Sys2Proof.Machine.execPrepare s
  | .tick => Sys2Proof.Machine.execTick s
  | .designPeak => Sys2Proof.Machine.execDesignPeak s
  | .designLowcut => Sys2Proof.Machine.execDesignLowcut s
  | .designHighcut => Sys2Proof.Machine.execDesignHighcut s
  | .updateCoef stage slot ch => Sys2Proof.Machine.execUpdateCoef stage slot ch s
  | .setBypass tgt val ch => Sys2Proof.Machine.execSetBypass tgt val ch s
  | .anStep => Sys2Proof.Machine.execAnStep s
  | .fftGet => Sys2Proof.Machine.execFftGet s
  | .genPath => Sys2Proof.Machine.execGenPath s
  | .response => Sys2Proof.Machine.execResponse s
  | .areset => Sys2Proof.Machine.execAreset s
  | .processBlock nfr => Sys2Proof.Machine.execProcessBlock nfr s
  | .rd addr => Sys2Proof.Machine.execRd addr s
  | .wr addr data => Sys2Proof.Machine.execWr addr data s

end Sys2Proof.Machine
end

