-- ==== Sys2Proof/Machine/Agents.lean ====
section
/-! DEFINITION. The two agents (00_scope R10): what CTRL and AUDIO do in one atomic step, and which moves
(20_memory R110, R111). -/

namespace Sys2Proof.Machine

/-! CTRL. -/

/-- A descriptor that is no legal access raises BAD_ACCESS with ADDR; a read returns 0
(30_encoding R132, R141; 20_memory R103). -/
def badDescriptor (s : State) (desc : Word) : State :=
  let s' := s.raise .badAccess ((field desc 0 20).setWidth 32)
  if field desc 20 1 = 0#1 then s'.answer 0#32 else s'

/-- CTRL performs the oldest transaction the host issued (20_memory R105, R106). -/
def performTransaction (t : Transaction) (s : State) : Result :=
  match decodeBus t.desc t.data with
  | .error _ => .next (badDescriptor s t.desc)
  | .ok i => exec i s

/-- One atomic step of CTRL: the next install step of the command in progress, else the next transaction,
else nothing (20_memory R111, 60_exceptions R348). -/
def ctrlStep (s : State) : Result :=
  match s.ctrlOp with
  | some op => .next (installStep s op.opcode op.todo)
  | none =>
    match s.host.ctrlIn with
    | [] => .next s
    | t :: rest => performTransaction t (s.setHost { s.host with ctrlIn := rest })

/-- CTRL has something to do. -/
def State.ctrlReady (s : State) : Bool := s.ctrlOp.isSome || !s.host.ctrlIn.isEmpty

/-! AUDIO. -/

/-- AUDIO reads a header word; a bad one raises BAD_STREAM (41_filter_chain R200). -/
def takeHeader (h : Word) (s : State) : Result :=
  match decodeStream h with
  | .error _ => .next (s.raise .badStream h)
  | .ok i => exec i s

/-- AUDIO takes its input words. -/
def State.takeAudio (s : State) (rest : List Word) : State := s.setHost { s.host with audioIn := rest }

/-- A word of a refused block is consumed and a word of unspecified value emitted (41_filter_chain R207,
log 5). -/
def drainStep (s : State) (left : Nat) : State :=
  ((s.setAudioOp (drainLeft (left - 1))).setHost { s.host with draws := s.host.draws + 1 }).emit
    [Config.freeWord s.host.draws]

/-- One atomic step of AUDIO: a header step, a frame step, or a word of a refused block; nothing while the
words it needs have not arrived (20_memory R111, log 22). -/
def audioStep (s : State) : Result :=
  match s.audioOp with
  | .header =>
    match s.host.audioIn with
    | [] => .next s
    | h :: rest => takeHeader h (s.takeAudio rest)
  | .frames left false =>
    match s.host.audioIn with
    | [] => .next s
    | x0 :: rest => .next (frameMono ((s.takeAudio rest).setAudioOp (framesLeft (left - 1) false)) x0)
  | .frames left true =>
    match s.host.audioIn with
    | x0 :: x1 :: rest =>
      .next (frameStereo ((s.takeAudio rest).setAudioOp (framesLeft (left - 1) true)) x0 x1)
    | [_] => .next s
    | [] => .next s
  | .drain left =>
    match s.host.audioIn with
    | [] => .next s
    | _ :: rest => .next (drainStep (s.takeAudio rest) left)

/-- AUDIO has the words its next step needs. -/
def State.audioReady (s : State) : Bool :=
  match s.audioOp with
  | .header => !s.host.audioIn.isEmpty
  | .frames _ stereo => frameWords stereo ≤ s.host.audioIn.length
  | .drain _ => !s.host.audioIn.isEmpty

/-! The interleaving. -/

/-- The reset event (70_reset R360): every operation in progress ends; the build and the host's side stay
(log 6). -/
def resetStep (s : State) : State := State.resetOf s.build s.host

/-- The schedule says nothing: an agent that alone can move moves, a free value chooses between two
(20_memory R110, log 2), and with nothing pending no state changes (60_exceptions R348). -/
def freeStep (s : State) : Result :=
  match s.ctrlReady, s.audioReady with
  | false, false => .next s
  | true, false => ctrlStep s
  | false, true => audioStep s
  | true, true =>
    let s' := s.setHost { s.host with draws := s.host.draws + 1 }
    if Config.freeTurn s.host.draws then ctrlStep s' else audioStep s'

/-- The schedule's first turn is taken (log 2). -/
def turnStep (s : State) : Turn → Result
  | .ctrl => ctrlStep s
  | .audio => audioStep s
  | .reset => .next (resetStep s)

end Sys2Proof.Machine
end

