-- ==== Sys2Proof/Machine/Step.lean ====
section
/-! DEFINITION. One step of the machine: one atomic step of one agent, or reset (20_memory R110, R111). -/

namespace Sys2Proof.Machine

/-- One atomic step of the interleaving (20_memory R110, R111). -/
def step (s : State) : Host.Outcome State Fault Refusal :=
  match s.host.schedule with
  | [] => freeStep s
  | t :: rest => turnStep (s.setHost { s.host with schedule := rest }) t

/-- `s` with the instruction word `w` placed where the next step takes it: a command word as a write to CMD, a
bus descriptor with its data, a stream header on AUDIO; its agent is idle and has the next turn (log 3). -/
def State.withFetchWord (s : State) (_nbits w : Nat) : State :=
  let p := tablePacket w
  match p.lane with
  | .bus =>
    { s with
      ctrlOp := none
      host := { s.host with
        ctrlIn := ⟨p.word, p.data⟩ :: s.host.ctrlIn
        schedule := .ctrl :: s.host.schedule } }
  | .command =>
    { s with
      ctrlOp := none
      host := { s.host with
        ctrlIn := ⟨0x00500018#32, p.word⟩ :: s.host.ctrlIn
        schedule := .ctrl :: s.host.schedule } }
  | .stream =>
    { s with
      audioOp := .header
      host := { s.host with
        audioIn := p.word :: s.host.audioIn
        schedule := .audio :: s.host.schedule } }

end Sys2Proof.Machine
end

