-- ==== Sys2Proof/Machine/HostProgram.lean ====
section
/-! DEFINITION. What a host program issues (30_encoding R143, R144): operations put on the two ports. -/

namespace Sys2Proof.Machine

/-- An operation of a host program (30_encoding R143). -/
inductive HostOp where
  /-- `rd 0xADDR`. -/
  | rd (a : Addr)
  /-- `wr 0xADDR, 0xVALUE`. -/
  | wr (a : Addr) (v : Word)
  /-- `audio n { … }`: the sample words, channel 0 first in each frame. -/
  | audio (n : BitVec 16) (words : List Word)
  deriving DecidableEq, Repr

/-- `rd NAME` (30_encoding R143). -/
def rdReg (r : Reg) : HostOp := .rd r.addr

/-- `wr NAME, 0xVALUE` (30_encoding R143). -/
def wrReg (r : Reg) (v : Word) : HostOp := .wr r.addr v

/-- `SETF NAME, REAL`, that is `wr NAME, f:REAL`, for the real `± num / den` (30_encoding R143, R144). -/
def setF (r : Reg) (neg : Bool) (num den : Nat) : HostOp :=
  wrReg r ((roundRat .binary32 neg num den 0).toWord [])

/-- A command by name: `wr CMD, <word>` (30_encoding R143). -/
def command (i : Instr) : HostOp := wrReg .cmd (encodeWord i)

/-- `BYPASS tgt, val` (30_encoding R144). -/
def bypassBoth (tgt : BitVec 4) (val : BitVec 1) : HostOp := command (.setBypass tgt val 3#2)

/-- `INSTALL stage, slot` (30_encoding R144). -/
def installBoth (stage : BitVec 4) (slot : BitVec 2) : HostOp := command (.updateCoef stage slot 3#2)

/-- `LDCOEF j, b0, b1, b2, a1, a2` (30_encoding R144). -/
def loadCoef (j : Fin 4) (k : CoefSet) : List HostOp :=
  [.wr (cstgAddr j 0) k.b0, .wr (cstgAddr j 1) k.b1, .wr (cstgAddr j 2) k.b2, .wr (cstgAddr j 3) k.a1,
   .wr (cstgAddr j 4) k.a2]

/-- `SETTINGS lcs, hcs, lcb, pkb, hcb, anb` (30_encoding R144). -/
def settingsOp (lcs hcs : BitVec 2) (lcb pkb hcb anb : BitVec 1) : HostOp :=
  wrReg .settings (0#24 ++ anb ++ hcb ++ pkb ++ lcb ++ hcs ++ lcs)

/-- The host issues an operation: it joins the end of its port's input (30_encoding R132, R136). -/
def State.issue (s : State) : HostOp → State
  | .rd a => s.setHost { s.host with ctrlIn := s.host.ctrlIn ++ [⟨encodeWord (.rd a), 0#32⟩] }
  | .wr a v => s.setHost { s.host with ctrlIn := s.host.ctrlIn ++ [⟨encodeWord (.wr a v), v⟩] }
  | .audio n ws => s.setHost
      { s.host with audioIn := s.host.audioIn ++ encodeWord (.processBlock n) :: ws }

/-- A host program's operations issued in order. -/
def State.issueAll (s : State) (ops : List HostOp) : State := ops.foldl State.issue s

end Sys2Proof.Machine
end

