-- ==== Sys2Proof/Safety.lean ====
section
/-! DEFINITION. What counts as a good state: the invariant every step keeps, and the sticky fault record. -/

namespace Sys2Proof.Machine

/-- The parameter registers are in range and SETTINGS[31:8] is 0 (10_state R44 to R50). -/
def Params.ok (p : Params) : Bool :=
  freqOk p.lowcutFreq && freqOk p.highcutFreq && freqOk p.peakFreq && gainOk p.peakGainDb && qOk p.peakQ &&
    (p.settings &&& 0xFFFFFF00#32 == 0#32)

/-- The bounds are finite (10_state R55). -/
def Bounds.finite (g : Bounds) : Bool :=
  finiteWord g.x && finiteWord g.y && finiteWord g.w && finiteWord g.h

/-- The FIFO: counters in range, storage canonical and within the FIFO's size (10_state R75). -/
def Analysis.fifoOk (b : Build) (a : Analysis) : Bool :=
  decide (a.fifoRd < b.fifoCap) && decide (a.fifoCount ≤ b.fifoCap) && decide (a.fillCount < b.fifoBlock) &&
    a.ring.wf && a.ring.within (b.fifoCap * b.fifoBlock) && a.fill.wf && a.fill.within b.fifoBlock

/-- The rolling buffer (10_state R76). -/
def Analysis.rbOk (b : Build) (a : Analysis) : Bool :=
  decide (a.rbCount ≤ b.fftSize) && a.rb.wf && a.rb.within b.fftSize

/-- The FFT queue and output (10_state R77, R78). -/
def Analysis.fftOk (b : Build) (a : Analysis) : Bool :=
  decide (a.fqRd < b.fftqCap) && decide (a.fqCount ≤ b.fftqCap) &&
    a.fq.wf && a.fq.within (b.fftqCap * b.bins) && a.fftOut.wf && a.fftOut.within b.bins

/-- The path slot: no more points than bins, nothing stored past its length (10_state R79). -/
def Analysis.pathOk (b : Build) (a : Analysis) : Bool :=
  decide (a.pathLen ≤ b.bins) && a.path.wf && a.path.within (2 * a.pathLen)

/-- The analysis state. -/
def Analysis.ok (b : Build) (a : Analysis) : Bool :=
  a.fifoOk b && a.rbOk b && a.fftOk b && a.pathOk b

/-- The response storage (10_state R80). -/
def Curve.ok (b : Build) (c : Curve) : Bool :=
  decide (c.len ≤ b.respMax) && c.db.wf && c.db.within b.respMax && c.pt.wf && c.pt.within (2 * b.respMax)

/-- FAULT and FAULT_INFO: both 0, or a cause 1 to 8 with FAULTED set (10_state R39, 60_exceptions R332). -/
def State.faultOk (s : State) : Bool :=
  (s.fault == 0#32 && s.faultInfo == 0#32) ||
    (s.fault &&& 0xFFFFFFF0#32 == 0x80000000#32 && 1 ≤ s.fault.toNat % 16 && s.fault.toNat % 16 ≤ 8)

/-- The checked registers hold values their checks accept, reserved bits are 0 (10_state R32, R38, R40 to
R42, R56, R57). -/
def State.regsOk (s : State) : Bool :=
  (s.config &&& 0xFFFFFFFE#32 == 0#32) && (s.cmdResult &&& 0xFFFF00F8#32 == 0#32) &&
    rateOk s.sampleRate && blockOk s.maxBlock && floorOk s.floorDb && pointsOk s.build s.respPoints &&
    s.params.ok && s.bounds.finite

/-- What PREPARE latched (10_state R43, R74): before it, nothing; after it, a rate and a length the registers
accept. DIRTY is only ever clear after PREPARE (42_parameter_snapshot R232). -/
def State.latchOk (s : State) : Bool :=
  (s.prepared && rateOk s.srActive && blockOk s.maxblkActive) ||
    (!s.prepared && s.srActive == 0#32 && s.maxblkActive == 0#32 && !s.stereoActive && s.dirty)

/-- A CTRL command in progress is an UPDATE_COEF, SET_BYPASS or TICK with a step left (20_memory R111). -/
def State.ctrlOpOk (s : State) : Bool :=
  match s.ctrlOp with
  | none => true
  | some op => !op.todo.isEmpty &&
      (op.opcode == 0x02#8 && s.prepared || op.opcode == 0x06#8 || op.opcode == 0x07#8)

/-- A block in progress has something left, and frames run only after PREPARE (41_filter_chain R200). -/
def State.audioOpOk (s : State) : Bool :=
  match s.audioOp with
  | .header => true
  | .frames left _ => decide (0 < left) && s.prepared
  | .drain left => decide (0 < left)

/-- The invariant of the model: every state a run reaches meets it. -/
def State.Inv (s : State) : Prop :=
  s.build.legal = true ∧ s.regsOk = true ∧ s.faultOk = true ∧ s.latchOk = true ∧
    s.an.ok s.build = true ∧ s.curve.ok s.build = true ∧ s.ctrlOpOk = true ∧ s.audioOpOk = true

/-- No fault has been raised since reset: the premise D33 of 92_eei_decisions speaks of. -/
def State.quiet (s : State) : Bool := s.fault == 0#32

/-- `n` steps of CTRL alone, as a schedule of CTRL turns runs them. -/
def ctrlRun : Nat → State → Result
  | 0, s => .next s
  | n + 1, s =>
    match ctrlStep s with
    | .next s' => ctrlRun n s'
    | .fault r => .fault r
    | .refused r => .refused r

/-- `n` steps of AUDIO alone. -/
def audioRun : Nat → State → Result
  | 0, s => .next s
  | n + 1, s =>
    match audioStep s with
    | .next s' => audioRun n s'
    | .fault r => .fault r
    | .refused r => .refused r

/-- `n` steps of the machine. -/
def stepRun : Nat → State → Result
  | 0, s => .next s
  | n + 1, s =>
    match step s with
    | .next s' => stepRun n s'
    | .fault r => .fault r
    | .refused r => .refused r

/-! Views that claims are stated in. -/

/-- The blocks in the Audio Block FIFO, oldest first (10_state R75). -/
def Analysis.fifoBlocks (b : Build) (a : Analysis) : List (List Word) :=
  (List.range a.fifoCount).map fun j => a.ring.slice ((a.fifoRd + j) % b.fifoCap * b.fifoBlock) b.fifoBlock

/-- The samples of the producer's partial block (10_state R75). -/
def Analysis.partialBlock (a : Analysis) : List Word := a.fill.slice 0 a.fillCount

/-- The blocks in the FFT queue, oldest first (10_state R77). -/
def Analysis.fftBlocks (b : Build) (a : Analysis) : List (List Word) :=
  (List.range a.fqCount).map fun j => a.fq.slice ((a.fqRd + j) % b.fftqCap * b.bins) b.bins

/-- Every position of the chain is bypassed (41_filter_chain R204). -/
def Channel.passThrough (k : Channel) : Bool := k.pbyp[0] && k.pbyp[1] && k.pbyp[2]

/-- `stages(p)` (00_scope R15). -/
def positionStages (p : Fin 3) : List Stage :=
  match p with
  | 0 => [0, 1, 2, 3]
  | 1 => [4]
  | 2 => [5, 6, 7, 8]

/-- The body of the frame step's loop over positions, as 41_filter_chain R202 writes it. -/
def runPosition (b : Build) (p : Fin 3) (k : Channel) (y : Word) : Word × Channel :=
  if k.pbyp[p] then (y, k)
  else (positionStages p).foldl (fun r s =>
    if s = 4 ∨ r.2.sbyp s = false then
      let q := biquad b r.2.coef[s] r.2.st[s] r.1
      (q.1, { r.2 with st := r.2.st.set s q.2 })
    else r) (y, k)

/-- The outputs of one chain for successive input samples, and the chain after them. -/
def chainOutputs (b : Build) : Channel → List Word → List Word × Channel
  | k, [] => ([], k)
  | k, x :: xs =>
    let r := runChain b k x
    let rest := chainOutputs b r.2 xs
    (r.1 :: rest.1, rest.2)

end Sys2Proof.Machine
end

