-- ==== Sys2Proof/Certificates/Slice0/Obligations.lean ====
section
/-! DEFINITION. The statements for the provers. Each docstring names the rule of spec/ it formalises. -/

open Sys2Proof Sys2Proof.Machine

/-! Encoding. -/

/-- Every instruction's encoding decodes to it, with every operand at every value of its field, the illegal
values included (30_encoding R132 to R137). -/
def Obligations.EncodeThenDecodeIsIdentity : Prop :=
  ∀ i : Instr, decode (encode i) = .ok i

/-- A word that decodes is the encoding of what it decodes to: no bit is ignored and no two words of a kind
mean the same (30_encoding R132 to R137). -/
def Obligations.DecodeThenEncodeIsIdentity : Prop :=
  ∀ (p : Packet) (i : Instr), decode p = .ok i →
    i.lane = p.lane ∧ encodeWord i = p.word ∧ (p.lane = .bus → field p.word 20 1 = 1#1 → encodeData i = p.data)

/-- The command and header words of 30_encoding R145: the formulas for every operand, and the examples it
writes out. -/
def Obligations.CommandWordsMatchTheReferenceValues : Prop :=
  (∀ stage slot ch, encodeWord (.updateCoef stage slot ch) =
    0x06#32 ||| stage.setWidth 32 <<< 8 ||| slot.setWidth 32 <<< 12 ||| ch.setWidth 32 <<< 16) ∧
  (∀ tgt val ch, encodeWord (.setBypass tgt val ch) =
    0x07#32 ||| tgt.setWidth 32 <<< 8 ||| val.setWidth 32 <<< 12 ||| ch.setWidth 32 <<< 16) ∧
  (∀ n, encodeWord (.processBlock n) = 0x01#32 ||| n.setWidth 32 <<< 16) ∧
  [Instr.nop, .prepare, .tick, .designPeak, .designLowcut, .designHighcut].map encodeWord =
    [0x00#32, 0x01#32, 0x02#32, 0x03#32, 0x04#32, 0x05#32] ∧
  [Instr.anStep, .fftGet, .genPath, .response, .areset].map encodeWord =
    [0x08#32, 0x09#32, 0x0A#32, 0x0B#32, 0x0C#32] ∧
  decodeCommand 0x00030406#32 = .ok (.updateCoef 4#4 0#2 3#2) ∧
  decodeCommand 0x00031107#32 = .ok (.setBypass 1#4 1#1 3#2) ∧
  decodeStream 0x00040001#32 = .ok (.processBlock 4#16)

/-- A write to CMD executes the command the word encodes, or raises BAD_CMD and does nothing else, by the
decode steps of 30_encoding R131: an opcode above 0x0C, a nonzero "0" bit of the format (R133 to R135), a
field out of its range. -/
def Obligations.WriteToCmdExecutesTheCommandOrRaisesBadCmd : Prop :=
  ∀ (v : Word) (s : State),
    let op := v.toNat % 256
    let illegal :=
      12 < op ∨
      (op ≠ 6 ∧ op ≠ 7 ∧ 256 ≤ v.toNat) ∨
      (op = 6 ∧ (v.toNat / 2 ^ 14 % 4 ≠ 0 ∨ 2 ^ 18 ≤ v.toNat ∨ 8 < v.toNat / 2 ^ 8 % 16 ∨
        v.toNat / 2 ^ 16 % 4 = 0)) ∨
      (op = 7 ∧ (v.toNat / 2 ^ 13 % 8 ≠ 0 ∨ 2 ^ 18 ≤ v.toNat ∨ 10 < v.toNat / 2 ^ 8 % 16 ∨
        v.toNat / 2 ^ 16 % 4 = 0))
    (illegal → exec (.wr 0x00018#20 v) s = .next (s.raise .badCmd v)) ∧
    (¬ illegal → ∃ i : Instr, i.lane = .command ∧ i.wf = true ∧ encodeWord i = v ∧
      exec (.wr 0x00018#20 v) s = exec i s)

/-- Illegal stream headers raise BAD_STREAM with the header, illegal bus descriptors BAD_ACCESS with ADDR
(30_encoding R141). What an illegal descriptor returns is the model's choice (log 19): one whose bit W is 0 is a
read and returns 0, as a faulting read does (20_memory R103), one whose bit W is 1 returns nothing. -/
def Obligations.IllegalHeadersAndDescriptorsFault : Prop :=
  ∀ s : State,
    (∀ h : Word, (h.toNat % 256 ≠ 1 ∨ h.toNat / 2 ^ 8 % 256 ≠ 0) →
      takeHeader h s = .next (s.raise .badStream h)) ∧
    (∀ d data : Word, (d.toNat / 2 ^ 21 % 4 ≠ 2 ∨ d.toNat % 4 ≠ 0 ∨ 2 ^ 23 ≤ d.toNat) →
      performTransaction ⟨d, data⟩ s = .next
        (if d.toNat / 2 ^ 20 % 2 = 0 then (s.raise .badAccess (d &&& 0x000FFFFF#32)).answer 0#32
         else s.raise .badAccess (d &&& 0x000FFFFF#32)))

/-! Reset. -/

/-- The reset values of 70_reset R361 in every legal build, read through the address map where a register shows
them, and on the internal state elsewhere; and the BUILD registers of the reference build, of which State.reset
is the reset state. -/
def Obligations.ResetValuesAreThoseOfTheTable : Prop :=
  (∀ (b : Build) (h : HostSide), b.legal = true →
    let s := State.resetOf b h
    (∀ e ∈ ([(0x000#20, 0x33424551#32), (0x004#20, 7#32), (0x008#20, 1#32), (0x00C#20, 2#32), (0x010#20, 0#32),
        (0x014#20, 0#32), (0x018#20, 0#32), (0x01C#20, 0#32), (0x020#20, 0x473B8000#32), (0x024#20, 512#32),
        (0x028#20, 0#32), (0x02C#20, 0#32), (0x040#20, 0x41A00000#32), (0x044#20, 0x469C4000#32),
        (0x048#20, 0x447A0000#32), (0x04C#20, 0#32), (0x050#20, 0x3F800000#32), (0x054#20, 0#32),
        (0x060#20, 0#32), (0x064#20, 0#32), (0x068#20, 0#32), (0x06C#20, 0#32), (0x070#20, 0#32),
        (0x074#20, 0#32), (0x078#20, 0#32), (0x080#20, 0#32), (0x084#20, 0#32), (0x088#20, 0#32),
        (0x08C#20, 0#32), (0x090#20, 0xC2400000#32), (0x094#20, 512#32),
        (0x098#20, BitVec.ofNat 32 (b.fftOrder + 2 ^ 8 * b.fifoCap + 2 ^ 16 * b.fftqCap + 2 ^ 24 * b.pathStride)),
        (0x09C#20, BitVec.ofNat 32 (b.fifoBlock + 2 ^ 16 * b.respMax)),
        (0x0F0#20, 0xEE0#32), (0x0F4#20, 0xEE0#32)] : List (Addr × Word)),
      s.peek e.1 = e.2) ∧
    (∀ j : Fin 4, s.cstg[j] = ⟨0x3F800000#32, 0#32, 0#32, 0#32, 0#32⟩) ∧
    (∀ c : Ch,
      (∀ t : Stage, (s.chan c).coef[t] = ⟨0x3F800000#32, 0#32, 0#32, 0#32, 0#32⟩ ∧
        (s.chan c).st[t] = ⟨0#32, 0#32⟩) ∧
      (∀ p : Fin 3, (s.chan c).pbyp[p] = false) ∧
      (∀ t : Stage, (s.chan c).sbyp t = decide (t ≠ 0 ∧ t ≠ 4 ∧ t ≠ 5))) ∧
    (∀ n : Nat, s.an.ring.read n = 0#32 ∧ s.an.fill.read n = 0#32 ∧ s.an.rb.read n = 0#32 ∧
      s.an.fq.read n = 0#32 ∧ s.an.fftOut.read n = 0#32 ∧ s.an.path.read n = 0#32 ∧
      s.curve.db.read n = 0#32 ∧ s.curve.pt.read n = 0#32) ∧
    s.an.fifoRd = 0 ∧ s.an.fqRd = 0) ∧
  State.reset = State.resetOf .reference State.reset.host ∧
  State.reset.peek 0x098#20 = 0x0105200B#32 ∧ State.reset.peek 0x09C#20 = 0x20000200#32

/-- The reset event ends what both agents have in progress, so that AUDIO expects a header, and leaves the reset
state of the same build, whose values ResetValuesAreThoseOfTheTable says (70_reset R360); that the host's side is
kept is the model's choice (log 6). No other step clears PREPARED, FAULT or FAULT_INFO. -/
def Obligations.ResetEndsEverythingAndAloneClearsPreparedAndFault : Prop :=
  (∀ (s : State) (rest : List Turn), s.host.schedule = .reset :: rest →
    ∃ t, step s = .next t ∧ t = State.resetOf s.build { s.host with schedule := rest } ∧
      t.ctrlOp = none ∧ t.audioOp = .header ∧ t.build = s.build ∧ t.prepared = false ∧
      t.fault = 0#32 ∧ t.faultInfo = 0#32) ∧
  (∀ s t : State, step s = .next t → (∀ rest, s.host.schedule ≠ .reset :: rest) →
    (s.prepared = true → t.prepared = true) ∧
    (s.faulted = true → t.fault = s.fault ∧ t.faultInfo = s.faultInfo))

/-! The invariant. -/

/-- The invariant holds after reset, of the reference build and of every legal build. -/
def Obligations.InvariantHoldsAtReset : Prop :=
  State.reset.Inv ∧ ∀ (b : Build) (h : HostSide), b.legal = true → (State.resetOf b h).Inv

/-- Every step keeps the invariant: registers stay in the ranges their checks accept and their reserved bits
0, FAULT stays a legal fault record, the counters stay in their ranges (10_state R75 to R80), every storage
stays canonical and within its size. -/
def Obligations.EveryStepKeepsTheInvariant : Prop :=
  ∀ s t : State, s.Inv → step s = .next t → t.Inv

/-- No step stops the block, and no instruction does: a fault is recorded and the block keeps running
(60_exceptions R331, R340). -/
def Obligations.NothingStopsTheBlock : Prop :=
  (∀ s : State, ∃ t, step s = .next t) ∧ (∀ (i : Instr) (s : State), ∃ t, exec i s = .next t)

/-! Faults. -/

/-- `raise`: the first fault since reset is recorded with its code in bits 7:0 and FAULTED in bit 31; a later
one leaves the state as it is (60_exceptions R331, R332, R342). -/
def Obligations.FirstFaultIsRecordedLaterOnesAreNot : Prop :=
  ∀ (s : State) (info : Word),
    (s.fault.getLsbD 31 = false → ∀ e ∈ ([(.badAccess, 1#32), (.badCmd, 2#32), (.badParam, 3#32),
        (.notPrepared, 4#32), (.blockTooLong, 5#32), (.badGeometry, 6#32), (.designDomain, 7#32),
        (.badStream, 8#32)] : List (Cause × Word)),
      s.raise e.1 info = { s with fault := 0x80000000#32 ||| e.2, faultInfo := info }) ∧
    (s.fault.getLsbD 31 = true → ∀ c, s.raise c info = s)

/-- The operation that records a fault changes nothing else: no register, internal state, flag or CMD_RESULT;
but a faulting read returns 0 and a refused block consumes its words (60_exceptions R331). That its words are
consumed by later steps is the model's choice (log 5). -/
def Obligations.FaultingOperationsChangeNothingElse : Prop :=
  ∀ (i : Instr) (s t : State), exec i s = .next t → (t.fault ≠ s.fault ∨ t.faultInfo ≠ s.faultInfo) →
    ∃ (c : Cause) (info : Word),
      t = s.raise c info ∨
      (∃ a, i = .rd a ∧ t = (s.raise c info).answer 0#32) ∨
      (∃ n, i = .processBlock n ∧
        t = (s.raise c info).setAudioOp (drainLeft (n.toNat * frameWords s.stereoActive)))

/-- Every later operation behaves as if no fault had occurred: under another fault record every instruction,
every step of AUDIO and every step of CTRL does the same but for FAULT, FAULT_INFO and reads of them
(60_exceptions R331). -/
def Obligations.FaultRecordInfluencesNothingElse : Prop :=
  ∀ (s : State) (f g : Word),
    let s' := { s with fault := f, faultInfo := g }
    let same := fun r r' : Result => ∀ t u : State, r = .next t → r' = .next u →
      u = { t with fault := u.fault, faultInfo := u.faultInfo }
    (∀ i : Instr, i ≠ .rd 0x00010#20 → i ≠ .rd 0x00014#20 → same (exec i s) (exec i s')) ∧
    same (audioStep s) (audioStep s') ∧
    ((∀ (d : Transaction) (rest : List Transaction), s.ctrlOp = none → s.host.ctrlIn = d :: rest →
        d.desc ≠ 0x00400010#32 ∧ d.desc ≠ 0x00400014#32) →
      same (ctrlStep s) (ctrlStep s'))

/-- A multi-step operation never faults after its first step (60_exceptions R341). -/
def Obligations.LaterStepsOfAnOperationNeverFault : Prop :=
  ∀ s t : State,
    ((s.ctrlOp ≠ none ∧ ctrlStep s = .next t) ∨ (s.audioOp ≠ .header ∧ audioStep s = .next t)) →
    t.fault = s.fault ∧ t.faultInfo = s.faultInfo

/-! Register and window accesses. -/

/-- A read of a mapped address answers its current value and changes nothing else (20_memory R105, R107): the
registers, each by its address with its fields (10_state R36 to R60), and the entries of CSTG (10_state R58) and
of the windows COEF, STATE, FFT_OUT, PATH, RESP_DB, RESP_PATH and RB (R61 to R67). -/
def Obligations.ReadsOfMappedAddressesAnswerTheirValues : Prop :=
  ∀ s : State, s.build.legal = true →
    (let bit := fun (v : Bool) (n : Nat) => v.toNat * 2 ^ n
     let flags := fun k : Channel => BitVec.ofNat 32
       (bit k.pbyp[0] 0 + bit k.pbyp[1] 1 + bit k.pbyp[2] 2 + bit (k.sbyp 0) 4 + bit (k.sbyp 1) 5 +
        bit (k.sbyp 2) 6 + bit (k.sbyp 3) 7 + bit (k.sbyp 5) 8 + bit (k.sbyp 6) 9 + bit (k.sbyp 7) 10 +
        bit (k.sbyp 8) 11)
     let status := BitVec.ofNat 32
       (bit s.prepared 0 + bit s.dirty 1 + bit s.stereoActive 2 + bit s.an.fftOutValid 3 +
        bit s.an.pathValid 4 + bit s.curve.valid 5)
     ∀ e ∈ ([(0x000#20, 0x33424551#32), (0x004#20, 7#32), (0x008#20, s.config), (0x00C#20, status),
         (0x010#20, s.fault), (0x014#20, s.faultInfo), (0x018#20, 0#32), (0x01C#20, s.cmdResult),
         (0x020#20, s.sampleRate), (0x024#20, s.maxBlock), (0x028#20, s.srActive), (0x02C#20, s.maxblkActive),
         (0x040#20, s.params.lowcutFreq), (0x044#20, s.params.highcutFreq), (0x048#20, s.params.peakFreq),
         (0x04C#20, s.params.peakGainDb), (0x050#20, s.params.peakQ), (0x054#20, s.params.settings),
         (0x060#20, BitVec.ofNat 32 s.an.fifoCount), (0x064#20, BitVec.ofNat 32 s.an.fillCount),
         (0x068#20, BitVec.ofNat 32 s.an.rbCount), (0x06C#20, BitVec.ofNat 32 s.an.fqCount),
         (0x070#20, s.an.pathSeq), (0x074#20, BitVec.ofNat 32 s.an.pathLen),
         (0x078#20, BitVec.ofNat 32 s.curve.len), (0x080#20, s.bounds.x), (0x084#20, s.bounds.y),
         (0x088#20, s.bounds.w), (0x08C#20, s.bounds.h), (0x090#20, s.floorDb), (0x094#20, s.respPoints),
         (0x098#20, BitVec.ofNat 32 (s.build.fftOrder + 2 ^ 8 * s.build.fifoCap + 2 ^ 16 * s.build.fftqCap +
           2 ^ 24 * s.build.pathStride)),
         (0x09C#20, BitVec.ofNat 32 (s.build.fifoBlock + 2 ^ 16 * s.build.respMax)),
         (0x0F0#20, flags s.ch0), (0x0F4#20, flags s.ch1)] : List (Addr × Word)),
       exec (.rd e.1) s = .next (s.answer e.2)) ∧
    (∀ (j : Fin 4) (i : Fin 5), exec (.rd (BitVec.ofNat 20 (0x0A0 + 20 * j + 4 * i))) s =
      .next (s.answer (s.cstg[j].get i))) ∧
    (∀ (c : Ch) (t : Stage) (i : Fin 5),
      exec (.rd (BitVec.ofNat 20 (0x1000 + 4 * ((9 * c.num + t) * 5 + i)))) s =
        .next (s.answer ((s.chan c).coef[t].get i))) ∧
    (∀ (c : Ch) (t : Stage),
      exec (.rd (BitVec.ofNat 20 (0x1400 + 4 * ((9 * c.num + t) * 2)))) s =
        .next (s.answer (s.chan c).st[t].s1) ∧
      exec (.rd (BitVec.ofNat 20 (0x1400 + 4 * ((9 * c.num + t) * 2 + 1)))) s =
        .next (s.answer (s.chan c).st[t].s2)) ∧
    (∀ k < s.build.bins,
      exec (.rd (BitVec.ofNat 20 (0x10000 + 4 * k))) s = .next (s.answer (s.an.fftOut.read k))) ∧
    (∀ p < s.build.bins,
      exec (.rd (BitVec.ofNat 20 (0x20000 + 8 * p))) s =
        .next (s.answer (if p < s.an.pathLen then s.an.path.read (2 * p) else 0#32)) ∧
      exec (.rd (BitVec.ofNat 20 (0x20000 + 8 * p + 4))) s =
        .next (s.answer (if p < s.an.pathLen then s.an.path.read (2 * p + 1) else 0#32))) ∧
    (∀ i < s.build.respMax,
      exec (.rd (BitVec.ofNat 20 (0x30000 + 4 * i))) s =
        .next (s.answer (if i < s.curve.len then s.curve.db.read i else 0#32)) ∧
      exec (.rd (BitVec.ofNat 20 (0x40000 + 8 * i))) s =
        .next (s.answer (if i < s.curve.len then s.curve.pt.read (2 * i) else 0#32)) ∧
      exec (.rd (BitVec.ofNat 20 (0x40000 + 8 * i + 4))) s =
        .next (s.answer (if i < s.curve.len then s.curve.pt.read (2 * i + 1) else 0#32))) ∧
    (∀ n < s.build.fftSize,
      exec (.rd (BitVec.ofNat 20 (0x50000 + 4 * n))) s = .next (s.answer (s.an.rb.read n)))

/-- An access to a misaligned or unmapped address raises BAD_ACCESS with the address; a read answers 0, a
write changes nothing (20_memory R104, 10_state R33, R34). The RESP_PATH window fills its range. -/
def Obligations.UnmappedAccessesRaiseBadAccess : Prop :=
  ∀ (s : State) (a : Addr) (v : Word), s.build.legal = true →
    (a.toNat % 4 ≠ 0 ∨ (0x030 ≤ a.toNat ∧ a.toNat < 0x040) ∨ (0x058 ≤ a.toNat ∧ a.toNat < 0x060) ∨
      (0x07C ≤ a.toNat ∧ a.toNat < 0x080) ∨ (0x0F8 ≤ a.toNat ∧ a.toNat < 0x1000) ∨
      (0x1168 ≤ a.toNat ∧ a.toNat < 0x1400) ∨ (0x1490 ≤ a.toNat ∧ a.toNat < 0x10000) ∨
      (0x10000 + 4 * s.build.bins ≤ a.toNat ∧ a.toNat < 0x20000) ∨
      (0x20000 + 8 * s.build.bins ≤ a.toNat ∧ a.toNat < 0x30000) ∨
      (0x30000 + 4 * s.build.respMax ≤ a.toNat ∧ a.toNat < 0x40000) ∨
      0x50000 + 4 * s.build.fftSize ≤ a.toNat) →
    exec (.rd a) s = .next ((s.raise .badAccess (a.setWidth 32)).answer 0#32) ∧
    exec (.wr a v) s = .next (s.raise .badAccess (a.setWidth 32))

/-- A write to a read-only register or window raises BAD_ACCESS and changes nothing (10_state R32, R33;
60_exceptions R333). Every address from 0x0F0 up is read-only or unmapped. -/
def Obligations.WritesToReadOnlyAddressesRaiseBadAccess : Prop :=
  ∀ (s : State) (v : Word),
    (∀ r ∈ ([.id, .version, .status, .fault, .faultInfo, .cmdResult, .srActive, .maxblkActive, .fifoCount,
        .fillCount, .rbCount, .fftqCount, .pathSeq, .pathLen, .respLen, .build0, .build1, .chainFlags0,
        .chainFlags1] : List Reg),
      exec (.wr r.addr v) s = .next (s.raise .badAccess (BitVec.ofNat 32 r.offset))) ∧
    (∀ a : Addr, 0x0F0 ≤ a.toNat → exec (.wr a v) s = .next (s.raise .badAccess (a.setWidth 32)))

/-- Parameter writes (42_parameter_snapshot R231): a NaN or a value outside the inclusive range of the
register (10_state R45 to R49) raises BAD_PARAM with the register's address; any other value is stored as
written and sets DIRTY, even the value already held. A write to SETTINGS keeps bits 7:0 and never faults. -/
def Obligations.ParameterWritesStoreInRangeAndSetDirty : Prop :=
  ∀ (v : Word) (s : State),
    let bad := fun lo hi : Word =>
      Fl.ofWord v == .nan || Fl.lt (Fl.ofWord v) (Fl.ofWord lo) || Fl.lt (Fl.ofWord hi) (Fl.ofWord v)
    exec (.wr 0x00040#20 v) s = .next (if bad 0x41A00000#32 0x469C4000#32 then s.raise .badParam 0x040#32
      else { s with params := { s.params with lowcutFreq := v }, dirty := true }) ∧
    exec (.wr 0x00044#20 v) s = .next (if bad 0x41A00000#32 0x469C4000#32 then s.raise .badParam 0x044#32
      else { s with params := { s.params with highcutFreq := v }, dirty := true }) ∧
    exec (.wr 0x00048#20 v) s = .next (if bad 0x41A00000#32 0x469C4000#32 then s.raise .badParam 0x048#32
      else { s with params := { s.params with peakFreq := v }, dirty := true }) ∧
    exec (.wr 0x0004C#20 v) s = .next (if bad 0xC1C00000#32 0x41C00000#32 then s.raise .badParam 0x04C#32
      else { s with params := { s.params with peakGainDb := v }, dirty := true }) ∧
    exec (.wr 0x00050#20 v) s = .next (if bad 0x3DCCCCCD#32 0x41200000#32 then s.raise .badParam 0x050#32
      else { s with params := { s.params with peakQ := v }, dirty := true }) ∧
    exec (.wr 0x00054#20 v) s =
      .next { s with params := { s.params with settings := v &&& 0x000000FF#32 }, dirty := true }

/-- The other checked registers (10_state R41, R42, R55, R56, R57), each check as a range of the word: a
binary32 word is finite and above 0.0 exactly when it lies in 1..0x7F7FFFFF, finite and below 0.0 exactly when
it lies in 0x80000001..0xFF7FFFFF, finite exactly when its exponent field is not 255. None sets DIRTY. That
these checks do not flush, so that the subnormal ends of the ranges are accepted in an FTZ_DAZ build too, is the
model's choice (log 8). -/
def Obligations.CheckedRegistersAcceptTheirRanges : Prop :=
  ∀ (v : Word) (s : State),
    let finite := v.toNat / 2 ^ 23 % 256 ≠ 255
    exec (.wr 0x00020#20 v) s = .next (if 1 ≤ v.toNat ∧ v.toNat ≤ 0x7F7FFFFF then { s with sampleRate := v }
      else s.raise .badParam 0x020#32) ∧
    exec (.wr 0x00024#20 v) s = .next (if 1 ≤ v.toNat ∧ v.toNat ≤ 65535 then { s with maxBlock := v }
      else s.raise .badParam 0x024#32) ∧
    exec (.wr 0x00080#20 v) s = .next (if finite then { s with bounds := { s.bounds with x := v } }
      else s.raise .badParam 0x080#32) ∧
    exec (.wr 0x00084#20 v) s = .next (if finite then { s with bounds := { s.bounds with y := v } }
      else s.raise .badParam 0x084#32) ∧
    exec (.wr 0x00088#20 v) s = .next (if finite then { s with bounds := { s.bounds with w := v } }
      else s.raise .badParam 0x088#32) ∧
    exec (.wr 0x0008C#20 v) s = .next (if finite then { s with bounds := { s.bounds with h := v } }
      else s.raise .badParam 0x08C#32) ∧
    exec (.wr 0x00090#20 v) s = .next
      (if 0x80000001 ≤ v.toNat ∧ v.toNat ≤ 0xFF7FFFFF then { s with floorDb := v }
       else s.raise .badParam 0x090#32) ∧
    exec (.wr 0x00094#20 v) s = .next
      (if 1 ≤ v.toNat ∧ v.toNat ≤ s.build.respMax then { s with respPoints := v }
       else s.raise .badParam 0x094#32)

/-- CONFIG keeps bit 0 of any value and never faults (10_state R38); CSTG[j][i] stores any value and never
faults (R58), its other entries unchanged. Neither sets DIRTY. -/
def Obligations.ConfigAndStagingWritesNeverFault : Prop :=
  ∀ (v : Word) (s : State),
    exec (.wr 0x00008#20 v) s = .next { s with config := v &&& 1#32 } ∧
    (∀ (j : Fin 4) (i : Fin 5), ∃ t,
      exec (.wr (BitVec.ofNat 20 (0x0A0 + 20 * j + 4 * i)) v) s = .next t ∧
      { t with cstg := s.cstg } = s ∧
      ∀ (j' : Fin 4) (i' : Fin 5),
        t.cstg[j'].get i' = if j' = j ∧ i' = i then v else s.cstg[j'].get i')

/-! Commands: parameters, PREPARE, TICK. -/

/-- NOP writes CMD_RESULT and changes nothing else; its word is 0x00000000, and a nonzero bit above bit 7
makes the word illegal (42_parameter_snapshot R236). -/
def Obligations.NopOnlyWritesCmdResult : Prop :=
  ∀ s : State,
    exec .nop s = .next { s with cmdResult := 0x00000001#32 } ∧
    exec (.wr 0x00018#20 0#32) s = .next { s with cmdResult := 0x00000001#32 } ∧
    ∀ v : Word, v.toNat % 256 = 0 → v ≠ 0#32 → exec (.wr 0x00018#20 v) s = .next (s.raise .badCmd v)

/-- The full design of a snapshot (40_coefficient_factory R170, R166): the first frequency at or above fs/2 in
the order LOWCUT, PEAK, HIGHCUT fails it, bypassed positions included; otherwise the nine sets and the flags. -/
def Obligations.FullDesignChecksThenDesignsEveryStage : Prop :=
  ∀ (b : Build) (p : Params) (fs : Word),
    (belowHalf b fs p.lowcutFreq = false → fullDesign b p fs = .error 0x040#32) ∧
    (belowHalf b fs p.lowcutFreq = true → belowHalf b fs p.peakFreq = false →
      fullDesign b p fs = .error 0x048#32) ∧
    (belowHalf b fs p.lowcutFreq = true → belowHalf b fs p.peakFreq = true →
      belowHalf b fs p.highcutFreq = false → fullDesign b p fs = .error 0x044#32) ∧
    (belowHalf b fs p.lowcutFreq = true → belowHalf b fs p.peakFreq = true →
      belowHalf b fs p.highcutFreq = true → ∃ d, fullDesign b p fs = .ok d ∧
        (∀ i : Fin 4, d.coef[i.val] =
          if i.val ≤ (p.settings.extractLsb' 0 2).toNat then
            hpSection b fs p.lowcutFreq (p.settings.extractLsb' 0 2).toNat i
          else ⟨0x3F800000#32, 0#32, 0#32, 0#32, 0#32⟩) ∧
        d.coef[4] = peakDesign b fs p.peakFreq p.peakQ p.peakGainDb ∧
        (∀ i : Fin 4, d.coef[5 + i.val] =
          if i.val ≤ (p.settings.extractLsb' 2 2).toNat then
            lpSection b fs p.highcutFreq (p.settings.extractLsb' 2 2).toNat i
          else ⟨0x3F800000#32, 0#32, 0#32, 0#32, 0#32⟩) ∧
        (∀ i : Fin 4, d.lcByp[i] = decide ((p.settings.extractLsb' 0 2).toNat < i.val)) ∧
        (∀ i : Fin 4, d.hcByp[i] = decide ((p.settings.extractLsb' 2 2).toNat < i.val)) ∧
        d.pbyp = #v[p.settings.getLsbD 4, p.settings.getLsbD 5, p.settings.getLsbD 6])

/-- PREPARE (41_filter_chain R190): a failing design raises DESIGN_DOMAIN and changes nothing; otherwise the
registers are latched, every set and flag of both channels installed and every delay zeroed, in one step, and
nothing else changes. -/
def Obligations.PrepareLatchesDesignsAndZeroesTheChain : Prop :=
  ∀ s : State,
    (∀ a, fullDesign s.build s.params s.sampleRate = .error a →
      exec .prepare s = .next (s.raise .designDomain a)) ∧
    (∀ d, fullDesign s.build s.params s.sampleRate = .ok d →
      let chain : Channel :=
        { coef := d.coef, st := Vector.replicate 9 ⟨0#32, 0#32⟩, pbyp := d.pbyp, lcByp := d.lcByp,
          hcByp := d.hcByp }
      exec .prepare s = .next { s with
        srActive := s.sampleRate, maxblkActive := s.maxBlock, stereoActive := s.config.getLsbD 0,
        ch0 := chain, ch1 := chain, dirty := false, prepared := true, cmdResult := 0x00000101#32 })

/-- TICK (42_parameter_snapshot R234): a no-op before PREPARE or with DIRTY 0; a failing design raises
DESIGN_DOMAIN and leaves DIRTY set; otherwise the decision step clears DIRTY, and 20 install steps follow, one
atomic step each in the order of the rule, which leave the full design in both channels, every delay as it
was, and nothing else changed but CMD_RESULT. That CMD_RESULT is written with the last install step is the
model's reading (log 4). -/
def Obligations.TickDecidesThenInstallsTheFullDesign : Prop :=
  ∀ s : State,
    (s.prepared = false ∨ s.dirty = false → exec .tick s = .next { s with cmdResult := 0x00000200#32 }) ∧
    (s.prepared = true → s.dirty = true →
      (∀ a, fullDesign s.build s.params s.srActive = .error a →
        exec .tick s = .next (s.raise .designDomain a)) ∧
      (∀ d, fullDesign s.build s.params s.srActive = .ok d →
        let flag := fun t : Stage =>
          if h : t.val < 4 then d.lcByp[t.val] else if h : t.val = 4 then false else d.hcByp[t.val - 5]
        let todo := [Ch.c0, Ch.c1].flatMap fun c =>
          ((List.finRange 9).map fun t => Install.stage c t d.coef[t] (flag t)) ++ [Install.flags c d.pbyp]
        let t : State := { s with dirty := false, ctrlOp := some ⟨0x02#8, todo⟩ }
        exec .tick s = .next t ∧
        ctrlRun 20 t = .next { s with
          dirty := false, ctrlOp := none, cmdResult := 0x00000201#32
          ch0 := { s.ch0 with coef := d.coef, pbyp := d.pbyp, lcByp := d.lcByp, hcByp := d.hcByp }
          ch1 := { s.ch1 with coef := d.coef, pbyp := d.pbyp, lcByp := d.lcByp, hcByp := d.hcByp } }))

/-! Installs and bypass. -/

/-- The install steps (41_filter_chain R193 to R195): each writes one stage's set, or one stage's set with its
bypass flag, or one channel's position flags, and nothing else; every delay is unchanged. -/
def Obligations.InstallStepsWriteOnlyWhatTheyName : Prop :=
  ∀ (s : State) (c : Ch) (t : Stage) (set : CoefSet) (b : Bool) (p : PosFlags),
    (let u := Install.apply s (.coef c t set)
     { u with ch0 := s.ch0, ch1 := s.ch1 } = s ∧
     ∀ c' : Ch, (u.chan c').st = (s.chan c').st ∧ (u.chan c').pbyp = (s.chan c').pbyp ∧
       ∀ t' : Stage, (u.chan c').sbyp t' = (s.chan c').sbyp t' ∧
         (u.chan c').coef[t'] = if c' = c ∧ t' = t then set else (s.chan c').coef[t']) ∧
    (let u := Install.apply s (.stage c t set b)
     { u with ch0 := s.ch0, ch1 := s.ch1 } = s ∧
     ∀ c' : Ch, (u.chan c').st = (s.chan c').st ∧ (u.chan c').pbyp = (s.chan c').pbyp ∧
       ∀ t' : Stage,
         ((u.chan c').sbyp t' = if c' = c ∧ t' = t ∧ t ≠ 4 then b else (s.chan c').sbyp t') ∧
         (u.chan c').coef[t'] = if c' = c ∧ t' = t then set else (s.chan c').coef[t']) ∧
    (let u := Install.apply s (.flags c p)
     { u with ch0 := s.ch0, ch1 := s.ch1 } = s ∧
     ∀ c' : Ch, (u.chan c').st = (s.chan c').st ∧ (u.chan c').coef = (s.chan c').coef ∧
       ((u.chan c').pbyp = if c' = c then p else (s.chan c').pbyp) ∧
       ∀ t' : Stage, (u.chan c').sbyp t' = (s.chan c').sbyp t')

/-- UPDATE_COEF (41_filter_chain R210): the set of the slot, read once, goes into the stage of every channel
in the mask, channel 0 first, one step per channel; nothing else changes but CMD_RESULT. A STAGE above 8 or an
empty mask raises BAD_CMD. That CMD_RESULT is written with the last install step is the model's reading (log 4). -/
def Obligations.UpdateCoefInstallsTheStagedSet : Prop :=
  ∀ (s : State) (slot : Fin 4) (ch : BitVec 2),
    (∀ stage : Stage, ch ≠ 0#2 →
      let i := Instr.updateCoef (BitVec.ofNat 4 stage) (BitVec.ofNat 2 slot) ch
      let set := s.cstg[slot]
      let k0 : Channel := if ch.getLsbD 0 then { s.ch0 with coef := s.ch0.coef.set stage set } else s.ch0
      let k1 : Channel := if ch.getLsbD 1 then { s.ch1 with coef := s.ch1.coef.set stage set } else s.ch1
      let u : State := { s with ch0 := k0, ch1 := k1, ctrlOp := none, cmdResult := 0x00000601#32 }
      if ch = 3#2 then
        ∃ t, exec i s = .next t ∧ { t with ctrlOp := s.ctrlOp } = { s with ch0 := k0 } ∧ ctrlStep t = .next u
      else exec i s = .next u) ∧
    (∀ stage : BitVec 4, 8 < stage.toNat ∨ ch = 0#2 →
      exec (.updateCoef stage (BitVec.ofNat 2 slot) ch) s =
        .next (s.raise .badCmd (encodeWord (.updateCoef stage (BitVec.ofNat 2 slot) ch))))

/-- Installing the same set twice leaves the state installing it once leaves (41_filter_chain R211). -/
def Obligations.InstallingASetTwiceIsInstallingItOnce : Prop :=
  ∀ (s : State) (stage : BitVec 4) (slot ch : BitVec 2), stage.toNat ≤ 8 → ch ≠ 0#2 →
    ∃ t u t', exec (.updateCoef stage slot ch) s = .next t ∧
      ctrlRun (if ch = 3#2 then 1 else 0) t = .next u ∧
      exec (.updateCoef stage slot ch) u = .next t' ∧
      ctrlRun (if ch = 3#2 then 1 else 0) t' = .next u

/-- SET_BYPASS (41_filter_chain R215, 30_encoding R139): the flag TGT names takes VAL in every channel of the
mask, channel 0 first, one step per channel; every other flag, every set and every delay is unchanged, and
nothing else changes but CMD_RESULT. A TGT above 10 or an empty mask raises BAD_CMD. That CMD_RESULT is written
with the last flag write is the model's reading (log 4). -/
def Obligations.SetBypassWritesTheFlagTheTargetNames : Prop :=
  ∀ (s : State) (ch : BitVec 2) (val : BitVec 1),
    (∀ tgt : Fin 11, ch ≠ 0#2 → ∃ t u : State,
      exec (.setBypass (BitVec.ofNat 4 tgt) val ch) s = .next t ∧
      ctrlRun (if ch = 3#2 then 1 else 0) t = .next u ∧ (ch = 3#2 → t.ch1 = s.ch1 ∧ t.ch0 = u.ch0) ∧
      { u with ch0 := s.ch0, ch1 := s.ch1 } = { s with ctrlOp := none, cmdResult := 0x00000701#32 } ∧
      ∀ c : Ch, (u.chan c).coef = (s.chan c).coef ∧ (u.chan c).st = (s.chan c).st ∧
        (∀ p : Fin 3, (u.chan c).pbyp[p] =
          if ch.getLsbD c.num ∧ tgt.val = p.val then val == 1#1 else (s.chan c).pbyp[p]) ∧
        (∀ k : Stage, (u.chan c).sbyp k =
          if ch.getLsbD c.num ∧ ((k.val < 4 ∧ tgt.val = 3 + k.val) ∨ (4 < k.val ∧ tgt.val = 2 + k.val)) then
            val == 1#1
          else (s.chan c).sbyp k)) ∧
    (∀ tgt : BitVec 4, 10 < tgt.toNat ∨ ch = 0#2 →
      exec (.setBypass tgt val ch) s = .next (s.raise .badCmd (encodeWord (.setBypass tgt val ch))))

/-! The coefficient factory. -/

/-- DESIGN_PEAK (40_coefficient_factory R167): NOT_PREPARED, then DESIGN_DOMAIN, then slot 0 takes the peak
design; slots 1 to 3, DIRTY and the chain are unchanged. The peak design is the formulas of R161 and R162 in
DESIGN_FMT, each coefficient rounded once; the order of the operations is the model's reading (log 9). At 0 dB, with
the correctly rounded MATH, b1 = a1 and b2 = a2, and in binary64 b0 = 1.0 for every alpha of the design's range
(R167), a NaN having a free payload (log 7). The example of R167 holds bit for bit in the reference build. -/
def Obligations.DesignPeakWritesSlotZero : Prop :=
  (∀ (b : Build) (fs f q gdb : Word),
    let ar := b.design
    let one := Fl.nat 1
    let g := b.fn .exp10 (ar.div (Fl.ofWord gdb) (Fl.nat 20))
    let amp := b.fn .sqrt g
    let w := ar.div (ar.mul (ar.mul (Fl.nat 2) b.pi) (Fl.ofWord f)) (Fl.ofWord fs)
    let alpha := ar.div (b.fn .sin w) (ar.mul (Fl.nat 2) (Fl.ofWord q))
    let c := ar.mul (Fl.nat 2).neg (b.fn .cos w)
    let inv := ar.div one (ar.add one (ar.div alpha amp))
    let set := peakDesign b fs f q gdb
    let same := fun u v : Word => u = v ∨ (Fl.ofWord u = .nan ∧ Fl.ofWord v = .nan)
    (∃ key, set.b0 = (ar.mul (ar.add one (ar.mul alpha amp)) inv).toWord key) ∧
    (∃ key, set.b1 = (ar.mul c inv).toWord key) ∧
    (∃ key, set.b2 = (ar.mul (ar.sub one (ar.mul alpha amp)) inv).toWord key) ∧
    (∃ key, set.a1 = (ar.mul c inv).toWord key) ∧
    (∃ key, set.a2 = (ar.mul (ar.sub one (ar.div alpha amp)) inv).toWord key) ∧
    (b.math = .reference → gdb &&& 0x7FFFFFFF#32 = 0#32 →
      same set.b1 set.a1 ∧ same set.b2 set.a2 ∧
      (b.designFmt = .binary64 → Fl.le (Fl.nat 0) alpha = true → Fl.le alpha (Fl.nat 8) = true →
        set.b0 = 0x3F800000#32))) ∧
  peakDesign .reference 0x473B8000#32 0x447A0000#32 0x3F800000#32 0x40C00000#32 =
    ⟨0x3F85A041#32, 0xBFF299DF#32, 0x3F5E230C#32, 0xBFF299DF#32, 0x3F69638F#32⟩ ∧
  ∀ s : State,
    let half := s.build.design.div (Fl.ofWord s.srActive) (Fl.nat 2)
    (s.prepared = false → exec .designPeak s = .next (s.raise .notPrepared 0x00000003#32)) ∧
    (s.prepared = true → Fl.lt (Fl.ofWord s.params.peakFreq) half = false →
      exec .designPeak s = .next (s.raise .designDomain 0x048#32)) ∧
    (s.prepared = true → Fl.lt (Fl.ofWord s.params.peakFreq) half = true →
      exec .designPeak s = .next { s with
        cmdResult := 0x00000301#32
        cstg := #v[peakDesign s.build s.srActive s.params.peakFreq s.params.peakQ s.params.peakGainDb,
          s.cstg[1], s.cstg[2], s.cstg[3]] })

/-- DESIGN_LOWCUT and DESIGN_HIGHCUT (40_coefficient_factory R168, R169): NOT_PREPARED, then DESIGN_DOMAIN,
then the four slots take the cut cascade of the slope (R166); DIRTY and the chain are unchanged. A section is the
formulas of R163 to R165 in DESIGN_FMT for every slope index, each coefficient rounded once; the order of the
operations is the model's reading (log 9), and so is that a low-pass b1 that underflows is zero, which R171 denies
(log 23). The examples of both rules and sections of the steeper cascades hold bit for bit in the reference build
(95_test_vectors V4, V5, V6, V8, V9). -/
def Obligations.DesignCutsWriteTheFourSlots : Prop :=
  (∀ (b : Build) (fs f : Word) (k i : Nat),
    let ar := b.design
    let one := Fl.nat 1
    let two := Fl.nat 2
    let m := 2 * (k + 1)
    let q := ar.div one (ar.mul two (b.fn .cos (ar.div (ar.mul (Fl.nat (2 * i + 1)) b.pi) (Fl.nat (2 * m)))))
    let iq := ar.div one q
    let t := b.fn .tan (ar.div (ar.mul b.pi (Fl.ofWord f)) (Fl.ofWord fs))
    let c1 := fun n : Fl => ar.div one (ar.add (ar.add one (ar.mul iq n)) (ar.mul n n))
    let last := fun n : Fl => ar.mul (c1 n) (ar.add (ar.sub one (ar.mul iq n)) (ar.mul n n))
    let hp := hpSection b fs f k i
    let lp := lpSection b fs f k i
    let n := ar.div one t
    (∃ key, hp.b0 = (c1 t).toWord key ∧ hp.b2 = hp.b0) ∧
    (∃ key, hp.b1 = (ar.mul two.neg (c1 t)).toWord key) ∧
    (∃ key, hp.a1 = (ar.mul (ar.mul two (c1 t)) (ar.sub (ar.mul t t) one)).toWord key) ∧
    (∃ key, hp.a2 = (last t).toWord key) ∧
    (∃ key, lp.b0 = (c1 n).toWord key ∧ lp.b2 = lp.b0) ∧
    (∃ key, lp.b1 = (ar.mul two (c1 n)).toWord key) ∧
    (∃ key, lp.a1 = (ar.mul (ar.mul two (c1 n)) (ar.sub one (ar.mul n n))).toWord key) ∧
    (∃ key, lp.a2 = (last n).toWord key)) ∧
  hpSection .reference 0x473B8000#32 0x43480000#32 0 0 =
    ⟨0x3F7B4DF5#32, 0xBFFB4DF5#32, 0x3F7B4DF5#32, 0xBFFB42EE#32, 0x3F76B1F6#32⟩ ∧
  lpSection .reference 0x473B8000#32 0x469C4000#32 0 0 =
    ⟨0x3F30765E#32, 0x3FB0765E#32, 0x3F30765E#32, 0x3FA3CAFF#32, 0x3EF486F9#32⟩ ∧
  hpSection .reference 0x473B8000#32 0x43480000#32 3 1 =
    ⟨0x3F7A80FB#32, 0xBFFA80FB#32, 0x3F7A80FB#32, 0xBFFA75FE#32, 0x3F7517F2#32⟩ ∧
  lpSection .reference 0x473B8000#32 0x459C4000#32 1 0 =
    ⟨0x3D876F48#32, 0x3E076F48#32, 0x3D876F48#32, 0xBF81FD4F#32, 0x3E8F6483#32⟩ ∧
  hpSection .reference 0x472C4400#32 0x447A0000#32 2 2 =
    ⟨0x3F75AC9F#32, 0xBFF5AC9F#32, 0x3F75AC9F#32, 0xBFF46C5E#32, 0x3F6DD9C0#32⟩ ∧
  ∀ s : State,
    let half := s.build.design.div (Fl.ofWord s.srActive) (Fl.nat 2)
    let lc := (s.params.settings.extractLsb' 0 2).toNat
    let hc := (s.params.settings.extractLsb' 2 2).toNat
    (s.prepared = false → exec .designLowcut s = .next (s.raise .notPrepared 0x00000004#32) ∧
      exec .designHighcut s = .next (s.raise .notPrepared 0x00000005#32)) ∧
    (s.prepared = true → Fl.lt (Fl.ofWord s.params.lowcutFreq) half = false →
      exec .designLowcut s = .next (s.raise .designDomain 0x040#32)) ∧
    (s.prepared = true → Fl.lt (Fl.ofWord s.params.highcutFreq) half = false →
      exec .designHighcut s = .next (s.raise .designDomain 0x044#32)) ∧
    (s.prepared = true → Fl.lt (Fl.ofWord s.params.lowcutFreq) half = true → ∃ sets : Vector CoefSet 4,
      exec .designLowcut s = .next { s with cstg := sets, cmdResult := 0x00000401#32 } ∧
      ∀ i : Fin 4, sets[i] = if i.val ≤ lc then hpSection s.build s.srActive s.params.lowcutFreq lc i
        else ⟨0x3F800000#32, 0#32, 0#32, 0#32, 0#32⟩) ∧
    (s.prepared = true → Fl.lt (Fl.ofWord s.params.highcutFreq) half = true → ∃ sets : Vector CoefSet 4,
      exec .designHighcut s = .next { s with cstg := sets, cmdResult := 0x00000501#32 } ∧
      ∀ i : Fin 4, sets[i] = if i.val ≤ hc then lpSection s.build s.srActive s.params.highcutFreq hc i
        else ⟨0x3F800000#32, 0#32, 0#32, 0#32, 0#32⟩)

/-! The analysis path. -/

/-- The tap (43_fifo_fft R261): the sample joins the partial block; a full one is pushed, or dropped by a full
FIFO, and the partial block starts again. -/
def Obligations.TapFillsThenPushesWholeBlocks : Prop :=
  ∀ (b : Build) (a : Analysis) (x : Word), b.legal = true → a.fifoOk b = true →
    (a.fillCount + 1 < b.fifoBlock →
      (tap b a x).partialBlock = a.partialBlock ++ [x] ∧ (tap b a x).fifoBlocks b = a.fifoBlocks b) ∧
    (a.fillCount + 1 = b.fifoBlock →
      (tap b a x).fillCount = 0 ∧
      (tap b a x).fifoBlocks b =
        if a.fifoCount < b.fifoCap then a.fifoBlocks b ++ [a.partialBlock ++ [x]] else a.fifoBlocks b)

/-- The FIFO is a bounded queue (43_fifo_fft R262, R263; 20_memory R114): a push appends the block, or drops
it and changes nothing when the FIFO is full; a pop takes the oldest block; and for any sequence of pushes with no
pop the first FIFO_CAP blocks are accepted and every later one is rejected. -/
def Obligations.FifoIsABoundedQueue : Prop :=
  (∀ (b : Build) (a : Analysis) (block : List Word), b.legal = true → a.fifoOk b = true →
     block.length = b.fifoBlock →
     (a.fifoCount < b.fifoCap → (push b a block).fifoBlocks b = a.fifoBlocks b ++ [block]) ∧
     (a.fifoCount = b.fifoCap → push b a block = a) ∧
     (0 < a.fifoCount → (popShift b a).fifoBlocks b = (a.fifoBlocks b).tail)) ∧
  (∀ (b : Build) (a : Analysis) (blocks : List (List Word)), b.legal = true → a.fifoOk b = true →
     a.fifoCount = 0 → (∀ block ∈ blocks, block.length = b.fifoBlock) →
     (blocks.foldl (push b) a).fifoBlocks b = blocks.take b.fifoCap)

/-- `rbShift` and the rolling buffer property (43_fifo_fft R271): a block shifts the samples left by its length
and stands at the tail, RB_COUNT saturates at N, and after any blocks the buffer holds exactly the last N samples of
what it held followed by them, in their order. A pop (R270) shifts the FIFO's oldest block in so, and changes nothing
else of the analysis state but the FIFO's read slot and count. -/
def Obligations.RollingBufferHoldsTheLastSamples : Prop :=
  (∀ (b : Build) (rb : Memory) (block : List Word), b.legal = true → block.length = b.fifoBlock →
    ∀ n < b.fftSize, (rbShift b rb block).read n =
      if n < b.fftSize - b.fifoBlock then rb.read (n + b.fifoBlock)
      else block.getD (n - (b.fftSize - b.fifoBlock)) 0#32) ∧
  (∀ (b : Build) (a : Analysis), (popShift b a).rbCount = min b.fftSize (a.rbCount + b.fifoBlock)) ∧
  (∀ (b : Build) (rb : Memory) (blocks : List (List Word)), b.legal = true →
    (∀ block ∈ blocks, block.length = b.fifoBlock) →
    (blocks.foldl (rbShift b) rb).slice 0 b.fftSize =
      (rb.slice 0 b.fftSize ++ blocks.flatten).drop (blocks.length * b.fifoBlock)) ∧
  (∀ (b : Build) (a : Analysis), b.legal = true →
     (∀ n < b.fftSize, (popShift b a).rb.read n =
       if n < b.fftSize - b.fifoBlock then a.rb.read (n + b.fifoBlock)
       else a.ring.read (a.fifoRd * b.fifoBlock + (n - (b.fftSize - b.fifoBlock)))) ∧
     popShift b a = { a with
       rb := (popShift b a).rb, rbCount := min b.fftSize (a.rbCount + b.fifoBlock)
       fifoRd := (a.fifoRd + 1) % b.fifoCap, fifoCount := a.fifoCount - 1 })

/-- AN_STEP (43_fifo_fft R270, R272 to R274): with AN_BYP or an empty FIFO it only reports 0; otherwise the
oldest block enters the rolling buffer, and once that holds N samples one FFTDataBlock is computed and
enqueued, or dropped by a full queue. Nothing outside the analysis state changes but CMD_RESULT. -/
def Obligations.AnStepPopsShiftsAndProduces : Prop :=
  ∀ s : State,
    let bypassed := s.params.settings.getLsbD 7
    let a := popShift s.build s.an
    ((bypassed = true ∨ s.an.fifoCount = 0) → exec .anStep s = .next { s with cmdResult := 0x00000800#32 }) ∧
    (bypassed = false → s.an.fifoCount ≠ 0 → a.rbCount < s.build.fftSize →
      exec .anStep s = .next { s with an := a, cmdResult := 0x00000801#32 }) ∧
    (bypassed = false → s.an.fifoCount ≠ 0 → ¬ a.rbCount < s.build.fftSize →
      s.an.fqCount < s.build.fftqCap →
      exec .anStep s = .next { s with
        an := enqueue s.build a (fftBlock s.build (a.rb.slice 0 s.build.fftSize) s.floorDb)
        cmdResult := 0x00000803#32 }) ∧
    (bypassed = false → s.an.fifoCount ≠ 0 → ¬ a.rbCount < s.build.fftSize →
      ¬ s.an.fqCount < s.build.fftqCap →
      exec .anStep s = .next { s with an := a, cmdResult := 0x00000807#32 })

/-- The values of an FFTDataBlock (43_fifo_fft R280 to R283): there are N/2, each at least FLOOR, whatever the
samples, the window and the implementation are; in the reference implementation samples that are all zeros give
FLOOR in every bin, as does a NaN sample (93 U6; log 13); and with N = 16 a cosine centred on bin 4 gives 0 dB there
and the window's skirt beside it (95_test_vectors V49). -/
def Obligations.FftBinsAreAtLeastTheFloor : Prop :=
  (∀ (b : Build) (rb : List Word) (floor : Word), 0x80000001 ≤ floor.toNat → floor.toNat ≤ 0xFF7FFFFF →
     (fftBlock b rb floor).length = b.bins ∧
     (∀ w ∈ fftBlock b rb floor, Fl.le (Fl.ofWord floor) (Fl.ofWord w) = true) ∧
     (b.fftImpl = .reference → (∀ w ∈ rb, w &&& 0x7FFFFFFF#32 = 0#32) →
       (∀ w ∈ windowWords b.window, (Fl.ofWord w).finite = true) →
       fftBlock b rb floor = List.replicate b.bins floor) ∧
     (b.fftImpl = .reference → (∃ w ∈ rb, Fl.ofWord w = .nan) →
       fftBlock b rb floor = List.replicate b.bins floor)) ∧
  fftBlock { Build.reference with fftOrder := 4 }
      [0x3F800000#32, 0#32, 0xBF800000#32, 0#32, 0x3F800000#32, 0#32, 0xBF800000#32, 0#32,
       0x3F800000#32, 0#32, 0xBF800000#32, 0#32, 0x3F800000#32, 0#32, 0xBF800000#32, 0#32] 0xC2400000#32 =
    [0xC2400000#32, 0xC1F3FF12#32, 0xC144A1FA#32, 0xC03BACD6#32, 0#32, 0xC03BACD6#32, 0xC144A1FA#32,
     0xC1F3FF12#32]

/-- The FFT queue is a bounded queue (43_fifo_fft R270, R273, R286): a block is enqueued at the tail, the slot
(fqRd + fqCount) mod FFTQ_CAP, whose words it fills, and no other word of the queue nor anything else of the analysis
state but fqCount changes; FFT_GET's move takes the oldest into FFT_OUT. -/
def Obligations.FftQueueIsAQueue : Prop :=
  (∀ (b : Build) (a : Analysis) (block : List Word), b.legal = true → a.fftOk b = true →
    (block.length = b.bins → a.fqCount < b.fftqCap →
      (enqueue b a block).fftBlocks b = a.fftBlocks b ++ [block]) ∧
    (0 < a.fqCount → a.fftBlocks b = (takeBlock b a).fftOut.slice 0 b.bins :: (takeBlock b a).fftBlocks b)) ∧
  (∀ (b : Build) (a : Analysis) (block : List Word), block.length = b.bins →
    let base := (a.fqRd + a.fqCount) % b.fftqCap * b.bins
    enqueue b a block = { a with fq := (enqueue b a block).fq, fqCount := a.fqCount + 1 } ∧
    ∀ n : Nat, (enqueue b a block).fq.read n =
      if base ≤ n ∧ n < base + b.bins then block.getD (n - base) 0#32 else a.fq.read n)

/-- FFT_GET (43_fifo_fft R286): with an empty queue it only reports 0; otherwise FFT_OUT takes the oldest
block, the queue's read slot and count move, FFT_OUT_VALID is set, and nothing else changes. -/
def Obligations.FftGetMovesTheOldestBlock : Prop :=
  ∀ s : State,
    (s.an.fqCount = 0 → exec .fftGet s = .next { s with cmdResult := 0x00000900#32 }) ∧
    (s.an.fqCount ≠ 0 → ∃ out : Memory,
      exec .fftGet s = .next { s with
        cmdResult := 0x00000901#32
        an := { s.an with
          fftOut := out, fqRd := (s.an.fqRd + 1) % s.build.fftqCap, fqCount := s.an.fqCount - 1
          fftOutValid := true } } ∧
      ∀ k < s.build.bins, out.read k = s.an.fq.read (s.an.fqRd * s.build.bins + k))

/-- ARESET (43_fifo_fft R290) puts every analysis state at its reset value and changes nothing else but
CMD_RESULT. -/
def Obligations.AresetClearsTheAnalysisState : Prop :=
  ∀ s : State, ∃ a : Analysis, exec .areset s = .next { s with an := a, cmdResult := 0x00000C01#32 } ∧
    a.fifoRd = 0 ∧ a.fifoCount = 0 ∧ a.fillCount = 0 ∧ a.rbCount = 0 ∧ a.fqRd = 0 ∧ a.fqCount = 0 ∧
    a.fftOutValid = false ∧ a.pathLen = 0 ∧ a.pathSeq = 0#32 ∧ a.pathValid = false ∧
    ∀ n : Nat, a.ring.read n = 0#32 ∧ a.fill.read n = 0#32 ∧ a.rb.read n = 0#32 ∧ a.fq.read n = 0#32 ∧
      a.fftOut.read n = 0#32 ∧ a.path.read n = 0#32

/-! The path generator and the response curve. -/

/-- GEN_PATH (44_path_response R300): NOT_PREPARED, then BAD_GEOMETRY, then 0 where FFT_OUT holds no block;
otherwise the points of the path's bins are stored in order, every other point is (0.0, 0.0), PATH_SEQ is
incremented, and nothing else changes. That a point is left out by its rounded coordinates, the first point
included, is the model's choice (log 14). -/
def Obligations.GenPathStoresThePoints : Prop :=
  ∀ s : State,
    let sized := Fl.lt (Fl.nat 0) (Fl.ofWord s.bounds.w) && Fl.lt (Fl.nat 0) (Fl.ofWord s.bounds.h)
    let point := fun k : Nat =>
      (if k = 0 then s.bounds.x else xmap s.build s.bounds s.srActive k,
        ymap s.build s.bounds (s.an.fftOut.read k) s.floorDb)
    let pts := ((pathBins s.build).map point).filter fun p =>
      (Fl.ofWord p.1).finite && (Fl.ofWord p.2).finite
    (s.prepared = false → exec .genPath s = .next (s.raise .notPrepared 0x0000000A#32)) ∧
    (s.prepared = true → sized = false → exec .genPath s = .next (s.raise .badGeometry 0x0000000A#32)) ∧
    (s.prepared = true → sized = true → s.an.fftOutValid = false →
      exec .genPath s = .next { s with cmdResult := 0x00000A00#32 }) ∧
    (s.prepared = true → sized = true → s.an.fftOutValid = true → ∃ path : Memory,
      exec .genPath s = .next { s with
        cmdResult := 0x00000A01#32
        an := { s.an with
          path := path, pathLen := pts.length, pathSeq := s.an.pathSeq + 1#32, pathValid := true } } ∧
      ∀ p : Nat, path.read (2 * p) = (pts.getD p (0#32, 0#32)).1 ∧
        path.read (2 * p + 1) = (pts.getD p (0#32, 0#32)).2)

/-- The path's bins (44_path_response R303): bin 0, then 1, 1 + S, 1 + 2 S, … below N/2 in increasing order,
S being PATH_STRIDE. -/
def Obligations.PathTakesEveryStridedBin : Prop :=
  ∀ b : Build, b.legal = true →
    (pathBins b).Pairwise (· < ·) ∧
    ∀ k : Nat, k ∈ pathBins b ↔ k = 0 ∨ (k < b.bins ∧ ∃ j, k = 1 + j * b.pathStride)

/-- The two mappings of a path point, each its formula in DESIGN_FMT, rounded once. y (44_path_response R301):
with H above 0, as GEN_PATH requires, FLOOR_DB, every value below it and a NaN (93 U6) map to the bottom edge
Y + H; and in binary64, wherever Y + H is exact, 0 dB maps to the top edge Y (a zero of either sign where Y is one).
x (R302) at the frequency k fs / N of bin k: with the correctly rounded MATH 20 Hz maps to X (a zero of either sign
where X is one), and in binary64 20000 Hz to X + W. The order of the operations is the model's reading (log 9). -/
def Obligations.PathCoordinatesFollowTheirFormulas : Prop :=
  (∀ (b : Build) (g : Bounds) (v fl : Word),
     let ar := b.design
     let y := Fl.ofWord g.y
     let h := Fl.ofWord g.h
     let f := Fl.ofWord fl
     (∃ key, ymap b g v fl = (ar.sub (ar.add y h)
       (ar.div (ar.mul h (ar.sub (if Fl.lt f (Fl.ofWord v) then Fl.ofWord v else f) f)) f.neg)).toWord key) ∧
     (y.finite = true → h.finite = true → Fl.lt (Fl.nat 0) h = true →
       0x80000001 ≤ fl.toNat → fl.toNat ≤ 0xFF7FFFFF →
       (Fl.ofWord v = .nan ∨ Fl.le (Fl.ofWord v) f = true → ymap b g v fl = (ar.add y h).toWord []) ∧
       (b.designFmt = .binary64 → v &&& 0x7FFFFFFF#32 = 0#32 →
         Fl.le (ar.add y h) (y.addExact h) = true → Fl.le (y.addExact h) (ar.add y h) = true →
         ymap b g v fl = g.y ∨ (ymap b g v fl &&& 0x7FFFFFFF#32 = 0#32 ∧ g.y &&& 0x7FFFFFFF#32 = 0#32)))) ∧
  (∀ (b : Build) (g : Bounds) (fs : Word) (k : Nat),
     let ar := b.design
     let x := Fl.ofWord g.x
     let w := Fl.ofWord g.w
     let f := ar.div (ar.mul (Fl.nat k) (Fl.ofWord fs)) (Fl.nat b.fftSize)
     let atHz := fun n : Nat => Fl.le f (Fl.nat n) = true ∧ Fl.le (Fl.nat n) f = true
     (∃ key, xmap b g fs k =
       (ar.add x (ar.div (ar.mul w (b.fn .log10 (ar.div f (Fl.nat 20)))) (Fl.nat 3))).toWord key) ∧
     (b.math = .reference → x.finite = true → w.finite = true →
       (atHz 20 → xmap b g fs k = g.x ∨ (xmap b g fs k &&& 0x7FFFFFFF#32 = 0#32 ∧ g.x &&& 0x7FFFFFFF#32 = 0#32)) ∧
       (atHz 20000 → b.designFmt = .binary64 → xmap b g fs k = (ar.add x w).toWord [])))

/-- RESPONSE (44_path_response R310): NOT_PREPARED, then BAD_GEOMETRY; otherwise P = RESP_POINTS values and
points are stored, RESP_LEN is P and RESP_VALID set, and nothing else changes. -/
def Obligations.ResponseStoresTheCurve : Prop :=
  ∀ s : State,
    let sized := Fl.lt (Fl.nat 0) (Fl.ofWord s.bounds.w) && Fl.lt (Fl.nat 0) (Fl.ofWord s.bounds.h)
    let n := s.respPoints.toNat
    (s.prepared = false → exec .response s = .next (s.raise .notPrepared 0x0000000B#32)) ∧
    (s.prepared = true → sized = false → exec .response s = .next (s.raise .badGeometry 0x0000000B#32)) ∧
    (s.prepared = true → sized = true → ∃ db pt : Memory,
      exec .response s = .next { s with
        cmdResult := 0x00000B01#32, curve := { db := db, pt := pt, len := n, valid := true } } ∧
      ∀ i < n, db.read i = curveWord s n i ∧
        (pt.read (2 * i), pt.read (2 * i + 1)) = curvePoint s n i)

/-- The values of a response curve (44_path_response R310 to R314): the grid, the product of the magnitudes of
channel 0's active stages, a stage's magnitude |b0 + b1 z1 + b2 z2| / |1 + a1 z1 + a2 z2| and plus infinity where the
denominator is a zero, the decibels limited below at -100, and the two coordinates, each rounded once. Two states that
agree on the build, SR_ACTIVE, the bounds, RESP_POINTS, which of channel 0's stages are active and the sets of those
have the same curve: an inactive stage's set, the delays, channel 1 and everything else are not consulted. The order
of the operations and what a product of plus infinity and a zero gives are the model's reading (log 9, log 15). -/
def Obligations.ResponseValuesFollowTheirFormulas : Prop :=
  (∀ (s : State) (n i : Nat),
    let b := s.build
    let ar := b.design
    let f := ar.mul (Fl.nat 20) (b.fn .exp10 (ar.div (ar.mul (Fl.nat 3) (Fl.nat i)) (Fl.nat n)))
    let mag := [0, 1, 2, 3, 4, 5, 6, 7, 8].foldl (fun m (t : Stage) =>
      if s.ch0.active t then ar.mul m (magH b s.ch0.coef[t] f (Fl.ofWord s.srActive)) else m) (Fl.nat 1)
    let low := Fl.fin true 100 0
    let level := ar.mul (Fl.nat 20) (b.fn .log10 mag)
    let db := if Fl.lt (Fl.nat 0) mag && Fl.lt low level then level else low
    let h := Fl.ofWord s.bounds.h
    (∃ key, curveWord s n i = db.toWord key) ∧
    (∃ key, (curvePoint s n i).1 =
      (ar.add (Fl.ofWord s.bounds.x) (ar.div (ar.mul (Fl.ofWord s.bounds.w) (Fl.nat i)) (Fl.nat n))).toWord key) ∧
    (∃ key, (curvePoint s n i).2 =
      (ar.sub (ar.add (Fl.ofWord s.bounds.y) h)
        (ar.div (ar.mul h (ar.add db (Fl.nat 24))) (Fl.nat 48))).toWord key) ∧
    Fl.le (Fl.ofWord 0xC2C80000#32) (Fl.ofWord (curveWord s n i)) = true) ∧
  (∀ (b : Build) (k : CoefSet) (f fs : Fl),
    let ar := b.design
    let w := ar.div (ar.mul (ar.mul (Fl.nat 2) b.pi) f) fs
    let w2 := ar.mul (Fl.nat 2) w
    let modulus := fun c0 c1 c2 : Fl =>
      let re := ar.add (ar.add c0 (ar.mul c1 (b.fn .cos w))) (ar.mul c2 (b.fn .cos w2))
      let im := ar.add (ar.mul c1 (b.fn .sin w).neg) (ar.mul c2 (b.fn .sin w2).neg)
      b.fn .sqrt (ar.add (ar.mul re re) (ar.mul im im))
    let num := modulus (Fl.ofWord k.b0) (Fl.ofWord k.b1) (Fl.ofWord k.b2)
    let den := modulus (Fl.nat 1) (Fl.ofWord k.a1) (Fl.ofWord k.a2)
    (Fl.le den (Fl.nat 0) = true ∧ Fl.le (Fl.nat 0) den = true → magH b k f fs = .inf false) ∧
    (¬ (Fl.le den (Fl.nat 0) = true ∧ Fl.le (Fl.nat 0) den = true) → magH b k f fs = ar.div num den)) ∧
  (∀ (b : Build) (n : Nat), b.math = .reference → n ≠ 0 →
    Fl.le (gridFreq b n 0) (Fl.nat 20) = true ∧ Fl.le (Fl.nat 20) (gridFreq b n 0) = true) ∧
  (∀ s t : State, t.build = s.build → t.srActive = s.srActive → t.bounds = s.bounds →
     t.respPoints = s.respPoints →
     (∀ k : Stage, t.ch0.active k = s.ch0.active k ∧
       (s.ch0.active k = true → t.ch0.coef[k] = s.ch0.coef[k])) →
     s.prepared = true → t.prepared = true →
     Fl.lt (Fl.nat 0) (Fl.ofWord s.bounds.w) = true → Fl.lt (Fl.nat 0) (Fl.ofWord s.bounds.h) = true →
     ∃ s' t' : State, exec .response s = .next s' ∧ exec .response t = .next t' ∧
       t'.curve.len = s'.curve.len ∧ t'.curve.valid = s'.curve.valid ∧
       ∀ a : Addr, 0x30000 ≤ a.toNat → a.toNat < 0x50000 → t'.peek a = s'.peek a)

/-- A fully bypassed chain's response is 0.0 dB at every point, whatever its coefficients, in either
DESIGN_FMT (44_path_response R315); with the correctly rounded MATH. -/
def Obligations.FullyBypassedResponseIsZeroDecibels : Prop :=
  ∀ s : State, s.build.math = .reference → s.ch0.passThrough = true → s.prepared = true →
    Fl.lt (Fl.nat 0) (Fl.ofWord s.bounds.w) = true → Fl.lt (Fl.nat 0) (Fl.ofWord s.bounds.h) = true →
    ∃ db pt : Memory,
      exec .response s = .next { s with
        cmdResult := 0x00000B01#32
        curve := { db := db, pt := pt, len := s.respPoints.toNat, valid := true } } ∧
      ∀ i < s.respPoints.toNat, db.read i = 0#32

/-! AUDIO. -/

/-- The header step of PROCESS_BLOCK (41_filter_chain R200, R207): NOT_PREPARED, then BLOCK_TOO_LONG, each
leaving the block's words to be consumed (log 5); otherwise the block's frames follow with the channel count of this
moment. CMD_RESULT is not written and nothing else changes. -/
def Obligations.ProcessBlockHeaderChecksThenStarts : Prop :=
  ∀ (n : BitVec 16) (s : State),
    let words := n.toNat * (if s.stereoActive then 2 else 1)
    let refused : AudioOp := if words = 0 then .header else .drain words
    let header : Word := n ++ 0x0001#16
    (s.prepared = false →
      exec (.processBlock n) s = .next { s.raise .notPrepared header with audioOp := refused }) ∧
    (s.prepared = true → s.maxblkActive.toNat < n.toNat →
      exec (.processBlock n) s = .next { s.raise .blockTooLong header with audioOp := refused }) ∧
    (s.prepared = true → n.toNat ≤ s.maxblkActive.toNat →
      exec (.processBlock n) s = .next { s with
        audioOp := if n.toNat = 0 then .header else .frames n.toNat s.stereoActive })

/-- A refused block (41_filter_chain R207) consumes its words and emits as many, of whatever value, and leaves
the chains, the analysis state and every register as they were; then a header is expected. That it takes one
AUDIO step a word is the model's choice (log 5). -/
def Obligations.RefusedBlockOnlyConsumesAndEmits : Prop :=
  ∀ (s : State) (words rest : List Word), words ≠ [] → s.audioOp = .drain words.length →
    s.host.audioIn = words ++ rest →
    ∃ out : List Word, out.length = words.length ∧
      audioRun words.length s = .next { s with
        audioOp := .header
        host := { s.host with
          audioIn := rest, audioOut := s.host.audioOut ++ out, draws := s.host.draws + words.length } }

/-- The binary32 operations (00_scope R13, 41_filter_chain R201, R205). In an IEEE build, on finite operands, they
round to nearest, ties to even: the result is finite exactly when the exact value is below the overflow threshold,
then no binary32 number is nearer, and of two equally near the one with an even significand is taken; it has the sign
of the exact value, an underflow to zero and an overflow to an infinity included; a sum that is exactly zero is
negative only where both summands are. NaN and infinite operands and a zero divisor follow the IEEE rules. In an
FTZ_DAZ build subnormal operands and results become zeros of the same sign, and all else is as in an IEEE build; a
NaN's payload is free (log 7). `wordFix` is a finite word's value as a multiple of 2^-149. -/
def Obligations.ArithmeticRoundsToNearestEven : Prop :=
  (∀ (b : Build) (x y : Word), b.subnormal = .ieee →
    let X := Fl.ofWord x
    let Y := Fl.ofWord y
    let p := x.getLsbD 31
    let q := y.getLsbD 31
    let nearest := fun (w : Word) (exact scale : Int) =>
      ((Fl.ofWord w).finite = true ↔ |exact| < (2 ^ 25 - 1) * 2 ^ 252 * |scale|) ∧
      ((Fl.ofWord w).finite = false → Fl.ofWord w = .inf (w.getLsbD 31)) ∧
      ((Fl.ofWord w).finite = true → ∀ z : Word, (Fl.ofWord z).finite = true →
        |wordFix w * scale - exact| ≤ |wordFix z * scale - exact| ∧
        (|wordFix w * scale - exact| = |wordFix z * scale - exact| → wordFix z ≠ wordFix w →
          w.getLsbD 0 = false))
    let sum := wordFix x + wordFix y
    let diff := wordFix x - wordFix y
    (X.finite = true → Y.finite = true →
      nearest (fadd b x y) sum 1 ∧ (fadd b x y).getLsbD 31 = (if sum = 0 then p && q else decide (sum < 0)) ∧
      nearest (fsub b x y) diff 1 ∧ (fsub b x y).getLsbD 31 = (if diff = 0 then p && !q else decide (diff < 0)) ∧
      nearest (fmul b x y) (wordFix x * wordFix y) (2 ^ 149) ∧ (fmul b x y).getLsbD 31 = (p != q) ∧
      (wordFix y ≠ 0 → nearest (fdiv b x y) (wordFix x * 2 ^ 149) (wordFix y) ∧
        (fdiv b x y).getLsbD 31 = (p != q)) ∧
      (wordFix y = 0 → Fl.ofWord (fdiv b x y) = if wordFix x = 0 then .nan else .inf (p != q))) ∧
    (X = .nan ∨ Y = .nan → ∀ op ∈ [fadd, fsub, fmul, fdiv], Fl.ofWord (op b x y) = .nan) ∧
    (X = .inf p → Y.finite = true →
      Fl.ofWord (fadd b x y) = .inf p ∧ Fl.ofWord (fsub b x y) = .inf p ∧
      Fl.ofWord (fmul b x y) = (if wordFix y = 0 then .nan else .inf (p != q)) ∧
      Fl.ofWord (fdiv b x y) = .inf (p != q)) ∧
    (X.finite = true → Y = .inf q →
      Fl.ofWord (fadd b x y) = .inf q ∧ Fl.ofWord (fsub b x y) = .inf (!q) ∧
      Fl.ofWord (fmul b x y) = (if wordFix x = 0 then .nan else .inf (p != q)) ∧
      fdiv b x y = if p != q then 0x80000000#32 else 0#32) ∧
    (X = .inf p → Y = .inf q →
      Fl.ofWord (fadd b x y) = (if p = q then .inf p else .nan) ∧
      Fl.ofWord (fsub b x y) = (if p = q then .nan else .inf p) ∧
      Fl.ofWord (fmul b x y) = .inf (p != q) ∧ Fl.ofWord (fdiv b x y) = .nan)) ∧
  (∀ (b : Build) (x y : Word), b.subnormal = .ftzDaz →
    let zero := fun w : Word => if w.toNat / 2 ^ 23 % 256 = 0 then w &&& 0x80000000#32 else w
    let ieee := { b with subnormal := .ieee }
    ∀ op ∈ [fadd, fsub, fmul, fdiv],
      let u := op b x y
      let v := zero (op ieee (zero x) (zero y))
      u = v ∨ (Fl.ofWord u = .nan ∧ Fl.ofWord v = .nan))

/-- The frame step's chain is the loop of 41_filter_chain R202 over positions and stages, and one stage of it computes
y, s1 and s2 by the three equations of R201 in their order. A stage that holds ID5 (R205) outputs x + s1, then x + s2,
then x from its third frame on, where the words are finite, none is flushed by SUBNORMAL_MODE and the two sums are
finite; a zero may change its sign. -/
def Obligations.FrameStepFollowsThePositionLoop : Prop :=
  (∀ (b : Build) (k : Channel) (x : Word),
     runChain b k x = [0, 1, 2].foldl (fun r p => runPosition b p r.2 r.1) (x, k)) ∧
  (∀ (b : Build) (k : CoefSet) (d : Delay) (x y s1n s2n : Word),
    biquad b k d x = (y, ⟨s1n, s2n⟩) ↔
      y = fadd b (fmul b k.b0 x) d.s1 ∧
      s1n = fadd b (fsub b (fmul b k.b1 x) (fmul b k.a1 y)) d.s2 ∧
      s2n = fsub b (fmul b k.b2 x) (fmul b k.a2 y)) ∧
  (∀ (b : Build) (s1 s2 x1 x2 x3 : Word),
    let id5 : CoefSet := ⟨0x3F800000#32, 0#32, 0#32, 0#32, 0#32⟩
    let same := fun u v : Word => u = v ∨ (u &&& 0x7FFFFFFF#32 = 0#32 ∧ v &&& 0x7FFFFFFF#32 = 0#32)
    (∀ w ∈ [s2, x1, x2, x3], (Fl.ofWord w).finite = true ∧ b.sample.flush (Fl.ofWord w) = Fl.ofWord w) →
    (Fl.ofWord (fadd b x1 s1)).finite = true → (Fl.ofWord (fadd b x2 s2)).finite = true →
    let r1 := biquad b id5 ⟨s1, s2⟩ x1
    let r2 := biquad b id5 r1.2 x2
    let r3 := biquad b id5 r2.2 x3
    r1.1 = fadd b x1 s1 ∧ same r2.1 (fadd b x2 s2) ∧ same r3.1 x3)

/-- Bypass is exact pass-through (41_filter_chain R204): an inactive stage, one of a bypassed position among
them, passes its word through, and a frame neither reads nor writes its delays; a frame changes no coefficient
and no flag; with every position bypassed a word passes unchanged and the chain with it. -/
def Obligations.BypassIsExactPassThrough : Prop :=
  ∀ (b : Build) (k : Channel) (x : Word),
    (∀ t : Stage, k.pbyp[pos t] = true → k.active t = false) ∧
    (∀ t : Stage, k.active t = false → stageStep b k t x = (x, k) ∧
      (runChain b k x).2.st[t] = k.st[t] ∧
      ∀ d : Delay, runChain b { k with st := k.st.set t d } x =
        ((runChain b k x).1, { (runChain b k x).2 with st := (runChain b k x).2.st.set t d })) ∧
    { (runChain b k x).2 with st := k.st } = k ∧
    (k.passThrough = true → runChain b k x = (x, k))

/-- A block's output is its frames' outputs in order, channel 0 first in each frame, and each channel's chain
sees only its own samples (41_filter_chain R202, R203, R206). The tap sees channel 0's outputs. -/
def Obligations.BlockOutputIsItsFramesInOrder : Prop :=
  (∀ (s : State) (xs rest : List Word), xs ≠ [] → s.audioOp = .frames xs.length false →
    s.host.audioIn = xs ++ rest →
    let r := chainOutputs s.build s.ch0 xs
    audioRun xs.length s = .next { s with
      ch0 := r.2, an := r.1.foldl (tap s.build) s.an, audioOp := .header
      host := { s.host with audioIn := rest, audioOut := s.host.audioOut ++ r.1 } }) ∧
  (∀ (s : State) (xs : List (Word × Word)) (rest : List Word), xs ≠ [] →
    s.audioOp = .frames xs.length true →
    s.host.audioIn = (xs.flatMap fun p => [p.1, p.2]) ++ rest →
    let r0 := chainOutputs s.build s.ch0 (xs.map Prod.fst)
    let r1 := chainOutputs s.build s.ch1 (xs.map Prod.snd)
    audioRun xs.length s = .next { s with
      ch0 := r0.2, ch1 := r1.2, an := r0.1.foldl (tap s.build) s.an, audioOp := .header
      host := { s.host with
        audioIn := rest
        audioOut := s.host.audioOut ++ ((r0.1.zip r1.1).flatMap fun p => [p.1, p.2]) } })

/-- From its header on, a block of a fully bypassed chain passes its words to the output bit for bit, and
leaves both chains unchanged (41_filter_chain R204, R206; 44_path_response R315). -/
def Obligations.BypassedBlockPassesBitForBit : Prop :=
  ∀ (s : State) (n : BitVec 16) (words rest : List Word),
    s.audioOp = .header → s.prepared = true → n.toNat ≤ s.maxblkActive.toNat →
    words.length = n.toNat * frameWords s.stereoActive →
    s.host.audioIn = (n ++ 0x0001#16) :: (words ++ rest) →
    s.ch0.passThrough = true → (s.stereoActive = true → s.ch1.passThrough = true) →
    ∃ t, audioRun (1 + n.toNat) s = .next t ∧ t.audioOp = .header ∧ t.host.audioIn = rest ∧
      t.host.audioOut = s.host.audioOut ++ words ∧ t.ch0 = s.ch0 ∧ t.ch1 = s.ch1

/-- Dual mono (41_filter_chain R203): a mono frame neither reads nor writes channel 1's chain, and in a stereo
frame each channel's output and chain depend on its own chain and sample alone. -/
def Obligations.ChannelsShareNoState : Prop :=
  ∀ (s : State) (k : Channel) (x y z : Word),
    frameMono { s with ch1 := k } x = { frameMono s x with ch1 := k } ∧
    (frameStereo { s with ch1 := k } x z).ch0 = (frameStereo s x y).ch0 ∧
    (frameStereo { s with ch0 := k } z y).ch1 = (frameStereo s x y).ch1 ∧
    (frameStereo s x y).host.audioOut =
      s.host.audioOut ++ [(runChain s.build s.ch0 x).1, (runChain s.build s.ch1 y).1] ∧
    (frameStereo { s with ch1 := k } x z).an = (frameStereo s x y).an

/-! Whole-machine rules. -/

/-- A step of AUDIO writes only the delays, the tap's storage, the FIFO's tail, the fault record and its own
progress and stream: no register, coefficient, flag, FFT or curve (10_state R35, R70 to R73, R81). Outside a block
it writes nothing of the analysis state; a frame writes one word of the fill buffer, at `fillCount`, and, when
that completes a block and the FIFO has room, the block at the write slot and no other word of the ring
(10_state R75, 43_fifo_fft R261, R262). -/
def Obligations.AudioWritesOnlyDelaysAndTheTap : Prop :=
  ∀ s t : State, audioStep s = .next t →
    t = { s with
      ch0 := { s.ch0 with st := t.ch0.st }, ch1 := { s.ch1 with st := t.ch1.st }
      an := { s.an with
        ring := t.an.ring, fifoCount := t.an.fifoCount, fill := t.an.fill, fillCount := t.an.fillCount }
      fault := t.fault, faultInfo := t.faultInfo, audioOp := t.audioOp
      host := { s.host with
        audioIn := t.host.audioIn, audioOut := t.host.audioOut, draws := t.host.draws } } ∧
    ((∀ n stereo, s.audioOp ≠ .frames n stereo) →
      t.an = s.an ∧ t.ch0 = s.ch0 ∧ t.ch1 = s.ch1) ∧
    ((∃ n stereo, s.audioOp = .frames n stereo) → t ≠ s →
      let full := s.an.fillCount + 1 = s.build.fifoBlock
      let slot := (s.an.fifoRd + s.an.fifoCount) % s.build.fifoCap
      t.an.fillCount = (if full then 0 else s.an.fillCount + 1) ∧
      (∀ n, n ≠ s.an.fillCount → t.an.fill.read n = s.an.fill.read n) ∧
      t.an.fifoCount =
        (if full ∧ s.an.fifoCount < s.build.fifoCap then s.an.fifoCount + 1 else s.an.fifoCount) ∧
      (¬ (full ∧ s.an.fifoCount < s.build.fifoCap) → t.an.ring = s.an.ring) ∧
      ∀ n, (n < slot * s.build.fifoBlock ∨ slot * s.build.fifoBlock + s.build.fifoBlock ≤ n) →
        t.an.ring.read n = s.an.ring.read n)

/-- AUDIO never depends on a parameter register, AN_BYP included, nor on CONFIG, SAMPLE_RATE, MAX_BLOCK, the
bounds, the floor, RESP_POINTS, CSTG, the response storage or a CTRL command in progress
(43_fifo_fft R274, 41_filter_chain R217, 70_reset R370, R381). -/
def Obligations.AudioIgnoresUnlatchedRegisters : Prop :=
  ∀ (s t u : State), audioStep s = .next t →
    audioStep { s with
      params := u.params, config := u.config, sampleRate := u.sampleRate, maxBlock := u.maxBlock
      bounds := u.bounds, floorDb := u.floorDb, respPoints := u.respPoints, cstg := u.cstg
      curve := u.curve, ctrlOp := u.ctrlOp, cmdResult := u.cmdResult, dirty := u.dirty } =
    .next { t with
      params := u.params, config := u.config, sampleRate := u.sampleRate, maxBlock := u.maxBlock
      bounds := u.bounds, floorDb := u.floorDb, respPoints := u.respPoints, cstg := u.cstg
      curve := u.curve, ctrlOp := u.ctrlOp, cmdResult := u.cmdResult, dirty := u.dirty }

/-- No CTRL operation but PREPARE writes a delay value (10_state R71), and none touches the stream or
AUDIO's progress. -/
def Obligations.CtrlNeverWritesDelaysOutsidePrepare : Prop :=
  ∀ (i : Instr) (s t : State), i.lane ≠ .stream → exec i s = .next t →
    t.audioOp = s.audioOp ∧ t.host.audioIn = s.host.audioIn ∧ t.host.audioOut = s.host.audioOut ∧
    (i = .prepare ∨ i = .wr 0x00018#20 0x00000001#32 ∨
      (t.ch0.st = s.ch0.st ∧ t.ch1.st = s.ch1.st))

/-- The control bits and the latched registers change only by their writers, issued as such or by a write to CMD
(10_state R81): DIRTY is set only by a write to a parameter register and cleared only by TICK and PREPARE
(42_parameter_snapshot R232); SR_ACTIVE, MAXBLK_ACTIVE, `stereoActive` and `prepared` change only by PREPARE
(10_state R43, R74); and no step changes the build (00_scope R8, 10_state R60). -/
def Obligations.ControlBitsChangeOnlyByTheirWriters : Prop :=
  (∀ (i : Instr) (s t : State), exec i s = .next t → t.dirty ≠ s.dirty →
     (t.dirty = true ∧ ∃ (a : Addr) (v : Word), i = .wr a v ∧
       a ∈ [0x040#20, 0x044#20, 0x048#20, 0x04C#20, 0x050#20, 0x054#20]) ∨
     (t.dirty = false ∧ (i = .tick ∨ i = .prepare ∨ i = .wr 0x00018#20 0x00000001#32 ∨
       i = .wr 0x00018#20 0x00000002#32))) ∧
  (∀ (i : Instr) (s t : State), exec i s = .next t → i ≠ .prepare → i ≠ .wr 0x00018#20 0x00000001#32 →
    t.srActive = s.srActive ∧ t.maxblkActive = s.maxblkActive ∧ t.stereoActive = s.stereoActive ∧
    t.prepared = s.prepared) ∧
  (∀ s t : State, step s = .next t → t.build = s.build)

/-- A register the host may write changes only by a write to its own address (10_state R35), but CSTG, which
the DESIGN commands write too, issued as such or by a write to CMD. -/
def Obligations.WritableRegistersChangeOnlyByTheirOwnWrites : Prop :=
  ∀ (i : Instr) (s t : State), exec i s = .next t →
    (∀ r ∈ ([.config, .sampleRate, .maxBlock, .lowcutFreq, .highcutFreq, .peakFreq, .peakGainDb, .peakQ,
        .settings, .boundsX, .boundsY, .boundsW, .boundsH, .floorDb, .respPoints] : List Reg),
      t.readReg r = s.readReg r ∨ ∃ v, i = .wr r.addr v) ∧
    (t.cstg = s.cstg ∨ (∃ a v, i = .wr a v ∧ 0x0A0 ≤ a.toNat ∧ a.toNat < 0x0F0) ∨
      i ∈ [.designPeak, .designLowcut, .designHighcut] ∨
      ∃ v ∈ [3#32, 4#32, 5#32], i = .wr 0x00018#20 v)

/-- The step relation (20_memory R110, R111; 30_encoding R130): a CTRL turn is a step of CTRL and an AUDIO turn
one of AUDIO, the turn taken first; on a CTRL turn with no command in progress the oldest transaction's
instruction is executed, on an AUDIO turn that expects a header the header's instruction is, the words taken
first. A header or a descriptor that is no legal one is taken alone and raises its fault: one word, nothing
emitted, and the next stream word is read as a header (30_encoding R136, R141; 41_filter_chain R207; what such a
descriptor returns: log 19). An agent with nothing to do changes nothing. With no turn given an agent that alone has
something to do moves, where both have either may, and where none has, as when no access and no stream word is
pending, no state changes (60_exceptions R348). The schedule that holds the turns is the model's (log 2), and that a
frame waits for its words (log 22). -/
def Obligations.StepRunsTheDecodedInstruction : Prop :=
  ∀ (s : State) (i : Instr) (later : List Turn),
    (s.host.schedule = .ctrl :: later → step s = ctrlStep { s with host := { s.host with schedule := later } }) ∧
    (s.host.schedule = .audio :: later → step s = audioStep { s with host := { s.host with schedule := later } }) ∧
    (∀ (d : Transaction) (rest : List Transaction), s.host.schedule = .ctrl :: later → s.ctrlOp = none →
      s.host.ctrlIn = d :: rest → decode ⟨.bus, d.desc, d.data⟩ = .ok i →
      step s = exec i { s with host := { s.host with schedule := later, ctrlIn := rest } }) ∧
    (∀ (h : Word) (rest : List Word), s.host.schedule = .audio :: later → s.audioOp = .header →
      s.host.audioIn = h :: rest → decode ⟨.stream, h, 0#32⟩ = .ok i →
      step s = exec i { s with host := { s.host with schedule := later, audioIn := rest } }) ∧
    (∀ (h : Word) (rest : List Word), s.audioOp = .header → s.host.audioIn = h :: rest →
      (h.toNat % 256 ≠ 1 ∨ h.toNat / 2 ^ 8 % 256 ≠ 0) →
      audioStep s = .next ({ s with host := { s.host with audioIn := rest } }.raise .badStream h)) ∧
    (∀ (d : Transaction) (rest : List Transaction), s.ctrlOp = none → s.host.ctrlIn = d :: rest →
      (d.desc.toNat / 2 ^ 21 % 4 ≠ 2 ∨ d.desc.toNat % 4 ≠ 0 ∨ 2 ^ 23 ≤ d.desc.toNat) →
      let t := { s with host := { s.host with ctrlIn := rest } }.raise .badAccess (d.desc &&& 0x000FFFFF#32)
      ctrlStep s = .next (if d.desc.toNat / 2 ^ 20 % 2 = 0 then t.answer 0#32 else t)) ∧
    (s.ctrlOp = none → s.host.ctrlIn = [] → ctrlStep s = .next s) ∧
    (s.host.audioIn = [] → audioStep s = .next s) ∧
    (s.host.schedule = [] →
      let ctrl := s.ctrlOp ≠ none ∨ s.host.ctrlIn ≠ []
      let need := match s.audioOp with
        | .header => 1
        | .frames _ stereo => if stereo then 2 else 1
        | .drain _ => 1
      let audio := need ≤ s.host.audioIn.length
      let drawn := { s with host := { s.host with draws := s.host.draws + 1 } }
      (ctrl → ¬ audio → step s = ctrlStep s) ∧
      (¬ ctrl → audio → step s = audioStep s) ∧
      (ctrl → audio → step s = ctrlStep drawn ∨ step s = audioStep drawn) ∧
      (¬ ctrl → ¬ audio → step s = .next s)) ∧
    (s.host.ctrlIn = [] → s.ctrlOp = none → s.host.audioIn = [] → s.host.schedule = [] → step s = .next s)

/-- What the agents do inside an operation (20_memory R111): CTRL runs the next install step of the command in
progress, the last one ending it with its result (log 4); AUDIO runs a frame step on the next frame (41_filter_chain
R200), or consumes a word of a refused block and emits one of whatever value (R207; one a step: log 5); and it waits
while the words it needs have not arrived (log 22). `n` turns of one agent are `n` of its steps, whatever turns come
later: the runs that other statements speak of are runs of the machine's step (R110). -/
def Obligations.AgentsAdvanceTheOperationInProgress : Prop :=
  (∀ s : State,
     (∀ (op : BitVec 8) (i : Install) (rest : List Install), s.ctrlOp = some ⟨op, i :: rest⟩ →
       ctrlStep s = .next (if rest = [] then
           { Install.apply s i with ctrlOp := none, cmdResult := 0#16 ++ op ++ 0x01#8 }
         else { Install.apply s i with ctrlOp := some ⟨op, rest⟩ })) ∧
     (∀ (n : Nat) (x : Word) (rest : List Word), s.audioOp = .frames n false → s.host.audioIn = x :: rest →
       audioStep s = .next (frameMono { s with
         audioOp := if n ≤ 1 then .header else .frames (n - 1) false
         host := { s.host with audioIn := rest } } x)) ∧
     (∀ (n : Nat) (x y : Word) (rest : List Word), s.audioOp = .frames n true →
       s.host.audioIn = x :: y :: rest →
       audioStep s = .next (frameStereo { s with
         audioOp := if n ≤ 1 then .header else .frames (n - 1) true
         host := { s.host with audioIn := rest } } x y)) ∧
     (∀ (n : Nat) (x : Word) (rest : List Word), s.audioOp = .drain n → s.host.audioIn = x :: rest →
       ∃ w : Word, audioStep s = .next { s with
         audioOp := if n ≤ 1 then .header else .drain (n - 1)
         host := { s.host with
           audioIn := rest, audioOut := s.host.audioOut ++ [w], draws := s.host.draws + 1 } }) ∧
     (s.host.audioIn = [] → audioStep s = .next s) ∧
     (∀ (n : Nat) (x : Word), s.audioOp = .frames n true → s.host.audioIn = [x] → audioStep s = .next s)) ∧
  (∀ (n : Nat) (s t : State) (later : List Turn),
     (s.host.schedule = List.replicate n .ctrl ++ later → ctrlRun n s = .next t →
       stepRun n s = .next { t with host := { t.host with schedule := later } }) ∧
     (s.host.schedule = List.replicate n .audio ++ later → audioRun n s = .next t →
       stepRun n s = .next { t with host := { t.host with schedule := later } }))

/-- `LDCOEF j` (30_encoding R144), issued to an idle block and performed, stages the set in slot j and changes
nothing else. -/
def Obligations.LoadCoefStagesTheSet : Prop :=
  ∀ (s : State) (j : Fin 4) (k : CoefSet), s.host.ctrlIn = [] → s.ctrlOp = none →
    ctrlRun 5 (s.issueAll (loadCoef j k)) = .next { s with cstg := s.cstg.set j k }
end

