-- ==== Sys2Proof/Laws/Memory.lean ====
section
/-! SUPPORT. Storage: reading after loading and shifting, and the canonical form every operation keeps. -/

namespace Sys2Proof.Machine

@[simp] theorem Memory.read_nil (i : Nat) : Memory.read [] i = 0#32 := rfl

theorem Memory.read_cons (j : Nat) (v : Word) (m : Memory) (i : Nat) :
    Memory.read ((j, v) :: m) i = if i = j then v else m.read i := rfl

/-! Where nothing is listed. -/

/-- An index no entry names reads 0. -/
theorem Memory.read_of_absent (m : Memory) (i : Nat) (h : ∀ e ∈ m, e.1 ≠ i) : m.read i = 0#32 := by
  induction m with
  | nil => rfl
  | cons e m ih =>
    obtain ⟨j, v⟩ := e
    rw [Memory.read_cons, if_neg (fun hij => h (j, v) (by simp) hij.symm)]
    exact ih fun e he => h e (by simp [he])

/-- Past its listed indices a storage reads 0. -/
theorem Memory.read_of_within (m : Memory) (n i : Nat) (h : m.within n = true) (hi : n ≤ i) :
    m.read i = 0#32 := by
  refine m.read_of_absent i fun e he hij => ?_
  have := List.all_eq_true.mp h e he
  simp at this
  omega

/-! Filtering by index. -/

/-- Keeping the entries whose index satisfies `p` reads as before there and 0 elsewhere. -/
theorem Memory.read_filter (m : Memory) (p : Nat → Bool) (i : Nat) :
    Memory.read (m.filter fun e => p e.1) i = if p i then m.read i else 0#32 := by
  induction m with
  | nil => simp
  | cons e m ih =>
    obtain ⟨j, v⟩ := e
    by_cases hp : p j
    · simp only [List.filter_cons, hp, if_true, Memory.read_cons, ih]
      by_cases hij : i = j
      · simp [hij, hp]
      · simp [hij]
    · simp only [List.filter_cons, hp, Memory.read_cons]
      by_cases hij : i = j
      · subst hij; simpa [hp] using ih
      · simp [hij, ih]

/-- An index the first part does not name is read from the second. -/
theorem Memory.read_append_right (a b : Memory) (i : Nat) (h : ∀ e ∈ a, e.1 ≠ i) :
    Memory.read (a ++ b) i = Memory.read b i := by
  induction a with
  | nil => rfl
  | cons e a ih =>
    obtain ⟨j, v⟩ := e
    rw [List.cons_append, Memory.read_cons, if_neg (fun hij => h (j, v) (by simp) hij.symm)]
    exact ih fun e he => h e (by simp [he])

/-- An index the second part does not name is read from the first. -/
theorem Memory.read_append_left (a b : Memory) (i : Nat) (h : ∀ e ∈ b, e.1 ≠ i) :
    Memory.read (a ++ b) i = Memory.read a i := by
  induction a with
  | nil => simpa using Memory.read_of_absent b i h
  | cons e a ih =>
    obtain ⟨j, v⟩ := e
    rw [List.cons_append, Memory.read_cons, Memory.read_cons, ih]

/-! The entries of a list of words. -/

/-- The listed indices of words stored from `base` up. -/
theorem Memory.entries_bounds (ws : List Word) (base : Nat) :
    ∀ e ∈ Memory.entries base ws, base ≤ e.1 ∧ e.1 < base + ws.length := by
  induction ws generalizing base with
  | nil => simp [Memory.entries]
  | cons v ws ih =>
    intro e he
    have tail : e ∈ Memory.entries (base + 1) ws → base ≤ e.1 ∧ e.1 < base + (v :: ws).length := by
      intro h
      have := ih (base + 1) e h
      simp only [List.length_cons]
      omega
    unfold Memory.entries at he
    split at he
    · exact tail he
    · rcases List.mem_cons.mp he with rfl | h
      · simp
      · exact tail h

/-- The words stored read back. -/
theorem Memory.read_entries (ws : List Word) (base i : Nat) :
    Memory.read (Memory.entries base ws) (base + i) = ws.getD i 0#32 := by
  induction ws generalizing base i with
  | nil => simp [Memory.entries]
  | cons v ws ih =>
    have here : ∀ e ∈ Memory.entries (base + 1) ws, e.1 ≠ base := fun e he =>
      Nat.ne_of_gt (Memory.entries_bounds ws (base + 1) e he).1
    unfold Memory.entries
    cases i with
    | zero =>
      split
      · next h => simpa [h] using Memory.read_of_absent _ base here
      · simp [Memory.read_cons]
    | succ i =>
      have e : base + (i + 1) = (base + 1) + i := by omega
      split
      · rw [e, ih]; simp
      · rw [Memory.read_cons, if_neg (by omega), e, ih]; simp

/-! Loading. -/

/-- Reading a storage after words are stored: the stored words in their place, the old word elsewhere. -/
theorem Memory.read_load (m : Memory) (base : Nat) (ws : List Word) (i : Nat) :
    (m.load base ws).read i =
      if base ≤ i ∧ i < base + ws.length then ws.getD (i - base) 0#32 else m.read i := by
  have low : ∀ e ∈ m.filter (fun e => decide (e.1 < base)), e.1 < base := fun e he => by
    simpa using (List.mem_filter.mp he).2
  have high : ∀ e ∈ m.filter (fun e => decide (base + ws.length ≤ e.1)), base + ws.length ≤ e.1 :=
    fun e he => by simpa using (List.mem_filter.mp he).2
  have mid := Memory.entries_bounds ws base
  unfold Memory.load
  by_cases h1 : i < base
  · rw [Memory.read_append_left, Memory.read_filter m (fun j => decide (j < base))]
    · rw [if_pos (by simpa using h1), if_neg (by omega)]
    · intro e he
      rcases List.mem_append.mp he with h | h
      · have := mid e h; omega
      · have := high e h; omega
  · rw [Memory.read_append_right _ _ _ (fun e he => by have := low e he; omega)]
    by_cases h2 : i < base + ws.length
    · rw [Memory.read_append_left _ _ _ (fun e he => by have := high e he; omega), if_pos (by omega)]
      have := Memory.read_entries ws base (i - base)
      rwa [show base + (i - base) = i by omega] at this
    · rw [Memory.read_append_right _ _ _ (fun e he => by have := mid e he; omega),
        Memory.read_filter m (fun j => decide (base + ws.length ≤ j)),
        if_pos (by simpa using h2), if_neg (by omega)]

/-- Reading a storage after one word is stored. -/
theorem Memory.read_write (m : Memory) (i : Nat) (v : Word) (j : Nat) :
    (m.write i v).read j = if j = i then v else m.read j := by
  unfold Memory.write
  rw [Memory.read_load]
  by_cases h : j = i
  · subst h; simp
  · rw [if_neg (by simp; omega), if_neg h]

/-- A slice has its length. -/
@[simp] theorem Memory.slice_length (m : Memory) (base n : Nat) : (m.slice base n).length = n := by
  simp [Memory.slice]

/-- The words of a slice. -/
theorem Memory.slice_getD (m : Memory) (base n i : Nat) (h : i < n) :
    (m.slice base n).getD i 0#32 = m.read (base + i) := by
  simp [Memory.slice, List.getD, h]

/-- Reading a storage moved down. -/
theorem Memory.read_shiftDown (m : Memory) (k i : Nat) : (m.shiftDown k).read i = m.read (i + k) := by
  induction m with
  | nil => rfl
  | cons e m ih =>
    obtain ⟨j, v⟩ := e
    unfold Memory.shiftDown at *
    by_cases h : k ≤ j
    · rw [List.filterMap_cons_some (b := (j - k, v)) (by simp [h]), Memory.read_cons, Memory.read_cons, ih]
      by_cases hij : i = j - k
      · rw [if_pos hij, if_pos (by omega)]
      · rw [if_neg hij, if_neg (by omega)]
    · rw [List.filterMap_cons_none (by simp [h]), Memory.read_cons, ih, if_neg (by omega)]

/-! The canonical form. -/

/-- A lower bound of the indices may be lowered. -/
theorem Memory.wfFrom_mono {lo lo' : Nat} (h : lo' ≤ lo) (m : Memory) (hm : Memory.wfFrom lo m = true) :
    Memory.wfFrom lo' m = true := by
  cases m with
  | nil => rfl
  | cons e m =>
    obtain ⟨j, v⟩ := e
    simp only [Memory.wfFrom, Bool.and_eq_true, decide_eq_true_eq] at hm ⊢
    exact ⟨⟨by omega, hm.1.2⟩, hm.2⟩

/-- The indices of a canonical storage are at least its lower bound. -/
theorem Memory.wfFrom_le {lo : Nat} (m : Memory) (hm : Memory.wfFrom lo m = true) : ∀ e ∈ m, lo ≤ e.1 := by
  induction m generalizing lo with
  | nil => simp
  | cons e m ih =>
    obtain ⟨j, v⟩ := e
    simp only [Memory.wfFrom, Bool.and_eq_true, decide_eq_true_eq] at hm
    intro e' he'
    rcases List.mem_cons.mp he' with rfl | h
    · exact hm.1.1
    · have := ih hm.2 e' h; omega

/-- Dropping entries keeps the canonical form. -/
theorem Memory.wfFrom_filter {lo : Nat} (m : Memory) (p : Nat × Word → Bool)
    (hm : Memory.wfFrom lo m = true) : Memory.wfFrom lo (m.filter p) = true := by
  induction m generalizing lo with
  | nil => rfl
  | cons e m ih =>
    obtain ⟨j, v⟩ := e
    simp only [Memory.wfFrom, Bool.and_eq_true, decide_eq_true_eq] at hm
    by_cases hp : p (j, v)
    · simp only [List.filter_cons, hp, if_true, Memory.wfFrom, Bool.and_eq_true, decide_eq_true_eq]
      exact ⟨hm.1, ih hm.2⟩
    · simp only [List.filter_cons, hp]
      exact Memory.wfFrom_mono (by omega) _ (ih hm.2)

/-- Two canonical storages in a row, the second above the first, are canonical. -/
theorem Memory.wfFrom_append {lo k : Nat} (a b : Memory) (ha : Memory.wfFrom lo a = true)
    (hk : ∀ e ∈ a, e.1 < k) (hlo : lo ≤ k) (hb : Memory.wfFrom k b = true) :
    Memory.wfFrom lo (a ++ b) = true := by
  induction a generalizing lo with
  | nil => exact Memory.wfFrom_mono hlo b hb
  | cons e a ih =>
    obtain ⟨j, v⟩ := e
    simp only [Memory.wfFrom, Bool.and_eq_true, decide_eq_true_eq, List.cons_append] at ha ⊢
    exact ⟨ha.1, ih ha.2 (fun e he => hk e (by simp [he])) (hk (j, v) (by simp))⟩

/-- The entries of words are canonical. -/
theorem Memory.wfFrom_entries (ws : List Word) (base : Nat) :
    Memory.wfFrom base (Memory.entries base ws) = true := by
  induction ws generalizing base with
  | nil => rfl
  | cons v ws ih =>
    unfold Memory.entries
    split
    · exact Memory.wfFrom_mono (by omega) _ (ih (base + 1))
    · next h => simpa [Memory.wfFrom, h] using ih (base + 1)

/-- The entries above an index are canonical from it. -/
theorem Memory.wfFrom_filter_ge {lo : Nat} (m : Memory) (k : Nat) (hm : Memory.wfFrom lo m = true) :
    Memory.wfFrom k (m.filter fun e => decide (k ≤ e.1)) = true := by
  induction m generalizing lo with
  | nil => rfl
  | cons e m ih =>
    obtain ⟨j, v⟩ := e
    simp only [Memory.wfFrom, Bool.and_eq_true, decide_eq_true_eq] at hm
    by_cases hp : k ≤ j
    · simp only [List.filter_cons, hp, decide_true, if_true, Memory.wfFrom, Bool.and_eq_true]
      exact ⟨⟨trivial, hm.1.2⟩, Memory.wfFrom_filter m _ hm.2⟩
    · simp only [List.filter_cons, hp, decide_false]
      exact ih hm.2

/-- Storing words keeps the canonical form. -/
theorem Memory.wf_load (m : Memory) (base : Nat) (ws : List Word) (hm : m.wf = true) :
    (m.load base ws).wf = true := by
  unfold Memory.wf Memory.load at *
  refine Memory.wfFrom_append _ _ (Memory.wfFrom_filter m _ hm) (k := base) ?_ (by omega) ?_
  · intro e he; simpa using (List.mem_filter.mp he).2
  · exact Memory.wfFrom_append (k := base + ws.length) _ _ (Memory.wfFrom_entries ws base)
      (fun e he => (Memory.entries_bounds ws base e he).2) (by omega) (Memory.wfFrom_filter_ge m _ hm)

/-- Storing one word keeps the canonical form. -/
theorem Memory.wf_write (m : Memory) (i : Nat) (v : Word) (hm : m.wf = true) : (m.write i v).wf = true :=
  m.wf_load i [v] hm

/-- A slice of words just stored is those words. -/
theorem Memory.slice_load_same (m : Memory) (base : Nat) (ws : List Word) :
    (m.load base ws).slice base ws.length = ws := by
  apply List.ext_getElem
  · simp
  · intro i h1 h2
    simp only [Memory.slice, List.getElem_map, List.getElem_range, Memory.read_load]
    rw [if_pos (by omega), Nat.add_sub_cancel_left, List.getD_eq_getElem _ _ h2]

/-- Two storages that read alike on a range have equal slices there. -/
theorem Memory.slice_congr (m m' : Memory) (base base' n : Nat)
    (h : ∀ i < n, m.read (base + i) = m'.read (base' + i)) : m.slice base n = m'.slice base' n := by
  unfold Memory.slice
  apply List.map_congr_left
  intro i hi
  exact h i (List.mem_range.mp hi)

/-- A slice away from the words stored is what it was. -/
theorem Memory.slice_load_other (m : Memory) (base : Nat) (ws : List Word) (at_ n : Nat)
    (h : at_ + n ≤ base ∨ base + ws.length ≤ at_) : (m.load base ws).slice at_ n = m.slice at_ n := by
  apply Memory.slice_congr
  intro i hi
  rw [Memory.read_load, if_neg (by omega)]

/-- One more word at the end of a slice. -/
theorem Memory.slice_succ (m : Memory) (base n : Nat) :
    m.slice base (n + 1) = m.slice base n ++ [m.read (base + n)] := by
  simp [Memory.slice, List.range_succ]

/-- Moving a storage down keeps the canonical form. -/
theorem Memory.wfFrom_shiftDown {lo : Nat} (m : Memory) (k : Nat) (hm : Memory.wfFrom lo m = true) :
    Memory.wfFrom (lo - k) (m.shiftDown k) = true := by
  induction m generalizing lo with
  | nil => rfl
  | cons e m ih =>
    obtain ⟨j, v⟩ := e
    simp only [Memory.wfFrom, Bool.and_eq_true, decide_eq_true_eq] at hm
    unfold Memory.shiftDown at *
    by_cases h : k ≤ j
    · rw [List.filterMap_cons_some (b := (j - k, v)) (by simp [h])]
      simp only [Memory.wfFrom, Bool.and_eq_true, decide_eq_true_eq]
      refine ⟨⟨by omega, hm.1.2⟩, ?_⟩
      have := ih hm.2
      rwa [show j + 1 - k = j - k + 1 by omega] at this
    · rw [List.filterMap_cons_none (by simp [h])]
      exact Memory.wfFrom_mono (by omega) _ (ih hm.2)

theorem Memory.wf_shiftDown (m : Memory) (k : Nat) (hm : m.wf = true) : (m.shiftDown k).wf = true := by
  simpa [Memory.wf] using Memory.wfFrom_shiftDown m k hm

/-! Bounds of the listed indices. -/

theorem Memory.within_iff (m : Memory) (n : Nat) : m.within n = true ↔ ∀ e ∈ m, e.1 < n := by
  simp [Memory.within, List.all_eq_true]

theorem Memory.within_mono (m : Memory) {n n' : Nat} (h : n ≤ n') (hm : m.within n = true) :
    m.within n' = true := by
  rw [Memory.within_iff] at *
  exact fun e he => Nat.lt_of_lt_of_le (hm e he) h

/-- Storing words inside a bound keeps it. -/
theorem Memory.within_load (m : Memory) (base : Nat) (ws : List Word) (n : Nat) (hm : m.within n = true)
    (h : base + ws.length ≤ n) : (m.load base ws).within n = true := by
  rw [Memory.within_iff] at *
  intro e he
  unfold Memory.load at he
  rcases List.mem_append.mp he with h1 | h1
  · exact hm e (List.mem_of_mem_filter h1)
  · rcases List.mem_append.mp h1 with h2 | h2
    · have := (Memory.entries_bounds ws base e h2).2; omega
    · exact hm e (List.mem_of_mem_filter h2)

theorem Memory.within_write (m : Memory) (i : Nat) (v : Word) (n : Nat) (hm : m.within n = true)
    (h : i < n) : (m.write i v).within n = true :=
  m.within_load i [v] n hm (by simpa using h)

theorem Memory.within_shiftDown (m : Memory) (k n : Nat) (hm : m.within n = true) :
    (m.shiftDown k).within (n - k) = true := by
  rw [Memory.within_iff] at *
  intro e he
  obtain ⟨a, ha, hae⟩ := List.mem_filterMap.mp he
  have := hm a ha
  by_cases hk : k ≤ a.1
  · rw [if_pos hk] at hae
    cases hae
    simp only
    omega
  · rw [if_neg hk] at hae; cases hae

end Sys2Proof.Machine
end

