-- ==== Sys2Proof/Laws/Analysis.lean ====
section
/-! SUPPORT. What the operations of the analysis path keep: counters in range and storage canonical. -/

namespace Sys2Proof.Machine

/-! A legal build (00_scope R8). -/

theorem fifoCap_pos {b : Build} (h : b.legal = true) : 0 < b.fifoCap := by
  simp only [Build.legal, Bool.and_eq_true, decide_eq_true_eq] at h; omega

theorem fifoBlock_pos {b : Build} (h : b.legal = true) : 0 < b.fifoBlock := by
  simp only [Build.legal, Bool.and_eq_true, decide_eq_true_eq] at h; omega

theorem fifoBlock_le {b : Build} (h : b.legal = true) : b.fifoBlock ≤ b.fftSize := by
  simp only [Build.legal, Bool.and_eq_true, decide_eq_true_eq] at h; omega

theorem fftqCap_pos {b : Build} (h : b.legal = true) : 0 < b.fftqCap := by
  simp only [Build.legal, Bool.and_eq_true, decide_eq_true_eq] at h; omega

theorem fftSize_eq {b : Build} (h : b.legal = true) : b.fftSize = 2 * b.bins := by
  simp only [Build.legal, Bool.and_eq_true, decide_eq_true_eq] at h
  have h4 : 4 ≤ b.fftOrder := by omega
  unfold Build.bins Build.fftSize
  obtain ⟨k, hk⟩ := Nat.exists_eq_add_of_le h4
  rw [hk, Nat.pow_add]
  omega

theorem bins_pos {b : Build} (h : b.legal = true) : 0 < b.bins := by
  have h1 := fifoBlock_pos h
  have h2 := fifoBlock_le h
  have h3 := fftSize_eq h
  omega

/-- The last index of slot `r` of `cap` slots of `n` words is inside the storage. -/
theorem slot_end_le {r cap n : Nat} (h : r < cap) : r * n + n ≤ cap * n := by
  calc r * n + n = (r + 1) * n := by rw [Nat.add_mul, Nat.one_mul]
    _ ≤ cap * n := Nat.mul_le_mul_right n h

/-- Two slots below the same bound overlap only if they are one. -/
theorem slot_disjoint {i j n a : Nat} (h : i ≠ j) (ha : a < n) : ¬ (i * n ≤ j * n + a ∧ j * n + a < i * n + n) := by
  rintro ⟨h1, h2⟩
  rcases Nat.lt_or_gt_of_ne h with h' | h'
  · have := Nat.mul_le_mul_right n (Nat.succ_le_of_lt h'); rw [Nat.succ_mul] at this; omega
  · have := Nat.mul_le_mul_right n (Nat.succ_le_of_lt h'); rw [Nat.succ_mul] at this; omega

/-! The FIFO. -/

/-- A push keeps the FIFO. -/
theorem push_fifoOk {b : Build} (hb : b.legal = true) {a : Analysis} (ha : a.fifoOk b = true)
    (block : List Word) (hl : block.length = b.fifoBlock) : (push b a block).fifoOk b = true := by
  unfold push
  split
  · next hlt =>
    simp only [Analysis.fifoOk, Bool.and_eq_true, decide_eq_true_eq] at ha ⊢
    have hm := Nat.mod_lt (a.fifoRd + a.fifoCount) (fifoCap_pos hb)
    have := slot_end_le (n := b.fifoBlock) hm
    refine ⟨⟨⟨⟨⟨⟨ha.1.1.1.1.1.1, by omega⟩, ha.1.1.1.1.2⟩, ?_⟩, ?_⟩, ha.1.2⟩, ha.2⟩
    · exact Memory.wf_load _ _ _ ha.1.1.1.2
    · exact Memory.within_load _ _ _ _ ha.1.1.2 (by omega)
  · exact ha

/-- The tap keeps the FIFO. -/
theorem tap_fifoOk {b : Build} (hb : b.legal = true) {a : Analysis} (ha : a.fifoOk b = true) (x : Word) :
    (tap b a x).fifoOk b = true := by
  have hpos := fifoBlock_pos hb
  simp only [Analysis.fifoOk, Bool.and_eq_true, decide_eq_true_eq] at ha
  have hw := Memory.wf_write a.fill a.fillCount x ha.1.2
  have hn := Memory.within_write a.fill a.fillCount x b.fifoBlock ha.2 ha.1.1.1.1.2
  unfold tap
  simp only
  split
  · next he =>
    -- the push acts on a state whose fill count is out of range: it is put back to 0
    have h0 : ({ a with fill := a.fill.write a.fillCount x, fillCount := 0 } : Analysis).fifoOk b = true := by
      simp only [Analysis.fifoOk, Bool.and_eq_true, decide_eq_true_eq]
      exact ⟨⟨⟨⟨⟨⟨ha.1.1.1.1.1.1, ha.1.1.1.1.1.2⟩, hpos⟩, ha.1.1.1.2⟩, ha.1.1.2⟩, hw⟩, hn⟩
    have h1 := push_fifoOk hb h0 (Memory.slice (a.fill.write a.fillCount x) 0 b.fifoBlock) (by simp)
    unfold push at h1 ⊢
    simp only at h1 ⊢
    split at h1
    · next hlt => rw [if_pos hlt]; exact h1
    · next hlt => rw [if_neg hlt]; exact h1
  · next he =>
    simp only [Analysis.fifoOk, Bool.and_eq_true, decide_eq_true_eq]
    exact ⟨⟨⟨⟨⟨⟨ha.1.1.1.1.1.1, ha.1.1.1.1.1.2⟩, by omega⟩, ha.1.1.1.2⟩, ha.1.1.2⟩, hw⟩, hn⟩

/-- The tap touches only the FIFO. -/
theorem tap_frame (b : Build) (a : Analysis) (x : Word) :
    tap b a x = { a with
      ring := (tap b a x).ring
      fifoCount := (tap b a x).fifoCount
      fill := (tap b a x).fill
      fillCount := (tap b a x).fillCount } := by
  unfold tap push
  simp only
  split
  · split <;> rfl
  · rfl

/-- What the tap writes: one word of the fill buffer, and a completed block at the FIFO's write slot where there is
room (43_fifo_fft R261, R262). -/
theorem tap_writes (b : Build) (a : Analysis) (x : Word) :
    let full := a.fillCount + 1 = b.fifoBlock
    let slot := (a.fifoRd + a.fifoCount) % b.fifoCap
    let t := tap b a x
    t.fillCount = (if full then 0 else a.fillCount + 1) ∧
    (∀ n, n ≠ a.fillCount → t.fill.read n = a.fill.read n) ∧
    t.fifoCount = (if full ∧ a.fifoCount < b.fifoCap then a.fifoCount + 1 else a.fifoCount) ∧
    (¬ (full ∧ a.fifoCount < b.fifoCap) → t.ring = a.ring) ∧
    ∀ n, (n < slot * b.fifoBlock ∨ slot * b.fifoBlock + b.fifoBlock ≤ n) → t.ring.read n = a.ring.read n := by
  intro full slot t
  have hw : ∀ n, n ≠ a.fillCount → (a.fill.write a.fillCount x).read n = a.fill.read n := by
    intro n hn; rw [Memory.read_write, if_neg hn]
  by_cases hf : full
  · have hf' : a.fillCount + 1 = b.fifoBlock := hf
    have ht : t = { push b { a with fill := a.fill.write a.fillCount x, fillCount := a.fillCount + 1 }
        ((a.fill.write a.fillCount x).slice 0 b.fifoBlock) with fillCount := 0 } := by
      simp only [t, tap]; rw [if_pos hf']
    rw [ht]
    unfold push
    by_cases hr : a.fifoCount < b.fifoCap
    · simp only [hr, if_true, hf, and_self, not_true_eq_false, false_imp_iff, true_and]
      refine ⟨hw, ?_⟩
      intro n hn
      rw [Memory.read_load]
      rw [if_neg]
      intro hc
      have := hc
      have hl : ((a.fill.write a.fillCount x).slice 0 b.fifoBlock).length = b.fifoBlock := by simp [Memory.slice]
      rw [hl] at this
      simp only [slot] at hn
      omega
    · simp [hr, hf]
      exact hw
  · have hf' : ¬ a.fillCount + 1 = b.fifoBlock := hf
    have ht : t = { a with fill := a.fill.write a.fillCount x, fillCount := a.fillCount + 1 } := by
      simp only [t, tap]; rw [if_neg hf']
    rw [ht]
    simp [hf]
    exact hw

/-- The tap keeps the analysis state. -/
theorem tap_ok {b : Build} (hb : b.legal = true) {a : Analysis} (ha : a.ok b = true) (x : Word) :
    (tap b a x).ok b = true := by
  simp only [Analysis.ok, Bool.and_eq_true] at ha ⊢
  have hf := tap_fifoOk hb ha.1.1.1 x
  refine ⟨⟨⟨hf, ?_⟩, ?_⟩, ?_⟩ <;> rw [tap_frame]
  · exact ha.1.1.2
  · exact ha.1.2
  · exact ha.2

/-! AN_STEP. -/

/-- The rolling buffer's words stay canonical and inside it. -/
theorem rbShift_ok {b : Build} (hb : b.legal = true) {rb : Memory} (hw : rb.wf = true)
    (hn : rb.within b.fftSize = true) (blk : List Word) (hl : blk.length = b.fifoBlock) :
    (rbShift b rb blk).wf = true ∧ (rbShift b rb blk).within b.fftSize = true := by
  have hle := fifoBlock_le hb
  unfold rbShift
  split
  · exact ⟨Memory.wf_load _ _ _ rfl, Memory.within_load _ _ _ _ rfl (by simp; omega)⟩
  · refine ⟨Memory.wf_load _ _ _ (Memory.wf_shiftDown _ _ hw), Memory.within_load _ _ _ _ ?_ (by omega)⟩
    exact Memory.within_mono _ (by omega) (Memory.within_shiftDown _ b.fifoBlock _ hn)

/-- A pop and shift keeps the analysis state. -/
theorem popShift_ok {b : Build} (hb : b.legal = true) {a : Analysis} (ha : a.ok b = true) :
    (popShift b a).ok b = true := by
  simp only [Analysis.ok, Bool.and_eq_true] at ha ⊢
  obtain ⟨⟨⟨hf, hr⟩, hq⟩, hp⟩ := ha
  refine ⟨⟨⟨?_, ?_⟩, hq⟩, hp⟩
  · simp only [Analysis.fifoOk, Bool.and_eq_true, decide_eq_true_eq] at hf ⊢
    have hm := Nat.mod_lt (a.fifoRd + 1) (fifoCap_pos hb)
    exact ⟨⟨⟨⟨⟨⟨hm, Nat.le_trans (Nat.sub_le _ _) hf.1.1.1.1.1.2⟩, hf.1.1.1.1.2⟩, hf.1.1.1.2⟩, hf.1.1.2⟩,
      hf.1.2⟩, hf.2⟩
  · simp only [Analysis.rbOk, Bool.and_eq_true, decide_eq_true_eq] at hr ⊢
    have := rbShift_ok hb hr.1.2 hr.2 (a.ring.slice (a.fifoRd * b.fifoBlock) b.fifoBlock) (by simp)
    exact ⟨⟨Nat.min_le_left _ _, this.1⟩, this.2⟩

/-- An FFTDataBlock has one word per bin. -/
@[simp] theorem fftBlock_length (b : Build) (rb : List Word) (floor : Word) :
    (fftBlock b rb floor).length = b.bins := by
  unfold fftBlock fftMagnitudes
  rw [List.length_map]
  split
  · simp
  · split
    · simp
    · split <;> simp

/-- Enqueueing below the queue's capacity keeps the analysis state. -/
theorem enqueue_ok {b : Build} (hb : b.legal = true) {a : Analysis} (ha : a.ok b = true)
    (hlt : a.fqCount < b.fftqCap) (block : List Word) (hl : block.length = b.bins) :
    (enqueue b a block).ok b = true := by
  simp only [Analysis.ok, Bool.and_eq_true] at ha ⊢
  obtain ⟨⟨⟨hf, hr⟩, hq⟩, hp⟩ := ha
  refine ⟨⟨⟨hf, hr⟩, ?_⟩, hp⟩
  simp only [Analysis.fftOk, Bool.and_eq_true, decide_eq_true_eq] at hq ⊢
  have := slot_end_le (n := b.bins) (Nat.mod_lt (a.fqRd + a.fqCount) (fftqCap_pos hb))
  exact ⟨⟨⟨⟨⟨hq.1.1.1.1.1, hlt⟩, Memory.wf_load _ _ _ hq.1.1.1.2⟩,
    Memory.within_load _ _ _ _ hq.1.1.2 (by omega)⟩, hq.1.2⟩, hq.2⟩

/-! FFT_GET. -/

/-- Taking a block keeps the analysis state. -/
theorem takeBlock_ok {b : Build} (hb : b.legal = true) {a : Analysis} (ha : a.ok b = true) :
    (takeBlock b a).ok b = true := by
  simp only [Analysis.ok, Bool.and_eq_true] at ha ⊢
  obtain ⟨⟨⟨hf, hr⟩, hq⟩, hp⟩ := ha
  refine ⟨⟨⟨hf, hr⟩, ?_⟩, hp⟩
  simp only [Analysis.fftOk, Bool.and_eq_true, decide_eq_true_eq] at hq ⊢
  exact ⟨⟨⟨⟨⟨Nat.mod_lt _ (fftqCap_pos hb), Nat.le_trans (Nat.sub_le _ _) hq.1.1.1.1.2⟩, hq.1.1.1.2⟩,
    hq.1.1.2⟩, Memory.wf_load _ _ _ hq.1.2⟩, Memory.within_load _ _ _ _ hq.2 (by simp)⟩

/-! ARESET. -/

/-- The reset analysis state is in range. -/
theorem Analysis.reset_ok {b : Build} (hb : b.legal = true) : Analysis.reset.ok b = true := by
  have h1 := fifoCap_pos hb
  have h2 := fifoBlock_pos hb
  have h3 := fftqCap_pos hb
  simp [Analysis.ok, Analysis.fifoOk, Analysis.rbOk, Analysis.fftOk, Analysis.pathOk, Analysis.reset,
    Memory.wf, Memory.wfFrom, Memory.within, h1, h2, h3]

/-! GEN_PATH. -/

/-- A path has at most one point per bin. -/
theorem pathBins_length_le {b : Build} (hb : b.legal = true) : (pathBins b).length ≤ b.bins := by
  have hpos := bins_pos hb
  obtain ⟨n, hn⟩ := Nat.exists_eq_succ_of_ne_zero (Nat.ne_of_gt hpos)
  unfold pathBins
  rw [hn, List.range_succ_eq_map, List.filter_cons_of_neg (by simp), List.length_cons]
  exact Nat.succ_le_succ (Nat.le_trans (List.length_filter_le _ _) (by simp))

theorem pathPoints_length_le {s : State} (hb : s.build.legal = true) : (pathPoints s).length ≤ s.build.bins := by
  unfold pathPoints
  exact Nat.le_trans (List.length_filter_le _ _) (by simpa using pathBins_length_le hb)

/-- Points are two words each. -/
@[simp] theorem pointWords_length (pts : List (Word × Word)) : (pointWords pts).length = 2 * pts.length := by
  induction pts with
  | nil => rfl
  | cons p pts ih =>
    have : pointWords (p :: pts) = p.1 :: p.2 :: pointWords pts := rfl
    rw [this, List.length_cons, List.length_cons, List.length_cons, ih]
    omega

/-- The words of the points. -/
theorem pointWords_getD (pts : List (Word × Word)) (i : Nat) :
    (pointWords pts).getD (2 * i) 0#32 = (pts.getD i (0#32, 0#32)).1 ∧
      (pointWords pts).getD (2 * i + 1) 0#32 = (pts.getD i (0#32, 0#32)).2 := by
  induction pts generalizing i with
  | nil => simp [pointWords]
  | cons p pts ih =>
    have h : pointWords (p :: pts) = p.1 :: p.2 :: pointWords pts := rfl
    rw [h]
    cases i with
    | zero => simp
    | succ i =>
      have := ih i
      rw [show 2 * (i + 1) = 2 * i + 1 + 1 by omega]
      simpa using this

/-- Storing a path keeps the analysis state. -/
theorem storePath_ok {b : Build} {a : Analysis} (ha : a.ok b = true) (pts : List (Word × Word))
    (hl : pts.length ≤ b.bins) : (storePath a pts).ok b = true := by
  simp only [Analysis.ok, Bool.and_eq_true] at ha ⊢
  refine ⟨ha.1, ?_⟩
  simp only [Analysis.pathOk, storePath, Bool.and_eq_true]
  exact ⟨⟨decide_eq_true hl, Memory.wf_load _ _ _ rfl⟩, Memory.within_load _ _ _ _ rfl (by simp)⟩

end Sys2Proof.Machine
end

