-- ==== Sys2Proof/Laws/Float.lean ====
section
/-! SUPPORT. What rounding does: nearest, ties to even, in every format; and words and values of binary32. -/

namespace Sys2Proof

/-- `q` is `x` rounded to the nearest integer, ties to even. -/
def NearestEven (x : ℚ) (q : Nat) : Prop := |(q : ℚ) - x| ≤ 1 / 2 ∧ (|(q : ℚ) - x| = 1 / 2 → q % 2 = 0)

theorem NearestEven.unique {x : ℚ} {p q : Nat} (hp : NearestEven x p) (hq : NearestEven x q) : p = q := by
  obtain ⟨hp, hp'⟩ := hp
  obtain ⟨hq, hq'⟩ := hq
  rw [abs_le] at hp hq
  have h1 : (p : ℚ) ≤ q + 1 := by linarith
  have h2 : (q : ℚ) ≤ p + 1 := by linarith
  have h1' : p ≤ q + 1 := by exact_mod_cast h1
  have h2' : q ≤ p + 1 := by exact_mod_cast h2
  by_contra hne
  rcases Nat.lt_or_gt_of_ne hne with h | h
  · have : q = p + 1 := by omega
    subst this
    push_cast at *
    have e1 := hp' (by rw [abs_eq (by norm_num)]; right; linarith)
    have e2 := hq' (by rw [abs_eq (by norm_num)]; left; linarith)
    omega
  · have : p = q + 1 := by omega
    subst this
    push_cast at *
    have e1 := hp' (by rw [abs_eq (by norm_num)]; left; linarith)
    have e2 := hq' (by rw [abs_eq (by norm_num)]; right; linarith)
    omega

/-- The integer quotient rounded to nearest even. -/
theorem nearestEven_div (a d : Nat) (hd : 0 < d) :
    NearestEven ((a : ℚ) / d) (if d < 2 * (a % d) ∨ (d = 2 * (a % d) ∧ a / d % 2 = 1) then a / d + 1 else a / d) := by
  have hdq : (0 : ℚ) < d := by exact_mod_cast hd
  have hr : a % d < d := Nat.mod_lt _ hd
  have ha : (a : ℚ) / d = (a / d : Nat) + ((a % d : Nat) : ℚ) / d := by
    rw [eq_comm, ← sub_eq_zero]
    field_simp
    have := Nat.div_add_mod a d
    have h2 : ((d * (a / d) + a % d : Nat) : ℚ) = a := by rw [this]
    push_cast at h2 ⊢
    linarith
  rw [ha]
  set q := a / d
  set r := a % d
  have hr0 : (0 : ℚ) ≤ (r : ℚ) / d := by positivity
  split
  next h =>
    constructor
    · rw [abs_le]
      have : (d : ℚ) ≤ 2 * r := by
        rcases h with h | ⟨h, _⟩
        · exact_mod_cast h.le
        · exact_mod_cast h.le
      have h3 : (1 : ℚ) / 2 ≤ r / d := by rw [div_le_div_iff₀ (by norm_num) hdq]; linarith
      have h4 : (r : ℚ) / d ≤ 1 := by rw [div_le_one hdq]; exact_mod_cast hr.le
      push_cast
      constructor <;> linarith
    · intro he
      have h5 : (d : ℚ) = 2 * r := by
        have h4 : (r : ℚ) / d ≤ 1 := by rw [div_le_one hdq]; exact_mod_cast hr.le
        push_cast at he
        rw [abs_of_nonneg (by linarith)] at he
        have : (r : ℚ) / d = 1 / 2 := by linarith
        rw [div_eq_div_iff hdq.ne' (by norm_num)] at this
        linarith
      have h6 : d = 2 * r := by exact_mod_cast h5
      rcases h with h | ⟨_, h⟩ <;> omega
  next h =>
    push Not at h
    have h1 : 2 * r ≤ d := h.1
    constructor
    · rw [abs_le]
      have h3 : (r : ℚ) / d ≤ 1 / 2 := by
        rw [div_le_div_iff₀ hdq (by norm_num)]
        have : (2 * r : ℚ) ≤ d := by exact_mod_cast h1
        linarith
      constructor <;> linarith
    · intro he
      have h5 : (d : ℚ) = 2 * r := by
        rw [abs_of_nonpos (by linarith)] at he
        have : (r : ℚ) / d = 1 / 2 := by linarith
        rw [div_eq_div_iff hdq.ne' (by norm_num)] at this
        linarith
      have h6 : d = 2 * r := by exact_mod_cast h5
      have := h.2 h6
      omega

/-- `m` at the ulp `2^u` is the value `v` rounded to nearest even in `fmt`, before overflow is looked at. -/
structure Rounds (fmt : Fmt) (v : ℚ) (m : Nat) (u : Int) : Prop where
  top : ∃ t : Int, (2 : ℚ) ^ t ≤ v ∧ v < 2 ^ (t + 1) ∧ u = max (t - ((fmt.prec : Int) - 1)) fmt.emin
  near : NearestEven (v / 2 ^ u) m

theorem Rounds.unique {fmt : Fmt} {v : ℚ} {m n : Nat} {u w : Int} (h : Rounds fmt v m u) (h' : Rounds fmt v n w) :
    m = n ∧ u = w := by
  obtain ⟨⟨t, h1, h2, h3⟩, h4⟩ := h
  obtain ⟨⟨t', h1', h2', h3'⟩, h4'⟩ := h'
  have a : t < t' + 1 := (zpow_lt_zpow_iff_right₀ (by norm_num : (1 : ℚ) < 2)).1 (h1.trans_lt h2')
  have b : t' < t + 1 := (zpow_lt_zpow_iff_right₀ (by norm_num : (1 : ℚ) < 2)).1 (h1'.trans_lt h2)
  have : t = t' := by omega
  subst this
  have hu : u = w := by rw [h3, h3']
  subst hu
  exact ⟨h4.unique h4', rfl⟩

/-- What the rounded value is, overflow included. -/
def packFl (fmt : Fmt) (neg : Bool) (m : Nat) (u : Int) : Fl :=
  if m = 0 then .fin neg 0 0 else if fmt.emax < (m.log2 : Int) + u then .inf neg else .fin neg m u

theorem two_zpow_pos (e : Int) : (0 : ℚ) < 2 ^ e := by positivity

theorem log2_bounds (n : Nat) (h : n ≠ 0) : ((2 : ℚ) ^ (n.log2 : Int)) ≤ n ∧ (n : ℚ) < 2 ^ ((n.log2 : Int) + 1) := by
  constructor
  · rw [zpow_natCast]; exact_mod_cast Nat.log2_self_le h
  · have := Nat.lt_log2_self (n := n)
    have h2 : ((n : ℚ)) < ((2 ^ (n.log2 + 1) : Nat) : ℚ) := by exact_mod_cast this
    rw [show ((n.log2 : Int) + 1) = ((n.log2 + 1 : Nat) : Int) by push_cast; ring, zpow_natCast]
    push_cast at h2
    exact h2

/-- The integer shifts of a rounding give the exponent's power of two. -/
theorem shift_ratio (a d : Nat) (k : Int) (hd : d ≠ 0) :
    ((a <<< k.toNat : Nat) : ℚ) / ((d <<< (-k).toNat : Nat) : ℚ) = a / d * 2 ^ k := by
  rw [Nat.shiftLeft_eq, Nat.shiftLeft_eq]
  have hdq : (d : ℚ) ≠ 0 := by exact_mod_cast hd
  rcases le_total 0 k with h | h
  · have h1 : (-k).toNat = 0 := by omega
    rw [h1]
    obtain ⟨n, rfl⟩ := Int.eq_ofNat_of_zero_le h
    simp [zpow_natCast]
    ring
  · have h1 : k.toNat = 0 := by omega
    rw [h1]
    obtain ⟨n, hn⟩ := Int.eq_ofNat_of_zero_le (show 0 ≤ -k by omega)
    have : k = -(n : Int) := by omega
    subst this
    simp [zpow_neg, zpow_natCast]
    field_simp

/-- `roundRat` rounds: the value `num / den * 2^e` to nearest even in `fmt`, with the overflow rule. -/
theorem roundRat_rounds (fmt : Fmt) (neg : Bool) (num den : Nat) (e : Int) (hn : num ≠ 0) (hd : den ≠ 0) :
    ∃ m u, Rounds fmt ((num : ℚ) / den * 2 ^ e) m u ∧ roundRat fmt neg num den e = packFl fmt neg m u := by
  have hdq : (0 : ℚ) < den := by exact_mod_cast Nat.pos_of_ne_zero hd
  obtain ⟨n1, n2⟩ := log2_bounds num hn
  obtain ⟨d1, d2⟩ := log2_bounds den hd
  unfold roundRat
  rw [if_neg hn]
  extract_lets l atLeast top u a d q r m
  refine ⟨m, u, ⟨⟨top, ?_⟩, ?_⟩, rfl⟩
  · have key : (2 : ℚ) ^ (top - e) ≤ num / den ∧ (num : ℚ) / den < 2 ^ (top - e + 1) := by
      have hle : (den <<< l.toNat ≤ num <<< (-l).toNat) ↔ (2 : ℚ) ^ l ≤ num / den := by
        have h1 := shift_ratio den num l hn
        have hp : (0 : ℚ) < ((num <<< (-l).toNat : Nat) : ℚ) := by
          rw [Nat.shiftLeft_eq]; exact_mod_cast Nat.mul_pos (Nat.pos_of_ne_zero hn) (by positivity)
        have hnq : (0 : ℚ) < num := by exact_mod_cast Nat.pos_of_ne_zero hn
        rw [← Nat.cast_le (α := ℚ), ← div_le_one hp, h1, le_div_iff₀ hdq, div_mul_eq_mul_div, div_le_one hnq, mul_comm]
      by_cases hl : den <<< l.toNat ≤ num <<< (-l).toNat
      · have ht : top - e = l := by simp [top, atLeast, hl]
        rw [ht]
        refine ⟨hle.1 hl, ?_⟩
        rw [div_lt_iff₀ hdq]
        calc (num : ℚ) < 2 ^ ((num.log2 : Int) + 1) := n2
          _ = 2 ^ (l + 1) * 2 ^ (den.log2 : Int) := by rw [← zpow_add₀ (by norm_num)]; congr 1; simp [l]; ring
          _ ≤ 2 ^ (l + 1) * den := by gcongr
      · have ht : top - e = l - 1 := by simp [top, atLeast, hl]
        rw [ht, sub_add_cancel]
        refine ⟨?_, not_le.1 (fun h => hl (hle.2 h))⟩
        rw [le_div_iff₀ hdq]
        calc (2 : ℚ) ^ (l - 1) * den ≤ 2 ^ (l - 1) * 2 ^ ((den.log2 : Int) + 1) := by gcongr
          _ = 2 ^ (num.log2 : Int) := by rw [← zpow_add₀ (by norm_num)]; congr 1; simp [l]
          _ ≤ num := n1
    have he := two_zpow_pos e
    refine ⟨?_, ?_, rfl⟩
    · calc (2 : ℚ) ^ top = 2 ^ (top - e) * 2 ^ e := by rw [← zpow_add₀ (by norm_num)]; congr 1; ring
        _ ≤ _ := by gcongr; exact key.1
    · calc (num : ℚ) / den * 2 ^ e < 2 ^ (top - e + 1) * 2 ^ e := by gcongr; exact key.2
        _ = _ := by rw [← zpow_add₀ (by norm_num)]; congr 1; ring
  · have hd0 : d ≠ 0 := by simp [d, Nat.shiftLeft_eq, hd]
    have := nearestEven_div a d (Nat.pos_of_ne_zero hd0)
    have hv : (num : ℚ) / den * 2 ^ e / 2 ^ u = (a : ℚ) / d := by
      have h1 := shift_ratio num den (e - u) hd
      rw [neg_sub] at h1
      rw [h1, zpow_sub₀ (by norm_num)]
      field_simp
    rw [hv]
    exact this

theorem roundRat_zero (fmt : Fmt) (neg : Bool) (den : Nat) (e : Int) : roundRat fmt neg 0 den e = .fin neg 0 0 := by
  simp [roundRat]

/-- `roundRat` depends on the value only. -/
theorem roundRat_congr (fmt : Fmt) (neg : Bool) {n n' d d' : Nat} {e e' : Int} (hd : d ≠ 0) (hd' : d' ≠ 0)
    (h : (n : ℚ) / d * 2 ^ e = (n' : ℚ) / d' * 2 ^ e') : roundRat fmt neg n d e = roundRat fmt neg n' d' e' := by
  have hdq : (d : ℚ) ≠ 0 := by exact_mod_cast hd
  have hdq' : (d' : ℚ) ≠ 0 := by exact_mod_cast hd'
  have he := (two_zpow_pos e).ne'
  have he' := (two_zpow_pos e').ne'
  by_cases hn : n = 0
  · subst hn
    have : n' = 0 := by
      by_contra hn'
      have : (n' : ℚ) ≠ 0 := by exact_mod_cast hn'
      simp at h
      rcases h with h | h <;> simp_all
    subst this
    simp [roundRat]
  · have hn' : n' ≠ 0 := by
      rintro rfl
      have : (n : ℚ) ≠ 0 := by exact_mod_cast hn
      simp at h
      simp_all
    obtain ⟨m, u, r, e1⟩ := roundRat_rounds fmt neg n d e hn hd
    obtain ⟨m', u', r', e2⟩ := roundRat_rounds fmt neg n' d' e' hn' hd'
    rw [← h] at r'
    obtain ⟨rfl, rfl⟩ := r.unique r'
    rw [e1, e2]


/-! What a rounded value is near to. -/

theorem Rounds.bounds {fmt : Fmt} {v : ℚ} {m : Nat} {u : Int} (h : Rounds fmt v m u) (hp : 1 ≤ fmt.prec) :
    m ≤ 2 ^ fmt.prec ∧ fmt.emin ≤ u ∧ (u = fmt.emin ∨ 2 ^ (fmt.prec - 1) ≤ m) := by
  obtain ⟨⟨t, h1, h2, h3⟩, hn, -⟩ := h
  rw [abs_le] at hn
  have hu := two_zpow_pos u
  refine ⟨?_, by omega, ?_⟩
  · have hx : v / 2 ^ u < 2 ^ fmt.prec := by
      rw [div_lt_iff₀ hu, ← zpow_natCast, ← zpow_add₀ (by norm_num)]
      exact h2.trans_le (zpow_le_zpow_right₀ (by norm_num) (by omega))
    have : (m : ℚ) < 2 ^ fmt.prec + 1 := by linarith
    have : m < 2 ^ fmt.prec + 1 := by exact_mod_cast this
    omega
  · rcases le_or_gt (t - ((fmt.prec : Int) - 1)) fmt.emin with hc | hc
    · left; omega
    · right
      have hx : (2 : ℚ) ^ (fmt.prec - 1) ≤ v / 2 ^ u := by
        rw [le_div_iff₀ hu, ← zpow_natCast, ← zpow_add₀ (by norm_num)]
        refine le_trans (zpow_le_zpow_right₀ (by norm_num) ?_) h1
        push_cast [Nat.cast_sub hp]
        omega
      have : (2 : ℚ) ^ (fmt.prec - 1) < m + 1 := by linarith
      have : 2 ^ (fmt.prec - 1) < m + 1 := by exact_mod_cast this
      omega

/-- A number of the format is a multiple of the ulp, or lies below the value's leading power of two. -/
theorem Rounds.grid {fmt : Fmt} {v : ℚ} {m : Nat} {u : Int} (h : Rounds fmt v m u) (hp : 1 ≤ fmt.prec) {n : Nat}
    {k : Int} (hn : n < 2 ^ fmt.prec) (hk : fmt.emin ≤ k) :
    (∃ p : Nat, (n : ℚ) * 2 ^ k = p * 2 ^ u) ∨
      ((n : ℚ) * 2 ^ k < (2 ^ (fmt.prec - 1) : Nat) * 2 ^ u ∧ ((2 ^ (fmt.prec - 1) : Nat) : ℚ) * 2 ^ u ≤ v) := by
  obtain ⟨⟨t, h1, h2, h3⟩, -⟩ := h
  rcases le_or_gt u k with hc | hc
  · left
    obtain ⟨j, hj⟩ := Int.eq_ofNat_of_zero_le (show 0 ≤ k - u by omega)
    refine ⟨n * 2 ^ j, ?_⟩
    have : k = u + j := by omega
    subst this
    rw [zpow_add₀ (by norm_num), zpow_natCast]
    push_cast
    ring
  · right
    have hu : u = t - ((fmt.prec : Int) - 1) := by omega
    have hpow : ((2 ^ (fmt.prec - 1) : Nat) : ℚ) * 2 ^ u = 2 ^ t := by
      push_cast
      rw [← zpow_natCast, ← zpow_add₀ (by norm_num)]
      congr 1
      push_cast [Nat.cast_sub hp]
      omega
    rw [hpow]
    refine ⟨?_, h1⟩
    have : (n : ℚ) < 2 ^ fmt.prec := by exact_mod_cast hn
    calc (n : ℚ) * 2 ^ k < 2 ^ fmt.prec * 2 ^ k := mul_lt_mul_of_pos_right this (two_zpow_pos k)
      _ = 2 ^ ((fmt.prec : Int) + k) := by rw [← zpow_natCast, ← zpow_add₀ (by norm_num)]
      _ ≤ 2 ^ t := zpow_le_zpow_right₀ (by norm_num) (by omega)

theorem abs_sub_ulp (v : ℚ) (u : Int) (p : ℚ) :
    |p * 2 ^ u - v| = |p - v / 2 ^ u| * 2 ^ u := by
  have hu := two_zpow_pos u
  rw [← abs_of_pos hu, ← abs_mul, abs_of_pos hu, sub_mul, div_mul_cancel₀ _ hu.ne']

/-- No multiple of the ulp is nearer. -/
theorem Rounds.nearest_multiple {fmt : Fmt} {v : ℚ} {m : Nat} {u : Int} (h : Rounds fmt v m u) (p : Nat) :
    |(m : ℚ) * 2 ^ u - v| ≤ |(p : ℚ) * 2 ^ u - v| ∧
      (|(m : ℚ) * 2 ^ u - v| = |(p : ℚ) * 2 ^ u - v| → p ≠ m → m % 2 = 0) := by
  have hu := two_zpow_pos u
  obtain ⟨-, hn, he⟩ := h
  rw [abs_sub_ulp, abs_sub_ulp, mul_le_mul_iff_left₀ hu, mul_left_inj' hu.ne']
  set x := v / 2 ^ u
  by_cases hpm : p = m
  · subst hpm; simp
  · have h1 : (1 : ℚ) ≤ |(p : ℚ) - m| := by
      have : (1 : Int) ≤ |(p : Int) - m| := Int.one_le_abs (by omega)
      exact_mod_cast this
    have h2 : |(p : ℚ) - m| ≤ |(p : ℚ) - x| + |(m : ℚ) - x| := by
      rw [abs_sub_comm (m : ℚ) x]; exact abs_sub_le _ _ _
    refine ⟨by linarith, fun hc _ => he (le_antisymm hn (by linarith))⟩

/-- No number of the format is nearer to the value than the rounded one, and of two equally near the even
significand is taken. -/
theorem Rounds.nearest {fmt : Fmt} {v : ℚ} {m : Nat} {u : Int} (h : Rounds fmt v m u) (hp : 1 ≤ fmt.prec) {n : Nat}
    {k : Int} (hn : n < 2 ^ fmt.prec) (hk : fmt.emin ≤ k) :
    |(m : ℚ) * 2 ^ u - v| ≤ |(n : ℚ) * 2 ^ k - v| ∧
      (|(m : ℚ) * 2 ^ u - v| = |(n : ℚ) * 2 ^ k - v| → (n : ℚ) * 2 ^ k ≠ m * 2 ^ u → m % 2 = 0) := by
  rcases h.grid hp hn hk with ⟨p, hz⟩ | ⟨hz1, hz2⟩
  · rw [hz]
    obtain ⟨a, b⟩ := h.nearest_multiple p
    exact ⟨a, fun hc hne => b hc (by rintro rfl; exact hne rfl)⟩
  · have a := (h.nearest_multiple (2 ^ (fmt.prec - 1))).1
    have : |(m : ℚ) * 2 ^ u - v| < |(n : ℚ) * 2 ^ k - v| := by
      refine a.trans_lt ?_
      rw [abs_of_nonpos (by linarith), abs_of_nonpos (by linarith)]
      linarith
    exact ⟨this.le, fun hc => absurd hc this.ne⟩

/-- A number of the format at or below the value stays so, and one at or above it. -/
theorem Rounds.mono {fmt : Fmt} {v : ℚ} {m : Nat} {u : Int} (h : Rounds fmt v m u) (hp : 1 ≤ fmt.prec) {n : Nat}
    {k : Int} (hn : n < 2 ^ fmt.prec) (hk : fmt.emin ≤ k) :
    ((n : ℚ) * 2 ^ k ≤ v → (n : ℚ) * 2 ^ k ≤ m * 2 ^ u) ∧ (v ≤ (n : ℚ) * 2 ^ k → m * 2 ^ u ≤ (n : ℚ) * 2 ^ k) := by
  have a := (h.nearest hp hn hk).1
  rcases h.grid hp hn hk with ⟨p, hz⟩ | ⟨hz1, hz2⟩
  · rw [hz] at a ⊢
    have hu := two_zpow_pos u
    obtain ⟨-, hne, -⟩ := h
    rw [abs_le] at hne
    constructor
    · intro hv
      have h1 : (p : ℚ) ≤ v / 2 ^ u := by rwa [le_div_iff₀ hu]
      have h2 : (p : ℚ) < m + 1 := by linarith
      have h3 : p < m + 1 := by exact_mod_cast h2
      have h4 : (p : ℚ) ≤ m := by exact_mod_cast (by omega : p ≤ m)
      gcongr
    · intro hv
      have h1 : v / 2 ^ u ≤ p := by rwa [div_le_iff₀ hu]
      have h2 : (m : ℚ) < p + 1 := by linarith
      have h3 : m < p + 1 := by exact_mod_cast h2
      have h4 : (m : ℚ) ≤ p := by exact_mod_cast (by omega : m ≤ p)
      gcongr
  · constructor
    · intro _
      by_contra hc
      rw [not_le] at hc
      have b := (h.nearest_multiple (2 ^ (fmt.prec - 1))).1
      rw [abs_of_nonpos (by linarith), abs_of_nonpos (by linarith)] at b
      linarith
    · intro hv; linarith

/-- A number of the format rounds to itself. -/
theorem Rounds.exact {fmt : Fmt} {v : ℚ} {m : Nat} {u : Int} (h : Rounds fmt v m u) (hp : 1 ≤ fmt.prec) {n : Nat}
    {k : Int} (hn : n < 2 ^ fmt.prec) (hk : fmt.emin ≤ k) (hv : v = n * 2 ^ k) : (m : ℚ) * 2 ^ u = v := by
  have a := (h.nearest hp hn hk).1
  rw [hv, sub_self, abs_zero] at a
  rw [hv]
  exact sub_eq_zero.1 (abs_eq_zero.1 (le_antisymm a (abs_nonneg _)))

/-! Words of binary32. -/

theorem packWord_sign (s : Bool) (ef frac : Nat) : (packWord s ef frac).getLsbD 31 = s := by
  simp only [packWord, BitVec.getLsbD_append]
  cases s <;> simp

theorem packWord_exp (s : Bool) (ef frac : Nat) : (packWord s ef frac).extractLsb' 23 8 = BitVec.ofNat 8 ef := by
  apply BitVec.eq_of_getLsbD_eq
  intro i hi
  rw [BitVec.getLsbD_extractLsb']
  simp only [packWord, BitVec.getLsbD_append, hi]
  simp [hi]

theorem packWord_frac (s : Bool) (ef frac : Nat) : (packWord s ef frac).extractLsb' 0 23 = BitVec.ofNat 23 frac := by
  apply BitVec.eq_of_getLsbD_eq
  intro i hi
  rw [BitVec.getLsbD_extractLsb']
  simp only [packWord, BitVec.getLsbD_append, hi]
  simp [hi]

theorem ofWord_packWord (s : Bool) (ef frac : Nat) (he : ef < 255) (hf : frac < 2 ^ 23) :
    Fl.ofWord (packWord s ef frac) = if ef = 0 then .fin s frac (-149) else .fin s (0x800000 + frac) ((ef : Int) - 150) := by
  unfold Fl.ofWord
  rw [packWord_sign, packWord_exp, packWord_frac]
  simp only [BitVec.toNat_ofNat]
  rw [Nat.mod_eq_of_lt (by omega), Nat.mod_eq_of_lt (by omega), if_neg (by omega)]

theorem ofWord_inf (s : Bool) : Fl.ofWord (packWord s 255 0) = .inf s := by cases s <;> decide

theorem ofWord_quietNan (p : BitVec 23) : Fl.ofWord (quietNan p) = .nan := by
  have h2 : ((quietNan p).extractLsb' 23 8) = 0xFF#8 := by
    apply BitVec.eq_of_getLsbD_eq
    intro i hi
    rw [BitVec.getLsbD_extractLsb']
    simp only [quietNan, BitVec.getLsbD_append, hi]
    interval_cases i <;> simp
  have h3 : ((quietNan p).extractLsb' 0 23).getLsbD 22 = true := by
    rw [BitVec.getLsbD_extractLsb']
    simp only [quietNan, BitVec.getLsbD_append]
    simp
  unfold Fl.ofWord
  rw [h2, if_pos (by decide), if_neg]
  intro h
  have : (quietNan p).extractLsb' 0 23 = 0#23 := BitVec.eq_of_toNat_eq h
  rw [this] at h3
  simp at h3

/-- A word is the packing of its sign, exponent and fraction. -/
theorem packWord_of (w : Word) :
    packWord (w.getLsbD 31) (w.extractLsb' 23 8).toNat (w.extractLsb' 0 23).toNat = w := by
  apply BitVec.eq_of_getLsbD_eq
  intro i hi
  simp only [packWord, BitVec.getLsbD_append, BitVec.ofNat_toNat, BitVec.getLsbD_setWidth, BitVec.getLsbD_extractLsb']
  by_cases h1 : i < 23
  · simp [h1]
  · by_cases h2 : i < 31
    · simp [h1, show i - 23 < 8 by omega, show 23 + (i - 23) = i by omega]
    · have : i = 31 := by omega
      subst this
      cases h : w.getLsbD 31 <;> simp

/-- The magnitude of a finite value with its sign. -/
def Fl.Is (x : Fl) (s : Bool) (v : ℚ) : Prop := ∃ m e, x = .fin s m e ∧ (m : ℚ) * 2 ^ e = v

/-- A finite word's value: below `2^24` units of `2^e` with `e` at least -149. -/
theorem ofWord_finite (w : Word) (h : (Fl.ofWord w).finite = true) :
    ∃ m e, Fl.ofWord w = .fin (w.getLsbD 31) m e ∧ m < 2 ^ 24 ∧ -149 ≤ e ∧ e ≤ 104 ∧
      (2 ^ 23 ≤ m ∨ e = -149) ∧
      w = packWord (w.getLsbD 31) (if m < 2 ^ 23 then 0 else (e + 150).toNat) (if m < 2 ^ 23 then m else m - 2 ^ 23) := by
  have hp := packWord_of w
  have hE : (w.extractLsb' 23 8).toNat < 2 ^ 8 := BitVec.isLt _
  have hF : (w.extractLsb' 0 23).toNat < 2 ^ 23 := BitVec.isLt _
  set E := (w.extractLsb' 23 8).toNat
  set F := (w.extractLsb' 0 23).toNat
  have hE' : E ≠ 255 := by
    intro hc
    unfold Fl.ofWord at h
    simp only at h
    rw [if_pos hc] at h
    split at h <;> simp [Fl.finite] at h
  have hw := ofWord_packWord (w.getLsbD 31) E F (by omega) hF
  rw [hp] at hw
  by_cases h0 : E = 0
  · rw [if_pos h0] at hw
    exact ⟨F, -149, hw, by omega, by omega, by omega, .inr rfl, by rw [if_pos hF, if_pos hF, ← h0]; exact hp.symm⟩
  · rw [if_neg h0] at hw
    refine ⟨_, _, hw, by omega, by omega, by omega, .inl (by omega), ?_⟩
    rw [if_neg (by omega), if_neg (by omega), show ((E : Int) - 150 + 150).toNat = E by omega,
      show 0x800000 + F - 2 ^ 23 = F by omega]
    exact hp.symm

/-- The word of a rounded value, read back: a zero, an infinity, or the same value. -/
theorem ofWord_bits_packFl (key : List Word) (s : Bool) {v : ℚ} {m : Nat} {u : Int} (h : Rounds .binary32 v m u) :
    (Fl.ofWord ((packFl .binary32 s m u).bits key)).Is s (m * 2 ^ u) ∧ (m : ℚ) * 2 ^ u < 2 ^ (128 : Int) ∨
      (Fl.ofWord ((packFl .binary32 s m u).bits key) = .inf s ∧ (2 : ℚ) ^ (128 : Int) ≤ m * 2 ^ u) := by
  obtain ⟨h1, h2, h3⟩ := h.bounds (by decide)
  simp only [Fmt.binary32] at h1 h2 h3
  norm_num at h1 h3
  unfold packFl
  by_cases h0 : m = 0
  · rw [if_pos h0]
    left
    refine ⟨⟨0, -149, ?_, by simp [h0]⟩, by simp [h0]⟩
    simp only [Fl.bits, if_pos]
    cases s <;> rfl
  rw [if_neg h0]
  obtain ⟨l1, l2⟩ := log2_bounds m h0
  have hu := two_zpow_pos u
  by_cases hov : Fmt.binary32.emax < (m.log2 : Int) + u
  · rw [if_pos hov]
    right
    refine ⟨ofWord_inf s, ?_⟩
    simp only [Fmt.binary32] at hov
    calc (2 : ℚ) ^ (128 : Int) ≤ 2 ^ ((m.log2 : Int) + u) := zpow_le_zpow_right₀ (by norm_num) (by omega)
      _ = 2 ^ (m.log2 : Int) * 2 ^ u := zpow_add₀ (by norm_num) _ _
      _ ≤ m * 2 ^ u := by gcongr
  · rw [if_neg hov]
    simp only [Fmt.binary32] at hov
    left
    constructor
    · simp only [Fl.bits]
      rw [if_neg h0]
      by_cases c1 : m < 0x800000
      · rw [if_pos c1, ofWord_packWord _ _ _ (by omega) c1, if_pos rfl]
        exact ⟨m, -149, rfl, by rw [show u = -149 by omega]⟩
      · have hl : 23 ≤ m.log2 := (Nat.le_log2 h0).2 (by omega)
        rw [if_neg c1]
        by_cases c2 : m < 0x1000000
        · rw [if_pos c2, ofWord_packWord _ _ _ (by omega) (by omega), if_neg (by omega)]
          exact ⟨_, _, rfl, by
            rw [show ((0x800000 + (m - 0x800000) : Nat)) = m by omega,
              show (((u + 150).toNat : Nat) : Int) - 150 = u by omega]⟩
        · have hm : m = 16777216 := by omega
          subst hm
          have hl : (16777216 : Nat).log2 = 24 := by decide
          rw [hl] at hov
          rw [if_neg c2, ofWord_packWord _ _ _ (by omega) (by norm_num), if_neg (by omega)]
          refine ⟨_, _, rfl, ?_⟩
          rw [show (((u + 151).toNat : Nat) : Int) - 150 = u + 1 by omega, zpow_add₀ (by norm_num)]
          norm_num
          ring
    · calc (m : ℚ) * 2 ^ u < 2 ^ ((m.log2 : Int) + 1) * 2 ^ u := by gcongr
        _ = 2 ^ ((m.log2 : Int) + 1 + u) := by rw [← zpow_add₀ (by norm_num)]
        _ ≤ 2 ^ (128 : Int) := zpow_le_zpow_right₀ (by norm_num) (by omega)


theorem mul_zpow_le {m n : Nat} {e f : Int} (hm : m < 2 ^ 24) (hn : 2 ^ 23 ≤ n) (h : e < f) :
    (m : ℚ) * 2 ^ e < n * 2 ^ f := by
  have h1 : (m : ℚ) < 2 ^ 24 := by exact_mod_cast hm
  have h2 : ((2 : ℚ) ^ 23) ≤ n := by exact_mod_cast hn
  calc (m : ℚ) * 2 ^ e < 2 ^ 24 * 2 ^ e := mul_lt_mul_of_pos_right h1 (two_zpow_pos e)
    _ = 2 ^ 23 * 2 ^ (e + 1) := by rw [zpow_add₀ (by norm_num)]; norm_num; ring
    _ ≤ 2 ^ 23 * 2 ^ f := by gcongr <;> [norm_num; omega]
    _ ≤ n * 2 ^ f := by gcongr

/-- Finite words of the same sign and the same value are equal. -/
theorem word_ext {w w' : Word} {s : Bool} {v : ℚ} (h : (Fl.ofWord w).Is s v) (h' : (Fl.ofWord w').Is s v) : w = w' := by
  obtain ⟨m, e, h1, h2⟩ := h
  obtain ⟨n, f, h1', h2'⟩ := h'
  obtain ⟨a, i, g1, g2, g3, g4, g5, g6⟩ := ofWord_finite w (by rw [h1]; rfl)
  obtain ⟨b, j, k1, k2, k3, k4, k5, k6⟩ := ofWord_finite w' (by rw [h1']; rfl)
  rw [h1] at g1
  rw [h1'] at k1
  cases g1
  injection k1 with k1 kb kj
  subst kb kj
  have hv : (m : ℚ) * 2 ^ e = n * 2 ^ f := by rw [h2, h2']
  have he : e = f := by
    rcases lt_trichotomy e f with h | h | h
    · have := mul_zpow_le g2 (by omega : 2 ^ 23 ≤ n) h; linarith
    · exact h
    · have := mul_zpow_le k2 (by omega : 2 ^ 23 ≤ m) h; linarith
  subst he
  have hm : m = n := by
    have := mul_right_cancel₀ (two_zpow_pos e).ne' hv
    exact_mod_cast this
  subst hm
  rw [g6, k6, k1]

/-- `rnd32` of a finite value that is not zero. -/
theorem toWord_fin (key : List Word) (s : Bool) (m : Nat) (e : Int) (h : m ≠ 0) :
    ∃ M U, Rounds .binary32 ((m : ℚ) * 2 ^ e) M U ∧
      (Fl.fin s m e).toWord key = (packFl .binary32 s M U).bits key := by
  obtain ⟨M, U, r, e1⟩ := roundRat_rounds .binary32 s m 1 e h (by decide)
  refine ⟨M, U, by simpa using r, ?_⟩
  simp only [Fl.toWord, Fl.round, e1]

theorem toWord_zero (key : List Word) (s : Bool) (e : Int) : (Fl.fin s 0 e).toWord key = packWord s 0 0 := by
  simp only [Fl.toWord, Fl.round, roundRat_zero, Fl.bits, if_pos]

theorem is_packWord_zero (s : Bool) : (Fl.ofWord (packWord s 0 0)).Is s 0 :=
  ⟨0, -149, by rw [ofWord_packWord s 0 0 (by decide) (by decide)]; rfl, by simp⟩

/-- `rnd32` of a value that binary32 holds keeps it. -/
theorem toWord_exact (key : List Word) (s : Bool) (m : Nat) (e : Int) {n : Nat} {k : Int} (hn : n < 2 ^ 24)
    (hk : -149 ≤ k) (hk' : k ≤ 104) (hv : (m : ℚ) * 2 ^ e = n * 2 ^ k) :
    (Fl.ofWord ((Fl.fin s m e).toWord key)).Is s (n * 2 ^ k) := by
  by_cases h0 : m = 0
  · subst h0
    rw [toWord_zero, ← hv]
    simpa using is_packWord_zero s
  · obtain ⟨M, U, r, e1⟩ := toWord_fin key s m e h0
    rw [e1]
    have hx := r.exact (by decide) (n := n) (k := k) hn hk hv
    rcases ofWord_bits_packFl key s r with ⟨h, _⟩ | ⟨_, h⟩
    · rwa [hx, hv] at h
    · exfalso
      rw [hx, hv] at h
      have h1 : (n : ℚ) < 2 ^ (24 : Int) := by exact_mod_cast hn
      have : (n : ℚ) * 2 ^ k < 2 ^ (128 : Int) := by
        calc (n : ℚ) * 2 ^ k < 2 ^ (24 : Int) * 2 ^ k := mul_lt_mul_of_pos_right h1 (two_zpow_pos k)
          _ = 2 ^ (24 + k) := by rw [← zpow_add₀ (by norm_num)]
          _ ≤ 2 ^ (128 : Int) := zpow_le_zpow_right₀ (by norm_num) (by omega)
      linarith

/-- A finite word is the word of its value. -/
theorem toWord_ofWord (key : List Word) (w : Word) (h : (Fl.ofWord w).finite = true) : (Fl.ofWord w).toWord key = w := by
  obtain ⟨m, e, h1, h2, h3, h4, -⟩ := ofWord_finite w h
  have := toWord_exact key (w.getLsbD 31) m e h2 h3 h4 rfl
  rw [h1]
  exact word_ext this ⟨m, e, h1, rfl⟩

/-- `rnd32` of a value already rounded to binary32 changes nothing. -/
theorem toWord_round (key : List Word) (x : Fl) : (x.round .binary32).toWord key = x.toWord key := by
  cases x with
  | nan => rfl
  | inf s => rfl
  | fin s m e =>
    by_cases h0 : m = 0
    · subst h0
      rw [toWord_zero, Fl.round, roundRat_zero, toWord_zero]
    · obtain ⟨M, U, r, e1⟩ := roundRat_rounds .binary32 s m 1 e h0 (by decide)
      have hb := ofWord_bits_packFl key s r
      obtain ⟨b1, b2, b3⟩ := r.bounds (by decide)
      simp only [Fmt.binary32] at b1 b2 b3
      norm_num at b1 b3
      rw [show (Fl.fin s m e).toWord key = (packFl .binary32 s M U).bits key by simp only [Fl.toWord, Fl.round, e1]]
      simp only [Fl.round, e1]
      unfold packFl at hb ⊢
      by_cases h1 : M = 0
      · rw [if_pos h1, toWord_zero]
        simp only [Fl.bits, if_pos]
      · rw [if_neg h1] at hb ⊢
        by_cases h2 : Fmt.binary32.emax < (M.log2 : Int) + U
        · rw [if_pos h2]; rfl
        · rw [if_neg h2] at hb ⊢
          simp only [Fmt.binary32] at h2
          rcases hb with ⟨hb, -⟩ | ⟨-, hb⟩
          · have hl : 8388608 ≤ M → 23 ≤ M.log2 := fun h => (Nat.le_log2 h1).2 (by omega)
            by_cases h3 : M < 16777216
            · exact word_ext (toWord_exact key s M U (n := M) (k := U) (by omega) b2 (by omega) rfl) hb
            · have hm : M = 16777216 := by omega
              subst hm
              have hl : (16777216 : Nat).log2 = 24 := by decide
              rw [hl] at h2
              have hv : ((16777216 : Nat) : ℚ) * 2 ^ U = (8388608 : Nat) * 2 ^ (U + 1) := by
                rw [zpow_add₀ (by norm_num)]; norm_num; ring
              have := toWord_exact key s 16777216 U (n := 8388608) (k := U + 1) (by omega) (by omega) (by omega) hv
              rw [← hv] at this
              exact word_ext this hb
          · exfalso
            obtain ⟨l1, l2⟩ := log2_bounds M h1
            have hu := two_zpow_pos U
            have : (M : ℚ) * 2 ^ U < 2 ^ (128 : Int) := by
              calc (M : ℚ) * 2 ^ U < 2 ^ ((M.log2 : Int) + 1) * 2 ^ U := by gcongr
                _ = 2 ^ ((M.log2 : Int) + 1 + U) := by rw [← zpow_add₀ (by norm_num)]
                _ ≤ 2 ^ (128 : Int) := zpow_le_zpow_right₀ (by norm_num) (by omega)
            linarith

/-! Order. -/

/-- The signed value of a finite value. -/
def signed (s : Bool) (v : ℚ) : ℚ := if s then -v else v

theorem scaled_signed (s : Bool) (m : Nat) (e k : Int) (h : k ≤ e) :
    (scaled s m e k : ℚ) = signed s ((m : ℚ) * 2 ^ e) / 2 ^ k := by
  obtain ⟨j, hj⟩ := Int.eq_ofNat_of_zero_le (show 0 ≤ e - k by omega)
  have he : e = j + k := by omega
  subst he
  unfold scaled signed
  rw [show (((j : Int) + k - k).toNat) = j by omega, Nat.shiftLeft_eq, zpow_add₀ (by norm_num), zpow_natCast]
  have := (two_zpow_pos k).ne'
  cases s <;> simp <;> field_simp

theorem le_fin (s t : Bool) (m n : Nat) (e f : Int) :
    Fl.le (.fin s m e) (.fin t n f) = decide (signed s ((m : ℚ) * 2 ^ e) ≤ signed t ((n : ℚ) * 2 ^ f)) := by
  simp only [Fl.le]
  congr 1
  rw [← Int.cast_le (R := ℚ), scaled_signed _ _ _ _ (min_le_left _ _), scaled_signed _ _ _ _ (min_le_right _ _),
    div_le_div_iff_of_pos_right (two_zpow_pos _)]

theorem lt_fin (s t : Bool) (m n : Nat) (e f : Int) :
    Fl.lt (.fin s m e) (.fin t n f) = decide (signed s ((m : ℚ) * 2 ^ e) < signed t ((n : ℚ) * 2 ^ f)) := by
  simp only [Fl.lt]
  congr 1
  rw [← Int.cast_lt (R := ℚ), scaled_signed _ _ _ _ (min_le_left _ _), scaled_signed _ _ _ _ (min_le_right _ _),
    div_lt_div_iff_of_pos_right (two_zpow_pos _)]

/-- `rnd32` keeps a value at or above a finite word. -/
theorem le_toWord (key : List Word) (w : Word) (x : Fl) (hw : (Fl.ofWord w).finite = true)
    (h : Fl.le (Fl.ofWord w) x = true) : Fl.le (Fl.ofWord w) (Fl.ofWord (x.toWord key)) = true := by
  obtain ⟨n, k, h1, h2, h3, h4, -⟩ := ofWord_finite w hw
  rw [h1] at h ⊢
  cases x with
  | nan => simp [Fl.le] at h
  | inf s =>
    cases s
    · have : Fl.ofWord ((Fl.inf false).toWord key) = .inf false := ofWord_inf false
      rw [this]; rfl
    · simp [Fl.le] at h
  | fin s m e =>
    rw [le_fin, decide_eq_true_eq] at h
    have h5 : n < 2 ^ Fmt.binary32.prec := h2
    have h6 : Fmt.binary32.emin ≤ k := h3
    by_cases h0 : m = 0
    · subst h0
      rw [toWord_zero]
      obtain ⟨a, b, hab, hv⟩ := is_packWord_zero s
      rw [hab, le_fin, decide_eq_true_eq, hv]
      simpa using h
    · obtain ⟨M, U, r, e1⟩ := toWord_fin key s m e h0
      rw [e1]
      have hm := r.mono (by decide) h5 h6
      rcases ofWord_bits_packFl key s r with ⟨⟨a, b, hab, hv⟩, _⟩ | ⟨hi, hbig⟩
      · rw [hab, le_fin, decide_eq_true_eq, hv]
        have p1 : (0 : ℚ) ≤ (n : ℚ) * 2 ^ k := by positivity
        have p2 : (0 : ℚ) ≤ (M : ℚ) * 2 ^ U := by positivity
        have p3 : (0 : ℚ) ≤ (m : ℚ) * 2 ^ e := by positivity
        have hz := r.mono (by decide) (n := 0) (k := 0) (by decide) (by decide)
        cases hs : w.getLsbD 31 <;> cases s <;> simp only [signed, hs] at h ⊢ <;> simp at h ⊢
        · exact hm.1 h
        · have e3 : (m : ℚ) * 2 ^ e = 0 := by linarith
          have : (m : ℚ) ≠ 0 := by exact_mod_cast h0
          have := (two_zpow_pos e).ne'
          simp_all
        · linarith
        · exact hm.2 h
      · rw [hi]
        cases s
        · rfl
        · exfalso
          have hlt : (n : ℚ) * 2 ^ k < 2 ^ (128 : Int) := by
            have h1 : (n : ℚ) < 2 ^ (24 : Int) := by exact_mod_cast h2
            calc (n : ℚ) * 2 ^ k < 2 ^ (24 : Int) * 2 ^ k := mul_lt_mul_of_pos_right h1 (two_zpow_pos k)
              _ = 2 ^ (24 + k) := by rw [← zpow_add₀ (by norm_num)]
              _ ≤ 2 ^ (128 : Int) := zpow_le_zpow_right₀ (by norm_num) (by omega)
          have p1 : (0 : ℚ) ≤ (n : ℚ) * 2 ^ k := by positivity
          have p3 : (0 : ℚ) ≤ (m : ℚ) * 2 ^ e := by positivity
          have : (m : ℚ) * 2 ^ e ≤ n * 2 ^ k := by
            cases hs : w.getLsbD 31 <;> simp only [signed, hs] at h <;> simp at h <;> linarith
          have := hm.2 this
          linarith

end Sys2Proof
end

