-- ==== Sys2Proof/Laws/Arith.lean ====
section
/-! SUPPORT. What the binary32 operations do: `toWord` rounds to the nearest word, ties to even; SUBNORMAL_MODE leaves
normal values and zeros alone; and the products by 1 and 0 and the sum with a zero that an identity set makes. -/

namespace Sys2Proof

open Sys2Proof.Machine

/-- `wordFix` is the value of a finite word in units of `2^-149`. -/
theorem wordFix_is {w : Word} {s : Bool} {v : ℚ} (h : (Fl.ofWord w).Is s v) :
    ((wordFix w : Int) : ℚ) = signed s v * 2 ^ (149 : Int) := by
  obtain ⟨m, e, h1, rfl⟩ := h
  obtain ⟨a, i, g1, -, g3, -⟩ := ofWord_finite w (by rw [h1]; rfl)
  rw [h1] at g1
  injection g1 with _ g1 g2
  subst g2
  obtain ⟨j, hj⟩ := Int.eq_ofNat_of_zero_le (show 0 ≤ e + 149 by omega)
  unfold wordFix
  rw [h1]
  simp only [toFix]
  rw [show (-(e + (149 : Nat))).toNat = 0 by omega, show (e + (149 : Nat)).toNat = j by omega, Nat.shiftRight_zero,
    Nat.shiftLeft_eq]
  rw [show e = j - 149 by omega, zpow_sub₀ (by norm_num), zpow_natCast]
  have : (2 : ℚ) ^ (149 : Int) ≠ 0 := by positivity
  cases s <;> simp [signed] <;> field_simp

theorem packWord_lsb (s : Bool) (ef frac : Nat) : (packWord s ef frac).getLsbD 0 = decide (frac % 2 = 1) := by
  simp only [packWord, BitVec.getLsbD_append]
  simp [BitVec.getElem_eq_testBit_toNat, Nat.testBit_zero]

/-- The last bit of a finite rounded word is that of its significand. -/
theorem bits_lsb (key : List Word) (s : Bool) {v : ℚ} {m : Nat} {u : Int} (h : Rounds .binary32 v m u) (he : m % 2 = 0)
    (hf : (Fl.ofWord ((packFl .binary32 s m u).bits key)).finite = true) :
    ((packFl .binary32 s m u).bits key).getLsbD 0 = false := by
  obtain ⟨b1, -, -⟩ := h.bounds (by decide)
  simp only [Fmt.binary32] at b1
  norm_num at b1
  unfold packFl at hf ⊢
  split
  · simp only [Fl.bits, if_pos]; rw [packWord_lsb]; decide
  · rename_i h0
    split
    · rename_i h1
      rw [if_neg h0, if_pos h1] at hf
      rw [show Fl.bits key (.inf s) = packWord s 255 0 from rfl, ofWord_inf] at hf
      simp [Fl.finite] at hf
    · simp only [Fl.bits]
      rw [if_neg h0]
      split
      · rw [packWord_lsb]; simp; omega
      · split
        · rw [packWord_lsb]; simp; omega
        · rw [packWord_lsb]; simp; omega

/-- Half a unit above the largest binary32 number. -/
def overflowThreshold : ℚ := (2 ^ 25 - 1) * 2 ^ (103 : Int)

/-- A value rounds to a finite word exactly below the overflow threshold. -/
theorem rounds_finite_iff {v : ℚ} {m : Nat} {u : Int} (h : Rounds .binary32 v m u) :
    (m : ℚ) * 2 ^ u < 2 ^ (128 : Int) ↔ v < overflowThreshold := by
  obtain ⟨b1, b2, b3⟩ := h.bounds (by decide)
  simp only [Fmt.binary32] at b1 b2 b3
  norm_num at b1 b3
  have hmx := h.mono (by decide) (n := 2 ^ 24 - 1) (k := 104) (by decide) (by decide)
  have hne := h.nearest (by decide) (n := 2 ^ 24 - 1) (k := 104) (by decide) (by decide)
  have c1 : (((2 ^ 24 - 1 : Nat) : ℚ) * 2 ^ (104 : Int)) = overflowThreshold - 2 ^ (103 : Int) := by
    unfold overflowThreshold; rw [show (104 : Int) = 103 + 1 by norm_num, zpow_add₀ (by norm_num)]; norm_num
  have c2 : (2 : ℚ) ^ (128 : Int) = overflowThreshold + 2 ^ (103 : Int) := by
    unfold overflowThreshold; rw [show (128 : Int) = 103 + 25 by norm_num, zpow_add₀ (by norm_num)]; norm_num
  rw [c1] at hmx hne
  have hp := two_zpow_pos 103
  constructor
  · intro hlt
    by_contra hv
    rw [not_lt] at hv
    obtain ⟨⟨t, t1, t2, t3⟩, hn, he⟩ := h
    simp only [Fmt.binary32] at t3
    have ht : 127 ≤ t := by
      have : (2 : ℚ) ^ (127 : Int) < 2 ^ (t + 1) := by
        refine lt_of_lt_of_le ?_ (hv.trans t2.le)
        unfold overflowThreshold; rw [show (127 : Int) = 103 + 24 by norm_num, zpow_add₀ (by norm_num)]; norm_num
      have := (zpow_lt_zpow_iff_right₀ (by norm_num : (1 : ℚ) < 2)).1 this
      omega
    have hu : u = t - 23 := by norm_num at t3; omega
    have hm : 8388608 ≤ m := by omega
    rcases (by omega : t = 127 ∨ 128 ≤ t) with h1 | h1
    · have hu : u = 104 := by omega
      subst hu
      have hx : ((2 : ℚ) ^ 24 - 1 / 2) ≤ v / 2 ^ (104 : Int) := by
        rw [le_div_iff₀ (two_zpow_pos _)]
        refine le_trans (le_of_eq ?_) hv
        unfold overflowThreshold; rw [show (104 : Int) = 103 + 1 by norm_num, zpow_add₀ (by norm_num)]; norm_num
      have hn' := abs_le.1 hn
      have : ((2 : ℚ) ^ 24 - 1) ≤ m := by linarith
      have : (2 : ℚ) ^ 24 ≤ m + 1 := by linarith
      have : 2 ^ 24 ≤ m + 1 := by exact_mod_cast this
      have hm2 : m < 2 ^ 24 := by
        by_contra hc
        rw [not_lt] at hc
        have : ((2 : ℚ) ^ 24) ≤ m := by exact_mod_cast hc
        have : (2 : ℚ) ^ 24 * 2 ^ (104 : Int) ≤ m * 2 ^ (104 : Int) := by gcongr
        rw [show (2 : ℚ) ^ 24 * 2 ^ (104 : Int) = 2 ^ (128 : Int) by
          rw [show (128 : Int) = 24 + 104 by norm_num, zpow_add₀ (by norm_num)]; norm_cast] at this
        linarith
      have hm3 : m = 16777215 := by omega
      subst hm3
      have := he (by
        rw [abs_of_nonpos (by push_cast; linarith)]
        push_cast at hn' ⊢
        linarith)
      omega
    · have : ((2 : ℚ) ^ 23) ≤ m := by exact_mod_cast hm
      have : (2 : ℚ) ^ 23 * 2 ^ u ≤ m * 2 ^ u := by gcongr
      have h3 : (2 : ℚ) ^ (128 : Int) ≤ 2 ^ 23 * 2 ^ u := by
        rw [show ((2 : ℚ) ^ 23) = 2 ^ (23 : Int) by norm_cast, ← zpow_add₀ (by norm_num)]
        exact zpow_le_zpow_right₀ (by norm_num) (by omega)
      linarith
  · intro hv
    by_contra hlt
    rw [not_lt, c2] at hlt
    rcases le_or_gt v (overflowThreshold - 2 ^ (103 : Int)) with hc | hc
    · have := hmx.2 hc; linarith
    · have := hne.1
      rw [abs_of_nonneg (by linarith), abs_of_nonpos (by linarith)] at this
      linarith

/-- What rnd32 does, in signed values: finite below the threshold, then no binary32 number is nearer, and of two
equally near the one with an even significand is taken (00_scope R13). -/
theorem toWord_nearest (key : List Word) (s : Bool) (m : Nat) (e : Int) :
    let R := signed s ((m : ℚ) * 2 ^ e)
    let w := (Fl.fin s m e).toWord key
    ((Fl.ofWord w).finite = true ↔ |R| < overflowThreshold) ∧
    ((Fl.ofWord w).finite = true → ∀ z : Word, (Fl.ofWord z).finite = true →
      |(wordFix w : ℚ) - R * 2 ^ (149 : Int)| ≤ |(wordFix z : ℚ) - R * 2 ^ (149 : Int)| ∧
      (|(wordFix w : ℚ) - R * 2 ^ (149 : Int)| = |(wordFix z : ℚ) - R * 2 ^ (149 : Int)| → wordFix z ≠ wordFix w →
        w.getLsbD 0 = false)) := by
  intro R w
  have hRabs : |R| = (m : ℚ) * 2 ^ e := by
    have : (0 : ℚ) ≤ (m : ℚ) * 2 ^ e := by positivity
    cases s <;> simp [R, signed, abs_of_nonneg this]
  have hk := two_zpow_pos 149
  by_cases h0 : m = 0
  · subst h0
    have hw : w = packWord s 0 0 := toWord_zero key s e
    have hR : R = 0 := by cases s <;> simp [R, signed]
    have hf : wordFix w = 0 := by
      have := wordFix_is (is_packWord_zero s)
      rw [← hw] at this
      have h0 : signed s 0 = 0 := by cases s <;> simp [signed]
      rw [h0, zero_mul] at this
      exact_mod_cast this
    refine ⟨⟨fun _ => by rw [hRabs]; simp [overflowThreshold]; norm_num, fun _ => by rw [hw]; cases s <;> rfl⟩,
      fun _ z hz => ?_⟩
    rw [hR, hf]
    simp
    intro h1 h2
    exact absurd (by simpa using h1.symm) h2
  · obtain ⟨M, U, r, e1⟩ := toWord_fin key s m e h0
    have hw : w = (packFl .binary32 s M U).bits key := e1
    have hb := ofWord_bits_packFl key s r
    rw [← hw] at hb
    have hb2 := rounds_finite_iff r
    have hfin : (Fl.ofWord w).finite = true ↔ |R| < overflowThreshold := by
      rw [hRabs, ← hb2]
      rcases hb with ⟨⟨a, b, h1, _⟩, h2⟩ | ⟨h1, h2⟩
      · exact ⟨fun _ => h2, fun _ => by rw [h1]; rfl⟩
      · rw [h1]; exact ⟨fun h => by simp [Fl.finite] at h, fun h => by linarith⟩
    refine ⟨hfin, fun hf z hz => ?_⟩
    have hbw : (Fl.ofWord w).Is s (M * 2 ^ U) := by
      rcases hb with ⟨h, _⟩ | ⟨h1, _⟩
      · exact h
      · rw [h1] at hf; simp [Fl.finite] at hf
    have e2 := wordFix_is hbw
    obtain ⟨n, k, z1, z2, z3, z4, -⟩ := ofWord_finite z hz
    have e3 := wordFix_is (w := z) ⟨n, k, z1, rfl⟩
    have near := r.nearest (by decide) (n := n) (k := k) z2 z3
    have near0 := r.nearest (by decide) (n := 0) (k := 0) (by decide) (by decide)
    simp only [Nat.cast_zero, zero_mul, zero_sub, abs_neg] at near0
    set t := z.getLsbD 31
    have p1 : (0 : ℚ) ≤ (n : ℚ) * 2 ^ k := by positivity
    have p2 : (0 : ℚ) ≤ (M : ℚ) * 2 ^ U := by positivity
    have p3 : (0 : ℚ) ≤ (m : ℚ) * 2 ^ e := by positivity
    set a := (M : ℚ) * 2 ^ U
    set v := (m : ℚ) * 2 ^ e
    set c := (n : ℚ) * 2 ^ k
    have main : |signed s a - signed s v| ≤ |signed t c - signed s v| ∧
        (|signed s a - signed s v| = |signed t c - signed s v| → signed t c ≠ signed s a → M % 2 = 0) := by
      have hs : |signed s a - signed s v| = |a - v| := by
        cases s <;> simp [signed]
        rw [← abs_neg]; ring_nf
      rw [hs]
      by_cases hts : t = s
      · rw [hts]
        have hc : |signed s c - signed s v| = |c - v| := by
          cases s <;> simp [signed]
          rw [← abs_neg]; ring_nf
        rw [hc]
        exact ⟨near.1, fun h1 h2 => near.2 h1 (fun h3 => h2 (by rw [h3]))⟩
      · have hc : |signed t c - signed s v| = c + v := by
          clear_value t a v c
          rcases s with _ | _ <;> rcases t with _ | _ <;> first | exact absurd rfl hts | skip
          · simp only [signed]; simp
            rw [abs_of_nonpos (by linarith)]; ring
          · simp only [signed]; simp
            linarith
        rw [hc]
        have h5 : |a - v| ≤ v := by have := near0.1; rwa [abs_of_nonneg p3] at this
        refine ⟨by linarith, fun h1 h2 => near0.2 (by rw [abs_of_nonneg p3]; linarith) ?_⟩
        intro h6
        apply h2
        have : c = 0 := by linarith
        rw [this, ← h6]
        cases s <;> cases t <;> simp [signed]
    have q1 : ∀ p : ℚ, |p * 2 ^ (149 : Int) - R * 2 ^ (149 : Int)| = |p - R| * 2 ^ (149 : Int) := by
      intro p
      rw [← sub_mul, abs_mul, abs_of_pos hk]
    rw [e2, e3, q1, q1, mul_le_mul_iff_left₀ hk, mul_left_inj' hk.ne']
    refine ⟨main.1, fun h1 h2 => ?_⟩
    have := main.2 h1 (by
      intro h3
      apply h2
      have : (wordFix z : ℚ) = wordFix w := by rw [e2, e3, h3]
      exact_mod_cast this)
    rw [hw] at hf ⊢
    exact bits_lsb key s r this hf

/-- An IEEE build flushes nothing. -/
theorem flush_ieee (b : Build) (h : b.subnormal = .ieee) (x : Fl) : b.sample.flush x = x := by
  simp [Arith.flush, Build.sample, h]

/-- `Fl.ofInt` keeps the value. -/
theorem ofInt_signed (z : Bool) (V k : Int) : ∃ s m, Fl.ofInt z V k = .fin s m (if V = 0 then 0 else k) ∧
    signed s ((m : ℚ) * 2 ^ (if V = 0 then 0 else k : Int)) = (V : ℚ) * 2 ^ k := by
  unfold Fl.ofInt
  split
  · rename_i h; subst h; exact ⟨z, 0, rfl, by cases z <;> simp [signed]⟩
  · refine ⟨_, _, rfl, ?_⟩
    by_cases h : V < 0
    · simp only [h, decide_true, signed, if_pos]
      have : ((V.natAbs : Nat) : ℚ) = -(V : ℚ) := by
        have : ((V.natAbs : Int)) = -V := by omega
        rw [← Int.cast_natCast, this]; push_cast; ring
      rw [this]; ring
    · simp only [h, decide_false, signed]
      have : ((V.natAbs : Nat) : ℚ) = (V : ℚ) := by
        have : ((V.natAbs : Int)) = V := by omega
        rw [← Int.cast_natCast, this]
      rw [this]; simp

theorem signed_not (s : Bool) (v : ℚ) : signed (!s) v = -signed s v := by cases s <;> simp [signed]

/-- The exact sum of finite values is exact. -/
theorem addExact_value (s t : Bool) (m n : Nat) (e f : Int) :
    ∃ s' m' e', Fl.addExact (.fin s m e) (.fin t n f) = .fin s' m' e' ∧
      signed s' ((m' : ℚ) * 2 ^ e') = signed s ((m : ℚ) * 2 ^ e) + signed t ((n : ℚ) * 2 ^ f) := by
  simp only [Fl.addExact]
  obtain ⟨s', m', h1, h2⟩ :=
    ofInt_signed (s && t && m == 0 && n == 0) (scaled s m e (min e f) + scaled t n f (min e f)) (min e f)
  refine ⟨_, _, _, h1, ?_⟩
  rw [h2]
  push_cast
  rw [scaled_signed _ _ _ _ (min_le_left _ _), scaled_signed _ _ _ _ (min_le_right _ _)]
  have := (two_zpow_pos (min e f)).ne'
  field_simp

/-- Two words are the SameButZeroSign, or both are zeros. -/
def SameButZeroSign (u v : Word) : Prop := u = v ∨ (u &&& 0x7FFFFFFF#32 = 0#32 ∧ v &&& 0x7FFFFFFF#32 = 0#32)

/-- A finite word that SUBNORMAL_MODE does not flush. -/
def PlainWord (b : Build) (w : Word) : Prop := (Fl.ofWord w).finite = true ∧ b.sample.flush (Fl.ofWord w) = Fl.ofWord w

/-- A zero of a given sign. -/
def zeroWord (s : Bool) : Word := packWord s 0 0

/-- A zero or a value of normal magnitude is not flushed. -/
theorem flush_normal (b : Build) (s : Bool) (m : Nat) (e : Int)
    (h : m = 0 ∨ (2 : ℚ) ^ (-126 : Int) ≤ (m : ℚ) * 2 ^ e) :
    b.sample.flush (.fin s m e) = .fin s m e := by
  unfold Arith.flush
  have : (Fl.fin s m e).subnormal b.sample.fmt = false := by
    simp only [Fl.subnormal, Build.sample, Fmt.binary32]
    by_cases h0 : m = 0
    · simp [h0]
    · rw [Bool.and_eq_false_iff]
      right
      apply decide_eq_false
      norm_num
      rcases h with h | h
      · exact absurd h h0
      · obtain ⟨-, l2⟩ := log2_bounds m h0
        have hu := two_zpow_pos e
        have : (2 : ℚ) ^ (-126 : Int) < 2 ^ ((m.log2 : Int) + 1 + e) := by
          calc _ ≤ _ := h
            _ < 2 ^ ((m.log2 : Int) + 1) * 2 ^ e := by gcongr
            _ = _ := by rw [← zpow_add₀ (by norm_num)]
        have := (zpow_lt_zpow_iff_right₀ (by norm_num : (1 : ℚ) < 2)).1 this
        omega
  simp [this]

/-- What FTZ_DAZ leaves alone is a zero or of normal magnitude. -/
theorem normal_of_flush (b : Build) (s : Bool) (m : Nat) (e : Int) (hb : b.subnormal = .ftzDaz)
    (h : b.sample.flush (.fin s m e) = .fin s m e) : m = 0 ∨ (2 : ℚ) ^ (-126 : Int) ≤ (m : ℚ) * 2 ^ e := by
  by_contra hc
  rw [not_or, not_le] at hc
  obtain ⟨h0, hlt⟩ := hc
  unfold Arith.flush at h
  have : (Fl.fin s m e).subnormal b.sample.fmt = true := by
    simp only [Fl.subnormal, Build.sample, Fmt.binary32]
    simp [h0]
    obtain ⟨l1, -⟩ := log2_bounds m h0
    have hu := two_zpow_pos e
    have : (2 : ℚ) ^ ((m.log2 : Int) + e) < 2 ^ (-126 : Int) := by
      calc _ = 2 ^ (m.log2 : Int) * 2 ^ e := zpow_add₀ (by norm_num) _ _
        _ ≤ (m : ℚ) * 2 ^ e := by gcongr
        _ < _ := hlt
    exact decide_eq_true ((zpow_lt_zpow_iff_right₀ (by norm_num : (1 : ℚ) < 2)).1 this)
  rw [this] at h
  simp [Build.sample, hb] at h
  omega

/-- Rounding, then flushing a value that equals a PlainWord word's gives the word. -/
theorem toWord_flush_round (b : Build) (key : List Word) (s : Bool) (m : Nat) (e : Int) (w : Word) (hw : PlainWord b w)
    (hv : (Fl.ofWord w).Is s ((m : ℚ) * 2 ^ e)) :
    (b.sample.flush ((Fl.fin s m e).round .binary32)).toWord key = w := by
  obtain ⟨hw1, hw2⟩ := hw
  have hx : (Fl.ofWord ((Fl.fin s m e).toWord key)).Is s ((m : ℚ) * 2 ^ e) := by
    obtain ⟨n, k, h1, h2, h3, h4, -⟩ := ofWord_finite w hw1
    obtain ⟨a, c, h5, h6⟩ := hv
    rw [h1] at h5; injection h5 with _ i1 i2; subst i1 i2
    rw [← h6]; exact toWord_exact key s m e h2 h3 h4 h6.symm
  have hfl : b.sample.flush ((Fl.fin s m e).round .binary32) = (Fl.fin s m e).round .binary32 := by
    cases hb : b.subnormal with
    | ieee => exact flush_ieee b hb _
    | ftzDaz =>
      obtain ⟨n, k, h1, h2, h3, h4, -⟩ := ofWord_finite w hw1
      obtain ⟨a, c, h5, h6⟩ := hv
      have hbig := normal_of_flush b s a c hb (by rw [← h5]; exact hw2)
      by_cases h0 : m = 0
      · subst h0
        rw [Fl.round, roundRat_zero]
        exact flush_normal b s 0 0 (.inl rfl)
      · obtain ⟨M, U, r, e1⟩ := roundRat_rounds .binary32 s m 1 e h0 (by decide)
        have hex : (M : ℚ) * 2 ^ U = (m : ℚ) * 2 ^ e := by
          rw [h1] at h5; injection h5 with _ i1 i2; subst i1 i2
          have := r.exact (by decide) (n := n) (k := k) h2 h3 (by simpa using h6.symm)
          simpa using this
        simp only [Fl.round, e1, packFl]
        split
        · exact flush_normal b s 0 0 (.inl rfl)
        · split
          · simp [Arith.flush, Fl.subnormal]
          · apply flush_normal
            right
            rw [hex, ← h6]
            rcases hbig with h | h
            · exfalso
              subst h
              simp at h6
              rcases h6 with h | h
              · exact h0 h
              · exact (two_zpow_pos e).ne' h
            · exact h
  rw [hfl, toWord_round]
  exact word_ext hx hv

theorem ofWord_zeroWord (s : Bool) : Fl.ofWord (zeroWord s) = .fin s 0 (-149) := by cases s <;> rfl
theorem plainWord_zeroWord (b : Build) (s : Bool) : PlainWord b (zeroWord s) := by
  constructor
  · rw [ofWord_zeroWord]; rfl
  · rw [ofWord_zeroWord]; exact flush_normal b s 0 _ (.inl rfl)

/-- `1 * x` is `x`. -/
theorem one_fmul (b : Build) (x : Word) (hx : PlainWord b x) : fmul b 0x3F800000#32 x = x := by
  obtain ⟨m, e, h1, -⟩ := ofWord_finite x hx.1
  have one : Fl.ofWord 0x3F800000#32 = .fin false 8388608 (-23) := by decide
  have f1 : b.sample.flush (.fin false 8388608 (-23)) = .fin false 8388608 (-23) :=
    flush_normal b false _ _ (.inr (by norm_num))
  unfold fmul Arith.mul
  rw [one, f1, hx.2, h1]
  simp only [Fl.mulExact]
  apply toWord_flush_round b _ _ _ _ x hx
  refine ⟨m, e, by rw [h1]; cases x.getLsbD 31 <;> rfl, ?_⟩
  push_cast
  rw [zpow_add₀ (by norm_num)]
  norm_num
  ring

/-- `0 * x` is a zero, for a finite `x`. -/
theorem zero_fmul (b : Build) (x : Word) (hx : (Fl.ofWord x).finite = true) : ∃ s, fmul b 0#32 x = zeroWord s := by
  obtain ⟨m, e, h1, -⟩ := ofWord_finite x hx
  have z : Fl.ofWord 0#32 = .fin false 0 (-149) := by decide
  have f1 : b.sample.flush (.fin false 0 (-149)) = .fin false 0 (-149) := flush_normal b _ _ _ (.inl rfl)
  have : ∃ t n f, b.sample.flush (Fl.ofWord x) = .fin t n f := by
    rw [h1]; unfold Arith.flush; split <;> exact ⟨_, _, _, rfl⟩
  obtain ⟨t, n, f, h2⟩ := this
  unfold fmul Arith.mul
  rw [z, f1, h2]
  simp only [Fl.mulExact, Nat.zero_mul]
  exact ⟨_, toWord_flush_round b _ _ _ _ (zeroWord (false != t)) (plainWord_zeroWord b _)
    ⟨0, -149, ofWord_zeroWord _, by simp⟩⟩

theorem same_zeroWord (s t : Bool) : SameButZeroSign (zeroWord s) (zeroWord t) := by
  cases s <;> cases t <;> first | exact .inl rfl | (right; decide)

/-- The difference of two zeros is a zero. -/
theorem zero_fsub_zero (b : Build) (s t : Bool) : ∃ r, fsub b (zeroWord s) (zeroWord t) = zeroWord r := by
  have f : ∀ r e, b.sample.flush (.fin r 0 e) = .fin r 0 e := fun r e => flush_normal b r 0 e (.inl rfl)
  unfold fsub Arith.sub Arith.add
  rw [ofWord_zeroWord, ofWord_zeroWord]
  simp only [Fl.neg, f]
  have : ∃ r, Fl.addExact (.fin s 0 (-149)) (.fin (!t) 0 (-149)) = .fin r 0 0 := by
    cases s <;> cases t <;> exact ⟨_, rfl⟩
  obtain ⟨r, h⟩ := this
  rw [h]
  exact ⟨r, toWord_flush_round b _ r 0 0 (zeroWord r) (plainWord_zeroWord b r) ⟨0, -149, ofWord_zeroWord _, by simp⟩⟩

theorem ofInt_is (z : Bool) (V k : Int) (s : Bool) (v : ℚ) (h : (V : ℚ) * 2 ^ k = signed s v) (hv : 0 < v) :
    ∃ m, Fl.ofInt z V k = .fin s m k ∧ (m : ℚ) * 2 ^ k = v := by
  have hk := two_zpow_pos k
  have hV : V ≠ 0 := by
    rintro rfl
    cases s <;> simp [signed] at h <;> linarith
  unfold Fl.ofInt
  rw [if_neg hV]
  cases s
  · simp [signed] at h
    have hp : (0 : ℚ) < V := by by_contra hc; rw [not_lt] at hc; nlinarith
    have hp' : 0 < V := by exact_mod_cast hp
    refine ⟨V.natAbs, by simp; omega, ?_⟩
    rw [← h, ← Int.cast_natCast, show ((V.natAbs : Int)) = V by omega]
  · simp [signed] at h
    have hp : (V : ℚ) < 0 := by by_contra hc; rw [not_lt] at hc; nlinarith
    have hp' : V < 0 := by exact_mod_cast hp
    refine ⟨V.natAbs, by simp; omega, ?_⟩
    rw [← Int.cast_natCast, show ((V.natAbs : Int)) = -V by omega]
    push_cast; linarith

/-- Adding a zero on either side leaves a word, but for the sign of a zero. -/
theorem fadd_zero (b : Build) (x : Word) (s : Bool) (hx : PlainWord b x) :
    SameButZeroSign (fadd b x (zeroWord s)) x ∧ SameButZeroSign (fadd b (zeroWord s) x) x := by
  obtain ⟨m, e, h1, -⟩ := ofWord_finite x hx.1
  have f : ∀ r e, b.sample.flush (.fin r 0 e) = .fin r 0 e := fun r e => flush_normal b r 0 e (.inl rfl)
  by_cases h0 : m = 0
  · subst h0
    have hxz : x = zeroWord (x.getLsbD 31) :=
      word_ext (s := x.getLsbD 31) (v := 0) ⟨0, e, h1, by simp⟩ ⟨0, -149, ofWord_zeroWord _, by simp⟩
    have go : ∀ t, ∃ r, fadd b (zeroWord t) (zeroWord s) = zeroWord r ∧
        ∃ r', fadd b (zeroWord s) (zeroWord t) = zeroWord r' := by
      intro t
      unfold fadd Arith.add
      rw [ofWord_zeroWord, ofWord_zeroWord]
      simp only [f]
      have h : ∀ a c : Bool, ∃ r, Fl.addExact (.fin a 0 (-149)) (.fin c 0 (-149)) = .fin r 0 0 := by
        intro a c; cases a <;> cases c <;> exact ⟨_, rfl⟩
      obtain ⟨r, e1⟩ := h t s
      obtain ⟨r', e2⟩ := h s t
      rw [e1, e2]
      exact ⟨r, toWord_flush_round b _ r 0 0 (zeroWord r) (plainWord_zeroWord b r) ⟨0, -149, ofWord_zeroWord _, by simp⟩,
        r', toWord_flush_round b _ r' 0 0 (zeroWord r') (plainWord_zeroWord b r') ⟨0, -149, ofWord_zeroWord _, by simp⟩⟩
    obtain ⟨r, e1, r', e2⟩ := go (x.getLsbD 31)
    rw [← hxz] at e1 e2
    rw [e1, e2]
    constructor <;> (rw [hxz]; exact same_zeroWord _ _)
  · have hpos : (0 : ℚ) < (m : ℚ) * 2 ^ e := by
      have : (0 : ℚ) < m := by exact_mod_cast Nat.pos_of_ne_zero h0
      have := two_zpow_pos e
      positivity
    have key : ∀ y : Fl, (∃ a k, y = .fin (x.getLsbD 31) a k ∧ (a : ℚ) * 2 ^ k = (m : ℚ) * 2 ^ e) → ∀ key,
        (b.sample.flush (y.round .binary32)).toWord key = x := by
      rintro y ⟨a, k, rfl, h⟩ key
      exact toWord_flush_round b key _ a k x hx ⟨m, e, h1, h.symm⟩
    have sc : ∀ (r : Bool) (i k : Int), scaled r 0 i k = 0 := by intro r i k; simp [scaled]
    constructor
    · left
      unfold fadd Arith.add
      rw [hx.2, ofWord_zeroWord, f, h1]
      apply key
      simp only [Fl.addExact, sc, add_zero]
      have := scaled_signed (x.getLsbD 31) m e (min e (-149)) (min_le_left _ _)
      obtain ⟨a, g1, g2⟩ := ofInt_is (x.getLsbD 31 && s && m == 0 && (0 : Nat) == 0)
        (scaled (x.getLsbD 31) m e (min e (-149))) (min e (-149)) (x.getLsbD 31) _
        (by rw [this]; exact div_mul_cancel₀ _ (two_zpow_pos _).ne') hpos
      exact ⟨a, _, g1, g2⟩
    · left
      unfold fadd Arith.add
      rw [hx.2, ofWord_zeroWord, f, h1]
      apply key
      simp only [Fl.addExact, sc, zero_add]
      have := scaled_signed (x.getLsbD 31) m e (min (-149) e) (min_le_right _ _)
      obtain ⟨a, g1, g2⟩ := ofInt_is (s && x.getLsbD 31 && (0 : Nat) == 0 && m == 0)
        (scaled (x.getLsbD 31) m e (min (-149) e)) (min (-149) e) (x.getLsbD 31) _
        (by rw [this]; exact div_mul_cancel₀ _ (two_zpow_pos _).ne') hpos
      exact ⟨a, _, g1, g2⟩

theorem same_trans {u v w : Word} (h : SameButZeroSign u v) (h' : SameButZeroSign v w) : SameButZeroSign u w := by
  rcases h with rfl | ⟨a, c⟩
  · exact h'
  · rcases h' with rfl | ⟨a', c'⟩
    · exact .inr ⟨a, c⟩
    · exact .inr ⟨a, c'⟩
theorem same_symm {u v : Word} (h : SameButZeroSign u v) : SameButZeroSign v u := by
  rcases h with rfl | ⟨a, c⟩
  · exact .inl rfl
  · exact .inr ⟨c, a⟩
/-- A word whose bits below the sign are 0 is a zero. -/
theorem zeroWord_of_and (w : Word) (h : w &&& 0x7FFFFFFF#32 = 0#32) : ∃ s, w = zeroWord s := by
  have : w.toNat &&& 0x7FFFFFFF = 0 := by simpa using congrArg BitVec.toNat h
  rw [show (0x7FFFFFFF : Nat) = 2 ^ 31 - 1 by norm_num, Nat.and_two_pow_sub_one_eq_mod] at this
  rcases (by omega : w.toNat = 0 ∨ w.toNat = 0x80000000) with h | h
  · exact ⟨false, BitVec.eq_of_toNat_eq h⟩
  · exact ⟨true, BitVec.eq_of_toNat_eq h⟩
/-- Finiteness does not depend on the sign of a zero. -/
theorem same_finite {u v : Word} (h : SameButZeroSign u v)
    (hv : (Fl.ofWord v).finite = true) : (Fl.ofWord u).finite = true := by
  rcases h with rfl | ⟨a, c⟩
  · exact hv
  · obtain ⟨s, rfl⟩ := zeroWord_of_and u a; rw [ofWord_zeroWord]; rfl

/-- The sum does not depend on the sign of a zero summand, but for the sign of a zero result. -/
theorem fadd_congr_zero (b : Build) (x u v : Word) (hx : PlainWord b x) (h : SameButZeroSign u v) :
    SameButZeroSign (fadd b x u) (fadd b x v) := by
  rcases h with rfl | ⟨a, c⟩
  · exact .inl rfl
  · obtain ⟨s, rfl⟩ := zeroWord_of_and u a
    obtain ⟨t, rfl⟩ := zeroWord_of_and v c
    exact same_trans (fadd_zero b x s hx).1 (same_symm (fadd_zero b x t hx).1)

end Sys2Proof
end

