-- ==== Sys2Proof/Laws/State.lean ====
section
/-! SUPPORT. For each named update of the state, one lemma per field. -/

namespace Sys2Proof.Machine

variable (s : State)

/-! raise -/

@[simp] theorem State.raise_build (c : Cause) (i : Word) : (s.raise c i).build = s.build := rfl
@[simp] theorem State.raise_config (c : Cause) (i : Word) : (s.raise c i).config = s.config := rfl
@[simp] theorem State.raise_fault (c : Cause) (i : Word) :
    (s.raise c i).fault = if s.faulted then s.fault else c.word := rfl
@[simp] theorem State.raise_faultInfo (c : Cause) (i : Word) :
    (s.raise c i).faultInfo = if s.faulted then s.faultInfo else i := rfl
@[simp] theorem State.raise_cmdResult (c : Cause) (i : Word) : (s.raise c i).cmdResult = s.cmdResult := rfl
@[simp] theorem State.raise_sampleRate (c : Cause) (i : Word) : (s.raise c i).sampleRate = s.sampleRate := rfl
@[simp] theorem State.raise_maxBlock (c : Cause) (i : Word) : (s.raise c i).maxBlock = s.maxBlock := rfl
@[simp] theorem State.raise_srActive (c : Cause) (i : Word) : (s.raise c i).srActive = s.srActive := rfl
@[simp] theorem State.raise_maxblkActive (c : Cause) (i : Word) :
    (s.raise c i).maxblkActive = s.maxblkActive := rfl
@[simp] theorem State.raise_params (c : Cause) (i : Word) : (s.raise c i).params = s.params := rfl
@[simp] theorem State.raise_bounds (c : Cause) (i : Word) : (s.raise c i).bounds = s.bounds := rfl
@[simp] theorem State.raise_floorDb (c : Cause) (i : Word) : (s.raise c i).floorDb = s.floorDb := rfl
@[simp] theorem State.raise_respPoints (c : Cause) (i : Word) : (s.raise c i).respPoints = s.respPoints := rfl
@[simp] theorem State.raise_cstg (c : Cause) (i : Word) : (s.raise c i).cstg = s.cstg := rfl
@[simp] theorem State.raise_ch0 (c : Cause) (i : Word) : (s.raise c i).ch0 = s.ch0 := rfl
@[simp] theorem State.raise_ch1 (c : Cause) (i : Word) : (s.raise c i).ch1 = s.ch1 := rfl
@[simp] theorem State.raise_prepared (c : Cause) (i : Word) : (s.raise c i).prepared = s.prepared := rfl
@[simp] theorem State.raise_dirty (c : Cause) (i : Word) : (s.raise c i).dirty = s.dirty := rfl
@[simp] theorem State.raise_stereoActive (c : Cause) (i : Word) :
    (s.raise c i).stereoActive = s.stereoActive := rfl
@[simp] theorem State.raise_an (c : Cause) (i : Word) : (s.raise c i).an = s.an := rfl
@[simp] theorem State.raise_curve (c : Cause) (i : Word) : (s.raise c i).curve = s.curve := rfl
@[simp] theorem State.raise_ctrlOp (c : Cause) (i : Word) : (s.raise c i).ctrlOp = s.ctrlOp := rfl
@[simp] theorem State.raise_audioOp (c : Cause) (i : Word) : (s.raise c i).audioOp = s.audioOp := rfl
@[simp] theorem State.raise_host (c : Cause) (i : Word) : (s.raise c i).host = s.host := rfl

/-! result -/

@[simp] theorem State.result_build (o : BitVec 8) (k p d : Bool) : (s.result o k p d).build = s.build := rfl
@[simp] theorem State.result_config (o : BitVec 8) (k p d : Bool) :
    (s.result o k p d).config = s.config := rfl
@[simp] theorem State.result_fault (o : BitVec 8) (k p d : Bool) : (s.result o k p d).fault = s.fault := rfl
@[simp] theorem State.result_faultInfo (o : BitVec 8) (k p d : Bool) :
    (s.result o k p d).faultInfo = s.faultInfo := rfl
@[simp] theorem State.result_cmdResult (o : BitVec 8) (k p d : Bool) :
    (s.result o k p d).cmdResult = resultWord o k p d := rfl
@[simp] theorem State.result_sampleRate (o : BitVec 8) (k p d : Bool) :
    (s.result o k p d).sampleRate = s.sampleRate := rfl
@[simp] theorem State.result_maxBlock (o : BitVec 8) (k p d : Bool) :
    (s.result o k p d).maxBlock = s.maxBlock := rfl
@[simp] theorem State.result_srActive (o : BitVec 8) (k p d : Bool) :
    (s.result o k p d).srActive = s.srActive := rfl
@[simp] theorem State.result_maxblkActive (o : BitVec 8) (k p d : Bool) :
    (s.result o k p d).maxblkActive = s.maxblkActive := rfl
@[simp] theorem State.result_params (o : BitVec 8) (k p d : Bool) :
    (s.result o k p d).params = s.params := rfl
@[simp] theorem State.result_bounds (o : BitVec 8) (k p d : Bool) :
    (s.result o k p d).bounds = s.bounds := rfl
@[simp] theorem State.result_floorDb (o : BitVec 8) (k p d : Bool) :
    (s.result o k p d).floorDb = s.floorDb := rfl
@[simp] theorem State.result_respPoints (o : BitVec 8) (k p d : Bool) :
    (s.result o k p d).respPoints = s.respPoints := rfl
@[simp] theorem State.result_cstg (o : BitVec 8) (k p d : Bool) : (s.result o k p d).cstg = s.cstg := rfl
@[simp] theorem State.result_ch0 (o : BitVec 8) (k p d : Bool) : (s.result o k p d).ch0 = s.ch0 := rfl
@[simp] theorem State.result_ch1 (o : BitVec 8) (k p d : Bool) : (s.result o k p d).ch1 = s.ch1 := rfl
@[simp] theorem State.result_prepared (o : BitVec 8) (k p d : Bool) :
    (s.result o k p d).prepared = s.prepared := rfl
@[simp] theorem State.result_dirty (o : BitVec 8) (k p d : Bool) : (s.result o k p d).dirty = s.dirty := rfl
@[simp] theorem State.result_stereoActive (o : BitVec 8) (k p d : Bool) :
    (s.result o k p d).stereoActive = s.stereoActive := rfl
@[simp] theorem State.result_an (o : BitVec 8) (k p d : Bool) : (s.result o k p d).an = s.an := rfl
@[simp] theorem State.result_curve (o : BitVec 8) (k p d : Bool) : (s.result o k p d).curve = s.curve := rfl
@[simp] theorem State.result_ctrlOp (o : BitVec 8) (k p d : Bool) :
    (s.result o k p d).ctrlOp = s.ctrlOp := rfl
@[simp] theorem State.result_audioOp (o : BitVec 8) (k p d : Bool) :
    (s.result o k p d).audioOp = s.audioOp := rfl
@[simp] theorem State.result_host (o : BitVec 8) (k p d : Bool) : (s.result o k p d).host = s.host := rfl

/-! answer -/

@[simp] theorem State.answer_build (w : Word) : (s.answer w).build = s.build := rfl
@[simp] theorem State.answer_config (w : Word) : (s.answer w).config = s.config := rfl
@[simp] theorem State.answer_fault (w : Word) : (s.answer w).fault = s.fault := rfl
@[simp] theorem State.answer_faultInfo (w : Word) : (s.answer w).faultInfo = s.faultInfo := rfl
@[simp] theorem State.answer_cmdResult (w : Word) : (s.answer w).cmdResult = s.cmdResult := rfl
@[simp] theorem State.answer_sampleRate (w : Word) : (s.answer w).sampleRate = s.sampleRate := rfl
@[simp] theorem State.answer_maxBlock (w : Word) : (s.answer w).maxBlock = s.maxBlock := rfl
@[simp] theorem State.answer_srActive (w : Word) : (s.answer w).srActive = s.srActive := rfl
@[simp] theorem State.answer_maxblkActive (w : Word) : (s.answer w).maxblkActive = s.maxblkActive := rfl
@[simp] theorem State.answer_params (w : Word) : (s.answer w).params = s.params := rfl
@[simp] theorem State.answer_bounds (w : Word) : (s.answer w).bounds = s.bounds := rfl
@[simp] theorem State.answer_floorDb (w : Word) : (s.answer w).floorDb = s.floorDb := rfl
@[simp] theorem State.answer_respPoints (w : Word) : (s.answer w).respPoints = s.respPoints := rfl
@[simp] theorem State.answer_cstg (w : Word) : (s.answer w).cstg = s.cstg := rfl
@[simp] theorem State.answer_ch0 (w : Word) : (s.answer w).ch0 = s.ch0 := rfl
@[simp] theorem State.answer_ch1 (w : Word) : (s.answer w).ch1 = s.ch1 := rfl
@[simp] theorem State.answer_prepared (w : Word) : (s.answer w).prepared = s.prepared := rfl
@[simp] theorem State.answer_dirty (w : Word) : (s.answer w).dirty = s.dirty := rfl
@[simp] theorem State.answer_stereoActive (w : Word) : (s.answer w).stereoActive = s.stereoActive := rfl
@[simp] theorem State.answer_an (w : Word) : (s.answer w).an = s.an := rfl
@[simp] theorem State.answer_curve (w : Word) : (s.answer w).curve = s.curve := rfl
@[simp] theorem State.answer_ctrlOp (w : Word) : (s.answer w).ctrlOp = s.ctrlOp := rfl
@[simp] theorem State.answer_audioOp (w : Word) : (s.answer w).audioOp = s.audioOp := rfl
@[simp] theorem State.answer_host (w : Word) :
    (s.answer w).host = { s.host with ctrlOut := s.host.ctrlOut ++ [w] } := rfl

/-! emit -/

@[simp] theorem State.emit_build (ws : List Word) : (s.emit ws).build = s.build := rfl
@[simp] theorem State.emit_config (ws : List Word) : (s.emit ws).config = s.config := rfl
@[simp] theorem State.emit_fault (ws : List Word) : (s.emit ws).fault = s.fault := rfl
@[simp] theorem State.emit_faultInfo (ws : List Word) : (s.emit ws).faultInfo = s.faultInfo := rfl
@[simp] theorem State.emit_cmdResult (ws : List Word) : (s.emit ws).cmdResult = s.cmdResult := rfl
@[simp] theorem State.emit_sampleRate (ws : List Word) : (s.emit ws).sampleRate = s.sampleRate := rfl
@[simp] theorem State.emit_maxBlock (ws : List Word) : (s.emit ws).maxBlock = s.maxBlock := rfl
@[simp] theorem State.emit_srActive (ws : List Word) : (s.emit ws).srActive = s.srActive := rfl
@[simp] theorem State.emit_maxblkActive (ws : List Word) : (s.emit ws).maxblkActive = s.maxblkActive := rfl
@[simp] theorem State.emit_params (ws : List Word) : (s.emit ws).params = s.params := rfl
@[simp] theorem State.emit_bounds (ws : List Word) : (s.emit ws).bounds = s.bounds := rfl
@[simp] theorem State.emit_floorDb (ws : List Word) : (s.emit ws).floorDb = s.floorDb := rfl
@[simp] theorem State.emit_respPoints (ws : List Word) : (s.emit ws).respPoints = s.respPoints := rfl
@[simp] theorem State.emit_cstg (ws : List Word) : (s.emit ws).cstg = s.cstg := rfl
@[simp] theorem State.emit_ch0 (ws : List Word) : (s.emit ws).ch0 = s.ch0 := rfl
@[simp] theorem State.emit_ch1 (ws : List Word) : (s.emit ws).ch1 = s.ch1 := rfl
@[simp] theorem State.emit_prepared (ws : List Word) : (s.emit ws).prepared = s.prepared := rfl
@[simp] theorem State.emit_dirty (ws : List Word) : (s.emit ws).dirty = s.dirty := rfl
@[simp] theorem State.emit_stereoActive (ws : List Word) : (s.emit ws).stereoActive = s.stereoActive := rfl
@[simp] theorem State.emit_an (ws : List Word) : (s.emit ws).an = s.an := rfl
@[simp] theorem State.emit_curve (ws : List Word) : (s.emit ws).curve = s.curve := rfl
@[simp] theorem State.emit_ctrlOp (ws : List Word) : (s.emit ws).ctrlOp = s.ctrlOp := rfl
@[simp] theorem State.emit_audioOp (ws : List Word) : (s.emit ws).audioOp = s.audioOp := rfl
@[simp] theorem State.emit_host (ws : List Word) :
    (s.emit ws).host = { s.host with audioOut := s.host.audioOut ++ ws } := rfl

/-! takeAudio -/

@[simp] theorem State.takeAudio_build (r : List Word) : (s.takeAudio r).build = s.build := rfl
@[simp] theorem State.takeAudio_config (r : List Word) : (s.takeAudio r).config = s.config := rfl
@[simp] theorem State.takeAudio_fault (r : List Word) : (s.takeAudio r).fault = s.fault := rfl
@[simp] theorem State.takeAudio_faultInfo (r : List Word) : (s.takeAudio r).faultInfo = s.faultInfo := rfl
@[simp] theorem State.takeAudio_cmdResult (r : List Word) : (s.takeAudio r).cmdResult = s.cmdResult := rfl
@[simp] theorem State.takeAudio_sampleRate (r : List Word) : (s.takeAudio r).sampleRate = s.sampleRate := rfl
@[simp] theorem State.takeAudio_maxBlock (r : List Word) : (s.takeAudio r).maxBlock = s.maxBlock := rfl
@[simp] theorem State.takeAudio_srActive (r : List Word) : (s.takeAudio r).srActive = s.srActive := rfl
@[simp] theorem State.takeAudio_maxblkActive (r : List Word) :
    (s.takeAudio r).maxblkActive = s.maxblkActive := rfl
@[simp] theorem State.takeAudio_params (r : List Word) : (s.takeAudio r).params = s.params := rfl
@[simp] theorem State.takeAudio_bounds (r : List Word) : (s.takeAudio r).bounds = s.bounds := rfl
@[simp] theorem State.takeAudio_floorDb (r : List Word) : (s.takeAudio r).floorDb = s.floorDb := rfl
@[simp] theorem State.takeAudio_respPoints (r : List Word) : (s.takeAudio r).respPoints = s.respPoints := rfl
@[simp] theorem State.takeAudio_cstg (r : List Word) : (s.takeAudio r).cstg = s.cstg := rfl
@[simp] theorem State.takeAudio_ch0 (r : List Word) : (s.takeAudio r).ch0 = s.ch0 := rfl
@[simp] theorem State.takeAudio_ch1 (r : List Word) : (s.takeAudio r).ch1 = s.ch1 := rfl
@[simp] theorem State.takeAudio_prepared (r : List Word) : (s.takeAudio r).prepared = s.prepared := rfl
@[simp] theorem State.takeAudio_dirty (r : List Word) : (s.takeAudio r).dirty = s.dirty := rfl
@[simp] theorem State.takeAudio_stereoActive (r : List Word) :
    (s.takeAudio r).stereoActive = s.stereoActive := rfl
@[simp] theorem State.takeAudio_an (r : List Word) : (s.takeAudio r).an = s.an := rfl
@[simp] theorem State.takeAudio_curve (r : List Word) : (s.takeAudio r).curve = s.curve := rfl
@[simp] theorem State.takeAudio_ctrlOp (r : List Word) : (s.takeAudio r).ctrlOp = s.ctrlOp := rfl
@[simp] theorem State.takeAudio_audioOp (r : List Word) : (s.takeAudio r).audioOp = s.audioOp := rfl
@[simp] theorem State.takeAudio_host (r : List Word) :
    (s.takeAudio r).host = { s.host with audioIn := r } := rfl

/-! setHost -/

@[simp] theorem State.setHost_build (h : HostSide) : (s.setHost h).build = s.build := rfl
@[simp] theorem State.setHost_config (h : HostSide) : (s.setHost h).config = s.config := rfl
@[simp] theorem State.setHost_fault (h : HostSide) : (s.setHost h).fault = s.fault := rfl
@[simp] theorem State.setHost_faultInfo (h : HostSide) : (s.setHost h).faultInfo = s.faultInfo := rfl
@[simp] theorem State.setHost_cmdResult (h : HostSide) : (s.setHost h).cmdResult = s.cmdResult := rfl
@[simp] theorem State.setHost_sampleRate (h : HostSide) : (s.setHost h).sampleRate = s.sampleRate := rfl
@[simp] theorem State.setHost_maxBlock (h : HostSide) : (s.setHost h).maxBlock = s.maxBlock := rfl
@[simp] theorem State.setHost_srActive (h : HostSide) : (s.setHost h).srActive = s.srActive := rfl
@[simp] theorem State.setHost_maxblkActive (h : HostSide) : (s.setHost h).maxblkActive = s.maxblkActive := rfl
@[simp] theorem State.setHost_params (h : HostSide) : (s.setHost h).params = s.params := rfl
@[simp] theorem State.setHost_bounds (h : HostSide) : (s.setHost h).bounds = s.bounds := rfl
@[simp] theorem State.setHost_floorDb (h : HostSide) : (s.setHost h).floorDb = s.floorDb := rfl
@[simp] theorem State.setHost_respPoints (h : HostSide) : (s.setHost h).respPoints = s.respPoints := rfl
@[simp] theorem State.setHost_cstg (h : HostSide) : (s.setHost h).cstg = s.cstg := rfl
@[simp] theorem State.setHost_ch0 (h : HostSide) : (s.setHost h).ch0 = s.ch0 := rfl
@[simp] theorem State.setHost_ch1 (h : HostSide) : (s.setHost h).ch1 = s.ch1 := rfl
@[simp] theorem State.setHost_prepared (h : HostSide) : (s.setHost h).prepared = s.prepared := rfl
@[simp] theorem State.setHost_dirty (h : HostSide) : (s.setHost h).dirty = s.dirty := rfl
@[simp] theorem State.setHost_stereoActive (h : HostSide) : (s.setHost h).stereoActive = s.stereoActive := rfl
@[simp] theorem State.setHost_an (h : HostSide) : (s.setHost h).an = s.an := rfl
@[simp] theorem State.setHost_curve (h : HostSide) : (s.setHost h).curve = s.curve := rfl
@[simp] theorem State.setHost_ctrlOp (h : HostSide) : (s.setHost h).ctrlOp = s.ctrlOp := rfl
@[simp] theorem State.setHost_audioOp (h : HostSide) : (s.setHost h).audioOp = s.audioOp := rfl
@[simp] theorem State.setHost_host (h : HostSide) : (s.setHost h).host = h := rfl

/-! setAn -/

@[simp] theorem State.setAn_build (a : Analysis) : (s.setAn a).build = s.build := rfl
@[simp] theorem State.setAn_config (a : Analysis) : (s.setAn a).config = s.config := rfl
@[simp] theorem State.setAn_fault (a : Analysis) : (s.setAn a).fault = s.fault := rfl
@[simp] theorem State.setAn_faultInfo (a : Analysis) : (s.setAn a).faultInfo = s.faultInfo := rfl
@[simp] theorem State.setAn_cmdResult (a : Analysis) : (s.setAn a).cmdResult = s.cmdResult := rfl
@[simp] theorem State.setAn_sampleRate (a : Analysis) : (s.setAn a).sampleRate = s.sampleRate := rfl
@[simp] theorem State.setAn_maxBlock (a : Analysis) : (s.setAn a).maxBlock = s.maxBlock := rfl
@[simp] theorem State.setAn_srActive (a : Analysis) : (s.setAn a).srActive = s.srActive := rfl
@[simp] theorem State.setAn_maxblkActive (a : Analysis) : (s.setAn a).maxblkActive = s.maxblkActive := rfl
@[simp] theorem State.setAn_params (a : Analysis) : (s.setAn a).params = s.params := rfl
@[simp] theorem State.setAn_bounds (a : Analysis) : (s.setAn a).bounds = s.bounds := rfl
@[simp] theorem State.setAn_floorDb (a : Analysis) : (s.setAn a).floorDb = s.floorDb := rfl
@[simp] theorem State.setAn_respPoints (a : Analysis) : (s.setAn a).respPoints = s.respPoints := rfl
@[simp] theorem State.setAn_cstg (a : Analysis) : (s.setAn a).cstg = s.cstg := rfl
@[simp] theorem State.setAn_ch0 (a : Analysis) : (s.setAn a).ch0 = s.ch0 := rfl
@[simp] theorem State.setAn_ch1 (a : Analysis) : (s.setAn a).ch1 = s.ch1 := rfl
@[simp] theorem State.setAn_prepared (a : Analysis) : (s.setAn a).prepared = s.prepared := rfl
@[simp] theorem State.setAn_dirty (a : Analysis) : (s.setAn a).dirty = s.dirty := rfl
@[simp] theorem State.setAn_stereoActive (a : Analysis) : (s.setAn a).stereoActive = s.stereoActive := rfl
@[simp] theorem State.setAn_an (a : Analysis) : (s.setAn a).an = a := rfl
@[simp] theorem State.setAn_curve (a : Analysis) : (s.setAn a).curve = s.curve := rfl
@[simp] theorem State.setAn_ctrlOp (a : Analysis) : (s.setAn a).ctrlOp = s.ctrlOp := rfl
@[simp] theorem State.setAn_audioOp (a : Analysis) : (s.setAn a).audioOp = s.audioOp := rfl
@[simp] theorem State.setAn_host (a : Analysis) : (s.setAn a).host = s.host := rfl

/-! setCtrlOp -/

@[simp] theorem State.setCtrlOp_build (o : Option CtrlOp) : (s.setCtrlOp o).build = s.build := rfl
@[simp] theorem State.setCtrlOp_config (o : Option CtrlOp) : (s.setCtrlOp o).config = s.config := rfl
@[simp] theorem State.setCtrlOp_fault (o : Option CtrlOp) : (s.setCtrlOp o).fault = s.fault := rfl
@[simp] theorem State.setCtrlOp_faultInfo (o : Option CtrlOp) : (s.setCtrlOp o).faultInfo = s.faultInfo := rfl
@[simp] theorem State.setCtrlOp_cmdResult (o : Option CtrlOp) : (s.setCtrlOp o).cmdResult = s.cmdResult := rfl
@[simp] theorem State.setCtrlOp_sampleRate (o : Option CtrlOp) :
    (s.setCtrlOp o).sampleRate = s.sampleRate := rfl
@[simp] theorem State.setCtrlOp_maxBlock (o : Option CtrlOp) : (s.setCtrlOp o).maxBlock = s.maxBlock := rfl
@[simp] theorem State.setCtrlOp_srActive (o : Option CtrlOp) : (s.setCtrlOp o).srActive = s.srActive := rfl
@[simp] theorem State.setCtrlOp_maxblkActive (o : Option CtrlOp) :
    (s.setCtrlOp o).maxblkActive = s.maxblkActive := rfl
@[simp] theorem State.setCtrlOp_params (o : Option CtrlOp) : (s.setCtrlOp o).params = s.params := rfl
@[simp] theorem State.setCtrlOp_bounds (o : Option CtrlOp) : (s.setCtrlOp o).bounds = s.bounds := rfl
@[simp] theorem State.setCtrlOp_floorDb (o : Option CtrlOp) : (s.setCtrlOp o).floorDb = s.floorDb := rfl
@[simp] theorem State.setCtrlOp_respPoints (o : Option CtrlOp) :
    (s.setCtrlOp o).respPoints = s.respPoints := rfl
@[simp] theorem State.setCtrlOp_cstg (o : Option CtrlOp) : (s.setCtrlOp o).cstg = s.cstg := rfl
@[simp] theorem State.setCtrlOp_ch0 (o : Option CtrlOp) : (s.setCtrlOp o).ch0 = s.ch0 := rfl
@[simp] theorem State.setCtrlOp_ch1 (o : Option CtrlOp) : (s.setCtrlOp o).ch1 = s.ch1 := rfl
@[simp] theorem State.setCtrlOp_prepared (o : Option CtrlOp) : (s.setCtrlOp o).prepared = s.prepared := rfl
@[simp] theorem State.setCtrlOp_dirty (o : Option CtrlOp) : (s.setCtrlOp o).dirty = s.dirty := rfl
@[simp] theorem State.setCtrlOp_stereoActive (o : Option CtrlOp) :
    (s.setCtrlOp o).stereoActive = s.stereoActive := rfl
@[simp] theorem State.setCtrlOp_an (o : Option CtrlOp) : (s.setCtrlOp o).an = s.an := rfl
@[simp] theorem State.setCtrlOp_curve (o : Option CtrlOp) : (s.setCtrlOp o).curve = s.curve := rfl
@[simp] theorem State.setCtrlOp_ctrlOp (o : Option CtrlOp) : (s.setCtrlOp o).ctrlOp = o := rfl
@[simp] theorem State.setCtrlOp_audioOp (o : Option CtrlOp) : (s.setCtrlOp o).audioOp = s.audioOp := rfl
@[simp] theorem State.setCtrlOp_host (o : Option CtrlOp) : (s.setCtrlOp o).host = s.host := rfl

/-! setAudioOp -/

@[simp] theorem State.setAudioOp_build (o : AudioOp) : (s.setAudioOp o).build = s.build := rfl
@[simp] theorem State.setAudioOp_config (o : AudioOp) : (s.setAudioOp o).config = s.config := rfl
@[simp] theorem State.setAudioOp_fault (o : AudioOp) : (s.setAudioOp o).fault = s.fault := rfl
@[simp] theorem State.setAudioOp_faultInfo (o : AudioOp) : (s.setAudioOp o).faultInfo = s.faultInfo := rfl
@[simp] theorem State.setAudioOp_cmdResult (o : AudioOp) : (s.setAudioOp o).cmdResult = s.cmdResult := rfl
@[simp] theorem State.setAudioOp_sampleRate (o : AudioOp) : (s.setAudioOp o).sampleRate = s.sampleRate := rfl
@[simp] theorem State.setAudioOp_maxBlock (o : AudioOp) : (s.setAudioOp o).maxBlock = s.maxBlock := rfl
@[simp] theorem State.setAudioOp_srActive (o : AudioOp) : (s.setAudioOp o).srActive = s.srActive := rfl
@[simp] theorem State.setAudioOp_maxblkActive (o : AudioOp) :
    (s.setAudioOp o).maxblkActive = s.maxblkActive := rfl
@[simp] theorem State.setAudioOp_params (o : AudioOp) : (s.setAudioOp o).params = s.params := rfl
@[simp] theorem State.setAudioOp_bounds (o : AudioOp) : (s.setAudioOp o).bounds = s.bounds := rfl
@[simp] theorem State.setAudioOp_floorDb (o : AudioOp) : (s.setAudioOp o).floorDb = s.floorDb := rfl
@[simp] theorem State.setAudioOp_respPoints (o : AudioOp) : (s.setAudioOp o).respPoints = s.respPoints := rfl
@[simp] theorem State.setAudioOp_cstg (o : AudioOp) : (s.setAudioOp o).cstg = s.cstg := rfl
@[simp] theorem State.setAudioOp_ch0 (o : AudioOp) : (s.setAudioOp o).ch0 = s.ch0 := rfl
@[simp] theorem State.setAudioOp_ch1 (o : AudioOp) : (s.setAudioOp o).ch1 = s.ch1 := rfl
@[simp] theorem State.setAudioOp_prepared (o : AudioOp) : (s.setAudioOp o).prepared = s.prepared := rfl
@[simp] theorem State.setAudioOp_dirty (o : AudioOp) : (s.setAudioOp o).dirty = s.dirty := rfl
@[simp] theorem State.setAudioOp_stereoActive (o : AudioOp) :
    (s.setAudioOp o).stereoActive = s.stereoActive := rfl
@[simp] theorem State.setAudioOp_an (o : AudioOp) : (s.setAudioOp o).an = s.an := rfl
@[simp] theorem State.setAudioOp_curve (o : AudioOp) : (s.setAudioOp o).curve = s.curve := rfl
@[simp] theorem State.setAudioOp_ctrlOp (o : AudioOp) : (s.setAudioOp o).ctrlOp = s.ctrlOp := rfl
@[simp] theorem State.setAudioOp_audioOp (o : AudioOp) : (s.setAudioOp o).audioOp = o := rfl
@[simp] theorem State.setAudioOp_host (o : AudioOp) : (s.setAudioOp o).host = s.host := rfl

/-! setParams -/

@[simp] theorem State.setParams_build (p : Params) : (s.setParams p).build = s.build := rfl
@[simp] theorem State.setParams_config (p : Params) : (s.setParams p).config = s.config := rfl
@[simp] theorem State.setParams_fault (p : Params) : (s.setParams p).fault = s.fault := rfl
@[simp] theorem State.setParams_faultInfo (p : Params) : (s.setParams p).faultInfo = s.faultInfo := rfl
@[simp] theorem State.setParams_cmdResult (p : Params) : (s.setParams p).cmdResult = s.cmdResult := rfl
@[simp] theorem State.setParams_sampleRate (p : Params) : (s.setParams p).sampleRate = s.sampleRate := rfl
@[simp] theorem State.setParams_maxBlock (p : Params) : (s.setParams p).maxBlock = s.maxBlock := rfl
@[simp] theorem State.setParams_srActive (p : Params) : (s.setParams p).srActive = s.srActive := rfl
@[simp] theorem State.setParams_maxblkActive (p : Params) :
    (s.setParams p).maxblkActive = s.maxblkActive := rfl
@[simp] theorem State.setParams_params (p : Params) : (s.setParams p).params = p := rfl
@[simp] theorem State.setParams_bounds (p : Params) : (s.setParams p).bounds = s.bounds := rfl
@[simp] theorem State.setParams_floorDb (p : Params) : (s.setParams p).floorDb = s.floorDb := rfl
@[simp] theorem State.setParams_respPoints (p : Params) : (s.setParams p).respPoints = s.respPoints := rfl
@[simp] theorem State.setParams_cstg (p : Params) : (s.setParams p).cstg = s.cstg := rfl
@[simp] theorem State.setParams_ch0 (p : Params) : (s.setParams p).ch0 = s.ch0 := rfl
@[simp] theorem State.setParams_ch1 (p : Params) : (s.setParams p).ch1 = s.ch1 := rfl
@[simp] theorem State.setParams_prepared (p : Params) : (s.setParams p).prepared = s.prepared := rfl
@[simp] theorem State.setParams_dirty (p : Params) : (s.setParams p).dirty = true := rfl
@[simp] theorem State.setParams_stereoActive (p : Params) :
    (s.setParams p).stereoActive = s.stereoActive := rfl
@[simp] theorem State.setParams_an (p : Params) : (s.setParams p).an = s.an := rfl
@[simp] theorem State.setParams_curve (p : Params) : (s.setParams p).curve = s.curve := rfl
@[simp] theorem State.setParams_ctrlOp (p : Params) : (s.setParams p).ctrlOp = s.ctrlOp := rfl
@[simp] theorem State.setParams_audioOp (p : Params) : (s.setParams p).audioOp = s.audioOp := rfl
@[simp] theorem State.setParams_host (p : Params) : (s.setParams p).host = s.host := rfl

/-! setChan -/

@[simp] theorem State.setChan_build (c : Ch) (k : Channel) : (s.setChan c k).build = s.build := by cases c <;> rfl
@[simp] theorem State.setChan_config (c : Ch) (k : Channel) : (s.setChan c k).config = s.config := by cases c <;> rfl
@[simp] theorem State.setChan_fault (c : Ch) (k : Channel) : (s.setChan c k).fault = s.fault := by cases c <;> rfl
@[simp] theorem State.setChan_faultInfo (c : Ch) (k : Channel) : (s.setChan c k).faultInfo = s.faultInfo := by cases c <;> rfl
@[simp] theorem State.setChan_cmdResult (c : Ch) (k : Channel) : (s.setChan c k).cmdResult = s.cmdResult := by cases c <;> rfl
@[simp] theorem State.setChan_sampleRate (c : Ch) (k : Channel) : (s.setChan c k).sampleRate = s.sampleRate := by cases c <;> rfl
@[simp] theorem State.setChan_maxBlock (c : Ch) (k : Channel) : (s.setChan c k).maxBlock = s.maxBlock := by cases c <;> rfl
@[simp] theorem State.setChan_srActive (c : Ch) (k : Channel) : (s.setChan c k).srActive = s.srActive := by cases c <;> rfl
@[simp] theorem State.setChan_maxblkActive (c : Ch) (k : Channel) : (s.setChan c k).maxblkActive = s.maxblkActive := by cases c <;> rfl
@[simp] theorem State.setChan_params (c : Ch) (k : Channel) : (s.setChan c k).params = s.params := by cases c <;> rfl
@[simp] theorem State.setChan_bounds (c : Ch) (k : Channel) : (s.setChan c k).bounds = s.bounds := by cases c <;> rfl
@[simp] theorem State.setChan_floorDb (c : Ch) (k : Channel) : (s.setChan c k).floorDb = s.floorDb := by cases c <;> rfl
@[simp] theorem State.setChan_respPoints (c : Ch) (k : Channel) : (s.setChan c k).respPoints = s.respPoints := by cases c <;> rfl
@[simp] theorem State.setChan_cstg (c : Ch) (k : Channel) : (s.setChan c k).cstg = s.cstg := by cases c <;> rfl
@[simp] theorem State.setChan_prepared (c : Ch) (k : Channel) : (s.setChan c k).prepared = s.prepared := by cases c <;> rfl
@[simp] theorem State.setChan_dirty (c : Ch) (k : Channel) : (s.setChan c k).dirty = s.dirty := by cases c <;> rfl
@[simp] theorem State.setChan_stereoActive (c : Ch) (k : Channel) : (s.setChan c k).stereoActive = s.stereoActive := by cases c <;> rfl
@[simp] theorem State.setChan_an (c : Ch) (k : Channel) : (s.setChan c k).an = s.an := by cases c <;> rfl
@[simp] theorem State.setChan_curve (c : Ch) (k : Channel) : (s.setChan c k).curve = s.curve := by cases c <;> rfl
@[simp] theorem State.setChan_ctrlOp (c : Ch) (k : Channel) : (s.setChan c k).ctrlOp = s.ctrlOp := by cases c <;> rfl
@[simp] theorem State.setChan_audioOp (c : Ch) (k : Channel) : (s.setChan c k).audioOp = s.audioOp := by cases c <;> rfl
@[simp] theorem State.setChan_host (c : Ch) (k : Channel) : (s.setChan c k).host = s.host := by cases c <;> rfl

@[simp] theorem State.setChan_chan_same (c : Ch) (k : Channel) : (s.setChan c k).chan c = k := by
  cases c <;> rfl

theorem State.setChan_chan_other (c d : Ch) (k : Channel) (h : d ≠ c) : (s.setChan c k).chan d = s.chan d := by
  cases c <;> cases d <;> simp_all [State.setChan, State.chan]

@[simp] theorem State.setChan_chan_self (c : Ch) : s.setChan c (s.chan c) = s := by cases c <;> rfl

@[simp] theorem State.chan_c0 : s.chan .c0 = s.ch0 := rfl

@[simp] theorem State.chan_c1 : s.chan .c1 = s.ch1 := rfl

@[simp] theorem State.setChan_c0_ch0 (k : Channel) : (s.setChan .c0 k).ch0 = k := rfl

@[simp] theorem State.setChan_c0_ch1 (k : Channel) : (s.setChan .c0 k).ch1 = s.ch1 := rfl

@[simp] theorem State.setChan_c1_ch0 (k : Channel) : (s.setChan .c1 k).ch0 = s.ch0 := rfl

@[simp] theorem State.setChan_c1_ch1 (k : Channel) : (s.setChan .c1 k).ch1 = k := rfl

/-! Stage flags of a chain. -/

@[simp] theorem Channel.setSbyp_coef (k : Channel) (t : Stage) (v : Bool) : (k.setSbyp t v).coef = k.coef := by
  unfold Channel.setSbyp; split <;> rfl

@[simp] theorem Channel.setSbyp_st (k : Channel) (t : Stage) (v : Bool) : (k.setSbyp t v).st = k.st := by
  unfold Channel.setSbyp; split <;> rfl

@[simp] theorem Channel.setSbyp_pbyp (k : Channel) (t : Stage) (v : Bool) : (k.setSbyp t v).pbyp = k.pbyp := by
  unfold Channel.setSbyp; split <;> rfl

@[simp] theorem Channel.setTarget_coef (k : Channel) (t : BitVec 4) (v : Bool) :
    (k.setTarget t v).coef = k.coef := by
  unfold Channel.setTarget; split <;> simp

@[simp] theorem Channel.setTarget_st (k : Channel) (t : BitVec 4) (v : Bool) :
    (k.setTarget t v).st = k.st := by
  unfold Channel.setTarget; split <;> simp

@[simp] theorem Channel.setCoef_st (k : Channel) (t : Stage) (z : CoefSet) : (k.setCoef t z).st = k.st := rfl

@[simp] theorem Channel.setCoef_pbyp (k : Channel) (t : Stage) (z : CoefSet) :
    (k.setCoef t z).pbyp = k.pbyp := rfl

@[simp] theorem Channel.setCoef_lcByp (k : Channel) (t : Stage) (z : CoefSet) :
    (k.setCoef t z).lcByp = k.lcByp := rfl

@[simp] theorem Channel.setCoef_hcByp (k : Channel) (t : Stage) (z : CoefSet) :
    (k.setCoef t z).hcByp = k.hcByp := rfl

end Sys2Proof.Machine
end

