-- ==== Sys2Proof/Laws/Ops.lean ====
section
/-! SUPPORT. What the shared operations can do: outcomes, faults, results, the command decoder. -/

namespace Sys2Proof.Machine

/-- Two next states that are equal outcomes are equal. -/
theorem next_inj {a b : State} (h : (Host.Outcome.next a : Result) = .next b) : a = b := by injection h

/-- A cause's FAULT word is a legal fault record, whatever FAULT_INFO holds. -/
theorem cause_word_ok (c : Cause) (i : Word) :
    ((c.word == 0#32 && i == 0#32) ||
      (c.word &&& 0xFFFFFFF0#32 == 0x80000000#32 && 1 ≤ c.word.toNat % 16 && c.word.toNat % 16 ≤ 8)) = true := by
  have : (c.word &&& 0xFFFFFFF0#32 == 0x80000000#32 && 1 ≤ c.word.toNat % 16 && c.word.toNat % 16 ≤ 8) = true := by
    cases c <;> decide
  rw [this, Bool.or_true]

/-- CMD_RESULT's reserved bits are 0. -/
theorem resultWord_reserved (op : BitVec 8) (a b c : Bool) :
    (resultWord op a b c &&& 0xFFFF00F8#32 == 0#32) = true := by
  rw [beq_iff_eq]; unfold resultWord
  ext i hi
  simp only [BitVec.getElem_and, BitVec.getElem_append]
  have : i = 0 ∨ i = 1 ∨ i = 2 ∨ (3 ≤ i ∧ i < 8) ∨ (8 ≤ i ∧ i < 16) ∨ 16 ≤ i := by omega
  interval_cases i <;> simp

/-- An install step leaves `prepared`. -/
theorem apply_prepared (s : State) (i : Install) : (Install.apply s i).prepared = s.prepared := by
  cases i <;> simp [Install.apply]

/-- A write to CMD of an instruction's word does what the instruction does. -/
theorem execCommand_ok (v : Word) (s : State) (i : Instr) (h : decodeCommand v = .ok i)
    (hi : i.lane = .command) : execCommand v s = exec i s := by
  unfold execCommand; rw [h]; cases i <;> first | rfl | cases hi

/-- The command decoder gives commands only. -/
theorem decodeCommand_lane (v : Word) (i : Instr) (h : decodeCommand v = .ok i) : i.lane = .command := by
  unfold decodeCommand decodeC0 at h
  split at h <;> first | (split at h <;> simp at h <;> subst h <;> rfl) | simp at h

/-- The command decoder rejects a word or gives an instruction that is no bus write. -/
theorem decodeCommand_cases (v : Word) :
    (∃ r, decodeCommand v = .error r) ∨ ∃ i, decodeCommand v = .ok i ∧ (∀ a x, i ≠ .wr a x) := by
  cases h : decodeCommand v with
  | error r => exact .inl ⟨r, rfl⟩
  | ok i =>
    refine .inr ⟨i, rfl, ?_⟩
    rintro a x rfl
    unfold decodeCommand decodeC0 at h
    split at h <;> first | (split at h <;> simp at h) | simp at h

/-- States whose fields are equal are equal. -/
theorem State.eq_of_fields {s t : State} (build : s.build = t.build) (config : s.config = t.config)
    (fault : s.fault = t.fault) (faultInfo : s.faultInfo = t.faultInfo) (cmdResult : s.cmdResult = t.cmdResult)
    (sampleRate : s.sampleRate = t.sampleRate) (maxBlock : s.maxBlock = t.maxBlock)
    (srActive : s.srActive = t.srActive) (maxblkActive : s.maxblkActive = t.maxblkActive)
    (params : s.params = t.params) (bounds : s.bounds = t.bounds) (floorDb : s.floorDb = t.floorDb)
    (respPoints : s.respPoints = t.respPoints) (cstg : s.cstg = t.cstg) (ch0 : s.ch0 = t.ch0)
    (ch1 : s.ch1 = t.ch1) (prepared : s.prepared = t.prepared) (dirty : s.dirty = t.dirty)
    (stereoActive : s.stereoActive = t.stereoActive) (an : s.an = t.an) (curve : s.curve = t.curve)
    (ctrlOp : s.ctrlOp = t.ctrlOp) (audioOp : s.audioOp = t.audioOp) (host : s.host = t.host) : s = t := by
  cases s; cases t; simp_all

end Sys2Proof.Machine
end

