-- ==== Sys2Proof/Laws/Bus.lean ====
section
/-! SUPPORT. What an address names, and what a write can do. -/

namespace Sys2Proof.Machine

/-- A register's address names it, in every build. -/
theorem mapped_addr (s : State) (r : Reg) : s.mapped r.addr = some (.reg r) := by
  cases r <;> rfl

/-- The registers' offsets name them and nothing else does. -/
theorem lookup_regMap {a : Nat} {r : Reg} (h : regMap.lookup a = some r) : a = r.offset := by
  obtain ⟨l, l', e, _⟩ := List.lookup_eq_some_iff.mp h
  have hm : (a, r) ∈ regMap := by rw [e]; simp
  have rows : ∀ p ∈ regMap, p.1 = p.2.offset := by decide
  exact rows _ hm

/-- From 0x1000 up only window entries stand, and all of them are read-only. -/
theorem locate_window (b : Build) (a : Nat) (l : Loc) (ha : 0x1000 ≤ a) (h : locate b a = some l) :
    l.access = .ro ∧ (∀ r, l ≠ .reg r) ∧ ∀ j i, l ≠ .cstg j i := by
  have pick : ∀ (p : Prop) [Decidable p] (k : Loc), (if p then some k else none) = some l → k = l := by
    intro p _ k hk
    by_cases hp : p
    · rw [if_pos hp] at hk; injection hk
    · rw [if_neg hp] at hk; cases hk
  have none_or : ∀ (p : Prop) [Decidable p] (x : Option Loc), (if p then none else x) = some l → x = some l := by
    intro p _ x hk
    by_cases hp : p
    · rw [if_pos hp] at hk; cases hk
    · rwa [if_neg hp] at hk
  unfold locate at h
  rw [if_neg (by omega), if_neg (by omega)] at h
  by_cases h1 : a < 0x1168
  · rw [if_pos h1] at h; injection h with h; subst h; exact ⟨rfl, nofun, nofun⟩
  rw [if_neg h1] at h
  replace h := none_or _ _ h
  by_cases h2 : a < 0x1490
  · rw [if_pos h2] at h; injection h with h; subst h; exact ⟨rfl, nofun, nofun⟩
  rw [if_neg h2] at h
  replace h := none_or _ _ h
  by_cases h3 : a < 0x20000
  · rw [if_pos h3] at h; rw [← pick _ _ h]; exact ⟨rfl, nofun, nofun⟩
  rw [if_neg h3] at h
  by_cases h4 : a < 0x30000
  · rw [if_pos h4] at h; rw [← pick _ _ h]; exact ⟨rfl, nofun, nofun⟩
  rw [if_neg h4] at h
  by_cases h5 : a < 0x40000
  · rw [if_pos h5] at h; rw [← pick _ _ h]; exact ⟨rfl, nofun, nofun⟩
  rw [if_neg h5] at h
  by_cases h6 : a < 0x50000
  · rw [if_pos h6] at h; rw [← pick _ _ h]; exact ⟨rfl, nofun, nofun⟩
  rw [if_neg h6] at h
  rw [← pick _ _ h]; exact ⟨rfl, nofun, nofun⟩

/-- Below 0x1000 stand the registers and, from 0x0A0 to 0x0EF, the staging entries. -/
theorem locate_low (b : Build) (a : Nat) (l : Loc) (ha : a < 0x1000) (h : locate b a = some l) :
    (0x0A0 ≤ a ∧ a < 0x0F0 ∧ ∃ j i, l = .cstg j i) ∨ ∃ r : Reg, a = r.offset ∧ l = .reg r := by
  unfold locate at h
  by_cases h1 : 0x0A0 ≤ a ∧ a < 0x0F0
  · rw [if_pos h1] at h; injection h with h
    exact .inl ⟨h1.1, h1.2, _, _, h.symm⟩
  rw [if_neg h1, if_pos ha] at h
  cases hk : regMap.lookup a with
  | none => rw [hk] at h; cases h
  | some r => rw [hk] at h; injection h with h; exact .inr ⟨r, lookup_regMap hk, h.symm⟩

/-- A mapped address is aligned and the map gives what it names. -/
theorem mapped_locate (s : State) (a : Addr) (l : Loc) (h : s.mapped a = some l) :
    a.toNat % 4 = 0 ∧ locate s.build a.toNat = some l := by
  unfold State.mapped at h
  by_cases h4 : a.toNat % 4 = 0
  · rw [if_pos h4] at h; exact ⟨h4, h⟩
  · rw [if_neg h4] at h; cases h

/-- Only a register's own address names it. -/
theorem addr_of_mapped (s : State) (a : Addr) (r : Reg) (h : s.mapped a = some (.reg r)) : a = r.addr := by
  obtain ⟨_, h⟩ := mapped_locate s a _ h
  by_cases ha : a.toNat < 0x1000
  · rcases locate_low _ _ _ ha h with ⟨_, _, _, _, e⟩ | ⟨r', e, er⟩
    · cases e
    · injection er with er; subst er
      apply BitVec.eq_of_toNat_eq
      rw [e]
      cases r <;> rfl
  · exact absurd rfl ((locate_window _ _ _ (by omega) h).2.1 r)

/-- The staging entries stand from 0x0A0 to 0x0EF. -/
theorem range_of_mapped_cstg (s : State) (a : Addr) (j : Fin 4) (i : Fin 5) (h : s.mapped a = some (.cstg j i)) :
    0x0A0 ≤ a.toNat ∧ a.toNat < 0x0F0 := by
  obtain ⟨_, h⟩ := mapped_locate s a _ h
  by_cases ha : a.toNat < 0x1000
  · rcases locate_low _ _ _ ha h with ⟨h1, h2, _⟩ | ⟨_, _, e⟩
    · exact ⟨h1, h2⟩
    · cases e
  · exact absurd rfl ((locate_window _ _ _ (by omega) h).2.2 j i)

/-- What a read of a mapped address does. -/
theorem exec_rd_mapped (s : State) (a : Addr) (l : Loc) (h : s.mapped a = some l) :
    exec (.rd a) s = .next (s.answer (s.readLoc l)) := by
  simp only [exec, execRd, h]

/-- What a write to a writable register does. -/
theorem exec_wr_reg (s : State) (v : Word) (r : Reg) (h : r.access = .rw) :
    exec (.wr r.addr v) s = .next (s.writeReg r.addr v r) := by
  simp only [exec, execWr, mapped_addr, Loc.access, h, State.writeLoc]

/-- Only CMD executes a command. -/
theorem addr_of_cmd (s : State) (a : Addr) (l : Loc) (h : s.mapped a = some l) (hc : l.access = .cmd) :
    a = 0x00018#20 := by
  cases l with
  | reg r =>
    cases r <;> first | exact addr_of_mapped s a _ h | cases hc
  | _ => cases hc

/-- Everything a write can do: raise a fault; as a write to CMD, what the command of the word does; store to
a writable address. -/
theorem exec_wr_cases (s t : State) (a : Addr) (v : Word) (h : exec (.wr a v) s = .next t) :
    (∃ c info, t = s.raise c info) ∨
    (a = 0x00018#20 ∧ ∃ i, decodeCommand v = .ok i ∧ i.lane = .command ∧ exec i s = .next t) ∨
    (∃ l, s.mapped a = some l ∧ l.access = .rw ∧ t = s.writeLoc a v l) := by
  simp only [exec, execWr] at h
  split at h
  · exact .inl ⟨_, _, (next_inj h).symm⟩
  · next l hl =>
    split at h
    · exact .inl ⟨_, _, (next_inj h).symm⟩
    · next hc =>
      have ha := addr_of_cmd s a l hl hc
      cases hd : decodeCommand v with
      | error r => simp only [execCommand, hd] at h; exact .inl ⟨_, _, (next_inj h).symm⟩
      | ok i =>
        have hi := decodeCommand_lane v i hd
        rw [execCommand_ok v s i hd hi] at h
        exact .inr (.inl ⟨ha, i, rfl, hi, h⟩)
    · next hc => exact .inr (.inr ⟨l, hl, hc, (next_inj h).symm⟩)

end Sys2Proof.Machine
end

