-- ==== Sys2Proof/Laws/Chain.lean ====
section
/-! SUPPORT. What the install steps and the steps of AUDIO write, one lemma per field, and what a frame leaves
of a chain. -/

namespace Sys2Proof.Machine

variable (s : State)

/-! Install.apply -/

@[simp] theorem Install.apply_build (i : Install) :
    (Install.apply s i).build = s.build := by
  cases i <;> simp [Install.apply]
@[simp] theorem Install.apply_config (i : Install) :
    (Install.apply s i).config = s.config := by
  cases i <;> simp [Install.apply]
@[simp] theorem Install.apply_fault (i : Install) :
    (Install.apply s i).fault = s.fault := by
  cases i <;> simp [Install.apply]
@[simp] theorem Install.apply_faultInfo (i : Install) :
    (Install.apply s i).faultInfo = s.faultInfo := by
  cases i <;> simp [Install.apply]
@[simp] theorem Install.apply_cmdResult (i : Install) :
    (Install.apply s i).cmdResult = s.cmdResult := by
  cases i <;> simp [Install.apply]
@[simp] theorem Install.apply_sampleRate (i : Install) :
    (Install.apply s i).sampleRate = s.sampleRate := by
  cases i <;> simp [Install.apply]
@[simp] theorem Install.apply_maxBlock (i : Install) :
    (Install.apply s i).maxBlock = s.maxBlock := by
  cases i <;> simp [Install.apply]
@[simp] theorem Install.apply_srActive (i : Install) :
    (Install.apply s i).srActive = s.srActive := by
  cases i <;> simp [Install.apply]
@[simp] theorem Install.apply_maxblkActive (i : Install) :
    (Install.apply s i).maxblkActive = s.maxblkActive := by
  cases i <;> simp [Install.apply]
@[simp] theorem Install.apply_params (i : Install) :
    (Install.apply s i).params = s.params := by
  cases i <;> simp [Install.apply]
@[simp] theorem Install.apply_bounds (i : Install) :
    (Install.apply s i).bounds = s.bounds := by
  cases i <;> simp [Install.apply]
@[simp] theorem Install.apply_floorDb (i : Install) :
    (Install.apply s i).floorDb = s.floorDb := by
  cases i <;> simp [Install.apply]
@[simp] theorem Install.apply_respPoints (i : Install) :
    (Install.apply s i).respPoints = s.respPoints := by
  cases i <;> simp [Install.apply]
@[simp] theorem Install.apply_cstg (i : Install) :
    (Install.apply s i).cstg = s.cstg := by
  cases i <;> simp [Install.apply]
@[simp] theorem Install.apply_prepared (i : Install) :
    (Install.apply s i).prepared = s.prepared := by
  cases i <;> simp [Install.apply]
@[simp] theorem Install.apply_dirty (i : Install) :
    (Install.apply s i).dirty = s.dirty := by
  cases i <;> simp [Install.apply]
@[simp] theorem Install.apply_stereoActive (i : Install) :
    (Install.apply s i).stereoActive = s.stereoActive := by
  cases i <;> simp [Install.apply]
@[simp] theorem Install.apply_an (i : Install) :
    (Install.apply s i).an = s.an := by
  cases i <;> simp [Install.apply]
@[simp] theorem Install.apply_curve (i : Install) :
    (Install.apply s i).curve = s.curve := by
  cases i <;> simp [Install.apply]
@[simp] theorem Install.apply_ctrlOp (i : Install) :
    (Install.apply s i).ctrlOp = s.ctrlOp := by
  cases i <;> simp [Install.apply]
@[simp] theorem Install.apply_audioOp (i : Install) :
    (Install.apply s i).audioOp = s.audioOp := by
  cases i <;> simp [Install.apply]
@[simp] theorem Install.apply_host (i : Install) :
    (Install.apply s i).host = s.host := by
  cases i <;> simp [Install.apply]

/-! installStep -/

@[simp] theorem installStep_build (o : BitVec 8) (l : List Install) :
    (installStep s o l).build = s.build := by
  unfold installStep; split <;> simp
@[simp] theorem installStep_config (o : BitVec 8) (l : List Install) :
    (installStep s o l).config = s.config := by
  unfold installStep; split <;> simp
@[simp] theorem installStep_fault (o : BitVec 8) (l : List Install) :
    (installStep s o l).fault = s.fault := by
  unfold installStep; split <;> simp
@[simp] theorem installStep_faultInfo (o : BitVec 8) (l : List Install) :
    (installStep s o l).faultInfo = s.faultInfo := by
  unfold installStep; split <;> simp
@[simp] theorem installStep_sampleRate (o : BitVec 8) (l : List Install) :
    (installStep s o l).sampleRate = s.sampleRate := by
  unfold installStep; split <;> simp
@[simp] theorem installStep_maxBlock (o : BitVec 8) (l : List Install) :
    (installStep s o l).maxBlock = s.maxBlock := by
  unfold installStep; split <;> simp
@[simp] theorem installStep_srActive (o : BitVec 8) (l : List Install) :
    (installStep s o l).srActive = s.srActive := by
  unfold installStep; split <;> simp
@[simp] theorem installStep_maxblkActive (o : BitVec 8) (l : List Install) :
    (installStep s o l).maxblkActive = s.maxblkActive := by
  unfold installStep; split <;> simp
@[simp] theorem installStep_params (o : BitVec 8) (l : List Install) :
    (installStep s o l).params = s.params := by
  unfold installStep; split <;> simp
@[simp] theorem installStep_bounds (o : BitVec 8) (l : List Install) :
    (installStep s o l).bounds = s.bounds := by
  unfold installStep; split <;> simp
@[simp] theorem installStep_floorDb (o : BitVec 8) (l : List Install) :
    (installStep s o l).floorDb = s.floorDb := by
  unfold installStep; split <;> simp
@[simp] theorem installStep_respPoints (o : BitVec 8) (l : List Install) :
    (installStep s o l).respPoints = s.respPoints := by
  unfold installStep; split <;> simp
@[simp] theorem installStep_cstg (o : BitVec 8) (l : List Install) :
    (installStep s o l).cstg = s.cstg := by
  unfold installStep; split <;> simp
@[simp] theorem installStep_prepared (o : BitVec 8) (l : List Install) :
    (installStep s o l).prepared = s.prepared := by
  unfold installStep; split <;> simp
@[simp] theorem installStep_dirty (o : BitVec 8) (l : List Install) :
    (installStep s o l).dirty = s.dirty := by
  unfold installStep; split <;> simp
@[simp] theorem installStep_stereoActive (o : BitVec 8) (l : List Install) :
    (installStep s o l).stereoActive = s.stereoActive := by
  unfold installStep; split <;> simp
@[simp] theorem installStep_an (o : BitVec 8) (l : List Install) :
    (installStep s o l).an = s.an := by
  unfold installStep; split <;> simp
@[simp] theorem installStep_curve (o : BitVec 8) (l : List Install) :
    (installStep s o l).curve = s.curve := by
  unfold installStep; split <;> simp
@[simp] theorem installStep_audioOp (o : BitVec 8) (l : List Install) :
    (installStep s o l).audioOp = s.audioOp := by
  unfold installStep; split <;> simp
@[simp] theorem installStep_host (o : BitVec 8) (l : List Install) :
    (installStep s o l).host = s.host := by
  unfold installStep; split <;> simp

/-! State.frame -/

@[simp] theorem State.frame_build (k0 k1 : Channel) (a : Analysis) (ws : List Word) :
    (s.frame k0 k1 a ws).build = s.build := rfl
@[simp] theorem State.frame_config (k0 k1 : Channel) (a : Analysis) (ws : List Word) :
    (s.frame k0 k1 a ws).config = s.config := rfl
@[simp] theorem State.frame_fault (k0 k1 : Channel) (a : Analysis) (ws : List Word) :
    (s.frame k0 k1 a ws).fault = s.fault := rfl
@[simp] theorem State.frame_faultInfo (k0 k1 : Channel) (a : Analysis) (ws : List Word) :
    (s.frame k0 k1 a ws).faultInfo = s.faultInfo := rfl
@[simp] theorem State.frame_cmdResult (k0 k1 : Channel) (a : Analysis) (ws : List Word) :
    (s.frame k0 k1 a ws).cmdResult = s.cmdResult := rfl
@[simp] theorem State.frame_sampleRate (k0 k1 : Channel) (a : Analysis) (ws : List Word) :
    (s.frame k0 k1 a ws).sampleRate = s.sampleRate := rfl
@[simp] theorem State.frame_maxBlock (k0 k1 : Channel) (a : Analysis) (ws : List Word) :
    (s.frame k0 k1 a ws).maxBlock = s.maxBlock := rfl
@[simp] theorem State.frame_srActive (k0 k1 : Channel) (a : Analysis) (ws : List Word) :
    (s.frame k0 k1 a ws).srActive = s.srActive := rfl
@[simp] theorem State.frame_maxblkActive (k0 k1 : Channel) (a : Analysis) (ws : List Word) :
    (s.frame k0 k1 a ws).maxblkActive = s.maxblkActive := rfl
@[simp] theorem State.frame_params (k0 k1 : Channel) (a : Analysis) (ws : List Word) :
    (s.frame k0 k1 a ws).params = s.params := rfl
@[simp] theorem State.frame_bounds (k0 k1 : Channel) (a : Analysis) (ws : List Word) :
    (s.frame k0 k1 a ws).bounds = s.bounds := rfl
@[simp] theorem State.frame_floorDb (k0 k1 : Channel) (a : Analysis) (ws : List Word) :
    (s.frame k0 k1 a ws).floorDb = s.floorDb := rfl
@[simp] theorem State.frame_respPoints (k0 k1 : Channel) (a : Analysis) (ws : List Word) :
    (s.frame k0 k1 a ws).respPoints = s.respPoints := rfl
@[simp] theorem State.frame_cstg (k0 k1 : Channel) (a : Analysis) (ws : List Word) :
    (s.frame k0 k1 a ws).cstg = s.cstg := rfl
@[simp] theorem State.frame_ch0 (k0 k1 : Channel) (a : Analysis) (ws : List Word) :
    (s.frame k0 k1 a ws).ch0 = k0 := rfl
@[simp] theorem State.frame_ch1 (k0 k1 : Channel) (a : Analysis) (ws : List Word) :
    (s.frame k0 k1 a ws).ch1 = k1 := rfl
@[simp] theorem State.frame_prepared (k0 k1 : Channel) (a : Analysis) (ws : List Word) :
    (s.frame k0 k1 a ws).prepared = s.prepared := rfl
@[simp] theorem State.frame_dirty (k0 k1 : Channel) (a : Analysis) (ws : List Word) :
    (s.frame k0 k1 a ws).dirty = s.dirty := rfl
@[simp] theorem State.frame_stereoActive (k0 k1 : Channel) (a : Analysis) (ws : List Word) :
    (s.frame k0 k1 a ws).stereoActive = s.stereoActive := rfl
@[simp] theorem State.frame_an (k0 k1 : Channel) (a : Analysis) (ws : List Word) :
    (s.frame k0 k1 a ws).an = a := rfl
@[simp] theorem State.frame_curve (k0 k1 : Channel) (a : Analysis) (ws : List Word) :
    (s.frame k0 k1 a ws).curve = s.curve := rfl
@[simp] theorem State.frame_ctrlOp (k0 k1 : Channel) (a : Analysis) (ws : List Word) :
    (s.frame k0 k1 a ws).ctrlOp = s.ctrlOp := rfl
@[simp] theorem State.frame_audioOp (k0 k1 : Channel) (a : Analysis) (ws : List Word) :
    (s.frame k0 k1 a ws).audioOp = s.audioOp := rfl
@[simp] theorem State.frame_host (k0 k1 : Channel) (a : Analysis) (ws : List Word) :
    (s.frame k0 k1 a ws).host = { s.host with audioOut := s.host.audioOut ++ ws } := rfl

/-! frameMono -/

@[simp] theorem frameMono_build (x : Word) :
    (frameMono s x).build = s.build := by
  simp only [frameMono, State.frame_build]
@[simp] theorem frameMono_config (x : Word) :
    (frameMono s x).config = s.config := by
  simp only [frameMono, State.frame_config]
@[simp] theorem frameMono_fault (x : Word) :
    (frameMono s x).fault = s.fault := by
  simp only [frameMono, State.frame_fault]
@[simp] theorem frameMono_faultInfo (x : Word) :
    (frameMono s x).faultInfo = s.faultInfo := by
  simp only [frameMono, State.frame_faultInfo]
@[simp] theorem frameMono_cmdResult (x : Word) :
    (frameMono s x).cmdResult = s.cmdResult := by
  simp only [frameMono, State.frame_cmdResult]
@[simp] theorem frameMono_sampleRate (x : Word) :
    (frameMono s x).sampleRate = s.sampleRate := by
  simp only [frameMono, State.frame_sampleRate]
@[simp] theorem frameMono_maxBlock (x : Word) :
    (frameMono s x).maxBlock = s.maxBlock := by
  simp only [frameMono, State.frame_maxBlock]
@[simp] theorem frameMono_srActive (x : Word) :
    (frameMono s x).srActive = s.srActive := by
  simp only [frameMono, State.frame_srActive]
@[simp] theorem frameMono_maxblkActive (x : Word) :
    (frameMono s x).maxblkActive = s.maxblkActive := by
  simp only [frameMono, State.frame_maxblkActive]
@[simp] theorem frameMono_params (x : Word) :
    (frameMono s x).params = s.params := by
  simp only [frameMono, State.frame_params]
@[simp] theorem frameMono_bounds (x : Word) :
    (frameMono s x).bounds = s.bounds := by
  simp only [frameMono, State.frame_bounds]
@[simp] theorem frameMono_floorDb (x : Word) :
    (frameMono s x).floorDb = s.floorDb := by
  simp only [frameMono, State.frame_floorDb]
@[simp] theorem frameMono_respPoints (x : Word) :
    (frameMono s x).respPoints = s.respPoints := by
  simp only [frameMono, State.frame_respPoints]
@[simp] theorem frameMono_cstg (x : Word) :
    (frameMono s x).cstg = s.cstg := by
  simp only [frameMono, State.frame_cstg]
@[simp] theorem frameMono_ch0 (x : Word) :
    (frameMono s x).ch0 = (runChain s.build s.ch0 x).2 := by
  simp only [frameMono, State.frame_ch0]
@[simp] theorem frameMono_ch1 (x : Word) :
    (frameMono s x).ch1 = s.ch1 := by
  simp only [frameMono, State.frame_ch1]
@[simp] theorem frameMono_prepared (x : Word) :
    (frameMono s x).prepared = s.prepared := by
  simp only [frameMono, State.frame_prepared]
@[simp] theorem frameMono_dirty (x : Word) :
    (frameMono s x).dirty = s.dirty := by
  simp only [frameMono, State.frame_dirty]
@[simp] theorem frameMono_stereoActive (x : Word) :
    (frameMono s x).stereoActive = s.stereoActive := by
  simp only [frameMono, State.frame_stereoActive]
@[simp] theorem frameMono_an (x : Word) :
    (frameMono s x).an = tap s.build s.an (runChain s.build s.ch0 x).1 := by
  simp only [frameMono, State.frame_an]
@[simp] theorem frameMono_curve (x : Word) :
    (frameMono s x).curve = s.curve := by
  simp only [frameMono, State.frame_curve]
@[simp] theorem frameMono_ctrlOp (x : Word) :
    (frameMono s x).ctrlOp = s.ctrlOp := by
  simp only [frameMono, State.frame_ctrlOp]
@[simp] theorem frameMono_audioOp (x : Word) :
    (frameMono s x).audioOp = s.audioOp := by
  simp only [frameMono, State.frame_audioOp]
@[simp] theorem frameMono_host (x : Word) :
    (frameMono s x).host = { s.host with audioOut := s.host.audioOut ++ [(runChain s.build s.ch0 x).1] } := by
  simp only [frameMono, State.frame_host]

/-! frameStereo -/

@[simp] theorem frameStereo_build (x y : Word) :
    (frameStereo s x y).build = s.build := by
  simp only [frameStereo, State.frame_build]
@[simp] theorem frameStereo_config (x y : Word) :
    (frameStereo s x y).config = s.config := by
  simp only [frameStereo, State.frame_config]
@[simp] theorem frameStereo_fault (x y : Word) :
    (frameStereo s x y).fault = s.fault := by
  simp only [frameStereo, State.frame_fault]
@[simp] theorem frameStereo_faultInfo (x y : Word) :
    (frameStereo s x y).faultInfo = s.faultInfo := by
  simp only [frameStereo, State.frame_faultInfo]
@[simp] theorem frameStereo_cmdResult (x y : Word) :
    (frameStereo s x y).cmdResult = s.cmdResult := by
  simp only [frameStereo, State.frame_cmdResult]
@[simp] theorem frameStereo_sampleRate (x y : Word) :
    (frameStereo s x y).sampleRate = s.sampleRate := by
  simp only [frameStereo, State.frame_sampleRate]
@[simp] theorem frameStereo_maxBlock (x y : Word) :
    (frameStereo s x y).maxBlock = s.maxBlock := by
  simp only [frameStereo, State.frame_maxBlock]
@[simp] theorem frameStereo_srActive (x y : Word) :
    (frameStereo s x y).srActive = s.srActive := by
  simp only [frameStereo, State.frame_srActive]
@[simp] theorem frameStereo_maxblkActive (x y : Word) :
    (frameStereo s x y).maxblkActive = s.maxblkActive := by
  simp only [frameStereo, State.frame_maxblkActive]
@[simp] theorem frameStereo_params (x y : Word) :
    (frameStereo s x y).params = s.params := by
  simp only [frameStereo, State.frame_params]
@[simp] theorem frameStereo_bounds (x y : Word) :
    (frameStereo s x y).bounds = s.bounds := by
  simp only [frameStereo, State.frame_bounds]
@[simp] theorem frameStereo_floorDb (x y : Word) :
    (frameStereo s x y).floorDb = s.floorDb := by
  simp only [frameStereo, State.frame_floorDb]
@[simp] theorem frameStereo_respPoints (x y : Word) :
    (frameStereo s x y).respPoints = s.respPoints := by
  simp only [frameStereo, State.frame_respPoints]
@[simp] theorem frameStereo_cstg (x y : Word) :
    (frameStereo s x y).cstg = s.cstg := by
  simp only [frameStereo, State.frame_cstg]
@[simp] theorem frameStereo_ch0 (x y : Word) :
    (frameStereo s x y).ch0 = (runChain s.build s.ch0 x).2 := by
  simp only [frameStereo, State.frame_ch0]
@[simp] theorem frameStereo_ch1 (x y : Word) :
    (frameStereo s x y).ch1 = (runChain s.build s.ch1 y).2 := by
  simp only [frameStereo, State.frame_ch1]
@[simp] theorem frameStereo_prepared (x y : Word) :
    (frameStereo s x y).prepared = s.prepared := by
  simp only [frameStereo, State.frame_prepared]
@[simp] theorem frameStereo_dirty (x y : Word) :
    (frameStereo s x y).dirty = s.dirty := by
  simp only [frameStereo, State.frame_dirty]
@[simp] theorem frameStereo_stereoActive (x y : Word) :
    (frameStereo s x y).stereoActive = s.stereoActive := by
  simp only [frameStereo, State.frame_stereoActive]
@[simp] theorem frameStereo_an (x y : Word) :
    (frameStereo s x y).an = tap s.build s.an (runChain s.build s.ch0 x).1 := by
  simp only [frameStereo, State.frame_an]
@[simp] theorem frameStereo_curve (x y : Word) :
    (frameStereo s x y).curve = s.curve := by
  simp only [frameStereo, State.frame_curve]
@[simp] theorem frameStereo_ctrlOp (x y : Word) :
    (frameStereo s x y).ctrlOp = s.ctrlOp := by
  simp only [frameStereo, State.frame_ctrlOp]
@[simp] theorem frameStereo_audioOp (x y : Word) :
    (frameStereo s x y).audioOp = s.audioOp := by
  simp only [frameStereo, State.frame_audioOp]
@[simp] theorem frameStereo_host (x y : Word) :
    (frameStereo s x y).host = { s.host with
      audioOut := s.host.audioOut ++ [(runChain s.build s.ch0 x).1, (runChain s.build s.ch1 y).1] } := by
  simp only [frameStereo, State.frame_host]

/-! drainStep -/

@[simp] theorem drainStep_build (n : Nat) : (drainStep s n).build = s.build := by
  simp [drainStep]
@[simp] theorem drainStep_config (n : Nat) : (drainStep s n).config = s.config := by
  simp [drainStep]
@[simp] theorem drainStep_fault (n : Nat) : (drainStep s n).fault = s.fault := by
  simp [drainStep]
@[simp] theorem drainStep_faultInfo (n : Nat) :
    (drainStep s n).faultInfo = s.faultInfo := by
  simp [drainStep]
@[simp] theorem drainStep_cmdResult (n : Nat) :
    (drainStep s n).cmdResult = s.cmdResult := by
  simp [drainStep]
@[simp] theorem drainStep_sampleRate (n : Nat) :
    (drainStep s n).sampleRate = s.sampleRate := by
  simp [drainStep]
@[simp] theorem drainStep_maxBlock (n : Nat) : (drainStep s n).maxBlock = s.maxBlock := by
  simp [drainStep]
@[simp] theorem drainStep_srActive (n : Nat) : (drainStep s n).srActive = s.srActive := by
  simp [drainStep]
@[simp] theorem drainStep_maxblkActive (n : Nat) :
    (drainStep s n).maxblkActive = s.maxblkActive := by
  simp [drainStep]
@[simp] theorem drainStep_params (n : Nat) : (drainStep s n).params = s.params := by
  simp [drainStep]
@[simp] theorem drainStep_bounds (n : Nat) : (drainStep s n).bounds = s.bounds := by
  simp [drainStep]
@[simp] theorem drainStep_floorDb (n : Nat) : (drainStep s n).floorDb = s.floorDb := by
  simp [drainStep]
@[simp] theorem drainStep_respPoints (n : Nat) :
    (drainStep s n).respPoints = s.respPoints := by
  simp [drainStep]
@[simp] theorem drainStep_cstg (n : Nat) : (drainStep s n).cstg = s.cstg := by
  simp [drainStep]
@[simp] theorem drainStep_ch0 (n : Nat) : (drainStep s n).ch0 = s.ch0 := by
  simp [drainStep]
@[simp] theorem drainStep_ch1 (n : Nat) : (drainStep s n).ch1 = s.ch1 := by
  simp [drainStep]
@[simp] theorem drainStep_prepared (n : Nat) : (drainStep s n).prepared = s.prepared := by
  simp [drainStep]
@[simp] theorem drainStep_dirty (n : Nat) : (drainStep s n).dirty = s.dirty := by
  simp [drainStep]
@[simp] theorem drainStep_stereoActive (n : Nat) :
    (drainStep s n).stereoActive = s.stereoActive := by
  simp [drainStep]
@[simp] theorem drainStep_an (n : Nat) : (drainStep s n).an = s.an := by
  simp [drainStep]
@[simp] theorem drainStep_curve (n : Nat) : (drainStep s n).curve = s.curve := by
  simp [drainStep]
@[simp] theorem drainStep_ctrlOp (n : Nat) : (drainStep s n).ctrlOp = s.ctrlOp := by
  simp [drainStep]
@[simp] theorem drainStep_audioOp (n : Nat) :
    (drainStep s n).audioOp = drainLeft (n - 1) := by
  simp [drainStep]
@[simp] theorem drainStep_host (n : Nat) :
    (drainStep s n).host = { s.host with
      draws := s.host.draws + 1, audioOut := s.host.audioOut ++ [Config.freeWord s.host.draws] } := by
  simp [drainStep]

/-! A frame and a chain. -/

/-- A stage step writes only the delays of its own stage. -/
theorem stageStep_chain (b : Build) (k : Channel) (t : Stage) (x : Word) :
    ∃ d, (stageStep b k t x).2 = { k with st := k.st.set t d } := by
  unfold stageStep
  split
  · exact ⟨_, rfl⟩
  · refine ⟨k.st[t], ?_⟩
    have : k.st.set t k.st[t] = k.st := Vector.set_getElem_self t.isLt
    rw [this]

/-- A frame writes nothing of a chain but its delays. -/
theorem runStages_chain (b : Build) (ts : List Stage) (k : Channel) (x : Word) :
    ∃ st, (runStages b ts k x).2 = { k with st := st } := by
  induction ts generalizing k x with
  | nil => exact ⟨k.st, rfl⟩
  | cons t ts ih =>
    obtain ⟨d, hd⟩ := stageStep_chain b k t x
    obtain ⟨st, hst⟩ := ih (stageStep b k t x).2 (stageStep b k t x).1
    exact ⟨st, by simp only [runStages]; rw [hst, hd]⟩

end Sys2Proof.Machine
end

