-- ==== Sys2Proof/Laws/Invariant.lean ====
section
/-! SUPPORT. Each shared operation keeps the invariant of Safety.lean. -/

namespace Sys2Proof.Machine

theorem raise_faultOk (s : State) (c : Cause) (i : Word) (h : s.faultOk = true) : (s.raise c i).faultOk = true := by
  unfold State.faultOk at *
  cases hf : s.faulted
  · simpa only [State.raise, hf, Bool.false_eq_true, if_false] using cause_word_ok c i
  · simpa only [State.raise, hf, if_true] using h

theorem raise_inv (s : State) (c : Cause) (i : Word) (h : s.Inv) : (s.raise c i).Inv := by
  obtain ⟨h1,h2,h3,h4,h5,h6,h7,h8⟩ := h
  exact ⟨h1,h2,raise_faultOk s c i h3,h4,h5,h6,h7,h8⟩

theorem result_regsOk (s : State) (op : BitVec 8) (a b c : Bool) (h : s.regsOk = true) : (s.result op a b c).regsOk = true := by
  unfold State.regsOk at *
  simp only [State.result_config, State.result_cmdResult, State.result_sampleRate, State.result_maxBlock, State.result_floorDb, State.result_respPoints, State.result_build, State.result_params, State.result_bounds, resultWord_reserved, Bool.and_eq_true] at *
  simp_all

theorem result_inv (s : State) (op : BitVec 8) (a b c : Bool) (h : s.Inv) : (s.result op a b c).Inv := by
  obtain ⟨h1,h2,h3,h4,h5,h6,h7,h8⟩ := h
  exact ⟨h1,result_regsOk s op a b c h2,h3,h4,h5,h6,h7,h8⟩

theorem setHost_inv (s : State) (x : HostSide) (h : s.Inv) : (s.setHost x).Inv := h

theorem answer_inv (s : State) (x : Word) (h : s.Inv) : (s.answer x).Inv := h

theorem emit_inv (s : State) (x : List Word) (h : s.Inv) : (s.emit x).Inv := h

theorem setAn_inv (s : State) (x : Analysis) (h : s.Inv) (hx : x.ok s.build = true) : (s.setAn x).Inv := by
  obtain ⟨h1,h2,h3,h4,h5,h6,h7,h8⟩ := h
  exact ⟨h1,h2,h3,h4,hx,h6,h7,h8⟩

theorem setChan_inv (s : State) (c : Ch) (k : Channel) (h : s.Inv) : (s.setChan c k).Inv := by
  cases c <;> exact h

theorem apply_inv (s : State) (i : Install) (h : s.Inv) : (Install.apply s i).Inv := by
  cases i <;> exact setChan_inv _ _ _ h

theorem ctrlOp_inv (s : State) (o : Option CtrlOp) (h : s.Inv) (ho : (s.setCtrlOp o).ctrlOpOk = true) : (s.setCtrlOp o).Inv := by
  obtain ⟨h1,h2,h3,h4,h5,h6,h7,h8⟩ := h
  exact ⟨h1,h2,h3,h4,h5,h6,ho,h8⟩

theorem audioOp_inv (s : State) (o : AudioOp) (h : s.Inv) (ho : (s.setAudioOp o).audioOpOk = true) : (s.setAudioOp o).Inv := by
  obtain ⟨h1,h2,h3,h4,h5,h6,h7,h8⟩ := h
  exact ⟨h1,h2,h3,h4,h5,h6,h7,ho⟩

theorem installStep_inv (s : State) (op : BitVec 8) (todo : List Install) (h : s.Inv)
    (ho : (op == 0x02#8 && s.prepared || op == 0x06#8 || op == 0x07#8) = true) : (installStep s op todo).Inv := by
  rcases todo with _ | ⟨i, _ | ⟨j, rest⟩⟩
  · exact result_inv _ _ _ _ _ (ctrlOp_inv s none h rfl)
  · exact result_inv _ _ _ _ _ (ctrlOp_inv _ none (apply_inv s i h) rfl)
  · refine ctrlOp_inv _ _ (apply_inv s i h) ?_
    simpa [State.ctrlOpOk, apply_prepared] using ho

theorem params_inv (s : State) (p : Params) (h : s.Inv) (hp : p.ok = true) : (s.setParams p).Inv := by
  obtain ⟨h1,h2,h3,h4,h5,h6,h7,h8⟩ := h
  refine ⟨h1,?_,h3,?_,h5,h6,h7,h8⟩
  · unfold State.regsOk at *; simp only [State.setParams_config, State.setParams_cmdResult, State.setParams_sampleRate, State.setParams_maxBlock, State.setParams_floorDb, State.setParams_respPoints, State.setParams_build, State.setParams_params, State.setParams_bounds]
    simp_all
  · unfold State.latchOk at *
    simp only [State.setParams_prepared, State.setParams_srActive, State.setParams_maxblkActive, State.setParams_stereoActive, State.setParams_dirty]
    simp only [Bool.or_eq_true, Bool.and_eq_true] at h4 ⊢
    exact h4.imp id fun x => ⟨x.1, trivial⟩

theorem regs_params {s : State} (h : s.Inv) : s.params.ok = true := by
  have := h.2.1; unfold State.regsOk at this; simp only [Bool.and_eq_true] at this; exact this.1.2

theorem writeParam_inv (s : State) (ok : Bool) (a : Addr) (p : Params) (h : s.Inv) (hp : ok = true → p.ok = true) : (s.writeParam ok a p).Inv := by
  unfold State.writeParam; split
  · next hk => exact params_inv s p h (hp hk)
  · exact raise_inv _ _ _ h

theorem prepare_inv (s : State) (h : s.Inv) (t : State) (ht : execPrepare s = .next t) : t.Inv := by
  unfold execPrepare at ht
  split at ht
  · obtain rfl := next_inj ht; exact raise_inv _ _ _ h
  · next d hd =>
    obtain rfl := next_inj ht
    apply result_inv
    obtain ⟨h1,h2,h3,h4,h5,h6,h7,h8⟩ := h
    have h2' := h2
    simp only [State.regsOk, Bool.and_eq_true] at h2
    refine ⟨h1,h2',h3,?_,h5,h6,?_,?_⟩
    · simp only [State.latchOk, Bool.true_and, Bool.or_eq_true, Bool.and_eq_true]; exact .inl ⟨h2.1.1.1.1.1.2, h2.1.1.1.1.2⟩
    · simp only [State.ctrlOpOk] at h7 ⊢
      cases hc : s.ctrlOp with
      | none => simp
      | some op => rw [hc] at h7; simp only [Bool.and_eq_true, Bool.or_eq_true] at h7 ⊢; rcases h7 with ⟨a, b⟩; refine ⟨a, ?_⟩; rcases b with (b|b)|b
                   · exact .inl (.inl ⟨b.1, trivial⟩)
                   · exact .inl (.inr b)
                   · exact .inr b
    · simp only [State.audioOpOk] at h8 ⊢
      cases hc : s.audioOp <;> rw [hc] at h8 <;> simp_all

theorem checked_inv (s : State) (ok : Bool) (a : Addr) (t : State) (h : s.Inv) (ht : ok = true → t.Inv) : (s.checked ok a t).Inv := by
  unfold State.checked; split
  · next hk => exact ht hk
  · exact raise_inv _ _ _ h

theorem writeReg_inv (s : State) (a : Addr) (v : Word) (r : Reg) (h : s.Inv) : (s.writeReg a v r).Inv := by
  have hp := regs_params h
  have hp' := hp
  simp only [Params.ok, Bool.and_eq_true] at hp'
  have hreg := h.2.1
  simp only [State.regsOk, Bool.and_eq_true] at hreg
  have hbd := hreg.2
  simp only [Bounds.finite, Bool.and_eq_true] at hbd
  cases r <;> simp only [State.writeReg]
  case config =>
    obtain ⟨h1,h2,h3,h4,h5,h6,h7,h8⟩ := h
    refine ⟨h1,?_,h3,h4,h5,h6,h7,h8⟩
    simp only [State.regsOk, Bool.and_eq_true]
    refine ⟨⟨⟨⟨⟨⟨⟨?_, hreg.1.1.1.1.1.1.2⟩,hreg.1.1.1.1.1.2⟩,hreg.1.1.1.1.2⟩,hreg.1.1.1.2⟩,hreg.1.1.2⟩,hreg.1.2⟩,hreg.2⟩
    rw [beq_iff_eq, BitVec.and_assoc]; simp
  case settings =>
    refine writeParam_inv _ _ _ _ h fun _ => ?_
    simp only [Params.ok, Bool.and_eq_true]
    refine ⟨hp'.1, ?_⟩
    rw [beq_iff_eq, BitVec.and_assoc]; simp
  case lowcutFreq => exact writeParam_inv _ _ _ _ h fun hk => by simp only [Params.ok, Bool.and_eq_true]; exact ⟨⟨⟨⟨⟨hk, hp'.1.1.1.1.2⟩,hp'.1.1.1.2⟩,hp'.1.1.2⟩,hp'.1.2⟩,hp'.2⟩
  case highcutFreq => exact writeParam_inv _ _ _ _ h fun hk => by simp only [Params.ok, Bool.and_eq_true]; exact ⟨⟨⟨⟨⟨hp'.1.1.1.1.1, hk⟩,hp'.1.1.1.2⟩,hp'.1.1.2⟩,hp'.1.2⟩,hp'.2⟩
  case peakFreq => exact writeParam_inv _ _ _ _ h fun hk => by simp only [Params.ok, Bool.and_eq_true]; exact ⟨⟨⟨⟨⟨hp'.1.1.1.1.1, hp'.1.1.1.1.2⟩,hk⟩,hp'.1.1.2⟩,hp'.1.2⟩,hp'.2⟩
  case peakGainDb => exact writeParam_inv _ _ _ _ h fun hk => by simp only [Params.ok, Bool.and_eq_true]; exact ⟨⟨⟨⟨⟨hp'.1.1.1.1.1, hp'.1.1.1.1.2⟩,hp'.1.1.1.2⟩,hk⟩,hp'.1.2⟩,hp'.2⟩
  case peakQ => exact writeParam_inv _ _ _ _ h fun hk => by simp only [Params.ok, Bool.and_eq_true]; exact ⟨⟨⟨⟨⟨hp'.1.1.1.1.1, hp'.1.1.1.1.2⟩,hp'.1.1.1.2⟩,hp'.1.1.2⟩,hk⟩,hp'.2⟩
  case sampleRate => refine checked_inv _ _ _ _ h fun hk => ?_
                     obtain ⟨h1,h2,h3,h4,h5,h6,h7,h8⟩ := h; refine ⟨h1,?_,h3,h4,h5,h6,h7,h8⟩; simp only [State.regsOk, Bool.and_eq_true]; exact ⟨⟨⟨⟨⟨⟨⟨hreg.1.1.1.1.1.1.1, hreg.1.1.1.1.1.1.2⟩,hk⟩,hreg.1.1.1.1.2⟩,hreg.1.1.1.2⟩,hreg.1.1.2⟩,hreg.1.2⟩,hreg.2⟩
  case maxBlock => refine checked_inv _ _ _ _ h fun hk => ?_
                   obtain ⟨h1,h2,h3,h4,h5,h6,h7,h8⟩ := h; refine ⟨h1,?_,h3,h4,h5,h6,h7,h8⟩; simp only [State.regsOk, Bool.and_eq_true]; exact ⟨⟨⟨⟨⟨⟨⟨hreg.1.1.1.1.1.1.1, hreg.1.1.1.1.1.1.2⟩,hreg.1.1.1.1.1.2⟩,hk⟩,hreg.1.1.1.2⟩,hreg.1.1.2⟩,hreg.1.2⟩,hreg.2⟩
  case floorDb => refine checked_inv _ _ _ _ h fun hk => ?_
                  obtain ⟨h1,h2,h3,h4,h5,h6,h7,h8⟩ := h; refine ⟨h1,?_,h3,h4,h5,h6,h7,h8⟩; simp only [State.regsOk, Bool.and_eq_true]; exact ⟨⟨⟨⟨⟨⟨⟨hreg.1.1.1.1.1.1.1, hreg.1.1.1.1.1.1.2⟩,hreg.1.1.1.1.1.2⟩,hreg.1.1.1.1.2⟩,hk⟩,hreg.1.1.2⟩,hreg.1.2⟩,hreg.2⟩
  case respPoints => refine checked_inv _ _ _ _ h fun hk => ?_
                     obtain ⟨h1,h2,h3,h4,h5,h6,h7,h8⟩ := h; refine ⟨h1,?_,h3,h4,h5,h6,h7,h8⟩; simp only [State.regsOk, Bool.and_eq_true]; exact ⟨⟨⟨⟨⟨⟨⟨hreg.1.1.1.1.1.1.1, hreg.1.1.1.1.1.1.2⟩,hreg.1.1.1.1.1.2⟩,hreg.1.1.1.1.2⟩,hreg.1.1.1.2⟩,hk⟩,hreg.1.2⟩,hreg.2⟩
  case boundsX | boundsY | boundsW | boundsH =>
    refine checked_inv _ _ _ _ h fun hk => ?_
    obtain ⟨h1,h2,h3,h4,h5,h6,h7,h8⟩ := h; refine ⟨h1,?_,h3,h4,h5,h6,h7,h8⟩; simp only [State.regsOk, Bool.and_eq_true, Bounds.finite]; simp_all
  all_goals exact raise_inv _ _ _ h

theorem drain_ok (s : State) (k : Nat) (h : s.Inv) : (s.setAudioOp (drainLeft k)).Inv := by
  refine audioOp_inv _ _ h ?_
  rcases k with _ | k <;> simp [drainLeft, State.audioOpOk]

theorem frames_ok (s : State) (n : Nat) (b : Bool) (h : s.Inv) (hp : s.prepared = true) : (s.setAudioOp (framesLeft n b)).Inv := by
  refine audioOp_inv _ _ h ?_
  rcases n with _ | n <;> simp [framesLeft, State.audioOpOk, hp]

theorem frame_inv (s : State) (k0 k1 : Channel) (a : Analysis) (ws : List Word) (h : s.Inv) (ha : a.ok s.build = true) :
    (s.frame k0 k1 a ws).Inv := by
  obtain ⟨h1,h2,h3,h4,h5,h6,h7,h8⟩ := h
  exact ⟨h1,h2,h3,h4,ha,h6,h7,h8⟩

theorem frameMono_inv (s : State) (x : Word) (h : s.Inv) : (frameMono s x).Inv :=
  frame_inv s _ _ _ _ h (tap_ok h.1 h.2.2.2.2.1 _)

theorem frameStereo_inv (s : State) (x y : Word) (h : s.Inv) : (frameStereo s x y).Inv :=
  frame_inv s _ _ _ _ h (tap_ok h.1 h.2.2.2.2.1 _)

end Sys2Proof.Machine
end

