-- ==== Sys2Proof/Laws/PerInstr.lean ====
section
/-! SUPPORT. The family TableMatch: an instruction's word has the fixed bits of its row of the opcode table. -/

namespace Sys2Proof.Laws.TableMatch

/-- The mask and the match value of the instruction's row of spec/opcode_table.json. -/
def row : Instr → Word × Word
  | .nop => (0xFFFFFFFF#32, 0x00000000#32)
  | .prepare => (0xFFFFFFFF#32, 0x00000001#32)
  | .tick => (0xFFFFFFFF#32, 0x00000002#32)
  | .designPeak => (0xFFFFFFFF#32, 0x00000003#32)
  | .designLowcut => (0xFFFFFFFF#32, 0x00000004#32)
  | .designHighcut => (0xFFFFFFFF#32, 0x00000005#32)
  | .updateCoef _ _ _ => (0xFFFCC0FF#32, 0x00000006#32)
  | .setBypass _ _ _ => (0xFFFCE0FF#32, 0x00000007#32)
  | .anStep => (0xFFFFFFFF#32, 0x00000008#32)
  | .fftGet => (0xFFFFFFFF#32, 0x00000009#32)
  | .genPath => (0xFFFFFFFF#32, 0x0000000A#32)
  | .response => (0xFFFFFFFF#32, 0x0000000B#32)
  | .areset => (0xFFFFFFFF#32, 0x0000000C#32)
  | .processBlock _ => (0x0000FFFF#32, 0x00000001#32)
  | .rd _ => (0xFFF00000#32, 0x00400000#32)
  | .wr _ _ => (0xFFF00000#32, 0x00500000#32)

/-- The encoded word carries the row's fixed bits, whatever its operands hold. -/
def Statement (i : Instr) : Prop := encodeWord i &&& (row i).1 = (row i).2

theorem nop : Statement .nop := rfl
theorem prepare : Statement .prepare := rfl
theorem tick : Statement .tick := rfl
theorem designPeak : Statement .designPeak := rfl
theorem designLowcut : Statement .designLowcut := rfl
theorem designHighcut : Statement .designHighcut := rfl

theorem updateCoef (stage : BitVec 4) (slot : BitVec 2) (ch : BitVec 2) :
    Statement (.updateCoef stage slot ch) := by
  simp only [Statement, row, encodeWord]
  ext i hi
  simp only [BitVec.getElem_and, BitVec.getElem_append]
  interval_cases i <;> simp

theorem setBypass (tgt : BitVec 4) (val : BitVec 1) (ch : BitVec 2) :
    Statement (.setBypass tgt val ch) := by
  simp only [Statement, row, encodeWord]
  ext i hi
  simp only [BitVec.getElem_and, BitVec.getElem_append]
  interval_cases i <;> simp
theorem anStep : Statement .anStep := rfl
theorem fftGet : Statement .fftGet := rfl
theorem genPath : Statement .genPath := rfl
theorem response : Statement .response := rfl
theorem areset : Statement .areset := rfl

theorem processBlock (nfr : BitVec 16) :
    Statement (.processBlock nfr) := by
  simp only [Statement, row, encodeWord]
  ext i hi
  simp only [BitVec.getElem_and, BitVec.getElem_append]
  interval_cases i <;> simp

theorem rd (addr : Addr) :
    Statement (.rd addr) := by
  simp only [Statement, row, encodeWord]
  ext i hi
  simp only [BitVec.getElem_and, BitVec.getElem_append]
  interval_cases i <;> simp

theorem wr (addr : Addr) (data : Word) :
    Statement (.wr addr data) := by
  simp only [Statement, row, encodeWord]
  ext i hi
  simp only [BitVec.getElem_and, BitVec.getElem_append]
  interval_cases i <;> simp

end Sys2Proof.Laws.TableMatch
end

