-- ==== Sys2Proof/Laws/Schedule.lean ====
section
/-! SUPPORT. No instruction and no step of an agent reads or writes the schedule: under another schedule each does
the same. -/

namespace Sys2Proof.Machine

/-- The state with another schedule. -/
def State.withSchedule (s : State) (l : List Turn) : State := { s with host := { s.host with schedule := l } }

theorem apply_withSchedule (l : List Turn) (s : State) (i : Install) :
    Install.apply (s.withSchedule l) i = (Install.apply s i).withSchedule l := by
  cases i with
  | coef c t z => cases c <;> rfl
  | stage c t z b => cases c <;> rfl
  | flags c p => cases c <;> rfl
  | bypass c t v => cases c <;> rfl

theorem installStep_withSchedule (l : List Turn) (s : State) (o : BitVec 8) (il : List Install) :
    installStep (s.withSchedule l) o il = (installStep s o il).withSchedule l := by
  rcases il with _ | ⟨i, _ | ⟨j, rest⟩⟩
  · rfl
  · simp only [installStep, apply_withSchedule]; rfl
  · simp only [installStep, apply_withSchedule]; rfl

theorem writeReg_withSchedule (l : List Turn) (s : State) (a : Addr) (v : Word) (r : Reg) :
    (s.withSchedule l).writeReg a v r = (s.writeReg a v r).withSchedule l := by
  have hb : (s.withSchedule l).build = s.build := rfl
  cases r <;> simp only [State.writeReg, State.checked, State.writeParam, hb] <;> (try split) <;> rfl

/-- A function applied to the next state of an outcome. -/
def mapNext (f : State → State) : Result → Result
  | .next s => .next (f s)
  | .fault r => .fault r
  | .refused r => .refused r

/-- The instruction is no WR. -/
def NotWrite (i : Instr) : Prop := ∀ a v, i ≠ .wr a v

theorem exec_notWrite_withSchedule (l : List Turn) (s : State) (i : Instr) (hi : NotWrite i) :
    exec i (s.withSchedule l) = mapNext (·.withSchedule l) (exec i s) := by
  cases i with
  | wr a v => exact absurd rfl (hi a v)
  | updateCoef a b c => simp only [exec, execUpdateCoef, installStep_withSchedule]; split <;> rfl
  | setBypass a b c => simp only [exec, execSetBypass, installStep_withSchedule]; split <;> rfl
  | rd a =>
    simp only [exec, execRd]
    have : (s.withSchedule l).mapped a = s.mapped a := rfl
    rw [this]
    cases s.mapped a with
    | none => rfl
    | some x =>
      cases x with
      | reg r => cases r <;> rfl
      | delay c t i => cases c <;> rfl
      | coef c t i => cases c <;> rfl
      | _ => rfl
  | prepare =>
    simp only [exec, execPrepare]
    have : fullDesign (s.withSchedule l).build (s.withSchedule l).params (s.withSchedule l).sampleRate =
        fullDesign s.build s.params s.sampleRate := rfl
    rw [this]
    cases fullDesign s.build s.params s.sampleRate <;> rfl
  | tick =>
    simp only [exec, execTick]
    have : fullDesign (s.withSchedule l).build (s.withSchedule l).params (s.withSchedule l).srActive =
        fullDesign s.build s.params s.srActive := rfl
    rw [this]
    have hp : (s.withSchedule l).prepared = s.prepared := rfl
    have hd : (s.withSchedule l).dirty = s.dirty := rfl
    rw [hp, hd]
    cases s.prepared <;> cases s.dirty <;> cases fullDesign s.build s.params s.srActive <;> rfl
  | _ =>
    simp only [exec, execNop, execAreset, execDesignPeak, execDesignLowcut, execDesignHighcut, execAnStep,
      execFftGet, execGenPath, execResponse, execProcessBlock]
    repeat' split
    all_goals first | rfl | contradiction

theorem execCommand_withSchedule (l : List Turn) (s : State) (v : Word) :
    execCommand v (s.withSchedule l) = mapNext (·.withSchedule l) (execCommand v s) := by
  cases hd : decodeCommand v with
  | error r => simp only [execCommand, hd]; rfl
  | ok i =>
    have hi := decodeCommand_lane v i hd
    rw [execCommand_ok v _ i hd hi, execCommand_ok v _ i hd hi]
    exact exec_notWrite_withSchedule l s i (by rintro a v rfl; cases hi)

theorem exec_withSchedule (l : List Turn) (s : State) (i : Instr) :
    exec i (s.withSchedule l) = mapNext (·.withSchedule l) (exec i s) := by
  cases i with
  | wr a v =>
    simp only [exec, execWr]
    have : (s.withSchedule l).mapped a = s.mapped a := rfl
    rw [this]
    cases s.mapped a with
    | none => rfl
    | some x =>
      simp only
      cases hx : x.access with
      | ro => rfl
      | cmd => exact execCommand_withSchedule l s v
      | rw =>
        simp only [mapNext]
        congr 1
        cases x with
        | reg r => exact writeReg_withSchedule l s a v r
        | _ => rfl
  | _ => exact exec_notWrite_withSchedule l s _ (by intro a v h; cases h)

theorem ctrlStep_withSchedule (l : List Turn) (s : State) :
    ctrlStep (s.withSchedule l) = mapNext (·.withSchedule l) (ctrlStep s) := by
  unfold ctrlStep
  show (match s.ctrlOp with | some op => _ | none => _) = _
  cases s.ctrlOp with
  | some op => simp only [installStep_withSchedule]; rfl
  | none =>
    show (match s.host.ctrlIn with | [] => _ | t :: rest => _) = _
    cases s.host.ctrlIn with
    | nil => rfl
    | cons t rest =>
      simp only [performTransaction]
      cases decodeBus t.desc t.data with
      | error r => simp only [badDescriptor]; split <;> rfl
      | ok i => exact exec_withSchedule l (s.setHost { s.host with ctrlIn := rest }) i

theorem audioStep_withSchedule (l : List Turn) (s : State) :
    audioStep (s.withSchedule l) = mapNext (·.withSchedule l) (audioStep s) := by
  unfold audioStep
  show (match s.audioOp with
    | .header => _ | .frames left false => _ | .frames left true => _ | .drain left => _) = _
  rcases s.audioOp with _ | ⟨n, _ | _⟩ | n
  · show (match s.host.audioIn with | [] => _ | h :: rest => _) = _
    cases s.host.audioIn with
    | nil => rfl
    | cons h rest =>
      simp only [takeHeader]
      cases decodeStream h with
      | error r => rfl
      | ok i => exact exec_withSchedule l (s.takeAudio rest) i
  · show (match s.host.audioIn with | [] => _ | h :: rest => _) = _
    cases s.host.audioIn with
    | nil => rfl
    | cons x r => simp [mapNext, State.withSchedule, frameMono, State.frame, State.takeAudio, State.setHost,
        State.setAudioOp]
  · show (match s.host.audioIn with | x0 :: x1 :: rest => _ | [_] => _ | [] => _) = _
    rcases s.host.audioIn with _ | ⟨x, _ | ⟨y, r⟩⟩
    · rfl
    · rfl
    · simp [mapNext, State.withSchedule, frameStereo, State.frame, State.takeAudio, State.setHost,
        State.setAudioOp]
  · show (match s.host.audioIn with | [] => _ | h :: rest => _) = _
    cases s.host.audioIn <;> rfl

theorem ctrlRun_withSchedule (l : List Turn) (n : Nat) (s : State) :
    ctrlRun n (s.withSchedule l) = mapNext (·.withSchedule l) (ctrlRun n s) := by
  induction n generalizing s with
  | zero => rfl
  | succ n ih =>
    simp only [ctrlRun, ctrlStep_withSchedule]
    cases ctrlStep s with
    | next t => exact ih t
    | fault r => rfl
    | refused r => rfl

theorem audioRun_withSchedule (l : List Turn) (n : Nat) (s : State) :
    audioRun n (s.withSchedule l) = mapNext (·.withSchedule l) (audioRun n s) := by
  induction n generalizing s with
  | zero => rfl
  | succ n ih =>
    simp only [audioRun, audioStep_withSchedule]
    cases audioStep s with
    | next t => exact ih t
    | fault r => rfl
    | refused r => rfl

end Sys2Proof.Machine
end

