-- ==== Sys2Proof/Laws/Step.lean ====
section
/-! SUPPORT. What one step of an agent is in each of its situations, and how an install sequence runs. -/

namespace Sys2Proof.Machine

variable (s : State)

/-! CTRL. -/

theorem ctrlStep_installs (op : CtrlOp) (h : s.ctrlOp = some op) :
    ctrlStep s = .next (installStep s op.opcode op.todo) := by
  simp only [ctrlStep, h]

theorem ctrlStep_idle (h : s.ctrlOp = none) (hq : s.host.ctrlIn = []) : ctrlStep s = .next s := by
  simp only [ctrlStep, h, hq]

theorem ctrlStep_transaction (t : Transaction) (rest : List Transaction) (h : s.ctrlOp = none)
    (hq : s.host.ctrlIn = t :: rest) :
    ctrlStep s = performTransaction t (s.setHost { s.host with ctrlIn := rest }) := by
  simp only [ctrlStep, h, hq]

theorem performTransaction_ok (t : Transaction) (i : Instr) (h : decodeBus t.desc t.data = .ok i) :
    performTransaction t s = exec i s := by
  simp only [performTransaction, h]

@[simp] theorem ctrlRun_zero : ctrlRun 0 s = .next s := rfl

theorem ctrlRun_succ (n : Nat) (t : State) (h : ctrlStep s = .next t) : ctrlRun (n + 1) s = ctrlRun n t := by
  simp only [ctrlRun, h]

/-- An install step does not look at the command in progress. -/
theorem Install.apply_setCtrlOp (i : Install) (o : Option CtrlOp) :
    Install.apply (s.setCtrlOp o) i = (Install.apply s i).setCtrlOp o := by
  cases i with
  | coef c t z => cases c <;> rfl
  | stage c t z b => cases c <;> rfl
  | flags c p => cases c <;> rfl
  | bypass c t v => cases c <;> rfl

/-- A sequence of install steps from its first step on: all of them applied in order, the command complete
(20_memory R111). -/
theorem installStep_run (o : BitVec 8) (i : Install) (l : List Install) :
    ctrlRun l.length (installStep s o (i :: l)) =
      .next ((((i :: l).foldl Install.apply s).setCtrlOp none).result o true) := by
  induction l generalizing s i with
  | nil => rfl
  | cons j l ih =>
    rw [List.length_cons, ctrlRun_succ _ _ _ (ctrlStep_installs _ ⟨o, j :: l⟩ rfl)]
    have first : installStep s o (i :: j :: l) = (Install.apply s i).setCtrlOp (some ⟨o, j :: l⟩) := rfl
    rw [first, ih]
    congr 2
    have key : ∀ (l : List Install) (u : State) (c : Option CtrlOp),
        (l.foldl Install.apply (u.setCtrlOp c)).setCtrlOp none = (l.foldl Install.apply u).setCtrlOp none := by
      intro l
      induction l with
      | nil => exact fun _ _ => rfl
      | cons a l ih => intro u c; simp only [List.foldl_cons, Install.apply_setCtrlOp]; exact ih _ _
    exact key (j :: l) (Install.apply s i) _

/-- A sequence of install steps that a command left to run. -/
theorem ctrlRun_installs (o : BitVec 8) (i : Install) (l : List Install) (h : s.ctrlOp = some ⟨o, i :: l⟩) :
    ctrlRun (l.length + 1) s = .next ((((i :: l).foldl Install.apply s).setCtrlOp none).result o true) := by
  rw [ctrlRun_succ _ _ _ (ctrlStep_installs _ _ h)]
  exact installStep_run s o i l

/-! AUDIO. -/

@[simp] theorem audioRun_zero : audioRun 0 s = .next s := rfl

theorem audioRun_succ (n : Nat) (t : State) (h : audioStep s = .next t) : audioRun (n + 1) s = audioRun n t := by
  simp only [audioRun, h]

theorem audioStep_header (w : Word) (rest : List Word) (h : s.audioOp = .header)
    (hq : s.host.audioIn = w :: rest) : audioStep s = takeHeader w (s.takeAudio rest) := by
  simp only [audioStep, h, hq]

theorem takeHeader_ok (w : Word) (i : Instr) (h : decodeStream w = .ok i) : takeHeader w s = exec i s := by
  simp only [takeHeader, h]

theorem audioStep_mono (n : Nat) (x : Word) (rest : List Word) (h : s.audioOp = .frames n false)
    (hq : s.host.audioIn = x :: rest) :
    audioStep s = .next (frameMono ((s.takeAudio rest).setAudioOp (framesLeft (n - 1) false)) x) := by
  simp only [audioStep, h, hq]

theorem audioStep_stereo (n : Nat) (x y : Word) (rest : List Word) (h : s.audioOp = .frames n true)
    (hq : s.host.audioIn = x :: y :: rest) :
    audioStep s = .next (frameStereo ((s.takeAudio rest).setAudioOp (framesLeft (n - 1) true)) x y) := by
  simp only [audioStep, h, hq]

theorem audioStep_drain (n : Nat) (w : Word) (rest : List Word) (h : s.audioOp = .drain n)
    (hq : s.host.audioIn = w :: rest) : audioStep s = .next (drainStep (s.takeAudio rest) n) := by
  simp only [audioStep, h, hq]

/-! Which agent moves. -/

theorem step_ctrl (rest : List Turn) (h : s.host.schedule = .ctrl :: rest) :
    step s = ctrlStep (s.setHost { s.host with schedule := rest }) := by
  simp only [step, h, turnStep]

theorem step_audio (rest : List Turn) (h : s.host.schedule = .audio :: rest) :
    step s = audioStep (s.setHost { s.host with schedule := rest }) := by
  simp only [step, h, turnStep]

theorem step_reset (rest : List Turn) (h : s.host.schedule = .reset :: rest) :
    step s = .next (resetStep (s.setHost { s.host with schedule := rest })) := by
  simp only [step, h, turnStep]

theorem step_free (h : s.host.schedule = []) : step s = freeStep s := by
  simp only [step, h]

end Sys2Proof.Machine
end

