-- ==== Sys2Proof/Tests/Slice0.lean ====
section
/-! SUPPORT. Small checks against the spec's own vectors and words, and one witness per statement with
hypotheses. -/

namespace Sys2Proof.Tests

-- one proof at a time: each kernel evaluation in flight holds a thread of its own
set_option Elab.async false

open Sys2Proof.Machine

/-- The outcome is a next state of which `p` holds. -/
def after (r : Result) (p : State → Bool) : Bool :=
  match r with
  | .next t => p t
  | .fault _ => false
  | .refused _ => false

/-- The mini build of 95_test_vectors: N = 16, FIFO_CAP 2, FIFO_BLOCK 4. -/
def mini : Build := { Build.reference with fftOrder := 4, fifoCap := 2, fifoBlock := 4 }

/-- A state after PREPARE, as far as the checks look at it: 48 kHz, MAXBLK_ACTIVE 512, bounds (0, 0, 600, 300). -/
def ready (b : Build) : State :=
  { State.resetOf b .empty with
    prepared := true, dirty := false, srActive := 0x473B8000#32, maxblkActive := 512#32
    bounds := ⟨0#32, 0#32, 0x44160000#32, 0x43960000#32⟩ }

/-- The mini build with the FFT block of 95_test_vectors V49 in FFT_OUT. -/
def shown : State :=
  let s := ready mini
  { s with an := { s.an with
      fftOutValid := true
      fftOut := Memory.load [] 0 [0xC2400000#32, 0xC1F3FF12#32, 0xC144A1FA#32, 0xC03BACD6#32, 0#32,
        0xC03BACD6#32, 0xC144A1FA#32, 0xC1F3FF12#32] } }

/-- The mini build with two whole blocks in the FIFO. -/
def filled : State :=
  let s := ready mini
  { s with an := { s.an with
      fifoCount := 2, rbCount := 12
      ring := Memory.load [] 0 [1#32, 2#32, 3#32, 4#32, 5#32, 6#32, 7#32, 8#32] } }

/-- The V20 set in the peak stage, everything else bypassed, mono (95_test_vectors V20, P2). -/
def v20 : State :=
  let s := ready .reference
  let k : Channel := { Channel.reset with
    pbyp := #v[true, false, true]
    coef := Channel.reset.coef.set 4 ⟨0x3F000000#32, 0x3E800000#32, 0x3E000000#32, 0xBF000000#32, 0x3E800000#32⟩ }
  { s with ch0 := k }

/-- Every position bypassed. -/
def passing (b : Build) (stereo : Bool) : State :=
  let k : Channel := { Channel.reset with pbyp := #v[true, true, true] }
  { ready b with ch0 := k, ch1 := k, stereoActive := stereo }

/-! WellFormed refuses each ill-formed shape. -/

theorem test_wf_refuses_stage_9 : (Instr.updateCoef 9#4 0#2 3#2).wf = false := by decide
theorem test_wf_refuses_update_without_channel : (Instr.updateCoef 8#4 0#2 0#2).wf = false := by decide
theorem test_wf_refuses_target_11 : (Instr.setBypass 11#4 1#1 3#2).wf = false := by decide
theorem test_wf_refuses_bypass_without_channel : (Instr.setBypass 10#4 1#1 0#2).wf = false := by decide
theorem test_wf_refuses_misaligned_read : (Instr.rd 0x00022#20).wf = false := by decide
theorem test_wf_refuses_misaligned_write : (Instr.wr 0x00021#20 0#32).wf = false := by decide
theorem test_wf_accepts_the_largest_fields :
    (Instr.updateCoef 8#4 3#2 3#2).wf && (Instr.setBypass 10#4 1#1 3#2).wf && (Instr.rd 0xFFFFC#20).wf = true := by
  decide

/-! Decoding, by words written out from 30_encoding R132 to R137 and 95_test_vectors V42 to V44. -/

theorem test_decode_c0 :
    [0x00000000#32, 0x00000001#32, 0x00000002#32, 0x00000003#32, 0x00000004#32, 0x00000005#32].map decodeCommand =
      [.ok .nop, .ok .prepare, .ok .tick, .ok .designPeak, .ok .designLowcut, .ok .designHighcut] := by rfl
theorem test_decode_c0_analysis :
    [0x00000008#32, 0x00000009#32, 0x0000000A#32, 0x0000000B#32, 0x0000000C#32].map decodeCommand =
      [.ok .anStep, .ok .fftGet, .ok .genPath, .ok .response, .ok .areset] := by rfl
theorem test_decode_update_coef :
    [0x00030406#32, 0x00023806#32, 0x00010406#32].map decodeCommand =
      [.ok (.updateCoef 4#4 0#2 3#2), .ok (.updateCoef 8#4 3#2 2#2), .ok (.updateCoef 4#4 0#2 1#2)] := by rfl
theorem test_decode_set_bypass :
    [0x00031107#32, 0x00011A07#32, 0x00011307#32, 0x00010107#32].map decodeCommand =
      [.ok (.setBypass 1#4 1#1 3#2), .ok (.setBypass 10#4 1#1 1#2), .ok (.setBypass 3#4 1#1 1#2),
       .ok (.setBypass 1#4 0#1 1#2)] := by rfl
theorem test_decode_rejects_commands :
    [0x0000000D#32, 0x000000FF#32, 0x00000101#32, 0x00034406#32, 0x00032107#32, 0x00070407#32].map decodeCommand =
      [.error .reservedOpcode, .error .reservedOpcode, .error .commandZeroBits, .error .commandZeroBits,
       .error .commandZeroBits, .error .commandZeroBits] := by rfl
theorem test_decode_bus :
    decodeBus 0x0040000C#32 0#32 = .ok (.rd 0x0000C#20) ∧
      decodeBus 0x0050004C#32 0x40C00000#32 = .ok (.wr 0x0004C#20 0x40C00000#32) := by decide
theorem test_decode_rejects_bus :
    [0x00200020#32, 0x00600020#32, 0x00C00020#32, 0x80400020#32].map (fun d => decodeBus d 0#32) =
      [.error .busSize, .error .busSize, .error .busZeroBits, .error .busZeroBits] := by rfl
theorem test_decode_stream :
    [0x00040001#32, 0x00000001#32, 0xFFFF0001#32, 0x00000002#32, 0x00000101#32].map decodeStream =
      [.ok (.processBlock 4#16), .ok (.processBlock 0#16), .ok (.processBlock 65535#16), .error .streamOpcode,
       .error .streamZeroBits] := by rfl
theorem test_decode_table_words :
    decodeTableWord 32 0x00000002 = some .tick ∧ decodeTableWord 32 0x00030406 = some (.updateCoef 4#4 0#2 3#2) ∧
      decodeTableWord 32 0x00400000 = some (.rd 0#20) ∧ decodeTableWord 32 0x00500000 = some (.wr 0#20 0#32) ∧
      decodeTableWord 32 0x00040001 = some (.processBlock 4#16) ∧ decodeTableWord 32 0x0000000D = none := by decide

/-! The first instruction after reset runs. -/

theorem test_first_step_command :
    after (step (State.reset.withFetchWord 32 0x00000000)) (fun t => t.cmdResult == 0x00000001#32) = true := by
  decide +kernel
theorem test_first_step_read :
    after (step (State.reset.withFetchWord 32 0x00400000)) (fun t => t.host.ctrlOut == [0x33424551#32]) = true := by
  decide +kernel
theorem test_first_step_stream :
    after (step (State.reset.withFetchWord 32 0x00020001))
      (fun t => t.fault == 0x80000004#32 && t.faultInfo == 0x00020001#32 && t.audioOp == .drain 2) = true := by
  decide +kernel

/-! Instructions, on the spec's vectors. -/

/-- V70, V7: PREPARE from reset. -/
theorem test_prepare : after (exec .prepare State.reset) (fun t =>
    t.prepared && !t.dirty && t.stereoActive && t.cmdResult == 0x00000101#32 && t.maxblkActive == 512#32 &&
    t.ch1.coef[0] == ⟨0x3F7F86CB#32, 0xBFFF86CB#32, 0x3F7F86CB#32, 0xBFFF86AE#32, 0x3F7F0DCF#32⟩ &&
    t.ch0.coef[4] == ⟨0x3F800000#32, 0xBFEE42A2#32, 0x3F60A1E8#32, 0xBFEE42A2#32, 0x3F60A1E8#32⟩) = true := by
  decide +kernel
/-- V11: a frequency at or above fs/2. -/
theorem test_prepare_domain : after (exec .prepare { State.reset with sampleRate := 0x46FA0000#32 }) (fun t =>
    t.fault == 0x80000007#32 && t.faultInfo == 0x044#32 && !t.prepared && t.srActive == 0#32) = true := by
  decide +kernel
/-- V41: an installing TICK's decision step, and the 20 install steps after it. -/
theorem test_tick : after (exec .tick { ready .reference with
      dirty := true
      params := { Params.reset with peakGainDb := 0x40C00000#32 } }) (fun t =>
    !t.dirty && t.ctrlOp.map (fun o => o.todo.length) == some 20 &&
    after (ctrlRun 20 t) (fun u => u.cmdResult == 0x00000201#32 && u.ctrlOp == none &&
      u.ch1.coef[4] == ⟨0x3F85A041#32, 0xBFF299DF#32, 0x3F5E230C#32, 0xBFF299DF#32, 0x3F69638F#32⟩)) = true := by
  decide +kernel
/-- V41: TICK before PREPARE. -/
theorem test_tick_unprepared :
    after (exec .tick State.reset) (fun t => t.cmdResult == 0x00000200#32 && t.dirty) = true := by decide +kernel
/-- V1 and V12. -/
theorem test_design_peak :
    after (exec .designPeak { ready .reference with params := { Params.reset with peakGainDb := 0x40C00000#32 } })
      (fun t => t.cmdResult == 0x00000301#32 && t.cstg[1] == .id5 &&
        t.cstg[0] == ⟨0x3F85A041#32, 0xBFF299DF#32, 0x3F5E230C#32, 0xBFF299DF#32, 0x3F69638F#32⟩) = true ∧
    after (exec .designPeak State.reset) (fun t =>
      t.fault == 0x80000004#32 && t.faultInfo == 3#32 && t.cstg[0] == .id5) = true := by decide +kernel
/-- V9: LowCut at 1000 Hz, slope index 2, 44100 Hz. -/
theorem test_design_lowcut :
    after (exec .designLowcut { ready .reference with
      srActive := 0x472C4400#32
      params := { Params.reset with lowcutFreq := 0x447A0000#32, settings := 2#32 } }) (fun t =>
        t.cmdResult == 0x00000401#32 && t.cstg[3] == .id5 &&
        t.cstg[2] == ⟨0x3F75AC9F#32, 0xBFF5AC9F#32, 0x3F75AC9F#32, 0xBFF46C5E#32, 0x3F6DD9C0#32⟩) = true := by
  decide +kernel
/-- V8: HighCut at 5000 Hz, slope index 1. -/
theorem test_design_highcut :
    after (exec .designHighcut { ready .reference with
      params := { Params.reset with highcutFreq := 0x459C4000#32, settings := 4#32 } }) (fun t =>
        t.cmdResult == 0x00000501#32 && t.cstg[2] == .id5 &&
        t.cstg[1] == ⟨0x3DAB9FC7#32, 0x3E2B9FC7#32, 0x3DAB9FC7#32, 0xBFA4B951#32, 0x3F1F4286#32⟩) = true := by
  decide +kernel
/-- R165 by hand at the largest rate: c1 is about (20 pi / fs)^2 = 3.4e-74, so b0, b1 and b2 underflow (log 23). -/
theorem test_lp_section_underflows :
    lpSection .reference 0x7F7FFFFF#32 0x41A00000#32 0 0 = ⟨0#32, 0#32, 0#32, 0xC0000000#32, 0x3F800000#32⟩ := by
  decide +kernel
/-- P2: UPDATE_COEF into the left peak; V43: STAGE 9. -/
theorem test_update_coef :
    after (exec (.wr 0x00018#20 0x00010406#32) { State.reset with
      cstg := State.reset.cstg.set 0 ⟨1#32, 2#32, 3#32, 4#32, 5#32⟩ }) (fun t =>
        t.ch0.coef[4] == ⟨1#32, 2#32, 3#32, 4#32, 5#32⟩ && t.ch1.coef[4] == .id5 &&
        t.cmdResult == 0x00000601#32) = true ∧
    after (exec (.wr 0x00018#20 0x00030906#32) State.reset) (fun t =>
      t.fault == 0x80000002#32 && t.faultInfo == 0x00030906#32) = true := by decide +kernel
/-- V42: SET_BYPASS lc0, 1, L. -/
theorem test_set_bypass :
    after (exec (.wr 0x00018#20 0x00011307#32) State.reset) (fun t =>
      t.peek Reg.chainFlags0.addr == 0xEF0#32 && t.peek Reg.chainFlags1.addr == 0xEE0#32) = true ∧
    after (exec (.setBypass 10#4 0#1 2#2) State.reset) (fun t =>
      t.ch1.flagsWord == 0x6E0#32 && t.cmdResult == 0x00000701#32) = true := by decide +kernel
/-- V61: a faulting command leaves CMD_RESULT. -/
theorem test_nop :
    after (exec .nop State.reset) (fun t => t.cmdResult == 1#32 &&
      after (exec .genPath t) (fun u => u.cmdResult == 1#32 && u.fault == 0x80000004#32)) = true := by
  decide +kernel
/-- AN_STEP: warm-up (R270), then the FFT of zeros (V47). -/
theorem test_an_step :
    after (exec .anStep { filled with an := { filled.an with rbCount := 4 } }) (fun t =>
      t.cmdResult == 0x00000801#32 && t.an.rbCount == 8 && t.an.fifoCount == 1 && t.an.rb.read 15 == 4#32) = true ∧
    after (exec .anStep { filled with an := { filled.an with ring := [] } }) (fun t =>
      t.cmdResult == 0x00000803#32 && t.an.fqCount == 1 &&
      t.an.fq.slice 0 8 == List.replicate 8 0xC2400000#32) = true := by decide +kernel
/-- V49: the FFT of a cosine on bin 4. -/
theorem test_fft_block :
    fftBlock mini (List.replicate 4 [0x3F800000#32, 0#32, 0xBF800000#32, 0#32]).flatten 0xC2400000#32 =
      [0xC2400000#32, 0xC1F3FF12#32, 0xC144A1FA#32, 0xC03BACD6#32, 0#32, 0xC03BACD6#32, 0xC144A1FA#32,
       0xC1F3FF12#32] := by decide +kernel
/-- R286. -/
theorem test_fft_get :
    after (exec .fftGet { ready mini with
      an := { Analysis.reset with fqRd := 4, fqCount := 2, fq := [(32, 7#32), (39, 9#32)] } }) (fun t =>
        t.cmdResult == 0x00000901#32 && t.an.fqRd == 0 && t.an.fqCount == 1 && t.an.fftOutValid &&
        t.an.fftOut == [(0, 7#32), (7, 9#32)]) = true := by decide +kernel
/-- V30. -/
theorem test_gen_path : after (exec .genPath shown) (fun t =>
    t.an.pathLen == 8 && t.an.pathSeq == 1#32 && t.cmdResult == 0x00000A01#32 &&
    t.peek 0x20000#20 == 0#32 && t.peek 0x20004#20 == 0x43960000#32 &&
    t.peek 0x20008#20 == 0x43D99BF0#32 && t.peek 0x2000C#20 == 0x433E9F46#32 &&
    t.peek 0x20038#20 == 0x44170F39#32) = true := by decide +kernel
/-- V35: the reset design, three points. -/
theorem test_response : after (exec .prepare { State.reset with
      respPoints := 3#32, bounds := ⟨0#32, 0#32, 0x44160000#32, 0x43960000#32⟩ }) (fun s =>
    after (exec .response s) (fun t =>
      t.cmdResult == 0x00000B01#32 && t.curve.len == 3 && t.peek 0x30000#20 == 0xC040A888#32 &&
      t.peek 0x30004#20 == 0xB98BE12D#32 && t.peek 0x40004#20 == 0x4328D075#32 && t.peek 0x3000C#20 == 0#32)) =
    true := by decide +kernel
/-- V53. -/
theorem test_areset : after (exec .areset filled) (fun t => t.an == .reset && t.cmdResult == 0x00000C01#32) = true := by
  decide +kernel
/-- V29: BLOCK_TOO_LONG; P2: a frame of the V20 set. -/
theorem test_process_block :
    after (exec (.processBlock 513#16) (ready .reference)) (fun t =>
      t.fault == 0x80000005#32 && t.faultInfo == 0x02010001#32 && t.audioOp == .drain 513) = true ∧
    (frameMono v20 0x3F800000#32).ch0.st[4] = ⟨0x3F000000#32, 0#32⟩ ∧
    (frameMono v20 0x3F800000#32).host.audioOut = [0x3F000000#32] := by decide +kernel
/-- V44. -/
theorem test_rd :
    after (exec (.rd 0x00022#20) State.reset) (fun t =>
      t.fault == 0x80000001#32 && t.faultInfo == 0x22#32 && t.host.ctrlOut == [0#32]) = true ∧
    after (exec (.rd 0x00018#20) State.reset) (fun t => t.fault == 0#32 && t.host.ctrlOut == [0#32]) = true := by
  decide +kernel
/-- V40. -/
theorem test_wr :
    after (exec (.wr 0x00050#20 0x3DCCCCCC#32) State.reset) (fun t =>
      t.fault == 0x80000003#32 && t.faultInfo == 0x50#32 && t.params.peakQ == 0x3F800000#32) = true ∧
    after (exec (.wr 0x0004C#20 0x80000000#32) State.reset) (fun t =>
      t.params.peakGainDb == 0x80000000#32 && t.fault == 0#32) = true := by decide +kernel
/-- V22, V25: biquad corners. -/
theorem test_biquad :
    biquad .reference .id5 ⟨0x3E800000#32, 0xBE000000#32⟩ 0x3F800000#32 = (0x3FA00000#32, ⟨0xBE000000#32, 0#32⟩) ∧
    (biquad .reference .id5 .zero 0x00000001#32).1 = 0x00000001#32 ∧
    (biquad { Build.reference with subnormal := .ftzDaz } .id5 .zero 0x00000001#32).1 = 0#32 := by decide +kernel

/-- R172: a binary32 design at a huge sample rate has subnormal coefficients, whatever SUBNORMAL_MODE is. -/
theorem test_design_ignores_subnormal_mode :
    let narrow := { Build.reference with designFmt := .binary32 }
    let set := lpSection { narrow with subnormal := .ftzDaz } 0x65296816#32 0x447A0000#32 0 0
    set = lpSection narrow 0x65296816#32 0x447A0000#32 0 0 ∧ set.b0 ≠ 0#32 := by decide +kernel

/-! Witnesses: states and operands that meet the hypotheses of the statements in Obligations.lean, each clause at
a boundary of its range. -/

theorem witness_decodeThenEncode :
    decode ⟨.bus, 0x00500018#32, 1#32⟩ = .ok (.wr 0x00018#20 1#32) ∧ field 0x00500018#32 20 1 = 1#1 := by decide

/-- The first illegal and the last legal value of each field of a command word. -/
theorem witness_commandWords :
    [0x0000000D#32, 0x00000100#32, 0x00034006#32, 0x00040006#32, 0x00010906#32, 0x00000806#32, 0x00032007#32,
      0x00040007#32, 0x00010B07#32, 0x00000A07#32].all (fun v =>
        after (exec (.wr 0x00018#20 v) State.reset) fun t => t.fault == 0x80000002#32 && t.faultInfo == v) = true ∧
    [0x0000000C#32, 0x00010806#32, 0x00033806#32, 0x00010A07#32, 0x00031A07#32].all (fun v =>
        after (exec (.wr 0x00018#20 v) State.reset) fun t => t.fault == 0#32) = true := by decide +kernel

theorem witness_illegalHeaders :
    [0x00000000#32, 0x00000002#32, 0x00000101#32, 0x00008001#32].all (fun h =>
      h.toNat % 256 != 1 || h.toNat / 2 ^ 8 % 256 != 0) = true ∧
    [0x00200000#32, 0x00600000#32, 0x00400001#32, 0x00400003#32, 0x00C00000#32].all (fun d =>
      d.toNat / 2 ^ 21 % 4 != 2 || d.toNat % 4 != 0 || decide (2 ^ 23 ≤ d.toNat)) = true := by decide

theorem witness_resetEvent :
    { State.reset with host := { HostSide.empty with schedule := [.reset, .ctrl] } }.host.schedule =
      .reset :: [.ctrl] := rfl

/-- A state with a fault recorded and PREPARE done, whose next turn is not a reset. -/
def faulted : State := (ready .reference).raise .badCmd 0x0000000D#32

theorem witness_sticky :
    after (step faulted) (fun _ => faulted.prepared && faulted.faulted && faulted.host.schedule == []) = true := by
  decide +kernel

theorem witness_legalBuilds :
    Build.reference.legal && mini.legal && { mini with fifoBlock := 16, fftqCap := 255 }.legal = true := by decide

theorem witness_invariant : State.reset.Inv ∧ (ready mini).Inv := by unfold State.Inv; decide +kernel

theorem witness_invariantStep : State.reset.Inv ∧ after (step State.reset) (fun _ => true) = true := by
  unfold State.Inv; decide +kernel

theorem witness_firstFault : State.reset.fault.getLsbD 31 = false ∧ faulted.fault.getLsbD 31 = true := by decide

theorem witness_faultingOperations :
    after (exec (.rd 1#20) State.reset) (fun t => t.fault != State.reset.fault) = true ∧
    after (exec (.processBlock 1#16) State.reset) (fun t => t.fault != State.reset.fault) = true ∧
    after (exec (.wr 0#20 0#32) State.reset) (fun t => t.fault != State.reset.fault) = true := by decide +kernel

theorem witness_faultRecord :
    after (exec (.rd 0x00018#20) State.reset) (fun _ => true) = true ∧
    after (exec (.rd 0x00018#20) { State.reset with fault := 0x80000001#32, faultInfo := 2#32 }) (fun _ => true) =
      true := by decide +kernel

/-- Steps of each agent that the two fault records are compared over: a stream header, a frame, a transaction. -/
theorem witness_faultRecordSteps :
    let s := { ready mini with host := { HostSide.empty with
      audioIn := [0x00000002#32], ctrlIn := [⟨0x00400018#32, 0#32⟩] } }
    let f := { ready mini with
      audioOp := .frames 1 false, host := { HostSide.empty with audioIn := [0#32] }
      ctrlOp := some ⟨0x07#8, [.bypass .c0 1#4 true]⟩ }
    ([s, f].all fun u => after (audioStep u) (fun _ => true) && after (ctrlStep u) (fun _ => true)) = true ∧
    (0x00400018#32 : Word) ≠ 0x00400010#32 ∧ (0x00400018#32 : Word) ≠ 0x00400014#32 := by decide +kernel

theorem witness_laterSteps :
    after (exec .tick { ready .reference with dirty := true }) (fun s => s.ctrlOp != none &&
      after (ctrlStep s) (fun _ => true)) = true ∧
    after (exec (.processBlock 1#16) (ready .reference)) (fun s => s.audioOp != .header &&
      after (audioStep s) (fun _ => true)) = true := by decide +kernel

/-- The first and last unmapped address of each hole, and their mapped neighbours (reference build). -/
theorem witness_holes :
    [0x00001#20, 0x00030#20, 0x0003C#20, 0x00058#20, 0x0005C#20, 0x0007C#20, 0x000F8#20, 0x00FFC#20, 0x01168#20,
      0x013FC#20, 0x01490#20, 0x0FFFC#20, 0x11000#20, 0x1FFFC#20, 0x22000#20, 0x2FFFC#20, 0x38000#20, 0x3FFFC#20,
      0x52000#20, 0xFFFFC#20].all (fun a => State.reset.mapped a == none) = true ∧
    [0x0002C#20, 0x00040#20, 0x00054#20, 0x00060#20, 0x00078#20, 0x00080#20, 0x000F4#20, 0x01000#20, 0x01164#20,
      0x01400#20, 0x0148C#20, 0x10000#20, 0x10FFC#20, 0x20000#20, 0x21FFC#20, 0x30000#20, 0x37FFC#20, 0x40000#20,
      0x4FFFC#20, 0x50000#20, 0x51FFC#20].all (fun a => State.reset.mapped a != none) = true := by decide +kernel

theorem witness_windowEntries :
    State.reset.mapped 0x010A4#20 = some (.coef .c0 8 1) ∧ State.reset.mapped 0x010B4#20 = some (.coef .c1 0 0) ∧
    State.reset.mapped 0x01420#20 = some (.delay .c0 4 0) ∧ State.reset.mapped 0x000EC#20 = some (.cstg 3 4) := by
  decide +kernel

theorem witness_readOnly : 0x0F0 ≤ (0x000F0#20 : Addr).toNat ∧ 0x0F0 ≤ (0xFFFFF#20 : Addr).toNat := by decide

/-- V40: both bounds of the ranges are accepted, the next words outside refused. -/
theorem witness_parameterRanges :
    [0x41A00000#32, 0x469C4000#32].all freqOk && [0x419FFFFF#32, 0x469C4001#32, 0x7FC00000#32].all (!freqOk ·) &&
    [0xC1C00000#32, 0x41C00000#32].all gainOk && [0xC1C00001#32, 0x41C00001#32].all (!gainOk ·) &&
    [0x3DCCCCCD#32, 0x41200000#32].all qOk && [0x3DCCCCCC#32, 0x41200001#32].all (!qOk ·) = true := by decide +kernel

theorem witness_checkedRanges :
    [1#32, 0x7F7FFFFF#32].all rateOk && [0#32, 0x7F800000#32, 0x80000001#32].all (!rateOk ·) &&
    [1#32, 65535#32].all blockOk && [0#32, 65536#32].all (!blockOk ·) &&
    [0x80000001#32, 0xFF7FFFFF#32].all floorOk && [0#32, 0x80000000#32, 0xFF800000#32].all (!floorOk ·) &&
    [1#32, 8192#32].all (pointsOk .reference) && [0#32, 8193#32].all (!pointsOk .reference ·) = true := by
  decide +kernel

theorem witness_nopHighBits : (0x00000100#32 : Word).toNat % 256 = 0 ∧ (0x00000100#32 : Word) ≠ 0#32 := by decide

/-- A frequency fails exactly from fs/2 up: 20 Hz at 40 Hz, 1000 Hz at 2000 Hz, 20000 Hz at 40000 Hz. -/
theorem witness_fullDesign :
    let p := Params.reset
    let b := Build.reference
    belowHalf b 0x42200000#32 p.lowcutFreq = false ∧
    (belowHalf b 0x44FA0000#32 p.lowcutFreq = true ∧ belowHalf b 0x44FA0000#32 p.peakFreq = false) ∧
    (belowHalf b 0x471C4000#32 p.lowcutFreq = true ∧ belowHalf b 0x471C4000#32 p.peakFreq = true ∧
      belowHalf b 0x471C4000#32 p.highcutFreq = false) ∧
    (belowHalf b 0x471C4001#32 p.lowcutFreq = true ∧ belowHalf b 0x471C4001#32 p.peakFreq = true ∧
      belowHalf b 0x471C4001#32 p.highcutFreq = true) := by decide +kernel

theorem witness_designOutcomes :
    (fullDesign .reference Params.reset 0x42200000#32).toOption.isNone = true ∧
    (fullDesign .reference Params.reset 0x473B8000#32).toOption.isSome = true := by decide +kernel

theorem witness_tick :
    State.reset.prepared = false ∧ (ready .reference).dirty = false ∧
    { ready .reference with dirty := true }.prepared = true := by decide

theorem witness_updateCoef :
    (3#2 : BitVec 2) ≠ 0#2 ∧ (8 < (9#4 : BitVec 4).toNat) ∧ (8#4 : BitVec 4).toNat ≤ 8 ∧
    after (exec (.updateCoef 8#4 3#2 3#2) State.reset) (fun t => t.ctrlOp != none) = true ∧
    after (exec (.updateCoef 8#4 3#2 2#2) State.reset) (fun t => t.ctrlOp == none) = true := by decide +kernel

theorem witness_setBypass :
    (1#2 : BitVec 2) ≠ 0#2 ∧ (10 < (11#4 : BitVec 4).toNat) ∧
    after (exec (.setBypass 10#4 0#1 3#2) State.reset) (fun t => t.ctrlOp != none) = true := by decide +kernel

/-- The three outcomes of each DESIGN command: unprepared, at fs/2, below it. -/
theorem witness_designCommands :
    let s := ready .reference
    State.reset.prepared = false ∧ s.prepared = true ∧
    ([s.params.peakFreq, s.params.lowcutFreq, s.params.highcutFreq].all fun f =>
      Fl.lt (Fl.ofWord f) (s.build.design.div (Fl.ofWord s.srActive) (Fl.nat 2))) = true ∧
    ([0x469C4000#32].all fun f =>
      Fl.lt (Fl.ofWord f) (s.build.design.div (Fl.ofWord 0x471C4000#32) (Fl.nat 2))) = false := by decide +kernel

/-- The corner case of R167: 0 dB of either sign, alpha above 0 and below 8, in binary64 with the reference MATH. -/
theorem witness_peakAtZeroDecibels :
    let b := Build.reference
    let w := b.design.div (b.design.mul (b.design.mul (Fl.nat 2) b.pi) (Fl.ofWord 0x447A0000#32)) (Fl.ofWord 0x473B8000#32)
    let alpha := b.design.div (b.fn .sin w) (b.design.mul (Fl.nat 2) (Fl.ofWord 0x3F800000#32))
    b.math = .reference ∧ b.designFmt = .binary64 ∧
    ([0#32, 0x80000000#32].all fun gdb => gdb &&& 0x7FFFFFFF#32 == 0#32) = true ∧
    Fl.le (Fl.nat 0) alpha = true ∧ Fl.le alpha (Fl.nat 8) = true := by decide +kernel

/-- Partial block one short of full; FIFO empty, one short of full and full. -/
theorem witness_tap :
    mini.legal = true ∧ { Analysis.reset with fillCount := 2 }.fifoOk mini = true ∧
    { Analysis.reset with fillCount := 3 }.fifoOk mini = true ∧
    { Analysis.reset with fillCount := 3, fifoCount := 2, fifoRd := 1 }.fifoOk mini = true := by decide +kernel

theorem witness_fifo :
    filled.an.fifoOk mini = true ∧ filled.an.fifoCount = mini.fifoCap ∧ 0 < filled.an.fifoCount ∧
    { filled.an with fifoCount := 1 }.fifoOk mini = true ∧ (1 < mini.fifoCap) ∧
    [1#32, 2#32, 3#32, 4#32].length = mini.fifoBlock := by decide +kernel

theorem witness_emptyFifo :
    Analysis.reset.fifoOk mini = true ∧ Analysis.reset.fifoCount = 0 ∧
    ∀ block ∈ [[1#32, 2#32, 3#32, 4#32], [5#32, 6#32, 7#32, 8#32], [9#32, 9#32, 9#32, 9#32]],
      block.length = mini.fifoBlock := by decide +kernel

theorem witness_rollingBuffer :
    mini.legal = true ∧ (∀ block ∈ [[1#32, 2#32, 3#32, 4#32]], block.length = mini.fifoBlock) ∧
    (11 < mini.fftSize - mini.fifoBlock) ∧ ¬ (12 < mini.fftSize - mini.fifoBlock) := by decide +kernel

/-- AN_STEP's four cases: nothing to do, warm-up, a block enqueued, a block dropped. -/
theorem witness_anStep :
    { filled with params := { filled.params with settings := 0x80#32 } }.params.settings.getLsbD 7 = true ∧
    (ready mini).an.fifoCount = 0 ∧
    filled.params.settings.getLsbD 7 = false ∧ filled.an.fifoCount ≠ 0 ∧
    (popShift mini { filled.an with rbCount := 11 }).rbCount < mini.fftSize ∧
    ¬ (popShift mini filled.an).rbCount < mini.fftSize ∧ filled.an.fqCount < mini.fftqCap ∧
    ¬ ({ filled.an with fqCount := 5 }.fqCount < mini.fftqCap) := by decide +kernel

/-- The floor range's ends; zero samples of either sign, a NaN sample, and a window of given values. -/
theorem witness_fftBins :
    (0x80000001 ≤ (0x80000001#32 : Word).toNat ∧ (0xFF7FFFFF#32 : Word).toNat ≤ 0xFF7FFFFF) ∧
    mini.fftImpl = .reference ∧
    ([0#32, 0x80000000#32].all fun w => w &&& 0x7FFFFFFF#32 == 0#32) = true ∧
    ((windowWords (.values (List.replicate 16 0x3F800000#32))).all fun w => (Fl.ofWord w).finite) = true ∧
    ([0#32, 0x7FC00000#32].any fun w => Fl.ofWord w == .nan) = true := by decide +kernel

theorem witness_fftQueue :
    { Analysis.reset with fqRd := 4, fqCount := 4 }.fftOk mini = true ∧
    (List.replicate 8 0#32).length = mini.bins ∧ 4 < mini.fftqCap := by decide +kernel

theorem witness_fftGet : (ready mini).an.fqCount = 0 ∧ { Analysis.reset with fqCount := 1 }.fqCount ≠ 0 := by decide

/-- GEN_PATH's and RESPONSE's cases: unprepared, no size, no FFT block, all well. -/
theorem witness_curves :
    State.reset.prepared = false ∧ shown.prepared = true ∧ State.reset.bounds.ok = false ∧
    shown.bounds.ok = true ∧ (ready mini).an.fftOutValid = false ∧ shown.an.fftOutValid = true := by decide +kernel

/-- Path values at, below and above the floor, a NaN, zeros of either sign with an edge Y = pi that Y + H keeps
exact, and the frequencies 20 Hz and 20000 Hz: fs = 40960 Hz, N = 2048, bins 1 and 1000. -/
theorem witness_pathCoordinates :
    let floor : Word := 0xC2400000#32
    let h : Word := 0x43960000#32
    let y : Fl := Fl.ofWord 0x40490FDB#32
    let ar := Build.reference.design
    (Fl.ofWord h).finite = true ∧ Fl.lt (Fl.nat 0) (Fl.ofWord h) = true ∧ Build.reference.designFmt = .binary64 ∧
    ([floor, 0xC2C80000#32, 0xFF800000#32].all fun v => Fl.le (Fl.ofWord v) (Fl.ofWord floor)) = true ∧
    Fl.le (Fl.ofWord 0xC23FFFFF#32) (Fl.ofWord floor) = false ∧ Fl.ofWord 0x7FC00000#32 = .nan ∧
    ([0#32, 0x80000000#32].all fun v => v &&& 0x7FFFFFFF#32 == 0#32) = true ∧ y.finite = true ∧
    Fl.le (ar.add y (Fl.ofWord h)) (y.addExact (Fl.ofWord h)) = true ∧
    Fl.le (y.addExact (Fl.ofWord h)) (ar.add y (Fl.ofWord h)) = true ∧
    ([(1, 20), (1000, 20000)].all fun p : Nat × Nat =>
      let f := Build.reference.design.div (Build.reference.design.mul (Fl.nat p.1) (Fl.ofWord 0x47200000#32))
        (Fl.nat Build.reference.fftSize)
      Fl.le f (Fl.nat p.2) && Fl.le (Fl.nat p.2) f) = true := by decide +kernel

/-- A denominator that is a zero and one that is not; and two states with the same curve though an inactive stage's
set, the delays and channel 1 differ. -/
theorem witness_responseValues :
    let s := ready mini
    let t := { s with
      ch0 := { s.ch0 with
        coef := s.ch0.coef.set 1 ⟨0#32, 1#32, 2#32, 3#32, 4#32⟩, st := s.ch0.st.set 0 ⟨1#32, 1#32⟩ }
      ch1 := { s.ch1 with pbyp := #v[true, true, true] } }
    (∀ k : Stage, t.ch0.active k = s.ch0.active k ∧ (s.ch0.active k = true → t.ch0.coef[k] = s.ch0.coef[k])) ∧
    t.ch0 ≠ s.ch0 ∧ s.prepared = true ∧ t.prepared = true ∧ s.bounds.ok = true ∧
    magH mini ⟨0x3F800000#32, 0#32, 0#32, 0xBF800000#32, 0#32⟩ (Fl.nat 0) (Fl.nat 48000) = .inf false ∧
    magH mini .id5 (Fl.nat 20) (Fl.nat 48000) ≠ .inf false := by decide +kernel

theorem witness_fullyBypassed :
    let s := passing mini true
    s.build.math = .reference ∧ s.ch0.passThrough = true ∧ s.ch1.passThrough = true ∧ s.prepared = true ∧
    s.bounds.ok = true := by decide +kernel

/-- The header's cases: unprepared, one frame too many, the longest block, an empty block. -/
theorem witness_header :
    State.reset.prepared = false ∧ (ready mini).prepared = true ∧
    (ready mini).maxblkActive.toNat < (513#16 : BitVec 16).toNat ∧
    (512#16 : BitVec 16).toNat ≤ (ready mini).maxblkActive.toNat ∧
    (0#16 : BitVec 16).toNat ≤ (ready mini).maxblkActive.toNat := by decide

theorem witness_refusedBlock :
    let words := [1#32, 2#32]
    let s := { ready mini with
      audioOp := AudioOp.drain 2, host := { HostSide.empty with audioIn := [1#32, 2#32, 3#32] } }
    words ≠ [] ∧ s.audioOp = .drain words.length ∧ s.host.audioIn = words ++ [3#32] := by decide

/-- Finite operands at the ends of the range, a sum that overflows and one that does not, a sum that is zero, a zero
divisor of a zero and of another word, infinities of both signs and a NaN; and both SUBNORMAL_MODEs. -/
theorem witness_arithmetic :
    Build.reference.subnormal = .ieee ∧ { Build.reference with subnormal := .ftzDaz }.subnormal = .ftzDaz ∧
    ([0x7F7FFFFF#32, 0xFF7FFFFF#32, 0x00000001#32, 0x80000000#32].all fun w => (Fl.ofWord w).finite) = true ∧
    wordFix 0x7F7FFFFF#32 + wordFix 0xFF7FFFFF#32 = 0 ∧ wordFix 0x80000000#32 = 0 ∧ wordFix 0x00000001#32 ≠ 0 ∧
    ([0x7F800000#32, 0xFF800000#32].all fun w : Word => Fl.ofWord w == .inf (w.getLsbD 31)) = true ∧
    Fl.ofWord 0x7FC00000#32 = .nan ∧
    fadd .reference 0x7F7FFFFF#32 0x7F7FFFFF#32 = 0x7F800000#32 ∧
    fadd .reference 0x7F7FFFFF#32 0x72FFFFFF#32 = 0x7F7FFFFF#32 := by decide +kernel

/-- Words R205's identity stage passes: finite, none flushed, the sums finite; in either SUBNORMAL_MODE. -/
theorem witness_identityStage :
    ([Build.reference, { Build.reference with subnormal := .ftzDaz }].all fun b =>
      ([0x3E800000#32, 0x3F800000#32, 0x80000000#32, 0x00800000#32].all fun w =>
        (Fl.ofWord w).finite && b.sample.flush (Fl.ofWord w) == Fl.ofWord w) &&
      (Fl.ofWord (fadd b 0x3F800000#32 0x3E800000#32)).finite) = true := by decide +kernel

theorem witness_blocks :
    let mono := { ready mini with
      audioOp := AudioOp.frames 2 false, host := { HostSide.empty with audioIn := [1#32, 2#32, 3#32] } }
    let stereo := { ready mini with
      audioOp := AudioOp.frames 1 true, host := { HostSide.empty with audioIn := [1#32, 2#32, 3#32] } }
    (mono.audioOp = .frames [1#32, 2#32].length false ∧ mono.host.audioIn = [1#32, 2#32] ++ [3#32]) ∧
    stereo.audioOp = .frames [(1#32, 2#32)].length true ∧
    stereo.host.audioIn = ([(1#32, 2#32)].flatMap fun p : Word × Word => [p.1, p.2]) ++ [3#32] := by decide

/-- V26: an all-bypassed stereo block of one frame. -/
theorem witness_bypassedBlock :
    let s := { passing mini true with
      host := { HostSide.empty with audioIn := [0x00010001#32, 0x7FC00001#32, 0x00000001#32] } }
    s.audioOp = .header ∧ s.prepared = true ∧ (1#16 : BitVec 16).toNat ≤ s.maxblkActive.toNat ∧
    [0x7FC00001#32, 0x00000001#32].length = (1#16 : BitVec 16).toNat * frameWords s.stereoActive ∧
    s.host.audioIn = ((1#16 : BitVec 16) ++ 0x0001#16) :: ([0x7FC00001#32, 0x00000001#32] ++ []) ∧
    s.ch0.passThrough = true ∧ s.ch1.passThrough = true ∧
    after (audioRun 2 s) (fun t => t.host.audioOut == [0x7FC00001#32, 0x00000001#32]) = true := by decide +kernel

theorem witness_inactiveStage :
    Channel.reset.active 1 = false ∧ Channel.reset.active 0 = true ∧
    (passing mini true).ch0.active 0 = false := by decide

theorem witness_audioSteps :
    after (audioStep { ready mini with
      audioOp := .frames 1 false, host := { HostSide.empty with audioIn := [0#32] } }) (fun t =>
        t.audioOp == .header && t.host.audioOut.length == 1) = true := by decide +kernel

/-- A frame that completes a block with room in the FIFO, one that completes a block without, and one that does
not complete a block. -/
theorem witness_tapSteps :
    let at_ := fun fill count => { ready mini with
      audioOp := AudioOp.frames 1 false, host := { HostSide.empty with audioIn := [0x3F800000#32] }
      an := { Analysis.reset with fillCount := fill, fifoCount := count } }
    (after (audioStep (at_ 3 1)) fun t => t.an.fifoCount == 2 && t.an.fillCount == 0) = true ∧
    (after (audioStep (at_ 3 2)) fun t => t.an.fifoCount == 2 && t.an.fillCount == 0) = true ∧
    (after (audioStep (at_ 2 1)) fun t => t.an.fifoCount == 1 && t.an.fillCount == 3) = true := by decide +kernel

theorem witness_ctrlInstructions :
    Instr.nop.lane ≠ .stream ∧ (Instr.rd 0#20).lane ≠ .stream ∧ (Instr.wr 0x00018#20 1#32).lane ≠ .stream ∧
    after (exec (.wr 0x00018#20 1#32) State.reset) (fun t => t.prepared) = true := by decide +kernel

theorem witness_dirty :
    after (exec .prepare State.reset) (fun t => !t.dirty) = true ∧ State.reset.dirty = true ∧
    after (exec (.wr 0x00054#20 0#32) (ready mini)) (fun t => t.dirty) = true := by decide +kernel

theorem witness_latched :
    after (exec .tick { ready mini with dirty := true }) (fun t => t.prepared && t.srActive == 0x473B8000#32) = true ∧
    Instr.tick ≠ .prepare ∧ Instr.tick ≠ .wr 0x00018#20 0x00000001#32 := by decide +kernel

/-- One turn of each agent with a word to decode. -/
theorem witness_step :
    let c := { State.reset with host := { HostSide.empty with
      schedule := [.ctrl], ctrlIn := [⟨0x00500018#32, 0#32⟩] } }
    let a := { State.reset with host := { HostSide.empty with schedule := [.audio], audioIn := [0x00000001#32] } }
    (c.host.schedule = .ctrl :: [] ∧ c.ctrlOp = none ∧ c.host.ctrlIn = ⟨0x00500018#32, 0#32⟩ :: [] ∧
      decode ⟨.bus, 0x00500018#32, 0#32⟩ = .ok (.wr 0x00018#20 0#32)) ∧
    a.host.schedule = .audio :: [] ∧ a.audioOp = .header ∧ a.host.audioIn = 0x00000001#32 :: [] ∧
      decode ⟨.stream, 0x00000001#32, 0#32⟩ = .ok (.processBlock 0#16) := by
  refine ⟨⟨rfl, rfl, rfl, rfl⟩, rfl, rfl, rfl, rfl⟩

/-- A step of each agent that meets an illegal word: a header, a read's and a write's descriptor. -/
theorem witness_illegalSteps :
    let a := { State.reset with host := { HostSide.empty with audioIn := [0x00000101#32, 0x00000001#32] } }
    let c := fun d => { State.reset with host := { HostSide.empty with ctrlIn := [⟨d, 0#32⟩] } }
    (after (audioStep a) fun t => t.host.audioIn == [0x00000001#32] && t.audioOp == .header &&
      t.host.audioOut == [] && t.fault == 0x80000008#32 && t.faultInfo == 0x00000101#32) = true ∧
    ([0x00400001#32, 0x00500001#32].all fun d => after (ctrlStep (c d)) fun t =>
      t.host.ctrlIn == [] && t.fault == 0x80000001#32 && t.faultInfo == 0x00000001#32) = true := by decide +kernel

theorem witness_idle :
    State.reset.host.ctrlIn = [] ∧ State.reset.ctrlOp = none ∧ State.reset.host.audioIn = [] ∧
    State.reset.host.schedule = [] := by decide

/-- With no turn given: only CTRL can move, only AUDIO can, both can; a stereo frame of which one word came waits. -/
theorem witness_freeTurns :
    let s := { ready mini with audioOp := AudioOp.frames 1 true }
    let with_ := fun ctrlIn audioIn => { s with host := { HostSide.empty with ctrlIn := ctrlIn, audioIn := audioIn } }
    let d : Transaction := ⟨0x00400000#32, 0#32⟩
    ((with_ [d] [0#32]).ctrlReady = true ∧ (with_ [d] [0#32]).audioReady = false) ∧
    ((with_ [] [0#32, 0#32]).ctrlReady = false ∧ (with_ [] [0#32, 0#32]).audioReady = true) ∧
    (with_ [d] [0#32, 0#32]).ctrlReady = true ∧ (with_ [d] [0#32, 0#32]).audioReady = true := by decide +kernel

/-- Operations in progress: one and two install steps left, a mono and a stereo frame, a word of a refused block;
and turns of one agent before another's. -/
theorem witness_operations :
    let i : Install := .bypass .c0 1#4 true
    let s := fun todo op words => { ready mini with
      ctrlOp := some ⟨0x07#8, todo⟩, audioOp := op
      host := { HostSide.empty with
        audioIn := words, schedule := List.replicate 2 .ctrl ++ [Turn.audio] } }
    (after (ctrlRun 2 (s [i, i] .header [])) fun t => t.ctrlOp == none && t.cmdResult == 0x00000701#32) = true ∧
    (after (stepRun 2 (s [i, i] .header [])) fun t => t.ctrlOp == none && t.host.schedule == [.audio]) = true ∧
    (after (audioStep (s [i] (.frames 1 false) [1#32])) fun t => t.audioOp == .header) = true ∧
    (after (audioStep (s [i] (.frames 2 true) [1#32, 2#32])) fun t => t.audioOp == .frames 1 true) = true ∧
    (after (audioStep (s [i] (.drain 1) [1#32])) fun t => t.host.audioOut.length == 1) = true ∧
    (after (audioStep (s [i] (.frames 1 true) [1#32])) fun t => t.audioOp == .frames 1 true) = true := by decide +kernel

/-- The host's `LDCOEF` (30_encoding R144), performed. -/
theorem test_loadCoef :
    after (ctrlRun 5 (State.reset.issueAll (loadCoef 3 ⟨1#32, 2#32, 3#32, 4#32, 5#32⟩))) (fun t =>
      t.cstg[3] == ⟨1#32, 2#32, 3#32, 4#32, 5#32⟩ && t.cstg[2] == .id5) = true := by decide +kernel

end Sys2Proof.Tests
end

section
/-! PROOFS. The four binary32 operations (00_scope R13, 41_filter_chain R201): a rounded quotient is the nearest word,
a sum has the sign of the exact sum, and SUBNORMAL_MODE acts on words as on values. -/

namespace Sys2Proof

open Sys2Proof.Machine

/-! Values up to their representation. -/

/-- The same NaN, infinity, or sign and magnitude: `1 * 2^1` and `2 * 2^0` differ as `Fl`, not as numbers. -/
inductive Fl.SameValue : Fl → Fl → Prop
  | nan : SameValue .nan .nan
  | inf (s : Bool) : SameValue (.inf s) (.inf s)
  | fin (s : Bool) {m n : Nat} {e f : Int} (h : (m : ℚ) * 2 ^ e = n * 2 ^ f) : SameValue (.fin s m e) (.fin s n f)

theorem Fl.SameValue.refl (x : Fl) : x.SameValue x := by
  cases x with
  | nan => exact .nan
  | inf s => exact .inf s
  | fin s m e => exact .fin s rfl

theorem Fl.SameValue.symm {x y : Fl} (h : x.SameValue y) : y.SameValue x := by
  cases h with
  | nan => exact .nan
  | inf s => exact .inf s
  | fin s h => exact .fin s h.symm

theorem Fl.SameValue.trans {x y z : Fl} (h : x.SameValue y) (h' : y.SameValue z) : x.SameValue z := by
  cases h with
  | nan => exact h'
  | inf s => exact h'
  | fin s h =>
    cases h' with
    | fin _ h' => exact .fin s (h.trans h')

theorem Fl.SameValue.neg {x y : Fl} (h : x.SameValue y) : x.neg.SameValue y.neg := by
  cases h with
  | nan => exact .nan
  | inf s => exact .inf _
  | fin s h => exact .fin _ h

theorem Fl.SameValue.eq_nan {x y : Fl} (h : x.SameValue y) (hx : x = .nan) : y = .nan := by
  subst hx
  cases h
  rfl

theorem Fl.Is.sameValue {x : Fl} {s : Bool} {m : Nat} {e : Int} (h : x.Is s ((m : ℚ) * 2 ^ e)) :
    (Fl.fin s m e).SameValue x := by
  obtain ⟨n, f, rfl, hv⟩ := h
  exact .fin s hv.symm

theorem mul_zpow_eq_zero_iff (m : Nat) (e : Int) : (m : ℚ) * 2 ^ e = 0 ↔ m = 0 := by
  simp [(two_zpow_pos e).ne']

theorem eq_zero_iff_of_value_eq {m n : Nat} {e f : Int} (h : (m : ℚ) * 2 ^ e = n * 2 ^ f) : m = 0 ↔ n = 0 := by
  rw [← mul_zpow_eq_zero_iff m e, h, mul_zpow_eq_zero_iff]

/-! Rounding and packing. -/

theorem Fl.SameValue.round_eq {x y : Fl} (h : x.SameValue y) (fmt : Fmt) : x.round fmt = y.round fmt := by
  cases h with
  | nan => rfl
  | inf s => rfl
  | fin s h => exact roundRat_congr fmt s (by decide) (by decide) (by simpa using h)

/-- Only the bits of a NaN depend on the operation and its operands. -/
theorem Fl.bits_key (k k' : List Word) {x : Fl} (h : x ≠ .nan) : x.bits k = x.bits k' := by
  cases x with
  | nan => exact absurd rfl h
  | inf s => rfl
  | fin s m e => rfl

theorem packFl_ne_nan (fmt : Fmt) (s : Bool) (m : Nat) (u : Int) : packFl fmt s m u ≠ .nan := by
  unfold packFl
  split
  · simp
  · split <;> simp

theorem roundRat_ne_nan (fmt : Fmt) (s : Bool) (num den : Nat) (e : Int) (hd : den ≠ 0) :
    roundRat fmt s num den e ≠ .nan := by
  by_cases hn : num = 0
  · subst hn
    simp [roundRat_zero]
  · obtain ⟨m, u, -, h⟩ := roundRat_rounds fmt s num den e hn hd
    rw [h]
    exact packFl_ne_nan fmt s m u

theorem Fl.round_ne_nan (fmt : Fmt) {x : Fl} (h : x ≠ .nan) : x.round fmt ≠ .nan := by
  cases x with
  | nan => exact absurd rfl h
  | inf s => simp [Fl.round]
  | fin s m e => exact roundRat_ne_nan fmt s m 1 e (by decide)

theorem Fl.SameValue.toWord_eq {x y : Fl} (h : x.SameValue y) (hx : x ≠ .nan) (k k' : List Word) :
    x.toWord k = y.toWord k' := by
  unfold Fl.toWord
  rw [← h.round_eq]
  exact Fl.bits_key k k' (Fl.round_ne_nan _ hx)

theorem ofWord_toWord_nan (key : List Word) : Fl.ofWord (Fl.toWord key .nan) = .nan := ofWord_quietNan _

theorem ofWord_toWord_inf (key : List Word) (s : Bool) : Fl.ofWord (Fl.toWord key (.inf s)) = .inf s := ofWord_inf s

theorem ofWord_toWord_zero (key : List Word) (s : Bool) : Fl.ofWord (Fl.toWord key (.fin s 0 0)) = .fin s 0 (-149) := by
  rw [toWord_zero]
  exact ofWord_zeroWord s

theorem nan_sameValue_ofWord (key : List Word) : Fl.nan.SameValue (Fl.ofWord (Fl.toWord key .nan)) := by
  rw [ofWord_toWord_nan]
  exact .nan

theorem inf_sameValue_ofWord (key : List Word) (s : Bool) :
    (Fl.inf s).SameValue (Fl.ofWord (Fl.toWord key (.inf s))) := by
  rw [ofWord_toWord_inf]
  exact .inf s

theorem zero_sameValue_ofWord (key : List Word) (s : Bool) :
    (Fl.fin s 0 0).SameValue (Fl.ofWord (Fl.toWord key (.fin s 0 0))) := by
  rw [ofWord_toWord_zero]
  exact .fin s (by simp)

theorem eq_of_ofWord_eq_inf {w : Word} {s : Bool} (h : Fl.ofWord w = .inf s) : w = packWord s 255 0 := by
  have hw := packWord_of w
  unfold Fl.ofWord at h
  dsimp only at h
  split at h
  next hE =>
    split at h
    next hF =>
      cases h
      rw [hE, hF] at hw
      exact hw.symm
    next => cases h
  next => split at h <;> cases h

/-- `rnd32` gives back a word that is not a NaN. -/
theorem toWord_ofWord_of_ne_nan (key : List Word) {w : Word} (h : Fl.ofWord w ≠ .nan) :
    (Fl.ofWord w).toWord key = w := by
  cases hw : Fl.ofWord w with
  | nan => exact absurd hw h
  | inf s => exact (eq_of_ofWord_eq_inf hw).symm
  | fin s m e =>
    rw [← hw]
    exact toWord_ofWord key w (by rw [hw]; rfl)

/-- The word of a rounded value holds that value. -/
theorem packFl_sameValue_ofWord_bits (key : List Word) (s : Bool) {v : ℚ} {m : Nat} {u : Int}
    (h : Rounds .binary32 v m u) :
    (packFl .binary32 s m u).SameValue (Fl.ofWord ((packFl .binary32 s m u).bits key)) := by
  have hb := ofWord_bits_packFl key s h
  unfold packFl at hb ⊢
  by_cases h0 : m = 0
  · rw [if_pos h0]
    exact Fl.Is.sameValue (by simpa [Fl.bits] using is_packWord_zero s)
  rw [if_neg h0] at hb ⊢
  by_cases hov : Fmt.binary32.emax < (m.log2 : Int) + u
  · rw [if_pos hov]
    exact (ofWord_inf s).symm ▸ .inf s
  · rw [if_neg hov] at hb ⊢
    rcases hb with ⟨hb, -⟩ | ⟨-, hb⟩
    · exact hb.sameValue
    · exfalso
      have hlt : (m : ℚ) * 2 ^ u < 2 ^ (128 : Int) := by
        calc (m : ℚ) * 2 ^ u < 2 ^ ((m.log2 : Int) + 1) * 2 ^ u :=
              mul_lt_mul_of_pos_right (log2_bounds m h0).2 (two_zpow_pos u)
          _ = 2 ^ ((m.log2 : Int) + 1 + u) := by rw [← zpow_add₀ (by norm_num)]
          _ ≤ 2 ^ (128 : Int) := zpow_le_zpow_right₀ (by norm_num) (by simp only [Fmt.binary32] at hov; omega)
      linarith

theorem toWord_packFl (key : List Word) (s : Bool) {v : ℚ} {m : Nat} {u : Int} (h : Rounds .binary32 v m u) :
    (packFl .binary32 s m u).toWord key = (packFl .binary32 s m u).bits key := by
  have hs := packFl_sameValue_ofWord_bits key s h
  have hn := packFl_ne_nan .binary32 s m u
  rw [hs.toWord_eq hn key key]
  exact toWord_ofWord_of_ne_nan key fun hc => hn (hs.symm.eq_nan hc)

theorem roundRat_sameValue_ofWord (key : List Word) (s : Bool) (num den : Nat) (e : Int) (hd : den ≠ 0) :
    (roundRat .binary32 s num den e).SameValue (Fl.ofWord ((roundRat .binary32 s num den e).toWord key)) := by
  by_cases hn : num = 0
  · subst hn
    rw [roundRat_zero]
    exact zero_sameValue_ofWord key s
  · obtain ⟨m, u, r, h⟩ := roundRat_rounds .binary32 s num den e hn hd
    rw [h, toWord_packFl key s r]
    exact packFl_sameValue_ofWord_bits key s r

theorem round_sameValue_ofWord (key : List Word) (x : Fl) :
    (x.round .binary32).SameValue (Fl.ofWord ((x.round .binary32).toWord key)) := by
  cases x with
  | nan => exact nan_sameValue_ofWord key
  | inf s => exact inf_sameValue_ofWord key s
  | fin s m e => exact roundRat_sameValue_ofWord key s m 1 e (by decide)

theorem divRound_sameValue_ofWord (key : List Word) (x y : Fl) :
    (Fl.divRound .binary32 x y).SameValue (Fl.ofWord ((Fl.divRound .binary32 x y).toWord key)) := by
  cases x with
  | nan => exact nan_sameValue_ofWord key
  | inf s =>
    cases y with
    | nan => exact nan_sameValue_ofWord key
    | inf t => exact nan_sameValue_ofWord key
    | fin t n f => exact inf_sameValue_ofWord key _
  | fin s m e =>
    cases y with
    | nan => exact nan_sameValue_ofWord key
    | inf t => exact zero_sameValue_ofWord key _
    | fin t n f =>
      simp only [Fl.divRound]
      split
      · split
        · exact nan_sameValue_ofWord key
        · exact inf_sameValue_ofWord key _
      next hn => exact roundRat_sameValue_ofWord key _ m n _ hn

/-! The nearest word. -/

/-- `w` is `exact / scale` units of `2^-149` rounded to nearest, ties to even, with the overflow rule. -/
def RoundsTo (w : Word) (exact scale : Int) : Prop :=
  ((Fl.ofWord w).finite = true ↔ |exact| < (2 ^ 25 - 1) * 2 ^ 252 * |scale|) ∧
  ((Fl.ofWord w).finite = false → Fl.ofWord w = .inf (w.getLsbD 31)) ∧
  ((Fl.ofWord w).finite = true → ∀ z : Word, (Fl.ofWord z).finite = true →
    |wordFix w * scale - exact| ≤ |wordFix z * scale - exact| ∧
    (|wordFix w * scale - exact| = |wordFix z * scale - exact| → wordFix z ≠ wordFix w → w.getLsbD 0 = false))

theorem abs_signed (s : Bool) {v : ℚ} (hv : 0 ≤ v) : |signed s v| = v := by
  cases s <;> simp [signed, abs_of_nonneg hv]

theorem signed_mul (s t : Bool) (v w : ℚ) : signed (s != t) (v * w) = signed s v * signed t w := by
  cases s <;> cases t <;> simp [signed]

theorem signed_div (s t : Bool) (v w : ℚ) : signed (s != t) (v / w) = signed s v / signed t w := by
  cases s <;> cases t <;> simp [signed, neg_div, div_neg]

theorem signed_zero (s : Bool) : signed s 0 = 0 := by cases s <;> simp [signed]

theorem signed_eq_zero_iff (s : Bool) (v : ℚ) : signed s v = 0 ↔ v = 0 := by cases s <;> simp [signed]

theorem signed_eq_signed (s t : Bool) (c : ℚ) : signed t c = signed s (if t = s then c else -c) := by
  cases s <;> cases t <;> simp [signed]

/-- The distance of two signed values, seen from the sign of the second. -/
theorem abs_signed_sub (s t : Bool) (c v : ℚ) :
    |signed t c - signed s v| = |(if t = s then c else -c) - v| := by
  rw [signed_eq_signed s t]
  cases s with
  | false => rfl
  | true =>
    simp only [signed, if_true]
    rw [neg_sub_neg, abs_sub_comm]

/-- A number of the other sign is no nearer either: zero lies between. -/
theorem Rounds.nearest_neg {v : ℚ} {m : Nat} {u : Int} (h : Rounds .binary32 v m u) {c : ℚ} (hc : 0 ≤ c) :
    |(m : ℚ) * 2 ^ u - v| ≤ |-c - v| ∧
      (|(m : ℚ) * 2 ^ u - v| = |-c - v| → -c ≠ m * 2 ^ u → m % 2 = 0) := by
  obtain ⟨near, tie⟩ := h.nearest (by decide) (n := 0) (k := 0) (by decide) (by decide)
  obtain ⟨⟨t, ht, -⟩, -⟩ := h
  have hv : 0 < v := (two_zpow_pos t).trans_le ht
  simp only [Nat.cast_zero, zero_mul, zero_sub, abs_neg, abs_of_pos hv] at near tie
  rw [abs_of_neg (by linarith : -c - v < 0)]
  refine ⟨by linarith, fun heq hne => ?_⟩
  have hc0 : c = 0 := by linarith
  exact tie (by linarith) (by simpa [hc0] using hne)

/-- No finite word is nearer to a value than the word of its rounding, and of two equally near the one with an even
significand is taken. `toWord_nearest` says so of multiples of a power of two, and a quotient need not be one. -/
theorem Rounds.nearest_word (key : List Word) (s : Bool) {v : ℚ} {m : Nat} {u : Int} (h : Rounds .binary32 v m u)
    {w z : Word} (hw : w = (packFl .binary32 s m u).bits key) (hf : (Fl.ofWord w).finite = true)
    (hz : (Fl.ofWord z).finite = true) :
    |(wordFix w : ℚ) - signed s v * 2 ^ (149 : Int)| ≤ |(wordFix z : ℚ) - signed s v * 2 ^ (149 : Int)| ∧
    (|(wordFix w : ℚ) - signed s v * 2 ^ (149 : Int)| = |(wordFix z : ℚ) - signed s v * 2 ^ (149 : Int)| →
      wordFix z ≠ wordFix w → w.getLsbD 0 = false) := by
  have hwv : (Fl.ofWord w).Is s (m * 2 ^ u) := by
    rcases ofWord_bits_packFl key s h with ⟨hb, -⟩ | ⟨hb, -⟩
    · rwa [← hw] at hb
    · rw [← hw] at hb
      rw [hb] at hf
      cases hf
  obtain ⟨n, k, hzv, hn, hk, -⟩ := ofWord_finite z hz
  have ew := wordFix_is hwv
  have ez := wordFix_is (w := z) ⟨n, k, hzv, rfl⟩
  set t := z.getLsbD 31
  have hk149 := two_zpow_pos 149
  have hdist : ∀ r c, |signed r c * 2 ^ (149 : Int) - signed s v * 2 ^ (149 : Int)| =
      |(if r = s then c else -c) - v| * 2 ^ (149 : Int) := by
    intro r c
    rw [← sub_mul, abs_mul, abs_of_pos hk149, abs_signed_sub]
  obtain ⟨near, tie⟩ : |(m : ℚ) * 2 ^ u - v| ≤ |(if t = s then (n : ℚ) * 2 ^ k else -(n * 2 ^ k)) - v| ∧
      (|(m : ℚ) * 2 ^ u - v| = |(if t = s then (n : ℚ) * 2 ^ k else -(n * 2 ^ k)) - v| →
        (if t = s then (n : ℚ) * 2 ^ k else -(n * 2 ^ k)) ≠ m * 2 ^ u → m % 2 = 0) := by
    split
    · exact h.nearest (by decide) hn hk
    · exact h.nearest_neg (by positivity)
  rw [ew, ez, hdist, hdist, if_pos rfl, mul_le_mul_iff_left₀ hk149, mul_left_inj' hk149.ne']
  refine ⟨near, fun heq hne => ?_⟩
  have hev : m % 2 = 0 := by
    refine tie heq fun hc => hne ?_
    have hzw : signed t ((n : ℚ) * 2 ^ k) = signed s (m * 2 ^ u) := by rw [signed_eq_signed s t, hc]
    have : (wordFix z : ℚ) = wordFix w := by rw [ew, ez, hzw]
    exact_mod_cast this
  rw [hw] at hf ⊢
  exact bits_lsb key s h hev hf

theorem bits_packFl_sign (key : List Word) (s : Bool) (m : Nat) (u : Int) :
    ((packFl .binary32 s m u).bits key).getLsbD 31 = s := by
  unfold packFl
  split
  · exact packWord_sign s 0 0
  · split
    · exact packWord_sign s 255 0
    · simp only [Fl.bits]
      split_ifs <;> exact packWord_sign _ _ _

/-- From the signed value, a rational, to the ratio of integers that stands for it. -/
theorem roundsTo_of_value {w : Word} {V : ℚ} {exact scale : Int} (hs : scale ≠ 0) (hV : (exact : ℚ) = V * scale)
    (hfin : (Fl.ofWord w).finite = true ↔ |V| < (2 ^ 25 - 1) * 2 ^ 252)
    (hinf : (Fl.ofWord w).finite = false → Fl.ofWord w = .inf (w.getLsbD 31))
    (hnear : (Fl.ofWord w).finite = true → ∀ z : Word, (Fl.ofWord z).finite = true →
      |(wordFix w : ℚ) - V| ≤ |(wordFix z : ℚ) - V| ∧
      (|(wordFix w : ℚ) - V| = |(wordFix z : ℚ) - V| → wordFix z ≠ wordFix w → w.getLsbD 0 = false)) :
    RoundsTo w exact scale := by
  have hpos : (0 : ℚ) < |(scale : ℚ)| := abs_pos.2 (by exact_mod_cast hs)
  have hdist : ∀ i : Int, ((|i * scale - exact| : Int) : ℚ) = |(i : ℚ) - V| * |(scale : ℚ)| := by
    intro i
    push_cast
    rw [hV, ← sub_mul, abs_mul]
  refine ⟨?_, hinf, fun hf z hz => ?_⟩
  · rw [hfin, ← Int.cast_lt (R := ℚ)]
    rw [Int.cast_mul, Int.cast_abs, Int.cast_abs, hV, abs_mul, mul_lt_mul_iff_left₀ hpos]
    norm_num
  · rw [← Int.cast_le (R := ℚ), ← Int.cast_inj (α := ℚ), hdist, hdist, mul_le_mul_iff_left₀ hpos,
      mul_left_inj' hpos.ne']
    exact hnear hf z hz

theorem overflowThreshold_units : overflowThreshold * 2 ^ (149 : Int) = (2 ^ 25 - 1) * 2 ^ 252 := by
  unfold overflowThreshold
  norm_num

/-- `exact / scale`, in units of `2^-149`, rounded and packed. -/
theorem roundsTo_roundRat (key : List Word) (s : Bool) (num den : Nat) (e : Int) (hd : den ≠ 0) {exact scale : Int}
    (hs : scale ≠ 0) (h : (exact : ℚ) = signed s ((num : ℚ) / den * 2 ^ e) * 2 ^ (149 : Int) * scale) :
    RoundsTo ((roundRat .binary32 s num den e).toWord key) exact scale ∧
      ((roundRat .binary32 s num den e).toWord key).getLsbD 31 = s := by
  have hunit : ∀ R : ℚ, |R * 2 ^ (149 : Int)| < (2 ^ 25 - 1) * 2 ^ 252 ↔ |R| < overflowThreshold := by
    intro R
    rw [← overflowThreshold_units, abs_mul, abs_of_pos (two_zpow_pos 149), mul_lt_mul_iff_left₀ (two_zpow_pos 149)]
  by_cases hn : num = 0
  · subst hn
    rw [roundRat_zero]
    have hfin : (Fl.ofWord ((Fl.fin s 0 0).toWord key)).finite = true := by
      rw [ofWord_toWord_zero]
      rfl
    obtain ⟨hiff, hnear⟩ := toWord_nearest key s 0 0
    refine ⟨roundsTo_of_value hs h ?_ (fun hc => absurd hfin (by simp [hc])) ?_, ?_⟩
    · rw [hunit]; simpa using hiff
    · simpa using hnear
    · rw [toWord_zero]; exact packWord_sign s 0 0
  · obtain ⟨m, u, r, hr⟩ := roundRat_rounds .binary32 s num den e hn hd
    rw [hr, toWord_packFl key s r]
    have hsign := bits_packFl_sign key s m u
    refine ⟨roundsTo_of_value hs h ?_ (fun hc => ?_) fun hf z hz => r.nearest_word key s rfl hf hz, hsign⟩
    · rw [hunit, abs_signed s (by positivity), ← rounds_finite_iff r]
      rcases ofWord_bits_packFl key s r with ⟨⟨a, c, hb, -⟩, hlt⟩ | ⟨hb, hge⟩
      · exact ⟨fun _ => hlt, fun _ => by rw [hb]; rfl⟩
      · rw [hb]
        exact ⟨nofun, fun hc => absurd hc hge.not_gt⟩
    · rw [hsign]
      rcases ofWord_bits_packFl key s r with ⟨⟨a, c, hb, -⟩, -⟩ | ⟨hb, -⟩
      · rw [hb] at hc; cases hc
      · exact hb

/-- The same for a value that is a multiple of a power of two, as sums and products are. -/
theorem roundsTo_toWord (key : List Word) (s : Bool) (m : Nat) (e : Int) {exact scale : Int} (hs : scale ≠ 0)
    (h : (exact : ℚ) = signed s ((m : ℚ) * 2 ^ e) * 2 ^ (149 : Int) * scale) :
    RoundsTo ((Fl.fin s m e).toWord key) exact scale ∧ ((Fl.fin s m e).toWord key).getLsbD 31 = s := by
  rw [← toWord_round]
  exact roundsTo_roundRat key s m 1 e (by decide) hs (by simpa using h)

/-! The exact sum. -/

/-- The sign of an exact sum `V` of summands of signs `s` and `t`. -/
def sumSign (s t : Bool) (V : ℚ) : Bool := if V = 0 then s && t else decide (V < 0)

theorem eq_decide_signed_neg (s : Bool) {v : ℚ} (hv : 0 ≤ v) (h : signed s v ≠ 0) : s = decide (signed s v < 0) := by
  cases s with
  | false => simpa [signed] using hv
  | true =>
    have hpos : v ≠ 0 := by simpa [signed] using h
    simpa [signed] using lt_of_le_of_ne hv hpos.symm

theorem addExact_fin (s t : Bool) (m n : Nat) (e f : Int) :
    ∃ m' e', Fl.addExact (.fin s m e) (.fin t n f) =
        .fin (sumSign s t (signed s ((m : ℚ) * 2 ^ e) + signed t ((n : ℚ) * 2 ^ f))) m' e' ∧
      (m' : ℚ) * 2 ^ e' = |signed s ((m : ℚ) * 2 ^ e) + signed t ((n : ℚ) * 2 ^ f)| := by
  set V := signed s ((m : ℚ) * 2 ^ e) + signed t ((n : ℚ) * 2 ^ f) with hVdef
  by_cases hV : V = 0
  · refine ⟨0, 0, ?_, by simp [hV]⟩
    have hsum : scaled s m e (min e f) + scaled t n f (min e f) = 0 := by
      rw [← Int.cast_inj (α := ℚ)]
      push_cast
      rw [scaled_signed _ _ _ _ (min_le_left _ _), scaled_signed _ _ _ _ (min_le_right _ _), ← add_div, ← hVdef, hV,
        zero_div]
    have hsign : (s && t && m == 0 && n == 0) = (s && t) := by
      cases s <;> cases t <;> simp only [Bool.false_and, Bool.and_false, Bool.true_and]
      have hm : (0 : ℚ) ≤ (m : ℚ) * 2 ^ e := by positivity
      have hn : (0 : ℚ) ≤ (n : ℚ) * 2 ^ f := by positivity
      simp only [signed, if_true] at hVdef
      have hm0 := (mul_zpow_eq_zero_iff m e).1 (by linarith)
      have hn0 := (mul_zpow_eq_zero_iff n f).1 (by linarith)
      simp [hm0, hn0]
    simp only [Fl.addExact, hsum, Fl.ofInt, if_true, hsign, sumSign, if_pos hV]
  · obtain ⟨s', m', e', h, hval⟩ := addExact_value s t m n e f
    rw [← hVdef] at hval
    have hnn : (0 : ℚ) ≤ (m' : ℚ) * 2 ^ e' := by positivity
    have hs' := eq_decide_signed_neg s' hnn (by rwa [hval])
    refine ⟨m', e', ?_, by rw [← hval, abs_signed s' hnn]⟩
    rw [h, sumSign, if_neg hV, ← hval, ← hs']

theorem signed_sumSign_abs (s t : Bool) (V : ℚ) : signed (sumSign s t V) |V| = V := by
  unfold sumSign
  split
  next hV => rw [hV, abs_zero, signed_zero]
  next hV =>
    rcases lt_or_ge V 0 with h | h
    · simp [signed, h, abs_of_neg h]
    · simp [signed, h.not_gt, abs_of_nonneg h]

/-- The sign of the exact sum, read off its multiple of `2^-149`. -/
theorem sumSign_units (s t : Bool) {V : ℚ} {sum : Int} (h : (sum : ℚ) = V * 2 ^ (149 : Int)) :
    sumSign s t V = if sum = 0 then s && t else decide (sum < 0) := by
  have hp := two_zpow_pos 149
  have h0 : V = 0 ↔ sum = 0 := by
    rw [← Int.cast_eq_zero (α := ℚ), h, mul_eq_zero, or_iff_left hp.ne']
  have hneg : V < 0 ↔ sum < 0 := by
    rw [← Int.cast_lt_zero (R := ℚ), h, mul_neg_iff, and_iff_left hp, or_iff_right (fun hc => hp.not_gt hc.2)]
  simp only [sumSign, h0, hneg]

/-- The rounded sum of two finite values, `sum` units of `2^-149`. -/
theorem roundsTo_addExact (key : List Word) (s t : Bool) (m n : Nat) (e f : Int) {sum : Int}
    (h : (sum : ℚ) = (signed s ((m : ℚ) * 2 ^ e) + signed t ((n : ℚ) * 2 ^ f)) * 2 ^ (149 : Int)) :
    RoundsTo ((Fl.addExact (.fin s m e) (.fin t n f)).toWord key) sum 1 ∧
      ((Fl.addExact (.fin s m e) (.fin t n f)).toWord key).getLsbD 31 =
        if sum = 0 then s && t else decide (sum < 0) := by
  obtain ⟨m', e', hsum, hval⟩ := addExact_fin s t m n e f
  rw [hsum, ← sumSign_units s t h]
  refine roundsTo_toWord key _ m' e' one_ne_zero ?_
  rw [hval, signed_sumSign_abs, h]
  simp

/-! The operations respect values. -/

theorem Fl.SameValue.addExact {x x' y y' : Fl} (hx : x.SameValue x') (hy : y.SameValue y') :
    (Fl.addExact x y).SameValue (Fl.addExact x' y') := by
  cases hx with
  | nan => cases hy <;> exact .nan
  | inf s => cases hy <;> exact .refl _
  | fin s hx =>
    cases hy with
    | nan => exact .nan
    | inf t => exact .inf t
    | fin t hy =>
      rename_i m m' e e' n n' f f'
      obtain ⟨a, i, h, hv⟩ := addExact_fin s t m n e f
      obtain ⟨a', i', h', hv'⟩ := addExact_fin s t m' n' e' f'
      rw [← hx, ← hy] at h' hv'
      rw [h, h']
      exact .fin _ (hv.trans hv'.symm)

theorem Fl.SameValue.mulExact {x x' y y' : Fl} (hx : x.SameValue x') (hy : y.SameValue y') :
    (Fl.mulExact x y).SameValue (Fl.mulExact x' y') := by
  cases hx with
  | nan => cases hy <;> exact .nan
  | inf s =>
    cases hy with
    | nan => exact .nan
    | inf t => exact .inf _
    | fin t hy =>
      simp only [Fl.mulExact, eq_zero_iff_of_value_eq hy]
      exact .refl _
  | fin s hx =>
    cases hy with
    | nan => exact .nan
    | inf t =>
      simp only [Fl.mulExact, eq_zero_iff_of_value_eq hx]
      exact .refl _
    | fin t hy =>
      refine .fin _ ?_
      push_cast
      rw [zpow_add₀ two_ne_zero, zpow_add₀ two_ne_zero, mul_mul_mul_comm, hx, hy, mul_mul_mul_comm]

theorem Fl.SameValue.divRound {x x' y y' : Fl} (hx : x.SameValue x') (hy : y.SameValue y') (fmt : Fmt) :
    Fl.divRound fmt x y = Fl.divRound fmt x' y' := by
  cases hx with
  | nan => cases hy <;> rfl
  | inf s => cases hy <;> rfl
  | fin s hx =>
    cases hy with
    | nan => rfl
    | inf t => rfl
    | fin t hy =>
      rename_i m m' e e' n n' f f'
      simp only [Fl.divRound, eq_zero_iff_of_value_eq hx, eq_zero_iff_of_value_eq hy]
      split
      · rfl
      next hn =>
        refine roundRat_congr fmt _ (mt (eq_zero_iff_of_value_eq hy).1 hn) hn ?_
        rw [zpow_sub₀ two_ne_zero, zpow_sub₀ two_ne_zero, div_mul_div_comm, div_mul_div_comm, hx, hy]

/-! SUBNORMAL_MODE on words. -/

theorem Arith.flush_neg (a : Arith) (x : Fl) : a.flush x.neg = (a.flush x).neg := by
  have h : x.neg.subnormal a.fmt = x.subnormal a.fmt := by cases x <;> rfl
  unfold Arith.flush
  rw [h]
  split
  · cases x <;> rfl
  · rfl

/-- A word, or the zero of its sign where it is a subnormal. -/
def zeroSubnormal (w : Word) : Word := if w.toNat / 2 ^ 23 % 256 = 0 then w &&& 0x80000000#32 else w

theorem packWord_and_sign (s : Bool) (ef frac : Nat) : packWord s ef frac &&& 0x80000000#32 = zeroWord s := by
  rw [show (0x80000000#32 : Word) = BitVec.twoPow 32 31 by decide, BitVec.and_twoPow, packWord_sign]
  cases s <;> rfl

theorem packWord_expField (s : Bool) (ef frac : Nat) : (packWord s ef frac).toNat / 2 ^ 23 % 256 = ef % 256 := by
  have h := congrArg BitVec.toNat (packWord_exp s ef frac)
  rwa [BitVec.extractLsb'_toNat, Nat.shiftRight_eq_div_pow, BitVec.toNat_ofNat] at h

theorem zeroSubnormal_packWord (s : Bool) (ef frac : Nat) (h : ef < 256) :
    zeroSubnormal (packWord s ef frac) = if ef = 0 then zeroWord s else packWord s ef frac := by
  unfold zeroSubnormal
  rw [packWord_expField, packWord_and_sign, Nat.mod_eq_of_lt h]

/-- What FTZ_DAZ flushes: nonzero values below the normal range. -/
theorem flush_small {b : Build} (hb : b.subnormal = .ftzDaz) (s : Bool) {m : Nat} {e : Int}
    (h : ¬(m = 0 ∨ (2 : ℚ) ^ (-126 : Int) ≤ (m : ℚ) * 2 ^ e)) : b.sample.flush (.fin s m e) = .fin s 0 0 := by
  have hcases : b.sample.flush (.fin s m e) = .fin s 0 0 ∨ b.sample.flush (.fin s m e) = .fin s m e := by
    unfold Arith.flush
    split
    · exact .inl rfl
    · exact .inr rfl
  exact hcases.resolve_right fun hc => h (normal_of_flush b s m e hb hc)

theorem flush_nan (b : Build) : b.sample.flush .nan = .nan := by simp [Arith.flush, Fl.subnormal]

theorem flush_inf (b : Build) (s : Bool) : b.sample.flush (.inf s) = .inf s := by simp [Arith.flush, Fl.subnormal]

theorem Fl.SameValue.flush {b : Build} (hb : b.subnormal = .ftzDaz) {x y : Fl} (h : x.SameValue y) :
    (b.sample.flush x).SameValue (b.sample.flush y) := by
  cases h with
  | nan => exact .refl _
  | inf s => exact .refl _
  | fin s h =>
    rename_i m n e f
    by_cases hm : m = 0 ∨ (2 : ℚ) ^ (-126 : Int) ≤ (m : ℚ) * 2 ^ e
    · have hn := hm
      rw [eq_zero_iff_of_value_eq h, h] at hn
      rw [flush_normal b s m e hm, flush_normal b s n f hn]
      exact .fin s h
    · have hn := hm
      rw [eq_zero_iff_of_value_eq h, h] at hn
      rw [flush_small hb s hm, flush_small hb s hn]
      exact .refl _

theorem ofWord_packWord_max (s : Bool) (frac : Nat) :
    Fl.ofWord (packWord s 255 frac) = .inf s ∨ Fl.ofWord (packWord s 255 frac) = .nan := by
  unfold Fl.ofWord
  rw [packWord_sign, packWord_exp]
  dsimp only
  rw [if_pos (by decide)]
  split
  · exact .inl rfl
  · exact .inr rfl

/-- FTZ_DAZ acts on a word's value as `zeroSubnormal` acts on the word. -/
theorem flush_ofWord_sameValue {b : Build} (hb : b.subnormal = .ftzDaz) (w : Word) :
    (b.sample.flush (Fl.ofWord w)).SameValue (Fl.ofWord (zeroSubnormal w)) := by
  have hE : (w.extractLsb' 23 8).toNat < 256 := BitVec.isLt _
  have hF : (w.extractLsb' 0 23).toNat < 2 ^ 23 := BitVec.isLt _
  rw [← packWord_of w]
  generalize w.getLsbD 31 = s, (w.extractLsb' 23 8).toNat = E, (w.extractLsb' 0 23).toNat = F at hE hF ⊢
  rw [zeroSubnormal_packWord s E F hE]
  rcases (by omega : E = 0 ∨ E = 255 ∨ (0 < E ∧ E < 255)) with rfl | rfl | ⟨hE0, hE1⟩
  · rw [if_pos rfl, ofWord_packWord s 0 F (by decide) hF, if_pos rfl, ofWord_zeroWord]
    by_cases hF0 : F = 0
    · subst hF0
      rw [flush_normal b s 0 (-149) (.inl rfl)]
      exact .refl _
    · have hlt : (F : ℚ) * 2 ^ (-149 : Int) < 2 ^ (-126 : Int) := by
        have hFq : (F : ℚ) < 2 ^ 23 := by exact_mod_cast hF
        calc (F : ℚ) * 2 ^ (-149 : Int) < 2 ^ 23 * 2 ^ (-149 : Int) := mul_lt_mul_of_pos_right hFq (two_zpow_pos _)
          _ = 2 ^ (-126 : Int) := by norm_num
      rw [flush_small hb s (not_or.2 ⟨hF0, hlt.not_ge⟩)]
      exact .fin s (by simp)
  · rw [if_neg (by decide)]
    rcases ofWord_packWord_max s F with h | h <;> rw [h]
    · rw [flush_inf]
      exact .inf s
    · rw [flush_nan]
      exact .nan
  · rw [if_neg hE0.ne', ofWord_packWord s E F hE1 hF, if_neg hE0.ne', flush_normal b s _ _ (.inr ?_)]
    · exact .refl _
    · have hm : (2 : ℚ) ^ 23 ≤ ((0x800000 + F : Nat) : ℚ) := by exact_mod_cast (by omega : 2 ^ 23 ≤ 0x800000 + F)
      calc (2 : ℚ) ^ (-126 : Int) = 2 ^ 23 * 2 ^ (-149 : Int) := by norm_num
        _ ≤ ((0x800000 + F : Nat) : ℚ) * 2 ^ ((E : Int) - 150) :=
          mul_le_mul hm (zpow_le_zpow_right₀ one_le_two (by omega)) (two_zpow_pos _).le (by positivity)

/-- A result with the value of the word `w`, flushed, is `w` with its subnormals zeroed. -/
theorem toWord_flush {b : Build} (hb : b.subnormal = .ftzDaz) (key : List Word) {r : Fl} {w : Word}
    (h : r.SameValue (Fl.ofWord w)) :
    (b.sample.flush r).toWord key = zeroSubnormal w ∨
      Fl.ofWord ((b.sample.flush r).toWord key) = .nan ∧ Fl.ofWord (zeroSubnormal w) = .nan := by
  have hs := (h.flush hb).trans (flush_ofWord_sameValue hb w)
  by_cases hn : b.sample.flush r = .nan
  · right
    exact ⟨hn ▸ ofWord_toWord_nan key, hs.eq_nan hn⟩
  · left
    rw [hs.toWord_eq hn key key]
    exact toWord_ofWord_of_ne_nan key fun hc => hn (hs.symm.eq_nan hc)

/-! The operations of an IEEE build. -/

theorem addExact_nan {x y : Fl} (h : x = .nan ∨ y = .nan) : Fl.addExact x y = .nan := by
  rcases h with rfl | rfl
  · rfl
  · cases x <;> rfl

theorem mulExact_nan {x y : Fl} (h : x = .nan ∨ y = .nan) : Fl.mulExact x y = .nan := by
  rcases h with rfl | rfl
  · rfl
  · cases x <;> rfl

theorem divRound_nan (fmt : Fmt) {x y : Fl} (h : x = .nan ∨ y = .nan) : Fl.divRound fmt x y = .nan := by
  rcases h with rfl | rfl
  · rfl
  · cases x <;> rfl

theorem fadd_ieee {b : Build} (hb : b.subnormal = .ieee) (x y : Word) :
    fadd b x y = ((Fl.addExact (Fl.ofWord x) (Fl.ofWord y)).round .binary32).toWord [0#32, x, y] := by
  unfold fadd Arith.add
  simp only [flush_ieee b hb]
  rfl

theorem fsub_ieee {b : Build} (hb : b.subnormal = .ieee) (x y : Word) :
    fsub b x y = ((Fl.addExact (Fl.ofWord x) (Fl.ofWord y).neg).round .binary32).toWord [1#32, x, y] := by
  unfold fsub Arith.sub Arith.add
  simp only [flush_ieee b hb]
  rfl

theorem fmul_ieee {b : Build} (hb : b.subnormal = .ieee) (x y : Word) :
    fmul b x y = ((Fl.mulExact (Fl.ofWord x) (Fl.ofWord y)).round .binary32).toWord [2#32, x, y] := by
  unfold fmul Arith.mul
  simp only [flush_ieee b hb]
  rfl

theorem fdiv_ieee {b : Build} (hb : b.subnormal = .ieee) (x y : Word) :
    fdiv b x y = (Fl.divRound .binary32 (Fl.ofWord x) (Fl.ofWord y)).toWord [3#32, x, y] := by
  unfold fdiv Arith.div
  simp only [flush_ieee b hb]
  rfl

/-- A finite word, with its value in units of `2^-149`. -/
theorem finite_word {w : Word} (h : (Fl.ofWord w).finite = true) :
    ∃ m e, Fl.ofWord w = .fin (w.getLsbD 31) m e ∧
      (wordFix w : ℚ) = signed (w.getLsbD 31) ((m : ℚ) * 2 ^ e) * 2 ^ (149 : Int) ∧ (wordFix w = 0 ↔ m = 0) := by
  obtain ⟨m, e, hw, -⟩ := ofWord_finite w h
  have hv := wordFix_is (w := w) ⟨m, e, hw, rfl⟩
  refine ⟨m, e, hw, hv, ?_⟩
  rw [← Int.cast_eq_zero (α := ℚ), hv, mul_eq_zero, or_iff_left (two_zpow_pos 149).ne', signed_eq_zero_iff,
    mul_zpow_eq_zero_iff]

section Ieee

variable {b : Build} {x y : Word} (hb : b.subnormal = .ieee)
include hb

theorem fadd_finite (hx : (Fl.ofWord x).finite = true) (hy : (Fl.ofWord y).finite = true) :
    RoundsTo (fadd b x y) (wordFix x + wordFix y) 1 ∧ (fadd b x y).getLsbD 31 =
      if wordFix x + wordFix y = 0 then x.getLsbD 31 && y.getLsbD 31 else decide (wordFix x + wordFix y < 0) := by
  obtain ⟨m, e, hX, hxv, -⟩ := finite_word hx
  obtain ⟨n, f, hY, hyv, -⟩ := finite_word hy
  rw [fadd_ieee hb, toWord_round, hX, hY]
  refine roundsTo_addExact _ _ _ m n e f ?_
  rw [Int.cast_add, hxv, hyv, add_mul]

theorem fsub_finite (hx : (Fl.ofWord x).finite = true) (hy : (Fl.ofWord y).finite = true) :
    RoundsTo (fsub b x y) (wordFix x - wordFix y) 1 ∧ (fsub b x y).getLsbD 31 =
      if wordFix x - wordFix y = 0 then x.getLsbD 31 && !y.getLsbD 31 else decide (wordFix x - wordFix y < 0) := by
  obtain ⟨m, e, hX, hxv, -⟩ := finite_word hx
  obtain ⟨n, f, hY, hyv, -⟩ := finite_word hy
  rw [fsub_ieee hb, toWord_round, hX, hY]
  refine roundsTo_addExact _ _ _ m n e f ?_
  rw [Int.cast_sub, hxv, hyv, signed_not, ← sub_eq_add_neg, sub_mul]

theorem fmul_finite (hx : (Fl.ofWord x).finite = true) (hy : (Fl.ofWord y).finite = true) :
    RoundsTo (fmul b x y) (wordFix x * wordFix y) (2 ^ 149) ∧
      (fmul b x y).getLsbD 31 = (x.getLsbD 31 != y.getLsbD 31) := by
  obtain ⟨m, e, hX, hxv, -⟩ := finite_word hx
  obtain ⟨n, f, hY, hyv, -⟩ := finite_word hy
  rw [fmul_ieee hb, toWord_round, hX, hY]
  refine roundsTo_toWord _ _ (m * n) (e + f) (by positivity) ?_
  push_cast
  rw [zpow_add₀ two_ne_zero, mul_mul_mul_comm, signed_mul, hxv, hyv]
  norm_cast
  ring

theorem fdiv_finite (hx : (Fl.ofWord x).finite = true) (hy : (Fl.ofWord y).finite = true) (h0 : wordFix y ≠ 0) :
    RoundsTo (fdiv b x y) (wordFix x * 2 ^ 149) (wordFix y) ∧
      (fdiv b x y).getLsbD 31 = (x.getLsbD 31 != y.getLsbD 31) := by
  obtain ⟨m, e, hX, hxv, -⟩ := finite_word hx
  obtain ⟨n, f, hY, hyv, hy0⟩ := finite_word hy
  have hn : n ≠ 0 := mt hy0.2 h0
  rw [fdiv_ieee hb, hX, hY]
  simp only [Fl.divRound, if_neg hn]
  refine roundsTo_roundRat _ _ m n (e - f) hn h0 ?_
  have hY0 : signed (y.getLsbD 31) ((n : ℚ) * 2 ^ f) ≠ 0 := by
    rwa [Ne, signed_eq_zero_iff, mul_zpow_eq_zero_iff]
  push_cast
  rw [zpow_sub₀ two_ne_zero, div_mul_div_comm, signed_div, hxv, hyv]
  field_simp

theorem fdiv_zero (hx : (Fl.ofWord x).finite = true) (hy : (Fl.ofWord y).finite = true) (h0 : wordFix y = 0) :
    Fl.ofWord (fdiv b x y) = if wordFix x = 0 then .nan else .inf (x.getLsbD 31 != y.getLsbD 31) := by
  obtain ⟨m, e, hX, -, hx0⟩ := finite_word hx
  obtain ⟨n, f, hY, -, hy0⟩ := finite_word hy
  rw [fdiv_ieee hb, hX, hY]
  simp only [Fl.divRound, if_pos (hy0.1 h0), hx0]
  split
  · exact ofWord_toWord_nan _
  · exact ofWord_toWord_inf _ _

theorem op_nan (h : Fl.ofWord x = .nan ∨ Fl.ofWord y = .nan) :
    ∀ op ∈ [fadd, fsub, fmul, fdiv], Fl.ofWord (op b x y) = .nan := by
  have hneg : Fl.ofWord x = .nan ∨ (Fl.ofWord y).neg = .nan := h.imp_right fun hy => by rw [hy]; rfl
  simp only [List.forall_mem_cons, fadd_ieee hb, fsub_ieee hb, fmul_ieee hb, fdiv_ieee hb, addExact_nan h,
    addExact_nan hneg, mulExact_nan h, divRound_nan _ h]
  exact ⟨ofWord_toWord_nan _, ofWord_toWord_nan _, ofWord_toWord_nan _, ofWord_toWord_nan _, nofun⟩

theorem op_inf_finite {p : Bool} (hx : Fl.ofWord x = .inf p) (hy : (Fl.ofWord y).finite = true) :
    Fl.ofWord (fadd b x y) = .inf p ∧ Fl.ofWord (fsub b x y) = .inf p ∧
    Fl.ofWord (fmul b x y) = (if wordFix y = 0 then .nan else .inf (p != y.getLsbD 31)) ∧
    Fl.ofWord (fdiv b x y) = .inf (p != y.getLsbD 31) := by
  obtain ⟨n, f, hY, -, hy0⟩ := finite_word hy
  rw [fadd_ieee hb, fsub_ieee hb, fmul_ieee hb, fdiv_ieee hb, hx, hY]
  refine ⟨ofWord_toWord_inf _ _, ofWord_toWord_inf _ _, ?_, ofWord_toWord_inf _ _⟩
  simp only [Fl.mulExact, hy0]
  split
  · exact ofWord_toWord_nan _
  · exact ofWord_toWord_inf _ _

theorem op_finite_inf {q : Bool} (hx : (Fl.ofWord x).finite = true) (hy : Fl.ofWord y = .inf q) :
    Fl.ofWord (fadd b x y) = .inf q ∧ Fl.ofWord (fsub b x y) = .inf (!q) ∧
    Fl.ofWord (fmul b x y) = (if wordFix x = 0 then .nan else .inf (x.getLsbD 31 != q)) ∧
    fdiv b x y = if x.getLsbD 31 != q then 0x80000000#32 else 0#32 := by
  obtain ⟨m, e, hX, -, hx0⟩ := finite_word hx
  rw [fadd_ieee hb, fsub_ieee hb, fmul_ieee hb, fdiv_ieee hb, hX, hy]
  refine ⟨ofWord_toWord_inf _ _, ofWord_toWord_inf _ _, ?_, ?_⟩
  · simp only [Fl.mulExact, hx0]
    split
    · exact ofWord_toWord_nan _
    · exact ofWord_toWord_inf _ _
  · simp only [Fl.divRound, toWord_zero]
    cases x.getLsbD 31 != q <;> rfl

theorem op_inf_inf {p q : Bool} (hx : Fl.ofWord x = .inf p) (hy : Fl.ofWord y = .inf q) :
    Fl.ofWord (fadd b x y) = (if p = q then .inf p else .nan) ∧
    Fl.ofWord (fsub b x y) = (if p = q then .nan else .inf p) ∧
    Fl.ofWord (fmul b x y) = .inf (p != q) ∧ Fl.ofWord (fdiv b x y) = .nan := by
  rw [fadd_ieee hb, fsub_ieee hb, fmul_ieee hb, fdiv_ieee hb, hx, hy]
  refine ⟨?_, ?_, ofWord_toWord_inf _ _, ofWord_toWord_nan _⟩
  · simp only [Fl.addExact]
    split
    · exact ofWord_toWord_inf _ _
    · exact ofWord_toWord_nan _
  · simp only [Fl.addExact, Fl.neg, Bool.eq_not, ite_not]
    split
    · exact ofWord_toWord_nan _
    · exact ofWord_toWord_inf _ _

end Ieee

/-- In an FTZ_DAZ build an operation is the IEEE build's on zeroed operands, its result zeroed. -/
theorem op_ftzDaz {b : Build} (hb : b.subnormal = .ftzDaz) (x y : Word) :
    ∀ op ∈ [fadd, fsub, fmul, fdiv],
      let v := zeroSubnormal (op { b with subnormal := .ieee } (zeroSubnormal x) (zeroSubnormal y))
      op b x y = v ∨ (Fl.ofWord (op b x y) = .nan ∧ Fl.ofWord v = .nan) := by
  have hx := flush_ofWord_sameValue hb x
  have hy := flush_ofWord_sameValue hb y
  simp only [List.forall_mem_cons]
  refine ⟨?_, ?_, ?_, ?_, nofun⟩
  · rw [fadd_ieee (b := { b with subnormal := .ieee }) rfl]
    refine toWord_flush hb _ ?_
    rw [show b.sample.fmt = .binary32 from rfl, (hx.addExact hy).round_eq]
    exact round_sameValue_ofWord _ _
  · rw [fsub_ieee (b := { b with subnormal := .ieee }) rfl]
    refine toWord_flush hb _ ?_
    rw [show b.sample.fmt = .binary32 from rfl, Arith.flush_neg, (hx.addExact hy.neg).round_eq]
    exact round_sameValue_ofWord _ _
  · rw [fmul_ieee (b := { b with subnormal := .ieee }) rfl]
    refine toWord_flush hb _ ?_
    rw [show b.sample.fmt = .binary32 from rfl, (hx.mulExact hy).round_eq]
    exact round_sameValue_ofWord _ _
  · rw [fdiv_ieee (b := { b with subnormal := .ieee }) rfl]
    refine toWord_flush hb _ ?_
    rw [show b.sample.fmt = .binary32 from rfl, hx.divRound hy]
    exact divRound_sameValue_ofWord _ _ _

/-- Settles O47: a clause for each kind of operand, then SUBNORMAL_MODE. -/
theorem arithmeticRoundsToNearestEven : Obligations.ArithmeticRoundsToNearestEven := by
  refine ⟨fun b x y hb => ⟨fun hx hy => ?_, op_nan hb, op_inf_finite hb, op_finite_inf hb, op_inf_inf hb⟩,
    fun b x y hb => op_ftzDaz hb x y⟩
  obtain ⟨addNear, addSign⟩ := fadd_finite hb hx hy
  obtain ⟨subNear, subSign⟩ := fsub_finite hb hx hy
  obtain ⟨mulNear, mulSign⟩ := fmul_finite hb hx hy
  exact ⟨addNear, addSign, subNear, subSign, mulNear, mulSign, fdiv_finite hb hx hy, fdiv_zero hb hx hy⟩

end Sys2Proof
end

section
/-! PROOFS. What a step can do (20_memory R110, R111): each command, the bus accesses and each step of AUDIO by
its effect on the state. -/

namespace Sys2Proof.Machine

/-! What a command can do. -/

/-- Everything a command can do to the state. An analysis state it stores is in range where the old one was. -/
inductive CommandEffect (s : State) : Instr → State → Prop
  | fault (i : Instr) (c : Cause) (info : Word) : CommandEffect s i (s.raise c info)
  | report (i : Instr) (op : BitVec 8) (ok : Bool) : CommandEffect s i (s.result op ok)
  | analysis (i : Instr) (a : Analysis) (op : BitVec 8) (produced dropped : Bool)
      (ha : s.build.legal = true → s.an.ok s.build = true → a.ok s.build = true) :
      CommandEffect s i ((s.setAn a).result op true produced dropped)
  | curve : CommandEffect s .response ({ s with curve := storeCurve s }.result 0x0B#8 true)
  | staging (i : Instr) (hi : i ∈ [.designPeak, .designLowcut, .designHighcut]) (sets : Vector CoefSet 4)
      (op : BitVec 8) : CommandEffect s i ({ s with cstg := sets }.result op true)
  | prepared (t : State) (h : execPrepare s = .next t) : CommandEffect s .prepare t
  | decision (d : FullDesign) (hp : s.prepared = true) :
      CommandEffect s .tick ({ s with dirty := false }.setCtrlOp (some ⟨0x02#8, tickInstalls d⟩))
  | install (i : Instr) (op : BitVec 8) (hop : op = 0x06#8 ∨ op = 0x07#8) (todo : List Install) :
      CommandEffect s i (installStep s op todo)

theorem execAnStep_effect {s t : State} (h : execAnStep s = .next t) : CommandEffect s .anStep t := by
  unfold execAnStep at h
  split at h
  · exact next_inj h ▸ .report ..
  split at h
  · exact next_inj h ▸ .report ..
  simp only at h
  split at h
  · exact next_inj h ▸ .analysis _ _ _ _ _ fun hb ha => popShift_ok hb ha
  split at h
  · next hroom =>
    exact next_inj h ▸ .analysis _ _ _ _ _ fun hb ha => enqueue_ok hb (popShift_ok hb ha) hroom _ (fftBlock_length ..)
  · exact next_inj h ▸ .analysis _ _ _ _ _ fun hb ha => popShift_ok hb ha

theorem execFftGet_effect {s t : State} (h : execFftGet s = .next t) : CommandEffect s .fftGet t := by
  unfold execFftGet at h
  split at h
  · exact next_inj h ▸ .report ..
  · exact next_inj h ▸ .analysis _ _ _ _ _ fun hb ha => takeBlock_ok hb ha

theorem execGenPath_effect {s t : State} (h : execGenPath s = .next t) : CommandEffect s .genPath t := by
  unfold execGenPath at h
  split at h
  · exact next_inj h ▸ .fault ..
  split at h
  · exact next_inj h ▸ .fault ..
  split at h
  · exact next_inj h ▸ .report ..
  · exact next_inj h ▸ .analysis _ _ _ _ _ fun hb ha => storePath_ok ha _ (pathPoints_length_le hb)

theorem execTick_effect {s t : State} (h : execTick s = .next t) : CommandEffect s .tick t := by
  unfold execTick at h
  split at h
  · exact next_inj h ▸ .report ..
  next hp =>
  split at h
  · exact next_inj h ▸ .report ..
  split at h
  · exact next_inj h ▸ .fault ..
  · exact next_inj h ▸ .decision _ (by simpa using hp)

/-- A DESIGN command raises its two faults in order, or stages its sets. -/
theorem design_effect {i : Instr} {s t : State} {ready inDomain : Bool} {c c' : Cause} {info info' : Word}
    {sets : Vector CoefSet 4} {op : BitVec 8} (hi : i ∈ [.designPeak, .designLowcut, .designHighcut])
    (h : (if !ready then .next (s.raise c info) else if !inDomain then .next (s.raise c' info')
      else .next ({ s with cstg := sets }.result op true) : Result) = .next t) : CommandEffect s i t := by
  split at h
  · exact next_inj h ▸ .fault ..
  split at h
  · exact next_inj h ▸ .fault ..
  · exact next_inj h ▸ .staging _ hi _ _

/-- Every command does one of these. -/
theorem exec_command_effect {i : Instr} {s t : State} (hi : i.lane = .command) (h : exec i s = .next t) :
    CommandEffect s i t := by
  cases i with
  | nop => exact next_inj h ▸ .report ..
  | prepare => exact .prepared t h
  | tick => exact execTick_effect h
  | designPeak => exact design_effect (by simp) h
  | designLowcut => exact design_effect (by simp) h
  | designHighcut => exact design_effect (by simp) h
  | updateCoef stage slot ch =>
    simp only [exec, execUpdateCoef] at h
    split at h
    · exact next_inj h ▸ .install _ _ (.inl rfl) _
    · exact next_inj h ▸ .fault ..
  | setBypass tgt val ch =>
    simp only [exec, execSetBypass] at h
    split at h
    · exact next_inj h ▸ .install _ _ (.inr rfl) _
    · exact next_inj h ▸ .fault ..
  | anStep => exact execAnStep_effect h
  | fftGet => exact execFftGet_effect h
  | genPath => exact execGenPath_effect h
  | response =>
    simp only [exec, execResponse] at h
    split at h
    · exact next_inj h ▸ .fault ..
    split at h
    · exact next_inj h ▸ .fault ..
    · exact next_inj h ▸ .curve
  | areset => exact next_inj h ▸ .analysis _ _ _ _ _ fun hb _ => Analysis.reset_ok hb
  | processBlock _ => cases hi
  | rd _ => cases hi
  | wr _ _ => cases hi

/-! What the bus and AUDIO can do. -/

theorem exec_rd_cases {s t : State} {a : Addr} (h : exec (.rd a) s = .next t) :
    (∃ c info, t = (s.raise c info).answer 0#32) ∨ ∃ w, t = s.answer w := by
  simp only [exec, execRd] at h
  split at h
  · exact .inl ⟨_, _, (next_inj h).symm⟩
  · exact .inr ⟨_, (next_inj h).symm⟩

/-- The header step starts the frames of a prepared block, or records a fault and leaves the words to consume. -/
theorem exec_processBlock_cases {s t : State} {n : BitVec 16} (h : exec (.processBlock n) s = .next t) :
    (∃ c info left, t = (s.raise c info).setAudioOp (drainLeft left)) ∨
      s.prepared = true ∧ ∃ left stereo, t = s.setAudioOp (framesLeft left stereo) := by
  simp only [exec, execProcessBlock] at h
  split at h
  · exact .inl ⟨_, _, _, (next_inj h).symm⟩
  next hp =>
  split at h
  · exact .inl ⟨_, _, _, (next_inj h).symm⟩
  · exact .inr ⟨by simpa using hp, _, _, (next_inj h).symm⟩

theorem decodeStream_ok {w : Word} {i : Instr} (h : decodeStream w = .ok i) : ∃ n, i = .processBlock n := by
  unfold decodeStream at h
  split at h
  · cases h
  split at h
  · cases h
  · exact ⟨_, (Except.ok.inj h).symm⟩

/-- Everything a step of AUDIO can do. -/
inductive AudioEffect (s : State) : State → Prop
  | wait : AudioEffect s s
  | badHeader (w : Word) (rest : List Word) (hop : s.audioOp = .header) :
      AudioEffect s ((s.takeAudio rest).raise .badStream w)
  | header (n : BitVec 16) (rest : List Word) (t : State) (hop : s.audioOp = .header)
      (h : exec (.processBlock n) (s.takeAudio rest) = .next t) : AudioEffect s t
  | mono (left : Nat) (x : Word) (rest : List Word) (hop : s.audioOp = .frames left false) :
      AudioEffect s (frameMono ((s.takeAudio rest).setAudioOp (framesLeft (left - 1) false)) x)
  | stereo (left : Nat) (x y : Word) (rest : List Word) (hop : s.audioOp = .frames left true) :
      AudioEffect s (frameStereo ((s.takeAudio rest).setAudioOp (framesLeft (left - 1) true)) x y)
  | drain (left : Nat) (rest : List Word) (hop : s.audioOp = .drain left) :
      AudioEffect s (drainStep (s.takeAudio rest) left)

theorem audioStep_effect {s t : State} (h : audioStep s = .next t) : AudioEffect s t := by
  unfold audioStep at h
  split at h
  · next hop =>
    split at h
    · exact next_inj h ▸ .wait
    next w rest _ =>
    unfold takeHeader at h
    split at h
    · exact next_inj h ▸ .badHeader w rest hop
    · next i hd =>
      obtain ⟨n, rfl⟩ := decodeStream_ok hd
      exact .header n rest t hop h
  · next hop =>
    split at h
    · exact next_inj h ▸ .wait
    · exact next_inj h ▸ .mono _ _ _ hop
  · next hop =>
    split at h
    · exact next_inj h ▸ .stereo _ _ _ _ hop
    · exact next_inj h ▸ .wait
    · exact next_inj h ▸ .wait
  · next hop =>
    split at h
    · exact next_inj h ▸ .wait
    · exact next_inj h ▸ .drain _ _ hop

end Sys2Proof.Machine
end

section
/-! PROOFS. The invariant (10_state R32 to R81): every instruction and every step of an agent keeps it. -/

namespace Sys2Proof.Machine

/-- The state after reset meets the invariant, in every legal build. -/
theorem resetOf_inv {b : Build} (hb : b.legal = true) (h : HostSide) : (State.resetOf b h).Inv := by
  have hpts : pointsOk b 0x00000200#32 = true := by
    simp only [Build.legal, Bool.and_eq_true, beq_iff_eq] at hb
    obtain ⟨⟨_, hmax⟩, _⟩ := hb
    simp [pointsOk, hmax]
  have hregs : (State.resetOf b h).regsOk = true := by
    simp only [State.regsOk, State.resetOf, hpts]
    rfl
  have hcurve : (State.resetOf b h).curve.ok b = true := by
    simp [Curve.ok, State.resetOf, Memory.wf, Memory.wfFrom, Memory.within]
  exact ⟨hb, hregs, rfl, rfl, Analysis.reset_ok hb, hcurve, rfl, rfl⟩

theorem State.Inv.legal {s : State} (h : s.Inv) : s.build.legal = true := h.1

theorem State.Inv.an_ok {s : State} (h : s.Inv) : s.an.ok s.build = true := by
  obtain ⟨-, -, -, -, han, -, -, -⟩ := h
  exact han

/-- A command in progress is one that installs. -/
theorem State.Inv.installs {s : State} (h : s.Inv) {op : CtrlOp} (hop : s.ctrlOp = some op) :
    (op.opcode == 0x02#8 && s.prepared || op.opcode == 0x06#8 || op.opcode == 0x07#8) = true := by
  obtain ⟨-, -, -, -, -, -, hctrl, -⟩ := h
  simp only [State.ctrlOpOk, hop, Bool.and_eq_true] at hctrl
  exact hctrl.2

/-- What RESP_POINTS holds is at most RESP_MAX. -/
theorem State.Inv.respPoints_le {s : State} (h : s.Inv) : s.respPoints.toNat ≤ s.build.respMax := by
  obtain ⟨-, hregs, -⟩ := h
  simp only [State.regsOk, pointsOk, Bool.and_eq_true, decide_eq_true_eq] at hregs
  obtain ⟨⟨⟨-, -, hmax⟩, -⟩, -⟩ := hregs
  exact hmax

/-- Frames run only after PREPARE. -/
theorem State.Inv.prepared_of_frames {s : State} (h : s.Inv) {left : Nat} {stereo : Bool}
    (hop : s.audioOp = .frames left stereo) : s.prepared = true := by
  obtain ⟨-, -, -, -, -, -, -, haudio⟩ := h
  simp only [State.audioOpOk, hop, Bool.and_eq_true] at haudio
  exact haudio.2

/-- A new curve is in range and stays inside its storage. -/
theorem storeCurve_ok {s : State} (h : s.Inv) : (storeCurve s).ok s.build = true := by
  have hmax := h.respPoints_le
  obtain ⟨-, -, -, -, -, hcurve, -, -⟩ := h
  simp only [Curve.ok, Bool.and_eq_true, decide_eq_true_eq] at hcurve
  obtain ⟨⟨⟨⟨-, hdb⟩, hdbIn⟩, hpt⟩, hptIn⟩ := hcurve
  simp only [Curve.ok, storeCurve, Bool.and_eq_true]
  refine ⟨⟨⟨⟨decide_eq_true hmax, Memory.wf_load _ _ _ hdb⟩, Memory.within_load _ _ _ _ hdbIn ?_⟩,
    Memory.wf_load _ _ _ hpt⟩, Memory.within_load _ _ _ _ hptIn ?_⟩
  · simpa using hmax
  · simpa using hmax

theorem CommandEffect.inv {s t : State} {i : Instr} (h : CommandEffect s i t) (hs : s.Inv) : t.Inv := by
  cases h with
  | fault i c info => exact raise_inv _ _ _ hs
  | report i op ok => exact result_inv _ _ _ _ _ hs
  | analysis i a op produced dropped ha =>
    exact result_inv _ _ _ _ _ (setAn_inv s a hs (ha hs.legal hs.an_ok))
  | curve =>
    have hc := storeCurve_ok hs
    obtain ⟨hbuild, hregs, hfault, hlatch, han, -, hctrl, haudio⟩ := hs
    exact result_inv _ _ _ _ _ ⟨hbuild, hregs, hfault, hlatch, han, hc, hctrl, haudio⟩
  | staging i hi sets op => exact result_inv { s with cstg := sets } _ _ _ _ hs
  | prepared t h => exact prepare_inv s hs t h
  | decision d hp =>
    obtain ⟨hbuild, hregs, hfault, hlatch, han, hcurve, -, haudio⟩ := hs
    have hlatch' : ({ s with dirty := false } : State).latchOk = true := by
      simpa [State.latchOk, hp] using hlatch
    have hctrl : State.ctrlOpOk ({ s with dirty := false }.setCtrlOp (some ⟨0x02#8, tickInstalls d⟩)) = true := by
      simp [State.ctrlOpOk, State.setCtrlOp, tickInstalls, channelInstalls, hp]
    exact ⟨hbuild, hregs, hfault, hlatch', han, hcurve, hctrl, haudio⟩
  | install i op hop todo =>
    refine installStep_inv s op todo hs ?_
    rcases hop with rfl | rfl <;> simp

theorem writeLoc_inv {s : State} (hs : s.Inv) (a : Addr) (v : Word) (l : Loc) : (s.writeLoc a v l).Inv := by
  cases l with
  | reg r => exact writeReg_inv s a v r hs
  | cstg j i => exact hs
  | _ => exact raise_inv _ _ _ hs

/-- Every instruction keeps the invariant. -/
theorem exec_inv {i : Instr} {s t : State} (hs : s.Inv) (h : exec i s = .next t) : t.Inv := by
  cases i with
  | processBlock n =>
    rcases exec_processBlock_cases h with ⟨c, info, left, rfl⟩ | ⟨hp, left, stereo, rfl⟩
    · exact drain_ok _ _ (raise_inv s c info hs)
    · exact frames_ok s left stereo hs hp
  | rd a =>
    rcases exec_rd_cases h with ⟨c, info, rfl⟩ | ⟨w, rfl⟩
    · exact answer_inv _ _ (raise_inv s c info hs)
    · exact answer_inv s w hs
  | wr a v =>
    rcases exec_wr_cases s t a v h with ⟨c, info, rfl⟩ | ⟨-, i, -, hi, h⟩ | ⟨l, -, -, rfl⟩
    · exact raise_inv s c info hs
    · exact (exec_command_effect hi h).inv hs
    · exact writeLoc_inv hs a v l
  | _ => exact (exec_command_effect rfl h).inv hs

theorem ctrlStep_inv {s t : State} (hs : s.Inv) (h : ctrlStep s = .next t) : t.Inv := by
  unfold ctrlStep at h
  split at h
  · next op hop =>
    exact next_inj h ▸ installStep_inv s op.opcode op.todo hs (hs.installs hop)
  split at h
  · exact next_inj h ▸ hs
  next t' rest _ =>
  unfold performTransaction at h
  split at h
  · refine next_inj h ▸ ?_
    unfold badDescriptor
    split
    · exact answer_inv _ _ (raise_inv _ _ _ (setHost_inv s _ hs))
    · exact raise_inv _ _ _ (setHost_inv s _ hs)
  · exact exec_inv (setHost_inv s _ hs) h

theorem audioStep_inv {s t : State} (hs : s.Inv) (h : audioStep s = .next t) : t.Inv := by
  have take : ∀ rest, (s.takeAudio rest).Inv := fun rest => setHost_inv s _ hs
  cases audioStep_effect h with
  | wait => exact hs
  | badHeader w rest hop => exact raise_inv _ _ _ (take rest)
  | header n rest _ hop h => exact exec_inv (take rest) h
  | mono left x rest hop =>
    exact frameMono_inv _ x (frames_ok _ _ _ (take rest) (hs.prepared_of_frames hop))
  | stereo left x y rest hop =>
    exact frameStereo_inv _ x y (frames_ok _ _ _ (take rest) (hs.prepared_of_frames hop))
  | drain left rest hop => exact emit_inv _ _ (setHost_inv _ _ (drain_ok _ _ (take rest)))

theorem freeStep_inv {s t : State} (hs : s.Inv) (h : freeStep s = .next t) : t.Inv := by
  unfold freeStep at h
  split at h
  · exact next_inj h ▸ hs
  · exact ctrlStep_inv hs h
  · exact audioStep_inv hs h
  · simp only at h
    split at h
    · exact ctrlStep_inv (setHost_inv s _ hs) h
    · exact audioStep_inv (setHost_inv s _ hs) h

/-- Settles O9: the schedule's first turn, or where there is none the agent that moves. -/
theorem everyStepKeepsTheInvariant : Obligations.EveryStepKeepsTheInvariant := by
  intro s t hs h
  unfold step at h
  split at h
  · exact freeStep_inv hs h
  next turn rest _ =>
  have hs' := setHost_inv s { s.host with schedule := rest } hs
  cases turn with
  | ctrl => exact ctrlStep_inv hs' h
  | audio => exact audioStep_inv hs' h
  | reset => exact next_inj h ▸ resetOf_inv hs.legal _

end Sys2Proof.Machine
end

section
/-! PROOFS. Writes by address (20_memory R106): read-only addresses, the checks as ranges of the word, CONFIG and CSTG. -/

namespace Sys2Proof.Machine

/-! Writes, address by address. -/

/-- A write to a read-only address records BAD_ACCESS with the address. -/
theorem exec_wr_readOnly (s : State) (a : Addr) (v : Word) (h : ∀ l, s.mapped a = some l → l.access = .ro) :
    exec (.wr a v) s = .next (s.raise .badAccess (a.setWidth 32)) := by
  simp only [exec, execWr]
  cases hm : s.mapped a with
  | none => rfl
  | some l => simp only [h l hm]

theorem Reg.addr_setWidth (r : Reg) : r.addr.setWidth 32 = BitVec.ofNat 32 r.offset := by cases r <;> rfl

/-- The registers from 0x0F0 up are CHAIN_FLAGS0 and CHAIN_FLAGS1. -/
theorem Reg.access_high {r : Reg} (h : 0x0F0 ≤ r.offset) : r.access = .ro := by
  cases r <;> simp [Reg.offset, Reg.access] at h ⊢

/-- Every address from 0x0F0 up is read-only or unmapped. -/
theorem mapped_high {s : State} {a : Addr} {l : Loc} (ha : 0x0F0 ≤ a.toNat) (h : s.mapped a = some l) :
    l.access = .ro := by
  obtain ⟨-, h⟩ := mapped_locate s a l h
  by_cases hlow : a.toNat < 0x1000
  · rcases locate_low _ _ _ hlow h with ⟨-, hlt, -⟩ | ⟨r, hr, rfl⟩
    · omega
    · exact Reg.access_high (hr ▸ ha)
  · exact (locate_window _ _ _ (by omega) h).1

/-- Settles O17: the map names a read-only register or window, or nothing. -/
theorem writesToReadOnlyAddressesRaiseBadAccess : Obligations.WritesToReadOnlyAddressesRaiseBadAccess := by
  intro s v
  refine ⟨fun r hr => ?_, fun a ha => exec_wr_readOnly s a v fun l hl => mapped_high ha hl⟩
  have readOnly : ∀ r ∈ ([.id, .version, .status, .fault, .faultInfo, .cmdResult, .srActive, .maxblkActive,
      .fifoCount, .fillCount, .rbCount, .fftqCount, .pathSeq, .pathLen, .respLen, .build0, .build1, .chainFlags0,
      .chainFlags1] : List Reg), r.access = .ro := by decide
  rw [← Reg.addr_setWidth]
  refine exec_wr_readOnly s r.addr v fun l hl => ?_
  rw [mapped_addr] at hl
  exact Option.some.inj hl ▸ readOnly r hr

/-! The checks, as ranges of the word. -/

theorem packWord_toNat (s : Bool) {E F : Nat} (hE : E < 2 ^ 8) (hF : F < 2 ^ 23) :
    (packWord s E F).toNat = s.toNat * 2 ^ 31 + E * 2 ^ 23 + F := by
  simp only [packWord, BitVec.toNat_append, BitVec.toNat_ofNat, Nat.mod_eq_of_lt hE, Nat.mod_eq_of_lt hF,
    BitVec.toNat_ofBool]
  rw [← Nat.shiftLeft_add_eq_or_of_lt hF, ← Nat.shiftLeft_add_eq_or_of_lt hE, Nat.shiftLeft_eq, Nat.shiftLeft_eq]
  ring

theorem finiteWord_iff (v : Word) : finiteWord v = true ↔ v.toNat / 2 ^ 23 % 256 ≠ 255 := by
  have hexp : (v.extractLsb' 23 8).toNat = v.toNat / 2 ^ 23 % 256 := by
    rw [BitVec.extractLsb'_toNat, Nat.shiftRight_eq_div_pow]
  unfold finiteWord Fl.ofWord
  simp only [hexp]
  by_cases h : v.toNat / 2 ^ 23 % 256 = 255
  · rw [if_pos h]
    split <;> exact iff_of_false Bool.false_ne_true (not_not.2 h)
  · rw [if_neg h]
    split <;> exact iff_of_true rfl h

/-- A finite word is its sign bit and a magnitude of at most 0x7F7FFFFF, which is 0 exactly for a zero. -/
theorem toNat_of_finite {v : Word} (h : finiteWord v = true) :
    ∃ m e k, Fl.ofWord v = .fin (v.getLsbD 31) m e ∧ k ≤ 0x7F7FFFFF ∧
      v.toNat = (v.getLsbD 31).toNat * 2 ^ 31 + k ∧ (m = 0 ↔ k = 0) := by
  obtain ⟨m, e, hv, hm, hlo, hhi, -, hw⟩ := ofWord_finite v h
  generalize v.getLsbD 31 = sign at hv hw ⊢
  by_cases hsub : m < 2 ^ 23
  · rw [if_pos hsub, if_pos hsub] at hw
    refine ⟨m, e, m, hv, by omega, ?_, .rfl⟩
    rw [hw, packWord_toNat _ (by decide) hsub, Nat.zero_mul, Nat.add_zero]
  · rw [if_neg hsub, if_neg hsub] at hw
    refine ⟨m, e, (e + 150).toNat * 2 ^ 23 + (m - 2 ^ 23), hv, by omega, ?_, by omega⟩
    rw [hw, packWord_toNat _ (by omega) (by omega), Nat.add_assoc]

theorem zero_lt_fin (s : Bool) (m : Nat) (e : Int) :
    Fl.lt (Fl.nat 0) (.fin s m e) = true ↔ s = false ∧ m ≠ 0 := by
  have he := two_zpow_pos e
  rw [Fl.nat, lt_fin, decide_eq_true_eq]
  cases s
  · simp [signed, he, Nat.pos_iff_ne_zero]
  · have : (0 : ℚ) ≤ m * 2 ^ e := by positivity
    simpa [signed] using this

theorem fin_lt_zero (s : Bool) (m : Nat) (e : Int) :
    Fl.lt (.fin s m e) (Fl.nat 0) = true ↔ s = true ∧ m ≠ 0 := by
  have he := two_zpow_pos e
  rw [Fl.nat, lt_fin, decide_eq_true_eq]
  cases s
  · have : (0 : ℚ) ≤ m * 2 ^ e := by positivity
    simpa [signed] using this
  · simp [signed, he, Nat.pos_iff_ne_zero]

/-- Finite and above 0.0: sign bit 0, magnitude not 0. -/
theorem rateOk_iff (v : Word) : rateOk v = true ↔ 1 ≤ v.toNat ∧ v.toNat ≤ 0x7F7FFFFF := by
  rw [rateOk, Bool.and_eq_true]
  by_cases h : finiteWord v = true
  · obtain ⟨m, e, k, hv, hk, hn, hm⟩ := toNat_of_finite h
    rw [hv, zero_lt_fin, and_iff_right h]
    cases hs : v.getLsbD 31 <;> simp only [hs, Bool.toNat_true, Bool.toNat_false] at hn <;> simp <;> omega
  · rw [finiteWord_iff, not_not] at h
    rw [finiteWord_iff]
    omega

/-- Finite and below 0.0: sign bit 1, magnitude not 0. -/
theorem floorOk_iff (v : Word) : floorOk v = true ↔ 0x80000001 ≤ v.toNat ∧ v.toNat ≤ 0xFF7FFFFF := by
  rw [floorOk, Bool.and_eq_true]
  by_cases h : finiteWord v = true
  · obtain ⟨m, e, k, hv, hk, hn, hm⟩ := toNat_of_finite h
    rw [hv, fin_lt_zero, and_iff_right h]
    cases hs : v.getLsbD 31 <;> simp only [hs, Bool.toNat_true, Bool.toNat_false] at hn <;> simp <;> omega
  · rw [finiteWord_iff, not_not] at h
    rw [finiteWord_iff]
    have := v.isLt
    omega

theorem blockOk_iff (v : Word) : blockOk v = true ↔ 1 ≤ v.toNat ∧ v.toNat ≤ 65535 := by simp [blockOk]

theorem pointsOk_iff (b : Build) (v : Word) : pointsOk b v = true ↔ 1 ≤ v.toNat ∧ v.toNat ≤ b.respMax := by
  simp [pointsOk]

/-- A write to a checked register stores where the check holds. -/
theorem exec_wr_checked {s : State} {v : Word} {r : Reg} {ok : Bool} {stored : State} {p : Prop} [Decidable p]
    (hr : r.access = .rw) (hw : s.writeReg r.addr v r = s.checked ok r.addr stored) (hp : ok = true ↔ p) :
    exec (.wr r.addr v) s =
      .next (if p then stored else s.raise .badParam (BitVec.ofNat 32 r.offset)) := by
  rw [exec_wr_reg s v r hr, hw, State.checked, Reg.addr_setWidth]
  simp only [hp]

/-- Settles O19: each check is its range. -/
theorem checkedRegistersAcceptTheirRanges : Obligations.CheckedRegistersAcceptTheirRanges := by
  intro v s finite
  exact ⟨exec_wr_checked (r := .sampleRate) rfl rfl (rateOk_iff v),
    exec_wr_checked (r := .maxBlock) rfl rfl (blockOk_iff v),
    exec_wr_checked (r := .boundsX) rfl rfl (finiteWord_iff v),
    exec_wr_checked (r := .boundsY) rfl rfl (finiteWord_iff v),
    exec_wr_checked (r := .boundsW) rfl rfl (finiteWord_iff v),
    exec_wr_checked (r := .boundsH) rfl rfl (finiteWord_iff v),
    exec_wr_checked (r := .floorDb) rfl rfl (floorOk_iff v),
    exec_wr_checked (r := .respPoints) rfl rfl (pointsOk_iff s.build v)⟩

theorem mapped_cstgAddr (s : State) (j : Fin 4) (i : Fin 5) : s.mapped (cstgAddr j i) = some (.cstg j i) := by
  have ha : (cstgAddr j i).toNat = 0x0A0 + 20 * j.val + 4 * i.val := by
    rw [cstgAddr, BitVec.toNat_ofNat]
    omega
  have hw : (0x0A0 + 20 * j.val + 4 * i.val - 0x0A0) / 4 = 5 * j.val + i.val := by omega
  have hj : Fin.ofNat 4 ((5 * j.val + i.val) / 5) = j := Fin.ext (by simp only [Fin.ofNat]; omega)
  have hi : Fin.ofNat 5 (5 * j.val + i.val) = i := Fin.ext (by simp only [Fin.ofNat]; omega)
  rw [State.mapped, ha, if_pos (by omega), locate, if_pos (by omega)]
  simp only [hw, hj, hi]

theorem CoefSet.get_put (k : CoefSet) (i i' : Fin 5) (v : Word) :
    (k.put i v).get i' = if i' = i then v else k.get i' := by
  fin_cases i <;> fin_cases i' <;> rfl

/-- Settles O20: neither write has a check. -/
theorem configAndStagingWritesNeverFault : Obligations.ConfigAndStagingWritesNeverFault := by
  intro v s
  refine ⟨exec_wr_reg s v .config rfl, fun j i => ⟨s.writeLoc (cstgAddr j i) v (.cstg j i), ?_, rfl, fun j' i' => ?_⟩⟩
  · show exec (.wr (cstgAddr j i) v) s = _
    simp only [exec, execWr, mapped_cstgAddr, Loc.access]
  · show (s.cstg.set j (s.cstg[j].put i v))[j'].get i' = _
    by_cases hj : j' = j
    · subst hj
      simp [CoefSet.get_put]
    · simp [Vector.getElem_set_ne, hj, Fin.val_ne_of_ne (Ne.symm hj)]

end Sys2Proof.Machine
end

section
/-! PROOFS. What AUDIO and CTRL leave unchanged (10_state R35, R71, R75). -/

namespace Sys2Proof.Machine

/-! What AUDIO leaves unchanged. -/

/-- `t` is `s` but for what AUDIO may write (10_state R35, R70 to R73, R81). -/
def AudioFrame (s t : State) : Prop :=
  t = { s with
    ch0 := { s.ch0 with st := t.ch0.st }, ch1 := { s.ch1 with st := t.ch1.st }
    an := { s.an with
      ring := t.an.ring, fifoCount := t.an.fifoCount, fill := t.an.fill, fillCount := t.an.fillCount }
    fault := t.fault, faultInfo := t.faultInfo, audioOp := t.audioOp
    host := { s.host with
      audioIn := t.host.audioIn, audioOut := t.host.audioOut, draws := t.host.draws } }

/-- A frame changes nothing of a chain but its delays. -/
theorem runChain_chain (b : Build) (k : Channel) (x : Word) :
    (runChain b k x).2 = { k with st := (runChain b k x).2.st } := by
  obtain ⟨st, h⟩ := runStages_chain b stages k x
  rw [runChain, h]

/-- A frame writes the delays of the chains it ran and the tap's storage. -/
theorem frame_audioFrame (s : State) (rest : List Word) (op : AudioOp) {k0 k1 : Channel} {a : Analysis}
    (ws : List Word) (h0 : k0 = { s.ch0 with st := k0.st }) (h1 : k1 = { s.ch1 with st := k1.st })
    (ha : a = { s.an with ring := a.ring, fifoCount := a.fifoCount, fill := a.fill, fillCount := a.fillCount }) :
    AudioFrame s (((s.takeAudio rest).setAudioOp op).frame k0 k1 a ws) :=
  State.eq_of_fields rfl rfl rfl rfl rfl rfl rfl rfl rfl rfl rfl rfl rfl rfl h0 h1 rfl rfl rfl ha rfl rfl rfl rfl

theorem AudioEffect.audioFrame {s t : State} (h : AudioEffect s t) : AudioFrame s t := by
  cases h with
  | wait => rfl
  | badHeader w rest hop => rfl
  | header n rest _ hop h =>
    rcases exec_processBlock_cases h with ⟨c, info, left, rfl⟩ | ⟨-, left, stereo, rfl⟩ <;> rfl
  | mono left x rest hop =>
    exact frame_audioFrame s rest _ _ (runChain_chain ..) rfl (tap_frame ..)
  | stereo left x y rest hop =>
    exact frame_audioFrame s rest _ _ (runChain_chain ..) (runChain_chain ..) (tap_frame ..)
  | drain left rest hop => rfl

/-- Outside a block AUDIO leaves the analysis state and the chains. -/
theorem AudioEffect.outside_block {s t : State} (h : AudioEffect s t)
    (hop : ∀ n stereo, s.audioOp ≠ .frames n stereo) : t.an = s.an ∧ t.ch0 = s.ch0 ∧ t.ch1 = s.ch1 := by
  cases h with
  | wait => exact ⟨rfl, rfl, rfl⟩
  | badHeader w rest _ => exact ⟨rfl, rfl, rfl⟩
  | header n rest _ _ h =>
    rcases exec_processBlock_cases h with ⟨c, info, left, rfl⟩ | ⟨-, left, stereo, rfl⟩ <;> exact ⟨rfl, rfl, rfl⟩
  | mono left x rest h => exact absurd h (hop _ _)
  | stereo left x y rest h => exact absurd h (hop _ _)
  | drain left rest _ => exact ⟨drainStep_an .., drainStep_ch0 .., drainStep_ch1 ..⟩

/-- In a block AUDIO waits or taps one word. -/
theorem AudioEffect.in_block {s t : State} (h : AudioEffect s t) {n : Nat} {stereo : Bool}
    (hop : s.audioOp = .frames n stereo) : t = s ∨ ∃ y, t.an = tap s.build s.an y := by
  cases h with
  | wait => exact .inl rfl
  | badHeader w rest h => cases hop.symm.trans h
  | header n rest _ h _ => cases hop.symm.trans h
  | mono left x rest h => exact .inr ⟨_, frameMono_an _ _⟩
  | stereo left x y rest h => exact .inr ⟨_, frameStereo_an _ _ _⟩
  | drain left rest h => cases hop.symm.trans h

/-- Settles O53: the frame of a step, a step outside a block, and the tap of a frame. -/
theorem audioWritesOnlyDelaysAndTheTap : Obligations.AudioWritesOnlyDelaysAndTheTap := by
  intro s t h
  have effect := audioStep_effect h
  refine ⟨effect.audioFrame, effect.outside_block, fun ⟨n, stereo, hop⟩ hne => ?_⟩
  obtain ⟨y, hy⟩ := (effect.in_block hop).resolve_left hne
  rw [hy]
  exact tap_writes s.build s.an y

/-! What CTRL leaves unchanged. -/

/-- The registers the host may write are equal, but CSTG. -/
structure SameRegisters (s t : State) : Prop where
  config : t.config = s.config
  sampleRate : t.sampleRate = s.sampleRate
  maxBlock : t.maxBlock = s.maxBlock
  params : t.params = s.params
  bounds : t.bounds = s.bounds
  floorDb : t.floorDb = s.floorDb
  respPoints : t.respPoints = s.respPoints

/-- The stream and AUDIO's progress are equal. -/
structure SameStream (s t : State) : Prop where
  audioOp : t.audioOp = s.audioOp
  audioIn : t.host.audioIn = s.host.audioIn
  audioOut : t.host.audioOut = s.host.audioOut

theorem setChan_st (s : State) {c : Ch} {k : Channel} (hk : k.st = (s.chan c).st) (d : Ch) :
    ((s.setChan c k).chan d).st = (s.chan d).st := by
  by_cases h : d = c
  · subst h
    rw [State.setChan_chan_same, hk]
  · rw [State.setChan_chan_other s c d k h]

/-- An install step writes no delay (41_filter_chain R193 to R195, R215). -/
theorem apply_st (s : State) (i : Install) (d : Ch) : ((Install.apply s i).chan d).st = (s.chan d).st := by
  cases i with
  | coef c t set => exact setChan_st s (by simp) d
  | stage c t set b => exact setChan_st s (by simp) d
  | flags c p => exact setChan_st s (k := { s.chan c with pbyp := p }) rfl d
  | bypass c tgt v => exact setChan_st s (by simp) d

theorem installStep_st (s : State) (op : BitVec 8) (todo : List Install) (d : Ch) :
    ((installStep s op todo).chan d).st = (s.chan d).st := by
  rcases todo with _ | ⟨i, _ | ⟨j, rest⟩⟩
  · cases d <;> rfl
  · rw [← apply_st s i d]
    cases d <;> rfl
  · rw [← apply_st s i d]
    cases d <;> rfl

/-- No command writes a register of the host's but CSTG. -/
theorem CommandEffect.sameRegisters {s t : State} {i : Instr} (h : CommandEffect s i t) : SameRegisters s t := by
  cases h with
  | install i op hop todo =>
    exact ⟨installStep_config .., installStep_sampleRate .., installStep_maxBlock .., installStep_params ..,
      installStep_bounds .., installStep_floorDb .., installStep_respPoints ..⟩
  | prepared t h =>
    unfold execPrepare at h
    split at h <;> exact next_inj h ▸ ⟨rfl, rfl, rfl, rfl, rfl, rfl, rfl⟩
  | _ => exact ⟨rfl, rfl, rfl, rfl, rfl, rfl, rfl⟩

/-- No command touches the stream. -/
theorem CommandEffect.sameStream {s t : State} {i : Instr} (h : CommandEffect s i t) : SameStream s t := by
  cases h with
  | install i op hop todo => exact ⟨installStep_audioOp .., by rw [installStep_host], by rw [installStep_host]⟩
  | prepared t h =>
    unfold execPrepare at h
    split at h <;> exact next_inj h ▸ ⟨rfl, rfl, rfl⟩
  | _ => exact ⟨rfl, rfl, rfl⟩

/-- Only PREPARE writes a delay. -/
theorem CommandEffect.same_st {s t : State} {i : Instr} (h : CommandEffect s i t) (hi : i ≠ .prepare) :
    t.ch0.st = s.ch0.st ∧ t.ch1.st = s.ch1.st := by
  cases h with
  | install i op hop todo => exact ⟨installStep_st s op todo .c0, installStep_st s op todo .c1⟩
  | prepared t h => exact absurd rfl hi
  | _ => exact ⟨rfl, rfl⟩

/-- Only the DESIGN commands write CSTG. -/
theorem CommandEffect.same_cstg {s t : State} {i : Instr} (h : CommandEffect s i t) :
    t.cstg = s.cstg ∨ i ∈ [.designPeak, .designLowcut, .designHighcut] := by
  cases h with
  | install i op hop todo => exact .inl (installStep_cstg ..)
  | prepared t h =>
    unfold execPrepare at h
    split at h <;> exact next_inj h ▸ .inl rfl
  | staging i hi sets op => exact .inr hi
  | _ => exact .inl rfl

/-! The words of the commands without operands. -/

theorem decodeC0_ok {w : Word} {i j : Instr} (h : decodeC0 w i = .ok j) : i = j ∧ field w 8 24 = 0#24 := by
  unfold decodeC0 at h
  split at h
  · next hz => exact ⟨Except.ok.inj h, hz⟩
  · cases h

theorem eq_of_opcode {w : Word} {n : Nat} (hop : (field w 0 8).toNat = n) (hz : field w 8 24 = 0#24) :
    w = BitVec.ofNat 32 n := by
  have hz' := congrArg BitVec.toNat hz
  simp only [field, BitVec.extractLsb'_toNat, BitVec.toNat_ofNat, Nat.shiftRight_eq_div_pow] at hop hz'
  apply BitVec.eq_of_toNat_eq
  rw [BitVec.toNat_ofNat]
  omega

/-- Only its own word decodes to PREPARE or to a DESIGN command (30_encoding R133). -/
theorem eq_encodeWord_of_decodeCommand {w : Word} {i : Instr} (h : decodeCommand w = .ok i)
    (hi : i ∈ [.prepare, .designPeak, .designLowcut, .designHighcut]) : w = encodeWord i := by
  unfold decodeCommand at h
  split at h
  case h_7 | h_8 =>
    split at h
    · cases h
      simp at hi
    · cases h
  case h_14 => cases h
  all_goals
    next hop =>
      obtain ⟨rfl, hz⟩ := decodeC0_ok h
      exact eq_of_opcode hop hz

/-! What a register write leaves unchanged. -/

theorem SameRegisters.readReg {s t : State} (h : SameRegisters s t) {r : Reg} (hr : r.access = .rw) :
    t.readReg r = s.readReg r := by
  cases r <;> simp [Reg.access] at hr <;>
    simp only [State.readReg, h.config, h.sampleRate, h.maxBlock, h.params, h.bounds, h.floorDb, h.respPoints]

theorem readReg_raise (s : State) (c : Cause) (info : Word) {r : Reg} (hr : r.access = .rw) :
    (s.raise c info).readReg r = s.readReg r :=
  SameRegisters.readReg (s := s) (t := s.raise c info) ⟨rfl, rfl, rfl, rfl, rfl, rfl, rfl⟩ hr

theorem readReg_checked {s stored : State} {ok : Bool} {a : Addr} {r : Reg} (hr : r.access = .rw)
    (h : stored.readReg r = s.readReg r) : (s.checked ok a stored).readReg r = s.readReg r := by
  unfold State.checked
  split
  · exact h
  · exact readReg_raise s _ _ hr

/-- A write to one register leaves every other writable register. -/
theorem readReg_writeReg_other (s : State) (a : Addr) (v : Word) {r r' : Reg} (hr : r.access = .rw) (hne : r ≠ r') :
    (s.writeReg a v r').readReg r = s.readReg r := by
  cases r'
  case config => cases r <;> simp [Reg.access, State.readReg, State.writeReg] at hr hne ⊢
  case sampleRate | maxBlock | boundsX | boundsY | boundsW | boundsH | floorDb | respPoints | lowcutFreq |
      highcutFreq | peakFreq | peakGainDb | peakQ | settings =>
    refine readReg_checked hr ?_
    cases r <;> simp [Reg.access, State.readReg] at hr hne ⊢
  all_goals exact readReg_raise s _ _ hr

/-- What a register write leaves: AUDIO, the chains and CSTG. -/
structure WriteFrame (s t : State) : Prop extends SameStream s t where
  ch0 : t.ch0 = s.ch0
  ch1 : t.ch1 = s.ch1
  cstg : t.cstg = s.cstg

theorem WriteFrame.raise (s : State) (c : Cause) (info : Word) : WriteFrame s (s.raise c info) :=
  ⟨⟨rfl, rfl, rfl⟩, rfl, rfl, rfl⟩

theorem WriteFrame.checked {s stored : State} {ok : Bool} {a : Addr} (h : WriteFrame s stored) :
    WriteFrame s (s.checked ok a stored) := by
  unfold State.checked
  split
  · exact h
  · exact .raise ..

theorem writeReg_frame (s : State) (a : Addr) (v : Word) (r : Reg) : WriteFrame s (s.writeReg a v r) := by
  cases r
  case config => exact ⟨⟨rfl, rfl, rfl⟩, rfl, rfl, rfl⟩
  case sampleRate | maxBlock | boundsX | boundsY | boundsW | boundsH | floorDb | respPoints | lowcutFreq |
      highcutFreq | peakFreq | peakGainDb | peakQ | settings =>
    exact .checked ⟨⟨rfl, rfl, rfl⟩, rfl, rfl, rfl⟩
  all_goals exact .raise ..

/-- Settles O55: by the kinds of CTRL operation; of the writes to CMD only PREPARE's word writes a delay. -/
theorem ctrlNeverWritesDelaysOutsidePrepare : Obligations.CtrlNeverWritesDelaysOutsidePrepare := by
  intro i s t hlane h
  suffices hs : SameStream s t ∧ (i = .prepare ∨ i = .wr 0x00018#20 0x00000001#32 ∨
      (t.ch0.st = s.ch0.st ∧ t.ch1.st = s.ch1.st)) from
    ⟨hs.1.audioOp, hs.1.audioIn, hs.1.audioOut, hs.2⟩
  have command {i t} (h : CommandEffect s i t) : i = .prepare ∨ t.ch0.st = s.ch0.st ∧ t.ch1.st = s.ch1.st :=
    or_iff_not_imp_left.2 h.same_st
  cases i with
  | processBlock n => exact absurd rfl hlane
  | rd a =>
    rcases exec_rd_cases h with ⟨c, info, rfl⟩ | ⟨w, rfl⟩ <;> exact ⟨⟨rfl, rfl, rfl⟩, .inr (.inr ⟨rfl, rfl⟩)⟩
  | wr a v =>
    rcases exec_wr_cases s t a v h with ⟨c, info, rfl⟩ | ⟨rfl, i, hd, hi, h⟩ | ⟨l, -, hrw, rfl⟩
    · exact ⟨⟨rfl, rfl, rfl⟩, .inr (.inr ⟨rfl, rfl⟩)⟩
    · have effect := exec_command_effect hi h
      refine ⟨effect.sameStream, .inr ?_⟩
      rcases command effect with rfl | hst
      · exact .inl (congrArg _ (eq_encodeWord_of_decodeCommand hd (by simp)))
      · exact .inr hst
    · cases l with
      | reg r =>
        have frame := writeReg_frame s a v r
        exact ⟨frame.toSameStream, .inr (.inr ⟨congrArg Channel.st frame.ch0, congrArg Channel.st frame.ch1⟩)⟩
      | cstg j i => exact ⟨⟨rfl, rfl, rfl⟩, .inr (.inr ⟨rfl, rfl⟩)⟩
      | _ => cases hrw
  | _ =>
    have effect := exec_command_effect rfl h
    exact ⟨effect.sameStream, (command effect).imp_right .inr⟩

/-- A write to a mapped address changes the register of that address, or CSTG in its range. -/
theorem writeLoc_registers {s : State} {a : Addr} {v : Word} {l : Loc} (hl : s.mapped a = some l)
    (hrw : l.access = .rw) :
    (∀ r : Reg, r.access = .rw → (s.writeLoc a v l).readReg r = s.readReg r ∨ a = r.addr) ∧
      ((s.writeLoc a v l).cstg = s.cstg ∨ 0x0A0 ≤ a.toNat ∧ a.toNat < 0x0F0) := by
  cases l with
  | reg r' =>
    refine ⟨fun r hr => ?_, .inl (writeReg_frame s a v r').cstg⟩
    by_cases hne : r = r'
    · exact .inr (hne ▸ addr_of_mapped s a r' hl)
    · exact .inl (readReg_writeReg_other s a v hr hne)
  | cstg j i =>
    exact ⟨fun r hr => .inl (SameRegisters.readReg ⟨rfl, rfl, rfl, rfl, rfl, rfl, rfl⟩ hr),
      .inr (range_of_mapped_cstg s a j i hl)⟩
  | _ => cases hrw

/-- What an instruction changes of the registers the host may write: the one its address names; of CSTG: by its
addresses and the DESIGN commands. -/
theorem exec_registers {i : Instr} {s t : State} (h : exec i s = .next t) :
    (∀ r : Reg, r.access = .rw → t.readReg r = s.readReg r ∨ ∃ v, i = .wr r.addr v) ∧
      (t.cstg = s.cstg ∨ (∃ a v, i = .wr a v ∧ 0x0A0 ≤ a.toNat ∧ a.toNat < 0x0F0) ∨
        i ∈ [.designPeak, .designLowcut, .designHighcut] ∨
        ∃ v ∈ [3#32, 4#32, 5#32], i = .wr 0x00018#20 v) := by
  have kept (hregs : SameRegisters s t) (r : Reg) (hr : r.access = .rw) :
      t.readReg r = s.readReg r ∨ ∃ v, i = .wr r.addr v := .inl (hregs.readReg hr)
  cases i with
  | processBlock n =>
    rcases exec_processBlock_cases h with ⟨c, info, left, rfl⟩ | ⟨-, left, stereo, rfl⟩ <;>
      exact ⟨kept ⟨rfl, rfl, rfl, rfl, rfl, rfl, rfl⟩, .inl rfl⟩
  | rd a =>
    rcases exec_rd_cases h with ⟨c, info, rfl⟩ | ⟨w, rfl⟩ <;>
      exact ⟨kept ⟨rfl, rfl, rfl, rfl, rfl, rfl, rfl⟩, .inl rfl⟩
  | wr a v =>
    rcases exec_wr_cases s t a v h with ⟨c, info, rfl⟩ | ⟨rfl, i, hd, hi, h⟩ | ⟨l, hl, hrw, rfl⟩
    · exact ⟨kept ⟨rfl, rfl, rfl, rfl, rfl, rfl, rfl⟩, .inl rfl⟩
    · have effect := exec_command_effect hi h
      refine ⟨kept effect.sameRegisters, effect.same_cstg.imp_right fun hdesign => .inr (.inr ⟨v, ?_, rfl⟩)⟩
      rw [eq_encodeWord_of_decodeCommand hd (List.mem_cons_of_mem _ hdesign)]
      exact List.mem_map_of_mem (f := encodeWord) hdesign
    · obtain ⟨hregs, hcstg⟩ := writeLoc_registers (v := v) hl hrw
      exact ⟨fun r hr => (hregs r hr).imp_right fun ha => ⟨v, by rw [ha]⟩,
        hcstg.imp_right fun ha => .inl ⟨a, v, rfl, ha⟩⟩
  | _ =>
    have effect := exec_command_effect rfl h
    exact ⟨kept effect.sameRegisters, effect.same_cstg.imp_right fun hi => .inr (.inl hi)⟩

/-- Settles O57: the registers it names are those the host may write. -/
theorem writableRegistersChangeOnlyByTheirOwnWrites :
    Obligations.WritableRegistersChangeOnlyByTheirOwnWrites := by
  intro i s t h
  obtain ⟨hregs, hcstg⟩ := exec_registers h
  have writable : ∀ r ∈ ([.config, .sampleRate, .maxBlock, .lowcutFreq, .highcutFreq, .peakFreq, .peakGainDb,
      .peakQ, .settings, .boundsX, .boundsY, .boundsW, .boundsH, .floorDb, .respPoints] : List Reg),
      r.access = .rw := by decide
  exact ⟨fun r hr => hregs r (writable r hr), hcstg⟩

end Sys2Proof.Machine
end

section
/-! PROOFS. Reads by address (20_memory R104, R105): what each range of the map names, the fields of the composed
registers as numbers, and the addresses that name nothing. -/

namespace Sys2Proof.Machine

/-! What each window of the map names (10_state R61 to R67). -/

section Windows

variable (b : Build) {a : Nat}

theorem locate_coefRange (ha : 0x1000 ≤ a) (ha' : a < 0x1168) :
    locate b a = some (.coef (chOf ((a - 0x1000) / 4 / 45)) (Fin.ofNat 9 ((a - 0x1000) / 4 / 5))
      (Fin.ofNat 5 ((a - 0x1000) / 4))) := by
  simp (disch := omega) only [locate, if_pos, if_neg]

theorem locate_delayRange (ha : 0x1400 ≤ a) (ha' : a < 0x1490) :
    locate b a = some (.delay (chOf ((a - 0x1400) / 4 / 18)) (Fin.ofNat 9 ((a - 0x1400) / 4 / 2))
      (Fin.ofNat 2 ((a - 0x1400) / 4))) := by
  simp (disch := omega) only [locate, if_pos, if_neg]

theorem locate_gapAfterCoef (ha : 0x1168 ≤ a) (ha' : a < 0x1400) : locate b a = none := by
  simp (disch := omega) only [locate, if_pos, if_neg]

theorem locate_gapAfterDelay (ha : 0x1490 ≤ a) (ha' : a < 0x10000) : locate b a = none := by
  simp (disch := omega) only [locate, if_pos, if_neg]

theorem locate_fftOutRange (ha : 0x10000 ≤ a) (ha' : a < 0x20000) :
    locate b a = if (a - 0x10000) / 4 < b.bins then some (.fftOut ((a - 0x10000) / 4)) else none := by
  simp (disch := omega) only [locate, if_pos, if_neg]

theorem locate_pathRange (ha : 0x20000 ≤ a) (ha' : a < 0x30000) :
    locate b a = if (a - 0x20000) / 4 < 2 * b.bins then some (.path ((a - 0x20000) / 4)) else none := by
  simp (disch := omega) only [locate, if_pos, if_neg]

theorem locate_respDbRange (ha : 0x30000 ≤ a) (ha' : a < 0x40000) :
    locate b a = if (a - 0x30000) / 4 < b.respMax then some (.respDb ((a - 0x30000) / 4)) else none := by
  simp (disch := omega) only [locate, if_pos, if_neg]

theorem locate_respPathRange (ha : 0x40000 ≤ a) (ha' : a < 0x50000) :
    locate b a = if (a - 0x40000) / 4 < 2 * b.respMax then some (.respPath ((a - 0x40000) / 4)) else none := by
  simp (disch := omega) only [locate, if_pos, if_neg]

theorem locate_rbRange (ha : 0x50000 ≤ a) :
    locate b a = if (a - 0x50000) / 4 < b.fftSize then some (.rb ((a - 0x50000) / 4)) else none := by
  simp (disch := omega) only [locate, if_pos, if_neg]

end Windows
/-! The entries of the windows, each at its address. -/

theorem Ch.num_lt (c : Ch) : c.num < 2 := by cases c <;> decide

theorem chOf_num (c : Ch) : chOf c.num = c := by cases c <;> rfl

theorem locate_coefEntry (b : Build) (c : Ch) (t : Stage) (i : Fin 5) :
    locate b (0x1000 + 4 * ((9 * c.num + t) * 5 + i)) = some (.coef c t i) := by
  have hc := c.num_lt
  have hw : (0x1000 + 4 * ((9 * c.num + t) * 5 + i) - 0x1000) / 4 = (9 * c.num + t) * 5 + i := by omega
  have hch : ((9 * c.num + t) * 5 + i) / 45 = c.num := by omega
  have ht : Fin.ofNat 9 (((9 * c.num + t) * 5 + i) / 5) = t := Fin.ext (by simp only [Fin.ofNat]; omega)
  have hi : Fin.ofNat 5 ((9 * c.num + t) * 5 + i) = i := Fin.ext (by simp only [Fin.ofNat]; omega)
  rw [locate_coefRange b (by omega) (by omega), hw, hch, chOf_num, ht, hi]

theorem locate_delayEntry (b : Build) (c : Ch) (t : Stage) (i : Fin 2) :
    locate b (0x1400 + 4 * ((9 * c.num + t) * 2 + i)) = some (.delay c t i) := by
  have hc := c.num_lt
  have hw : (0x1400 + 4 * ((9 * c.num + t) * 2 + i) - 0x1400) / 4 = (9 * c.num + t) * 2 + i := by omega
  have hch : ((9 * c.num + t) * 2 + i) / 18 = c.num := by omega
  have ht : Fin.ofNat 9 (((9 * c.num + t) * 2 + i) / 2) = t := Fin.ext (by simp only [Fin.ofNat]; omega)
  have hi : Fin.ofNat 2 ((9 * c.num + t) * 2 + i) = i := Fin.ext (by simp only [Fin.ofNat]; omega)
  rw [locate_delayRange b (by omega) (by omega), hw, hch, chOf_num, ht, hi]

/-- So FFT_OUT and PATH fit in their ranges (10_state R63, R64). -/
theorem bins_le {b : Build} (hb : b.legal = true) : b.bins ≤ 8192 := by
  simp only [Build.legal, Bool.and_eq_true, decide_eq_true_eq] at hb
  have hsize : b.fftSize ≤ 2 ^ 14 := Nat.pow_le_pow_right (by decide) (by omega)
  unfold Build.bins
  omega

theorem respMax_eq {b : Build} (hb : b.legal = true) : b.respMax = 8192 := by
  simp only [Build.legal, Bool.and_eq_true, beq_iff_eq] at hb
  obtain ⟨⟨-, hmax⟩, -⟩ := hb
  exact hmax

section Entries

variable {b : Build} (hb : b.legal = true) {w : Nat}
include hb

theorem locate_fftOutEntry (hw : w < b.bins) : locate b (0x10000 + 4 * w) = some (.fftOut w) := by
  have hbins := bins_le hb
  have hw' : (0x10000 + 4 * w - 0x10000) / 4 = w := by omega
  rw [locate_fftOutRange b (by omega) (by omega), hw', if_pos hw]

theorem locate_pathEntry (hw : w < 2 * b.bins) : locate b (0x20000 + 4 * w) = some (.path w) := by
  have hbins := bins_le hb
  have hw' : (0x20000 + 4 * w - 0x20000) / 4 = w := by omega
  rw [locate_pathRange b (by omega) (by omega), hw', if_pos hw]

theorem locate_respDbEntry (hw : w < b.respMax) : locate b (0x30000 + 4 * w) = some (.respDb w) := by
  have hmax := respMax_eq hb
  have hw' : (0x30000 + 4 * w - 0x30000) / 4 = w := by omega
  rw [locate_respDbRange b (by omega) (by omega), hw', if_pos hw]

theorem locate_respPathEntry (hw : w < 2 * b.respMax) : locate b (0x40000 + 4 * w) = some (.respPath w) := by
  have hmax := respMax_eq hb
  have hw' : (0x40000 + 4 * w - 0x40000) / 4 = w := by omega
  rw [locate_respPathRange b (by omega) (by omega), hw', if_pos hw]

end Entries

theorem locate_rbEntry {b : Build} {w : Nat} (hw : w < b.fftSize) : locate b (0x50000 + 4 * w) = some (.rb w) := by
  have hw' : (0x50000 + 4 * w - 0x50000) / 4 = w := by omega
  rw [locate_rbRange b (by omega), hw', if_pos hw]

/-! The composed registers as numbers (10_state R37, R59, R60). -/

theorem toNat_append_eq_add {m n : Nat} (x : BitVec m) (y : BitVec n) :
    (x ++ y).toNat = x.toNat * 2 ^ n + y.toNat := by
  rw [BitVec.toNat_append, ← Nat.shiftLeft_add_eq_or_of_lt y.isLt, Nat.shiftLeft_eq]

theorem status_eq (s : State) : s.status = BitVec.ofNat 32
    (s.prepared.toNat * 2 ^ 0 + s.dirty.toNat * 2 ^ 1 + s.stereoActive.toNat * 2 ^ 2 +
      s.an.fftOutValid.toNat * 2 ^ 3 + s.an.pathValid.toNat * 2 ^ 4 + s.curve.valid.toNat * 2 ^ 5) := by
  refine BitVec.eq_of_toNat_eq ?_
  simp only [State.status, toNat_append_eq_add, BitVec.toNat_ofBool, BitVec.toNat_ofNat]
  grind [Bool.toNat_le]

theorem flagsWord_eq (k : Channel) : k.flagsWord = BitVec.ofNat 32
    (k.pbyp[0].toNat * 2 ^ 0 + k.pbyp[1].toNat * 2 ^ 1 + k.pbyp[2].toNat * 2 ^ 2 + (k.sbyp 0).toNat * 2 ^ 4 +
      (k.sbyp 1).toNat * 2 ^ 5 + (k.sbyp 2).toNat * 2 ^ 6 + (k.sbyp 3).toNat * 2 ^ 7 + (k.sbyp 5).toNat * 2 ^ 8 +
      (k.sbyp 6).toNat * 2 ^ 9 + (k.sbyp 7).toNat * 2 ^ 10 + (k.sbyp 8).toNat * 2 ^ 11) := by
  refine BitVec.eq_of_toNat_eq ?_
  simp only [Channel.flagsWord, Channel.sbyp, toNat_append_eq_add, BitVec.toNat_ofBool, BitVec.toNat_ofNat]
  grind [Bool.toNat_le]

theorem build0Word_eq {b : Build} (hb : b.legal = true) : build0Word b = BitVec.ofNat 32
    (b.fftOrder + 2 ^ 8 * b.fifoCap + 2 ^ 16 * b.fftqCap + 2 ^ 24 * b.pathStride) := by
  simp only [Build.legal, Bool.and_eq_true, decide_eq_true_eq] at hb
  refine BitVec.eq_of_toNat_eq ?_
  simp only [build0Word, toNat_append_eq_add, BitVec.toNat_ofNat]
  omega

theorem build1Word_eq {b : Build} (hb : b.legal = true) : build1Word b = BitVec.ofNat 32
    (b.fifoBlock + 2 ^ 16 * b.respMax) := by
  have hblock := fifoBlock_le hb
  have hsize := fftSize_eq hb
  have hbins := bins_le hb
  have hmax := respMax_eq hb
  refine BitVec.eq_of_toNat_eq ?_
  simp only [build1Word, toNat_append_eq_add, BitVec.toNat_ofNat]
  omega

/-! Reads, address by address (20_memory R105). -/

theorem exec_rd_reg (s : State) (r : Reg) : exec (.rd r.addr) s = .next (s.answer (s.readReg r)) :=
  exec_rd_mapped s _ _ (mapped_addr s r)

theorem exec_rd_located {s : State} {n : Nat} {l : Loc} (hn : n < 2 ^ 20) (h4 : n % 4 = 0)
    (hl : locate s.build n = some l) :
    exec (.rd (BitVec.ofNat 20 n)) s = .next (s.answer (s.readLoc l)) := by
  refine exec_rd_mapped s _ l ?_
  rw [State.mapped, BitVec.toNat_ofNat, Nat.mod_eq_of_lt hn, if_pos h4, hl]

/-- A point of the path (10_state R64): half 0 is x, half 1 is y. -/
theorem exec_rd_pathPoint {s : State} (hb : s.build.legal = true) {p half : Nat} (hp : p < s.build.bins)
    (hhalf : half < 2) :
    exec (.rd (BitVec.ofNat 20 (0x20000 + 8 * p + 4 * half))) s =
      .next (s.answer (if p < s.an.pathLen then s.an.path.read (2 * p + half) else 0#32)) := by
  have hbins := bins_le hb
  have haddr : 0x20000 + 8 * p + 4 * half = 0x20000 + 4 * (2 * p + half) := by omega
  have hlen : 2 * p + half < 2 * s.an.pathLen ↔ p < s.an.pathLen := by omega
  rw [haddr, exec_rd_located (by omega) (by omega) (locate_pathEntry hb (by omega))]
  simp only [State.readLoc, hlen]

/-- A point of the response path (10_state R66): half 0 is x, half 1 is y. -/
theorem exec_rd_respPoint {s : State} (hb : s.build.legal = true) {p half : Nat} (hp : p < s.build.respMax)
    (hhalf : half < 2) :
    exec (.rd (BitVec.ofNat 20 (0x40000 + 8 * p + 4 * half))) s =
      .next (s.answer (if p < s.curve.len then s.curve.pt.read (2 * p + half) else 0#32)) := by
  have hmax := respMax_eq hb
  have haddr : 0x40000 + 8 * p + 4 * half = 0x40000 + 4 * (2 * p + half) := by omega
  have hlen : 2 * p + half < 2 * s.curve.len ↔ p < s.curve.len := by omega
  rw [haddr, exec_rd_located (by omega) (by omega) (locate_respPathEntry hb (by omega))]
  simp only [State.readLoc, hlen]

/-- Settles O15: the map names the register or the entry at each address, and the read answers its value. -/
theorem readsOfMappedAddressesAnswerTheirValues : Obligations.ReadsOfMappedAddressesAnswerTheirValues := by
  intro s hb
  have hbins := bins_le hb
  have hmax := respMax_eq hb
  refine ⟨?_, fun j i => exec_rd_mapped s _ _ (mapped_cstgAddr s j i),
    fun c t i => ?_, fun c t => ⟨?_, ?_⟩, fun k hk => ?_, fun p hp => ⟨?_, ?_⟩, fun i hi => ⟨?_, ?_, ?_⟩,
    fun n hn => ?_⟩
  · intro bit flags status
    have rows : ∀ e ∈ regs.map fun r => (r.addr, s.readReg r), exec (.rd e.1) s = .next (s.answer e.2) :=
      List.forall_mem_map.mpr fun r _ => exec_rd_reg s r
    simp only [regs, List.map, State.readReg, status_eq, flagsWord_eq, build0Word_eq hb, build1Word_eq hb] at rows
    exact rows
  · have hc := c.num_lt
    exact exec_rd_located (by omega) (by omega) (locate_coefEntry s.build c t i)
  · have hc := c.num_lt
    exact exec_rd_located (by omega) (by omega) (locate_delayEntry s.build c t 0)
  · have hc := c.num_lt
    exact exec_rd_located (by omega) (by omega) (locate_delayEntry s.build c t 1)
  · exact exec_rd_located (by omega) (by omega) (locate_fftOutEntry hb hk)
  · exact exec_rd_pathPoint hb hp (half := 0) (by decide)
  · exact exec_rd_pathPoint hb hp (half := 1) (by decide)
  · exact exec_rd_located (by omega) (by omega) (locate_respDbEntry hb hi)
  · exact exec_rd_respPoint hb hi (half := 0) (by decide)
  · exact exec_rd_respPoint hb hi (half := 1) (by decide)
  · have hsize := fftSize_eq hb
    exact exec_rd_located (by omega) (by omega) (locate_rbEntry hn)

/-! Unmapped addresses (20_memory R104). -/

/-- No register stands in a hole of the register rows (10_state R33). -/
theorem Reg.offset_not_hole (r : Reg) :
    ¬ (0x030 ≤ r.offset ∧ r.offset < 0x040 ∨ 0x058 ≤ r.offset ∧ r.offset < 0x060 ∨
      0x07C ≤ r.offset ∧ r.offset < 0x080 ∨ 0x0F8 ≤ r.offset) := by
  cases r <;> decide

theorem locate_hole (b : Build) {a : Nat} (h : 0x030 ≤ a ∧ a < 0x040 ∨ 0x058 ≤ a ∧ a < 0x060 ∨
    0x07C ≤ a ∧ a < 0x080 ∨ 0x0F8 ≤ a ∧ a < 0x1000) : locate b a = none := by
  refine Option.eq_none_iff_forall_ne_some.mpr fun l hl => ?_
  rcases locate_low b a l (by omega) hl with ⟨hlo, hhi, -⟩ | ⟨r, rfl, -⟩
  · omega
  · have := r.offset_not_hole
    omega

theorem mapped_eq_none {s : State} {a : Addr} (h : a.toNat % 4 = 0 → locate s.build a.toNat = none) :
    s.mapped a = none := by
  unfold State.mapped
  split
  · next h4 => exact h h4
  · rfl

theorem exec_rd_unmapped {s : State} {a : Addr} (h : s.mapped a = none) :
    exec (.rd a) s = .next ((s.raise .badAccess (a.setWidth 32)).answer 0#32) := by
  simp only [exec, execRd, h]

theorem exec_wr_unmapped {s : State} {a : Addr} (v : Word) (h : s.mapped a = none) :
    exec (.wr a v) s = .next (s.raise .badAccess (a.setWidth 32)) := by
  simp only [exec, execWr, h]

/-- Settles O16: the map names nothing at each of these addresses. -/
theorem unmappedAccessesRaiseBadAccess : Obligations.UnmappedAccessesRaiseBadAccess := by
  intro s a v hb h
  have hbins := bins_le hb
  have hmax := respMax_eq hb
  have hnone : s.mapped a = none := by
    refine mapped_eq_none fun h4 => ?_
    rcases h with hmis | hhole | hhole | hhole | hhole | ⟨hlo, hhi⟩ | ⟨hlo, hhi⟩ | ⟨hlo, hhi⟩ | ⟨hlo, hhi⟩ |
      ⟨hlo, hhi⟩ | hlo
    · exact absurd h4 hmis
    · exact locate_hole _ (.inl hhole)
    · exact locate_hole _ (.inr (.inl hhole))
    · exact locate_hole _ (.inr (.inr (.inl hhole)))
    · exact locate_hole _ (.inr (.inr (.inr hhole)))
    · exact locate_gapAfterCoef _ hlo hhi
    · exact locate_gapAfterDelay _ hlo hhi
    · rw [locate_fftOutRange _ (by omega) hhi, if_neg (by omega)]
    · rw [locate_pathRange _ (by omega) hhi, if_neg (by omega)]
    · rw [locate_respDbRange _ (by omega) hhi, if_neg (by omega)]
    · rw [locate_rbRange _ (by omega), if_neg (by omega)]
  exact ⟨exec_rd_unmapped hnone, exec_wr_unmapped v hnone⟩

end Sys2Proof.Machine
end

section
/-! PROOFS. The agents' turns and the operations in progress (20_memory R110, R111; 60_exceptions R348). -/

namespace Sys2Proof.Machine

/-! Inside an operation. -/

/-- The result of a completed command with no flag set (10_state R40). -/
theorem resultWord_ok (op : BitVec 8) : resultWord op true false false = 0#16 ++ op ++ 0x01#8 := by
  refine BitVec.eq_of_toNat_eq ?_
  simp only [resultWord, toNat_append_eq_add, BitVec.toNat_ofBool, BitVec.toNat_ofNat]
  simp only [Bool.toNat_true, Bool.toNat_false]
  omega

theorem installStep_cons (s : State) (op : BitVec 8) (i : Install) (rest : List Install) :
    installStep s op (i :: rest) = if rest = [] then ((Install.apply s i).setCtrlOp none).result op true
      else (Install.apply s i).setCtrlOp (some ⟨op, rest⟩) := by
  cases rest <;> rfl

theorem framesLeft_pred (n : Nat) (stereo : Bool) :
    framesLeft (n - 1) stereo = if n ≤ 1 then .header else .frames (n - 1) stereo := by
  simp only [framesLeft, Nat.sub_eq_zero_iff_le]

theorem drainLeft_pred (n : Nat) : drainLeft (n - 1) = if n ≤ 1 then .header else .drain (n - 1) := by
  simp only [drainLeft, Nat.sub_eq_zero_iff_le]

/-- With no stream word AUDIO waits. -/
theorem audioStep_idle (s : State) (h : s.host.audioIn = []) : audioStep s = .next s := by
  unfold audioStep
  rcases s.audioOp with _ | ⟨n, _ | _⟩ | n <;> simp only [h]

/-- With half a stereo frame AUDIO waits (log 22). -/
theorem audioStep_halfFrame (s : State) (n : Nat) (x : Word) (hop : s.audioOp = .frames n true)
    (h : s.host.audioIn = [x]) : audioStep s = .next s := by
  simp only [audioStep, hop, h]

/-! Turns of one agent. -/

/-- The outcome of going on from a next state. -/
def andThen (f : State → Result) : Result → Result
  | .next s => f s
  | .fault r => .fault r
  | .refused r => .refused r

/-- A run of an agent, whose steps do not look at the schedule, is the run of the machine over its turns. -/
theorem stepRun_turns {turn : Turn} {run : Nat → State → Result} (hzero : ∀ s, run 0 s = .next s)
    (hsucc : ∀ n s, run (n + 1) s = andThen (run n) (turnStep s turn))
    (hturn : ∀ l s, turnStep (s.withSchedule l) turn = mapNext (·.withSchedule l) (turnStep s turn))
    (n : Nat) (later : List Turn) (s : State) :
    stepRun n (s.withSchedule (List.replicate n turn ++ later)) = mapNext (·.withSchedule later) (run n s) := by
  induction n generalizing s with
  | zero => rw [hzero]; rfl
  | succ n ih =>
    have hstep : step (s.withSchedule (List.replicate (n + 1) turn ++ later)) =
        mapNext (·.withSchedule (List.replicate n turn ++ later)) (turnStep s turn) := hturn _ s
    rw [hsucc, stepRun, hstep]
    cases turnStep s turn with
    | next u => exact ih u
    | fault r => rfl
    | refused r => rfl

/-- Settles O59: each step is its agent's, and the turns of one agent are a run of it. -/
theorem agentsAdvanceTheOperationInProgress : Obligations.AgentsAdvanceTheOperationInProgress := by
  refine ⟨fun s => ⟨fun op i rest h => ?_, fun n x rest hop h => ?_, fun n x y rest hop h => ?_,
    fun n x rest hop h => ⟨Config.freeWord s.host.draws, ?_⟩, audioStep_idle s, audioStep_halfFrame s⟩,
    fun n s t later => ⟨fun hs h => ?_, fun hs h => ?_⟩⟩
  · rw [ctrlStep_installs s _ h, installStep_cons, ← resultWord_ok]
    rfl
  · rw [audioStep_mono s n x rest hop h, framesLeft_pred]
    rfl
  · rw [audioStep_stereo s n x y rest hop h, framesLeft_pred]
    rfl
  · rw [audioStep_drain s n x rest hop h, drainStep, drainLeft_pred]
    rfl
  · have run := stepRun_turns (turn := .ctrl) (run := ctrlRun) (fun _ => rfl) (fun _ _ => rfl)
      ctrlStep_withSchedule n later s
    rw [← hs, h] at run
    exact run
  · have run := stepRun_turns (turn := .audio) (run := audioRun) (fun _ => rfl) (fun _ _ => rfl)
      audioStep_withSchedule n later s
    rw [← hs, h] at run
    exact run

/-! Words that are no header and no access (30_encoding R136, R141). -/

theorem field_toNat (w : Word) (lo n : Nat) : (field w lo n).toNat = w.toNat / 2 ^ lo % 2 ^ n := by
  rw [field, BitVec.extractLsb'_toNat, Nat.shiftRight_eq_div_pow]

theorem field_eq_iff (w : Word) (lo : Nat) {n : Nat} (v : BitVec n) :
    field w lo n = v ↔ w.toNat / 2 ^ lo % 2 ^ n = v.toNat := by
  rw [← BitVec.toNat_inj, field_toNat]

theorem takeHeader_illegal (s : State) {w : Word} (h : w.toNat % 256 ≠ 1 ∨ w.toNat / 2 ^ 8 % 256 ≠ 0) :
    takeHeader w s = .next (s.raise .badStream w) := by
  unfold takeHeader decodeStream
  by_cases hop : field w 0 8 = 1#8
  · have hzero : field w 8 8 ≠ 0#8 := by
      rw [field_eq_iff, BitVec.toNat_ofNat] at hop
      rw [ne_eq, field_eq_iff, BitVec.toNat_ofNat]
      omega
    simp only [hop, hzero, ne_eq, not_true_eq_false, not_false_eq_true, if_true, if_false]
  · simp only [hop, ne_eq, not_false_eq_true, if_true]

/-- A descriptor that decodes is an access of the address in its low bits, its W bit telling which. -/
theorem decodeBus_ok {w data : Word} {i : Instr} (h : decodeBus w data = .ok i) :
    field w 23 9 = 0#9 ∧ field w 21 2 = 2#2 ∧ (field w 20 1 = 0#1 ∧ i = .rd (field w 0 20) ∨
      field w 20 1 ≠ 0#1 ∧ i = .wr (field w 0 20) data) := by
  unfold decodeBus at h
  split at h
  · cases h
  next hzero =>
  split at h
  · cases h
  next hsize =>
  refine ⟨not_not.mp hzero, not_not.mp hsize, ?_⟩
  split at h
  · next hread => exact .inl ⟨hread, (Except.ok.inj h).symm⟩
  · next hwrite => exact .inr ⟨hwrite, (Except.ok.inj h).symm⟩

/-- A descriptor that does not decode and one whose address is misaligned have the same effect (log 17). -/
theorem performTransaction_illegal (s : State) (d : Transaction)
    (h : d.desc.toNat / 2 ^ 21 % 4 ≠ 2 ∨ d.desc.toNat % 4 ≠ 0 ∨ 2 ^ 23 ≤ d.desc.toNat) :
    performTransaction d s = .next (badDescriptor s d.desc) := by
  cases hd : decodeBus d.desc d.data with
  | error r => simp only [performTransaction, hd]
  | ok i =>
    obtain ⟨hzero, hsize, haccess⟩ := decodeBus_ok hd
    have hlt := d.desc.isLt
    have hmapped : s.mapped (field d.desc 0 20) = none := mapped_eq_none fun h4 => by
      rw [field_toNat] at h4
      rw [field_eq_iff, BitVec.toNat_ofNat] at hzero hsize
      omega
    rw [performTransaction_ok s d i hd]
    rcases haccess with ⟨hread, rfl⟩ | ⟨hwrite, rfl⟩
    · rw [exec_rd_unmapped hmapped, badDescriptor, if_pos hread]
    · rw [exec_wr_unmapped _ hmapped, badDescriptor, if_neg hwrite]

/-- Its address as information, and a word returned where its W bit is 0 (log 19). -/
theorem badDescriptor_eq (s : State) (w : Word) :
    badDescriptor s w = if w.toNat / 2 ^ 20 % 2 = 0 then (s.raise .badAccess (w &&& 0x000FFFFF#32)).answer 0#32
      else s.raise .badAccess (w &&& 0x000FFFFF#32) := by
  have hinfo : (field w 0 20).setWidth 32 = w &&& 0x000FFFFF#32 := by
    refine BitVec.eq_of_toNat_eq ?_
    have hmask : (w &&& 0x000FFFFF#32).toNat = w.toNat % 2 ^ 20 := Nat.and_two_pow_sub_one_eq_mod w.toNat 20
    rw [BitVec.toNat_setWidth, field_toNat, hmask]
    omega
  have hread : field w 20 1 = 0#1 ↔ w.toNat / 2 ^ 20 % 2 = 0 := field_eq_iff w 20 0#1
  simp only [badDescriptor, hinfo, hread]

/-! The turn. -/

theorem ctrlReady_iff (s : State) : s.ctrlReady = true ↔ s.ctrlOp ≠ none ∨ s.host.ctrlIn ≠ [] := by
  simp [State.ctrlReady, Option.isSome_iff_ne_none]

/-- The words AUDIO's next step takes (20_memory R111, log 22). -/
def AudioOp.wordsNeeded : AudioOp → Nat
  | .header => 1
  | .frames _ stereo => frameWords stereo
  | .drain _ => 1

theorem AudioOp.wordsNeeded_pos (o : AudioOp) : 0 < o.wordsNeeded := by
  cases o with
  | frames left stereo => cases stereo <;> simp [wordsNeeded, frameWords]
  | _ => exact Nat.one_pos

theorem audioReady_iff (s : State) : s.audioReady = true ↔ s.audioOp.wordsNeeded ≤ s.host.audioIn.length := by
  cases hop : s.audioOp with
  | frames left stereo => simp [State.audioReady, AudioOp.wordsNeeded, hop]
  | _ => simp [State.audioReady, AudioOp.wordsNeeded, hop, Nat.one_le_iff_ne_zero]

section NoTurn

variable {s : State} (h : s.host.schedule = [])
include h

theorem step_onlyCtrl (hc : s.ctrlReady = true) (ha : ¬ s.audioReady = true) : step s = ctrlStep s := by
  simp only [step_free s h, freeStep, hc, ha]

theorem step_onlyAudio (hc : ¬ s.ctrlReady = true) (ha : s.audioReady = true) : step s = audioStep s := by
  simp only [step_free s h, freeStep, hc, ha]

theorem step_either (hc : s.ctrlReady = true) (ha : s.audioReady = true) :
    step s = ctrlStep (s.setHost { s.host with draws := s.host.draws + 1 }) ∨
      step s = audioStep (s.setHost { s.host with draws := s.host.draws + 1 }) := by
  simp only [step_free s h, freeStep, hc, ha]
  exact ite_eq_or_eq _ _ _

theorem step_neither (hc : ¬ s.ctrlReady = true) (ha : ¬ s.audioReady = true) : step s = .next s := by
  simp only [step_free s h, freeStep, hc, ha]

end NoTurn

/-- Settles O58: a turn is a step of its agent, and an agent's step takes the oldest word. -/
theorem stepRunsTheDecodedInstruction : Obligations.StepRunsTheDecodedInstruction := by
  intro s i later
  refine ⟨step_ctrl s later, step_audio s later, fun d rest hs hop hq hd => ?_, fun w rest hs hop hq hd => ?_,
    fun w rest hop hq hw => ?_, fun d rest hop hq hd => ?_, ctrlStep_idle s, audioStep_idle s, fun hs => ?_,
    fun hq hop hw hs => ?_⟩
  · calc step s = ctrlStep (s.withSchedule later) := step_ctrl s later hs
      _ = performTransaction d _ := ctrlStep_transaction (s.withSchedule later) d rest hop hq
      _ = exec i _ := performTransaction_ok _ d i hd
  · calc step s = audioStep (s.withSchedule later) := step_audio s later hs
      _ = takeHeader w _ := audioStep_header (s.withSchedule later) w rest hop hq
      _ = exec i _ := takeHeader_ok _ w i hd
  · rw [audioStep_header s w rest hop hq, takeHeader_illegal _ hw]
    rfl
  · intro t
    rw [ctrlStep_transaction s d rest hop hq, performTransaction_illegal _ d hd, badDescriptor_eq]
    rfl
  · intro ctrl need audio drawn
    have hc : ctrl ↔ s.ctrlReady = true := (ctrlReady_iff s).symm
    have ha : audio ↔ s.audioReady = true := (audioReady_iff s).symm
    rw [hc, ha]
    exact ⟨step_onlyCtrl hs, step_onlyAudio hs, step_either hs, step_neither hs⟩
  · refine step_neither hs ?_ ?_
    · simp [ctrlReady_iff, hop, hq]
    · simp [audioReady_iff, hw, s.audioOp.wordsNeeded_pos.ne']

end Sys2Proof.Machine
end

section
/-! PROOFS. The encoding (30_encoding R131 to R145): each kind of word decodes to an instruction exactly where it is
that instruction's word, the legal command words, the write to CMD, and LDCOEF. -/

namespace Sys2Proof.Machine

theorem field_eq_ofNat_iff (w : Word) (lo n m : Nat) :
    field w lo n = BitVec.ofNat n m ↔ w.toNat / 2 ^ lo % 2 ^ n = m % 2 ^ n := by
  rw [field_eq_iff, BitVec.toNat_ofNat]

/-! The words with operands as numbers (30_encoding R132, R134 to R136). -/

theorem encodeWord_updateCoef_toNat (stage : BitVec 4) (slot ch : BitVec 2) :
    (encodeWord (.updateCoef stage slot ch)).toNat =
      ch.toNat * 2 ^ 16 + slot.toNat * 2 ^ 12 + stage.toNat * 2 ^ 8 + 6 := by
  simp only [encodeWord, toNat_append_eq_add, BitVec.toNat_ofNat]
  omega

theorem encodeWord_setBypass_toNat (tgt : BitVec 4) (val : BitVec 1) (ch : BitVec 2) :
    (encodeWord (.setBypass tgt val ch)).toNat =
      ch.toNat * 2 ^ 16 + val.toNat * 2 ^ 12 + tgt.toNat * 2 ^ 8 + 7 := by
  simp only [encodeWord, toNat_append_eq_add, BitVec.toNat_ofNat]
  omega

theorem encodeWord_processBlock_toNat (nfr : BitVec 16) :
    (encodeWord (.processBlock nfr)).toNat = nfr.toNat * 2 ^ 16 + 1 := by
  simp only [encodeWord, toNat_append_eq_add, BitVec.toNat_ofNat]
  omega

theorem encodeWord_rd_toNat (a : Addr) : (encodeWord (.rd a)).toNat = 2 * 2 ^ 21 + a.toNat := by
  simp only [encodeWord, toNat_append_eq_add, BitVec.toNat_ofNat]
  omega

theorem encodeWord_wr_toNat (a : Addr) (v : Word) :
    (encodeWord (.wr a v)).toNat = 2 * 2 ^ 21 + 2 ^ 20 + a.toNat := by
  simp only [encodeWord, toNat_append_eq_add, BitVec.toNat_ofNat]
  omega

/-! Commands. -/

theorem decodeCommand_updateCoef (stage : BitVec 4) (slot ch : BitVec 2) :
    decodeCommand (encodeWord (.updateCoef stage slot ch)) = .ok (.updateCoef stage slot ch) := by
  have hw := encodeWord_updateCoef_toNat stage slot ch
  generalize encodeWord (.updateCoef stage slot ch) = w at hw ⊢
  have hop : (field w 0 8).toNat = 6 := by rw [field_toNat]; omega
  have hzero : field w 14 2 = 0#2 ∧ field w 18 14 = 0#14 := by
    simp only [field_eq_ofNat_iff]; omega
  have hstage : field w 8 4 = stage := (field_eq_iff ..).2 (by omega)
  have hslot : field w 12 2 = slot := (field_eq_iff ..).2 (by omega)
  have hch : field w 16 2 = ch := (field_eq_iff ..).2 (by omega)
  simp only [decodeCommand, hop, if_pos hzero, hstage, hslot, hch]

theorem decodeCommand_setBypass (tgt : BitVec 4) (val : BitVec 1) (ch : BitVec 2) :
    decodeCommand (encodeWord (.setBypass tgt val ch)) = .ok (.setBypass tgt val ch) := by
  have hw := encodeWord_setBypass_toNat tgt val ch
  generalize encodeWord (.setBypass tgt val ch) = w at hw ⊢
  have hop : (field w 0 8).toNat = 7 := by rw [field_toNat]; omega
  have hzero : field w 13 3 = 0#3 ∧ field w 18 14 = 0#14 := by
    simp only [field_eq_ofNat_iff]; omega
  have htgt : field w 8 4 = tgt := (field_eq_iff ..).2 (by omega)
  have hval : field w 12 1 = val := (field_eq_iff ..).2 (by omega)
  have hch : field w 16 2 = ch := (field_eq_iff ..).2 (by omega)
  simp only [decodeCommand, hop, if_pos hzero, htgt, hval, hch]

theorem decodeCommand_encodeWord {i : Instr} (hi : i.lane = .command) : decodeCommand (encodeWord i) = .ok i := by
  cases i with
  | updateCoef stage slot ch => exact decodeCommand_updateCoef stage slot ch
  | setBypass tgt val ch => exact decodeCommand_setBypass tgt val ch
  | processBlock | rd | wr => cases hi
  | _ => rfl

theorem encodeWord_of_decodeCommand {w : Word} {i : Instr} (h : decodeCommand w = .ok i) : encodeWord i = w := by
  unfold decodeCommand at h
  split at h
  case h_7 hop =>
    split at h
    · next hzero =>
      cases h
      refine BitVec.eq_of_toNat_eq ?_
      simp only [encodeWord_updateCoef_toNat, field_toNat, field_eq_ofNat_iff] at hop hzero ⊢
      omega
    · cases h
  case h_8 hop =>
    split at h
    · next hzero =>
      cases h
      refine BitVec.eq_of_toNat_eq ?_
      simp only [encodeWord_setBypass_toNat, field_toNat, field_eq_ofNat_iff] at hop hzero ⊢
      omega
    · cases h
  case h_14 => cases h
  all_goals
    next hop =>
      obtain ⟨rfl, hz⟩ := decodeC0_ok h
      exact (eq_of_opcode hop hz).symm

/-! Stream headers. -/

theorem decodeStream_encodeWord (n : BitVec 16) :
    decodeStream (encodeWord (.processBlock n)) = .ok (.processBlock n) := by
  have hw := encodeWord_processBlock_toNat n
  generalize encodeWord (.processBlock n) = w at hw ⊢
  have hop : field w 0 8 = 1#8 := (field_eq_ofNat_iff ..).2 (by omega)
  have hzero : field w 8 8 = 0#8 := (field_eq_ofNat_iff ..).2 (by omega)
  have hn : field w 16 16 = n := (field_eq_iff ..).2 (by omega)
  simp only [decodeStream, hop, hzero, hn, ne_eq, not_true_eq_false, if_false]

theorem encodeWord_of_decodeStream {w : Word} {i : Instr} (h : decodeStream w = .ok i) :
    i.lane = .stream ∧ encodeWord i = w := by
  unfold decodeStream at h
  split at h
  · cases h
  next hop =>
  split at h
  · cases h
  next hzero =>
  cases h
  refine ⟨rfl, BitVec.eq_of_toNat_eq ?_⟩
  simp only [encodeWord_processBlock_toNat, not_not, field_toNat, field_eq_ofNat_iff] at hop hzero ⊢
  omega

/-! Bus descriptors. -/

theorem decodeBus_rd (a : Addr) (data : Word) : decodeBus (encodeWord (.rd a)) data = .ok (.rd a) := by
  have hw := encodeWord_rd_toNat a
  generalize encodeWord (.rd a) = w at hw ⊢
  have hzero : field w 23 9 = 0#9 := (field_eq_ofNat_iff ..).2 (by omega)
  have hsize : field w 21 2 = 2#2 := (field_eq_ofNat_iff ..).2 (by omega)
  have hread : field w 20 1 = 0#1 := (field_eq_ofNat_iff ..).2 (by omega)
  have ha : field w 0 20 = a := (field_eq_iff ..).2 (by omega)
  simp only [decodeBus, hzero, hsize, hread, ha, ne_eq, not_true_eq_false, if_false, if_true]

theorem decodeBus_wr (a : Addr) (v data : Word) : decodeBus (encodeWord (.wr a v)) data = .ok (.wr a data) := by
  have hw := encodeWord_wr_toNat a v
  generalize encodeWord (.wr a v) = w at hw ⊢
  have hzero : field w 23 9 = 0#9 := (field_eq_ofNat_iff ..).2 (by omega)
  have hsize : field w 21 2 = 2#2 := (field_eq_ofNat_iff ..).2 (by omega)
  have hwrite : ¬ field w 20 1 = 0#1 := mt (field_eq_ofNat_iff ..).1 (by omega)
  have ha : field w 0 20 = a := (field_eq_iff ..).2 (by omega)
  simp only [decodeBus, hzero, hsize, hwrite, ha, ne_eq, not_true_eq_false, if_false]

theorem encode_of_decodeBus {w data : Word} {i : Instr} (h : decodeBus w data = .ok i) :
    i.lane = .bus ∧ encodeWord i = w ∧ (field w 20 1 = 1#1 → encodeData i = data) := by
  obtain ⟨hzero, hsize, ⟨hread, rfl⟩ | ⟨hwrite, rfl⟩⟩ := decodeBus_ok h
  · refine ⟨rfl, BitVec.eq_of_toNat_eq ?_, fun hw => ?_⟩
    · simp only [encodeWord_rd_toNat, field_toNat, field_eq_ofNat_iff] at hzero hsize hread ⊢
      omega
    · rw [hread] at hw
      cases hw
  · refine ⟨rfl, BitVec.eq_of_toNat_eq ?_, fun _ => rfl⟩
    simp only [encodeWord_wr_toNat, ne_eq, field_toNat, field_eq_ofNat_iff] at hzero hsize hwrite ⊢
    omega

/-! Words of any kind. -/

theorem decode_encode_of_command {i : Instr} (hi : i.lane = .command) : decode (encode i) = .ok i := by
  simp only [decode, encode, hi, decodeCommand_encodeWord hi]

/-- Settles O1: each kind's decoder reads the fields of the encoded word back. -/
theorem encodeThenDecodeIsIdentity : Obligations.EncodeThenDecodeIsIdentity := by
  intro i
  cases i with
  | rd a => exact decodeBus_rd a _
  | wr a v => exact decodeBus_wr a v v
  | processBlock n => exact decodeStream_encodeWord n
  | _ => exact decode_encode_of_command rfl

/-- Settles O2: each kind's decoder accepts only the word of the instruction it gives. -/
theorem decodeThenEncodeIsIdentity : Obligations.DecodeThenEncodeIsIdentity := by
  rintro ⟨lane, w, data⟩ i h
  cases lane with
  | bus =>
    obtain ⟨hlane, hw, hdata⟩ := encode_of_decodeBus h
    exact ⟨hlane, hw, fun _ => hdata⟩
  | command => exact ⟨decodeCommand_lane w i h, encodeWord_of_decodeCommand h, nofun⟩
  | stream =>
    obtain ⟨hlane, hw⟩ := encodeWord_of_decodeStream h
    exact ⟨hlane, hw, nofun⟩

/-- Settles O5: what AUDIO and CTRL do with a word their decoders refuse, or with a misaligned access. -/
theorem illegalHeadersAndDescriptorsFault : Obligations.IllegalHeadersAndDescriptorsFault := by
  refine fun s => ⟨fun h hh => takeHeader_illegal s hh, fun d data hd => ?_⟩
  rw [performTransaction_illegal s ⟨d, data⟩ hd, badDescriptor_eq]

/-! The legal command words (30_encoding R131). -/

/-- The decode steps of 30_encoding R131 refuse the word. -/
def IllegalCommand (v : Word) : Prop :=
  12 < v.toNat % 256 ∨
  (v.toNat % 256 ≠ 6 ∧ v.toNat % 256 ≠ 7 ∧ 256 ≤ v.toNat) ∨
  (v.toNat % 256 = 6 ∧ (v.toNat / 2 ^ 14 % 4 ≠ 0 ∨ 2 ^ 18 ≤ v.toNat ∨ 8 < v.toNat / 2 ^ 8 % 16 ∨
    v.toNat / 2 ^ 16 % 4 = 0)) ∨
  (v.toNat % 256 = 7 ∧ (v.toNat / 2 ^ 13 % 8 ≠ 0 ∨ 2 ^ 18 ≤ v.toNat ∨ 10 < v.toNat / 2 ^ 8 % 16 ∨
    v.toNat / 2 ^ 16 % 4 = 0))

theorem decodeC0_error {w : Word} {i : Instr} {r : Reject} (h : decodeC0 w i = .error r) : field w 8 24 ≠ 0#24 := by
  unfold decodeC0 at h
  split at h
  · cases h
  · assumption

theorem illegal_of_decodeCommand_error {v : Word} {r : Reject} (h : decodeCommand v = .error r) :
    IllegalCommand v := by
  unfold decodeCommand at h
  unfold IllegalCommand
  have hlt := v.isLt
  split at h
  case h_7 hop | h_8 hop =>
    split at h
    · cases h
    · next hzero =>
      simp only [field_toNat, field_eq_ofNat_iff] at hop hzero
      omega
  case h_14 =>
    simp only [field_toNat, imp_false] at *
    omega
  all_goals
    next hop =>
      have hzero := decodeC0_error h
      simp only [ne_eq, field_toNat, field_eq_ofNat_iff] at hop hzero
      omega

/-- A word that decodes is illegal where a field is out of its range (30_encoding R131 step 3). -/
theorem illegal_encodeWord_iff {i : Instr} (hi : i.lane = .command) :
    IllegalCommand (encodeWord i) ↔ i.wf = false := by
  cases i with
  | updateCoef stage slot ch =>
    have hch : ch = 0#2 ↔ ch.toNat = 0 := BitVec.toNat_inj.symm
    simp only [IllegalCommand, encodeWord_updateCoef_toNat, Instr.wf, Bool.and_eq_false_iff, bne_eq_false_iff_eq,
      decide_eq_false_iff_not, BitVec.le_def, BitVec.toNat_ofNat, hch]
    omega
  | setBypass tgt val ch =>
    have hch : ch = 0#2 ↔ ch.toNat = 0 := BitVec.toNat_inj.symm
    simp only [IllegalCommand, encodeWord_setBypass_toNat, Instr.wf, Bool.and_eq_false_iff, bne_eq_false_iff_eq,
      decide_eq_false_iff_not, BitVec.le_def, BitVec.toNat_ofNat, hch]
    omega
  | processBlock | rd | wr => cases hi
  | _ => simp [IllegalCommand, encodeWord, Instr.wf]

/-- A command with a field out of its range raises BAD_CMD with its word (log 17). -/
theorem exec_of_not_wf (s : State) {i : Instr} (hi : i.lane = .command) (h : i.wf = false) :
    exec i s = .next (s.raise .badCmd (encodeWord i)) := by
  cases i with
  | updateCoef stage slot ch => simp only [exec, execUpdateCoef, h, Bool.false_eq_true, if_false]
  | setBypass tgt val ch => simp only [exec, execSetBypass, h, Bool.false_eq_true, if_false]
  | processBlock | rd | wr => cases hi
  | _ => cases h

theorem exec_wr_cmd (v : Word) (s : State) : exec (.wr 0x00018#20 v) s = execCommand v s := by
  simp only [exec, execWr, show s.mapped 0x00018#20 = some (.reg .cmd) from mapped_addr s .cmd, Loc.access, Reg.access]

/-- Settles O4: the word decodes to a command, which runs or refuses itself, or it decodes to none. -/
theorem writeToCmdExecutesTheCommandOrRaisesBadCmd : Obligations.WriteToCmdExecutesTheCommandOrRaisesBadCmd := by
  intro v s
  show (IllegalCommand v → _) ∧ (¬ IllegalCommand v → _)
  rw [exec_wr_cmd]
  cases hd : decodeCommand v with
  | error r =>
    have hv := illegal_of_decodeCommand_error hd
    exact ⟨fun _ => by simp only [execCommand, hd], absurd hv⟩
  | ok i =>
    have hi := decodeCommand_lane v i hd
    rw [execCommand_ok v s i hd hi]
    obtain rfl := encodeWord_of_decodeCommand hd
    rw [illegal_encodeWord_iff hi]
    exact ⟨exec_of_not_wf s hi, fun hwf => ⟨i, hi, eq_true_of_ne_false hwf, rfl, rfl⟩⟩

/-! LDCOEF (30_encoding R144). -/

/-- The state with the host's transactions replaced. -/
def State.withCtrlIn (s : State) (l : List Transaction) : State := s.setHost { s.host with ctrlIn := l }

/-- The state with entry `e.1` of slot `j` written. -/
def State.putStaged (s : State) (j : Fin 4) (e : Fin 5 × Word) : State :=
  { s with cstg := s.cstg.set j (s.cstg[j].put e.1 e.2) }

/-- The host's write of an entry of slot `j`. -/
def stagingWrite (j : Fin 4) (e : Fin 5 × Word) : HostOp := .wr (cstgAddr j e.1) e.2

/-- That write as it reaches CTRL. -/
def stagingTransaction (j : Fin 4) (e : Fin 5 × Word) : Transaction := ⟨encodeWord (.wr (cstgAddr j e.1) e.2), e.2⟩

theorem issueAll_stagingWrites (s : State) (j : Fin 4) (es : List (Fin 5 × Word)) :
    s.issueAll (es.map (stagingWrite j)) = s.withCtrlIn (s.host.ctrlIn ++ es.map (stagingTransaction j)) := by
  induction es generalizing s with
  | nil => simp only [List.map_nil, List.append_nil]; rfl
  | cons e es ih =>
    calc s.issueAll ((e :: es).map (stagingWrite j))
        = (s.issue (stagingWrite j e)).issueAll (es.map (stagingWrite j)) := rfl
      _ = s.withCtrlIn ((s.host.ctrlIn ++ [stagingTransaction j e]) ++ es.map (stagingTransaction j)) := ih _
      _ = _ := by rw [List.append_assoc]; rfl

theorem ctrlStep_stagingTransaction {s : State} (hop : s.ctrlOp = none) (j : Fin 4) (e : Fin 5 × Word)
    (rest : List Transaction) :
    ctrlStep (s.withCtrlIn (stagingTransaction j e :: rest)) = .next ((s.putStaged j e).withCtrlIn rest) := by
  rw [ctrlStep_transaction (s.withCtrlIn (_ :: rest)) (stagingTransaction j e) rest hop rfl,
    performTransaction_ok _ (stagingTransaction j e) _ (decodeBus_wr _ e.2 _)]
  simp only [exec, execWr, mapped_cstgAddr, Loc.access]
  rfl

theorem ctrlRun_stagingTransactions {s : State} (hop : s.ctrlOp = none) (j : Fin 4) (es : List (Fin 5 × Word)) :
    ctrlRun es.length (s.withCtrlIn (es.map (stagingTransaction j))) =
      .next ((es.foldl (·.putStaged j) s).withCtrlIn []) := by
  induction es generalizing s with
  | nil => rfl
  | cons e es ih =>
    rw [List.length_cons, List.map_cons, ctrlRun_succ _ _ _ (ctrlStep_stagingTransaction hop j e _)]
    exact ih hop

/-- Writing every entry of a set stages the set, whatever the slot held. -/
theorem foldl_putStaged_entries (s : State) (j : Fin 4) (k : CoefSet) :
    [(0, k.b0), (1, k.b1), (2, k.b2), (3, k.a1), (4, k.a2)].foldl (·.putStaged j) s =
      { s with cstg := s.cstg.set j k } := by
  simp [State.putStaged, CoefSet.put]

/-- Settles O60: CTRL performs the five writes in turn, and together they put every entry of the set. -/
theorem loadCoefStagesTheSet : Obligations.LoadCoefStagesTheSet := by
  intro s j k hq hop
  have hissue := issueAll_stagingWrites s j [(0, k.b0), (1, k.b1), (2, k.b2), (3, k.a1), (4, k.a2)]
  have hrun := ctrlRun_stagingTransactions hop j [(0, k.b0), (1, k.b1), (2, k.b2), (3, k.a1), (4, k.a2)]
  rw [hq, List.nil_append] at hissue
  rw [← hissue, foldl_putStaged_entries, State.withCtrlIn, ← hq] at hrun
  exact hrun

/-! Reference words (30_encoding R145). -/

/-- A field put above a word is added to it, at its place. -/
theorem toNat_or_shiftLeft {lo : Word} {n k : Nat} (x : BitVec n) (hlo : lo.toNat < 2 ^ k) (hk : n + k ≤ 32) :
    (lo ||| x.setWidth 32 <<< k).toNat = x.toNat * 2 ^ k + lo.toNat := by
  have hx : x.toNat <<< k < 2 ^ 32 := by
    rw [Nat.shiftLeft_eq]
    calc x.toNat * 2 ^ k < 2 ^ n * 2 ^ k := Nat.mul_lt_mul_of_pos_right x.isLt (Nat.two_pow_pos k)
      _ = 2 ^ (n + k) := (pow_add ..).symm
      _ ≤ 2 ^ 32 := Nat.pow_le_pow_right two_pos hk
  have hn : x.toNat < 2 ^ 32 := x.isLt.trans_le (Nat.pow_le_pow_right two_pos (by omega))
  rw [BitVec.toNat_or, BitVec.toNat_shiftLeft, BitVec.toNat_setWidth, Nat.mod_eq_of_lt hn, Nat.mod_eq_of_lt hx,
    Nat.lor_comm, ← Nat.shiftLeft_add_eq_or_of_lt hlo, Nat.shiftLeft_eq]

/-- The fields of a command with operands, put above its opcode (30_encoding R134, R135). -/
theorem toNat_commandFields {op : Word} {n : Nat} (x : BitVec 4) (y : BitVec n) (ch : BitVec 2)
    (hop : op.toNat < 2 ^ 8) (hn : n ≤ 4) :
    (op ||| x.setWidth 32 <<< 8 ||| y.setWidth 32 <<< 12 ||| ch.setWidth 32 <<< 16).toNat =
      ch.toNat * 2 ^ 16 + y.toNat * 2 ^ 12 + x.toNat * 2 ^ 8 + op.toNat := by
  have hy : y.toNat < 2 ^ 4 := y.isLt.trans_le (Nat.pow_le_pow_right two_pos hn)
  have h8 := toNat_or_shiftLeft x hop (by omega)
  have h12 := toNat_or_shiftLeft y (k := 12) (lo := op ||| x.setWidth 32 <<< 8) (by omega) (by omega)
  rw [toNat_or_shiftLeft ch (by omega) (by omega), h12, h8]
  omega

/-- Settles O3: each formula by its value, the written-out words by evaluation. -/
theorem commandWordsMatchTheReferenceValues : Obligations.CommandWordsMatchTheReferenceValues := by
  refine ⟨fun stage slot ch => BitVec.eq_of_toNat_eq ?_, fun tgt val ch => BitVec.eq_of_toNat_eq ?_,
    fun n => BitVec.eq_of_toNat_eq ?_, rfl, rfl, rfl, rfl, rfl⟩
  · rw [encodeWord_updateCoef_toNat, toNat_commandFields stage slot ch (by decide) (by decide)]
    rfl
  · rw [encodeWord_setBypass_toNat, toNat_commandFields tgt val ch (by decide) (by decide)]
    rfl
  · rw [encodeWord_processBlock_toNat, toNat_or_shiftLeft n (by decide) (by decide)]
    rfl

end Sys2Proof.Machine
end

section
/-! PROOFS. Rounding near 1 and the design arithmetic (00_scope R13, 40_coefficient_factory R172): in binary64 the
product of a number and its reciprocal is so near to 1 that `rnd32` makes it 1. -/

namespace Sys2Proof

open Sys2Proof.Machine

/-! Values as signed rationals. -/

/-- The finite value `x` is the number `r`, whatever the sign of a zero. -/
def Fl.HasValue (x : Fl) (r : ℚ) : Prop := ∃ s m e, x = .fin s m e ∧ signed s ((m : ℚ) * 2 ^ e) = r

theorem Fl.nat_hasValue (n : Nat) : (Fl.nat n).HasValue n := ⟨false, n, 0, rfl, by simp [signed]⟩

theorem Fl.Is.hasValue {x : Fl} {s : Bool} {v : ℚ} (h : x.Is s v) : x.HasValue (signed s v) := by
  obtain ⟨m, e, rfl, rfl⟩ := h
  exact ⟨s, m, e, rfl, rfl⟩

/-- A positive number has the sign `false`. -/
theorem Fl.HasValue.is_of_pos {x : Fl} {r : ℚ} (h : x.HasValue r) (hr : 0 < r) :
    ∃ m e, x = .fin false m e ∧ m ≠ 0 ∧ (m : ℚ) * 2 ^ e = r := by
  obtain ⟨s, m, e, rfl, rfl⟩ := h
  have hm : (0 : ℚ) ≤ (m : ℚ) * 2 ^ e := by positivity
  cases s with
  | true =>
    simp only [signed, if_true] at hr
    linarith
  | false =>
    refine ⟨m, e, rfl, ?_, rfl⟩
    rintro rfl
    simp [signed] at hr

theorem Fl.HasValue.addExact {x y : Fl} {r t : ℚ} (hx : x.HasValue r) (hy : y.HasValue t) :
    (Fl.addExact x y).HasValue (r + t) := by
  obtain ⟨s, m, e, rfl, rfl⟩ := hx
  obtain ⟨s', n, f, rfl, rfl⟩ := hy
  exact addExact_value s s' m n e f

theorem Fl.HasValue.mulExact {x y : Fl} {r t : ℚ} (hx : x.HasValue r) (hy : y.HasValue t) :
    (Fl.mulExact x y).HasValue (r * t) := by
  obtain ⟨s, m, e, rfl, rfl⟩ := hx
  obtain ⟨s', n, f, rfl, rfl⟩ := hy
  refine ⟨_, _, _, rfl, ?_⟩
  rw [Nat.cast_mul, zpow_add₀ two_ne_zero, mul_mul_mul_comm]
  cases s <;> cases s' <;> simp [signed]

/-- A value that compares between two integers is a number between them. -/
theorem Fl.hasValue_of_le {x : Fl} {a b : Nat} (ha : Fl.le (Fl.nat a) x = true) (hb : Fl.le x (Fl.nat b) = true) :
    ∃ r, x.HasValue r ∧ (a : ℚ) ≤ r ∧ r ≤ b := by
  cases x with
  | nan => cases ha
  | inf s => cases s <;> simp [Fl.le, Fl.nat] at ha hb
  | fin s m e =>
    rw [Fl.nat, le_fin, decide_eq_true_eq] at ha hb
    exact ⟨_, ⟨s, m, e, rfl, rfl⟩, by simpa [signed] using ha, by simpa [signed] using hb⟩

/-! Rounding in a format. -/

/-- A rounded value below the overflow bound is finite. -/
theorem packFl_is {fmt : Fmt} (s : Bool) {m : Nat} {u : Int} (h : (m : ℚ) * 2 ^ u < 2 ^ (fmt.emax + 1)) :
    (packFl fmt s m u).Is s (m * 2 ^ u) := by
  unfold packFl
  split
  next h0 => exact ⟨0, 0, rfl, by simp [h0]⟩
  next h0 =>
    have hlt : (2 : ℚ) ^ ((m.log2 : Int) + u) < 2 ^ (fmt.emax + 1) := by
      refine lt_of_le_of_lt ?_ h
      rw [zpow_add₀ two_ne_zero]
      exact mul_le_mul_of_nonneg_right (log2_bounds m h0).1 (two_zpow_pos u).le
    rw [zpow_lt_zpow_iff_right₀ one_lt_two] at hlt
    rw [if_neg (by omega)]
    exact ⟨m, u, rfl, rfl⟩

/-- Rounding a normal number errs by at most one part in `2^prec`. -/
theorem Rounds.relative_error {fmt : Fmt} {v : ℚ} {m : Nat} {u : Int} (h : Rounds fmt v m u)
    (hv : (2 : ℚ) ^ (fmt.emin + fmt.prec - 1) ≤ v) : |(m : ℚ) * 2 ^ u - v| ≤ v / 2 ^ fmt.prec := by
  obtain ⟨⟨t, ht, ht', hu⟩, hnear, -⟩ := h
  have hlt := (zpow_lt_zpow_iff_right₀ (one_lt_two (α := ℚ))).1 (hv.trans_lt ht')
  have hut : t = u + fmt.prec - 1 := by omega
  have hpow : (2 : ℚ) ^ t / 2 ^ fmt.prec = 1 / 2 * 2 ^ u := by
    rw [hut, ← zpow_natCast, ← zpow_sub₀ two_ne_zero, show u + fmt.prec - 1 - (fmt.prec : Int) = u - 1 by ring,
      zpow_sub_one₀ two_ne_zero]
    ring
  calc |(m : ℚ) * 2 ^ u - v| = |(m : ℚ) - v / 2 ^ u| * 2 ^ u := abs_sub_ulp v u m
    _ ≤ 1 / 2 * 2 ^ u := mul_le_mul_of_nonneg_right hnear (two_zpow_pos u).le
    _ = 2 ^ t / 2 ^ fmt.prec := hpow.symm
    _ ≤ v / 2 ^ fmt.prec := by gcongr

/-- A positive binary64 quotient between 1/16 and 16 rounds to a number within one part in `2^53`. -/
theorem roundRat_binary64_near {n d : Nat} {e : Int} {v : ℚ} (hn : n ≠ 0) (hd : d ≠ 0)
    (hv : (n : ℚ) / d * 2 ^ e = v) (hlo : 1 / 16 ≤ v) (hhi : v ≤ 16) :
    ∃ r, (roundRat .binary64 false n d e).HasValue r ∧ |r - v| ≤ v / 2 ^ 53 := by
  obtain ⟨m, u, hr, h⟩ := roundRat_rounds .binary64 false n d e hn hd
  rw [hv] at hr
  have hnormal : (2 : ℚ) ^ ((-1074 : Int) + (53 : Nat) - 1) ≤ v :=
    calc (2 : ℚ) ^ ((-1074 : Int) + (53 : Nat) - 1) ≤ 2 ^ (-4 : Int) := zpow_le_zpow_right₀ one_le_two (by norm_num)
      _ = 1 / 16 := by norm_num
      _ ≤ v := hlo
  have herr : |(m : ℚ) * 2 ^ u - v| ≤ v / 2 ^ 53 := hr.relative_error hnormal
  have hfin : (m : ℚ) * 2 ^ u < 2 ^ ((1023 : Int) + 1) :=
    calc (m : ℚ) * 2 ^ u ≤ v + v / 2 ^ 53 := by linarith [(abs_le.1 herr).2]
      _ < 2 ^ (5 : Int) := by norm_num; linarith
      _ ≤ 2 ^ ((1023 : Int) + 1) := zpow_le_zpow_right₀ one_le_two (by norm_num)
  exact ⟨m * 2 ^ u, h ▸ (packFl_is false hfin).hasValue, herr⟩

theorem Fl.HasValue.round_near {x : Fl} {v : ℚ} (hx : x.HasValue v) (hlo : 1 / 16 ≤ v) (hhi : v ≤ 16) :
    ∃ r, (x.round .binary64).HasValue r ∧ |r - v| ≤ v / 2 ^ 53 := by
  obtain ⟨m, e, rfl, hm, hv⟩ := hx.is_of_pos (by linarith)
  exact roundRat_binary64_near hm one_ne_zero (by simpa using hv) hlo hhi

theorem Fl.HasValue.divRound_near {x y : Fl} {v w : ℚ} (hx : x.HasValue v) (hy : y.HasValue w) (hv : 0 < v)
    (hw : 0 < w) (hlo : 1 / 16 ≤ v / w) (hhi : v / w ≤ 16) :
    ∃ r, (Fl.divRound .binary64 x y).HasValue r ∧ |r - v / w| ≤ v / w / 2 ^ 53 := by
  obtain ⟨m, e, rfl, hm, rfl⟩ := hx.is_of_pos hv
  obtain ⟨n, f, rfl, hn, rfl⟩ := hy.is_of_pos hw
  simp only [Fl.divRound, if_neg hn]
  refine roundRat_binary64_near hm hn ?_ hlo hhi
  rw [zpow_sub₀ two_ne_zero, div_mul_div_comm]

/-- A number from 0 to an integer of the format stays in that range when it is rounded in binary64. -/
theorem Fl.HasValue.round_le_nat {x : Fl} {v : ℚ} {n : Nat} (hx : x.HasValue v) (hn : n < 2 ^ 53) (hv : 0 ≤ v)
    (hv' : v ≤ n) : ∃ r, (x.round .binary64).HasValue r ∧ 0 ≤ r ∧ r ≤ n := by
  rcases hv.eq_or_lt with rfl | hpos
  · obtain ⟨s, m, e, rfl, h0⟩ := hx
    rw [signed_eq_zero_iff, mul_zpow_eq_zero_iff] at h0
    subst h0
    exact ⟨0, ⟨s, 0, 0, roundRat_zero .., by simp [signed]⟩, le_rfl, hv'⟩
  · obtain ⟨m, e, rfl, hm, hval⟩ := hx.is_of_pos hpos
    obtain ⟨M, U, hr, h⟩ := roundRat_rounds .binary64 false m 1 e hm one_ne_zero
    have hnn : (0 : ℚ) ≤ M * 2 ^ U := by positivity
    have hle : (M : ℚ) * 2 ^ U ≤ n := by
      simpa using (hr.mono (by decide) (n := n) (k := 0) hn (by decide)).2 (by simpa [hval] using hv')
    have hfin : (M : ℚ) * 2 ^ U < 2 ^ ((1023 : Int) + 1) :=
      calc (M : ℚ) * 2 ^ U ≤ n := hle
        _ < 2 ^ (53 : Int) := by exact_mod_cast hn
        _ ≤ 2 ^ ((1023 : Int) + 1) := zpow_le_zpow_right₀ one_le_two (by norm_num)
    have his : (roundRat .binary64 false m 1 e).Is false (M * 2 ^ U) := h ▸ packFl_is (fmt := .binary64) false hfin
    exact ⟨M * 2 ^ U, his.hasValue, hnn, hle⟩

theorem ofWord_one_is : (Fl.ofWord 0x3F800000#32).Is false 1 := ⟨8388608, -23, by decide, by norm_num⟩

/-- A number so near to 1 rounds to it in binary32, whose numbers around 1 stand `2^-24` and `2^-23` apart. -/
theorem Rounds.eq_one {v : ℚ} {m : Nat} {u : Int} (h : Rounds .binary32 v m u) (hv : |v - 1| < 1 / 2 ^ 25) :
    (m : ℚ) * 2 ^ u = 1 := by
  obtain ⟨hlo, hhi⟩ := abs_lt.1 hv
  obtain ⟨k, hk⟩ : ∃ k : Nat, Rounds .binary32 v (2 ^ k) (-k) := by
    rcases le_or_gt 1 v with hge | hlt
    · exact ⟨23, ⟨0, by simpa using hge, by norm_num; linarith, by decide⟩,
        abs_le.2 ⟨by norm_num; linarith, by norm_num; linarith⟩, fun _ => by decide⟩
    · exact ⟨24, ⟨-1, by norm_num; linarith, by simpa using hlt, by decide⟩,
        abs_le.2 ⟨by norm_num; linarith, by norm_num; linarith⟩, fun _ => by decide⟩
  obtain ⟨rfl, rfl⟩ := h.unique hk
  simp

theorem Fl.HasValue.toWord_one {x : Fl} {v : ℚ} (hx : x.HasValue v) (hv : |v - 1| < 1 / 2 ^ 25) (key : List Word) :
    x.toWord key = 0x3F800000#32 := by
  obtain ⟨m, e, rfl, hm, rfl⟩ := hx.is_of_pos (by linarith [(abs_lt.1 hv).1])
  obtain ⟨M, U, hr, h⟩ := toWord_fin key false m e hm
  have hone := hr.eq_one hv
  rw [h]
  rcases ofWord_bits_packFl key false hr with ⟨his, -⟩ | ⟨-, hbig⟩
  · rw [hone] at his
    exact word_ext his ofWord_one_is
  · rw [hone] at hbig
    norm_num at hbig

/-- The word of a value depends on the operation and its operands only in the payload of a NaN (log 7). -/
theorem toWord_eq_or_nan (x : Fl) (k k' : List Word) :
    x.toWord k = x.toWord k' ∨ (Fl.ofWord (x.toWord k) = .nan ∧ Fl.ofWord (x.toWord k') = .nan) := by
  by_cases hx : x = .nan
  · subst hx
    exact .inr ⟨ofWord_toWord_nan k, ofWord_toWord_nan k'⟩
  · exact .inl ((Fl.SameValue.refl x).toWord_eq hx k k')

/-! The design arithmetic, which flushes nothing (40_coefficient_factory R172). -/

theorem design_flush (b : Build) (x : Fl) : b.design.flush x = x := by
  simp [Arith.flush, Build.design]

theorem design_add (b : Build) (x y : Fl) : b.design.add x y = (Fl.addExact x y).round b.design.fmt := by
  simp only [Arith.add, design_flush]

theorem design_mul (b : Build) (x y : Fl) : b.design.mul x y = (Fl.mulExact x y).round b.design.fmt := by
  simp only [Arith.mul, design_flush]

theorem design_div (b : Build) (x y : Fl) : b.design.div x y = Fl.divRound b.design.fmt x y := by
  simp only [Arith.div, design_flush]

theorem design_format_binary64 {b : Build} (hb : b.designFmt = .binary64) : b.design.fmt = .binary64 := by
  rw [Build.design, hb, DesignFmt.format]

/-- Multiplying by a number of value 1 and dividing by it round the same value. -/
theorem design_mul_one_eq_div (b : Build) (x : Fl) {y : Fl} (hy : y.Is false 1) :
    b.design.mul x y = b.design.div x y := by
  obtain ⟨n, f, rfl, hval⟩ := hy
  have hn : n ≠ 0 := by
    rintro rfl
    simp at hval
  rw [design_mul, design_div]
  cases x with
  | nan => rfl
  | inf s => simp only [Fl.mulExact, Fl.divRound, if_neg hn, Fl.round]
  | fin s m e =>
    simp only [Fl.mulExact, Fl.divRound, if_neg hn, Fl.round]
    refine roundRat_congr _ _ one_ne_zero hn ?_
    calc ((m * n : Nat) : ℚ) / (1 : Nat) * 2 ^ (e + f) = m * 2 ^ e * (n * 2 ^ f) := by
          rw [zpow_add₀ two_ne_zero]; push_cast; ring
      _ = m * 2 ^ e / (n * 2 ^ f) := by rw [hval]; ring
      _ = m / n * 2 ^ (e - f) := by rw [zpow_sub₀ two_ne_zero, mul_div_mul_comm]

theorem sqrtRounded_one (f : DesignFmt) : (sqrtRounded f.format (.fin false 1 0)).Is false 1 := by
  cases f with
  | binary64 => exact ⟨2 ^ 52, -52, by decide +kernel, by norm_num⟩
  | binary32 => exact ⟨2 ^ 23, -23, by decide +kernel, by norm_num⟩

/-- With the correctly rounded MATH a gain of 0 dB has the amplitude `sqrt(10^0) = 1`. -/
theorem amplitude_zeroDb {b : Build} (hb : b.math = .reference) {gdb : Word} (hg : gdb &&& 0x7FFFFFFF#32 = 0#32) :
    (b.fn .sqrt (gain b gdb)).Is false 1 := by
  obtain ⟨s, rfl⟩ := zeroWord_of_and gdb hg
  have hdiv : b.design.div (Fl.ofWord (zeroWord s)) (Fl.nat 20) = .fin s 0 0 := by
    rw [design_div, ofWord_zeroWord]
    cases s <;> rfl
  have hgain : gain b (zeroWord s) = .fin false 1 0 := by
    unfold gain Build.fn
    rw [hdiv, hb]
    rfl
  rw [hgain]
  unfold Build.fn
  rw [hb]
  exact sqrtRounded_one b.designFmt

/-- `x * (1 / x)` in binary64, rounded to binary32, is 1 for `x = 1 + a` and `a` from 0 to 8. -/
theorem toWord_mul_inv_one_add {b : Build} (hb : b.designFmt = .binary64) {a : Fl} {v : ℚ} (ha : a.HasValue v)
    (hv : 0 ≤ v) (hv' : v ≤ 8) (key : List Word) :
    (b.design.mul (b.design.add (Fl.nat 1) a)
      (b.design.div (Fl.nat 1) (b.design.add (Fl.nat 1) a))).toWord key = 0x3F800000#32 := by
  simp only [design_mul, design_add, design_div, design_format_binary64 hb]
  obtain ⟨x, hx, hxe⟩ := ((Fl.nat_hasValue 1).addExact ha).round_near (by push_cast; linarith) (by push_cast; linarith)
  push_cast at hxe
  obtain ⟨hxl, hxh⟩ := abs_le.1 hxe
  have hx1 : 1 / 2 ≤ x := by linarith
  have hx2 : x ≤ 10 := by linarith
  have hx0 : 0 < x := by linarith
  obtain ⟨y, hy, hye⟩ := (Fl.nat_hasValue 1).divRound_near hx (by norm_num) hx0
    (by rw [le_div_iff₀ hx0]; push_cast; linarith) (by rw [div_le_iff₀ hx0]; push_cast; linarith)
  have hxy : |x * y - 1| ≤ 1 / 2 ^ 53 :=
    calc |x * y - 1| = x * |y - (1 : Nat) / x| := by
          rw [← abs_of_pos hx0, ← abs_mul, abs_of_pos hx0, mul_sub, Nat.cast_one, mul_one_div_cancel hx0.ne']
      _ ≤ x * ((1 : Nat) / x / 2 ^ 53) := mul_le_mul_of_nonneg_left hye hx0.le
      _ = 1 / 2 ^ 53 := by field_simp; norm_num
  obtain ⟨hxyl, hxyh⟩ := abs_le.1 hxy
  obtain ⟨z, hz, hze⟩ := (hx.mulExact hy).round_near (by linarith) (by linarith)
  obtain ⟨hzl, hzh⟩ := abs_le.1 hze
  exact hz.toWord_one (abs_lt.2 ⟨by linarith, by linarith⟩) key

end Sys2Proof
end

section
/-! PROOFS. The design factory (40_coefficient_factory R160 to R170): the full design, the peak design at 0 dB, and
the DESIGN commands. -/

namespace Sys2Proof.Machine

/-! The full design, stage by stage (40_coefficient_factory R166, R170). -/

theorem hpCascade_get (b : Build) (fs f : Word) (k : Nat) (i : Fin 4) :
    (hpCascade b fs f k)[i] = hpSet b fs f k i := by
  fin_cases i <;> rfl

theorem lpCascade_get (b : Build) (fs f : Word) (k : Nat) (i : Fin 4) :
    (lpCascade b fs f k)[i] = lpSet b fs f k i := by
  fin_cases i <;> rfl

theorem slopeFlags_get (k : Nat) (i : Fin 4) : (slopeFlags k)[i] = decide (k < i) := by
  fin_cases i <;> rfl

theorem designOf_coef_lowcut (b : Build) (p : Params) (fs : Word) (i : Fin 4) :
    (designOf b p fs).coef[i.val] = hpSet b fs p.lowcutFreq p.lcSlope i := by
  fin_cases i <;> rfl

theorem designOf_coef_highcut (b : Build) (p : Params) (fs : Word) (i : Fin 4) :
    (designOf b p fs).coef[5 + i.val] = lpSet b fs p.highcutFreq p.hcSlope i := by
  fin_cases i <;> rfl

theorem fullDesign_of_fault {b : Build} {p : Params} {fs a : Word} (h : domainFault b p fs = some a) :
    fullDesign b p fs = .error a := by
  simp only [fullDesign, h]

theorem fullDesign_of_none {b : Build} {p : Params} {fs : Word} (h : domainFault b p fs = none) :
    fullDesign b p fs = .ok (designOf b p fs) := by
  simp only [fullDesign, h]

/-- Settles O22: `domainFault` finds the first frequency out of range, and `designOf` is read stage by stage. -/
theorem fullDesignChecksThenDesignsEveryStage : Obligations.FullDesignChecksThenDesignsEveryStage := by
  intro b p fs
  refine ⟨fun hl => fullDesign_of_fault ?_, fun hl hp => fullDesign_of_fault ?_,
    fun hl hp hh => fullDesign_of_fault ?_, fun hl hp hh => ⟨designOf b p fs, fullDesign_of_none ?_,
      designOf_coef_lowcut b p fs, rfl, designOf_coef_highcut b p fs, slopeFlags_get _, slopeFlags_get _, rfl⟩⟩
  · simp [domainFault, hl]
  · simp [domainFault, hl, hp]
  · simp [domainFault, hl, hp, hh]
  · simp [domainFault, hl, hp, hh]

/-! DESIGN_PEAK (40_coefficient_factory R162, R167). -/

theorem peakDesign_1kHz_6dB :
    peakDesign .reference 0x473B8000#32 0x447A0000#32 0x3F800000#32 0x40C00000#32 =
      ⟨0x3F85A041#32, 0xBFF299DF#32, 0x3F5E230C#32, 0xBFF299DF#32, 0x3F69638F#32⟩ := by
  decide +kernel

theorem set_slotZero {α : Type} (v : Vector α 4) (x : α) : v.set 0 x = #v[x, v[1], v[2], v[3]] := by
  ext i hi
  interval_cases i <;> simp

/-- Settles O29: the design is its formulas by definition. At 0 dB the amplitude is 1, so `alpha * A = alpha / A`: the
numerator is the denominator, and `b0` is `a0 * (1 / a0)`. -/
theorem designPeakWritesSlotZero : Obligations.DesignPeakWritesSlotZero := by
  refine ⟨fun b fs f q gdb => ⟨⟨_, rfl⟩, ⟨_, rfl⟩, ⟨_, rfl⟩, ⟨_, rfl⟩, ⟨_, rfl⟩, fun hm hg => ?_⟩, peakDesign_1kHz_6dB,
    fun s => ⟨fun hp => ?_, fun hp hf => ?_, fun hp hf => ?_⟩⟩
  · have hone := amplitude_zeroDb hm hg
    have hswap := fun x => design_mul_one_eq_div b x hone
    simp only [peakDesign, hswap]
    refine ⟨toWord_eq_or_nan .., toWord_eq_or_nan .., fun hb h0 h8 => ?_⟩
    obtain ⟨v, hv, hv0, hv8⟩ := Fl.hasValue_of_le h0 h8
    have hscaled := hv.mulExact hone.hasValue
    rw [show v * signed false 1 = v from mul_one v] at hscaled
    obtain ⟨r, hr, hr0, hr8⟩ := hscaled.round_le_nat (n := 8) (by decide) (by simpa using hv0) hv8
    rw [← design_format_binary64 hb, ← design_mul, hswap] at hr
    exact toWord_mul_inv_one_add hb hr hr0 hr8 _
  · simp [exec, execDesignPeak, hp]
  · have hf : belowHalf s.build s.srActive s.params.peakFreq = false := hf
    simp [exec, execDesignPeak, hp, hf]
  · have hf : belowHalf s.build s.srActive s.params.peakFreq = true := hf
    simp [exec, execDesignPeak, hp, hf, State.result, resultWord, set_slotZero]

/-! DESIGN_LOWCUT and DESIGN_HIGHCUT (40_coefficient_factory R168, R169), with the sections of 95_test_vectors V4, V5,
V6, V8 and V9. -/

theorem hpSection_200Hz_slope0 :
    hpSection .reference 0x473B8000#32 0x43480000#32 0 0 =
      ⟨0x3F7B4DF5#32, 0xBFFB4DF5#32, 0x3F7B4DF5#32, 0xBFFB42EE#32, 0x3F76B1F6#32⟩ := by
  decide +kernel

theorem lpSection_20kHz_slope0 :
    lpSection .reference 0x473B8000#32 0x469C4000#32 0 0 =
      ⟨0x3F30765E#32, 0x3FB0765E#32, 0x3F30765E#32, 0x3FA3CAFF#32, 0x3EF486F9#32⟩ := by
  decide +kernel

theorem hpSection_200Hz_slope3 :
    hpSection .reference 0x473B8000#32 0x43480000#32 3 1 =
      ⟨0x3F7A80FB#32, 0xBFFA80FB#32, 0x3F7A80FB#32, 0xBFFA75FE#32, 0x3F7517F2#32⟩ := by
  decide +kernel

theorem lpSection_5kHz_slope1 :
    lpSection .reference 0x473B8000#32 0x459C4000#32 1 0 =
      ⟨0x3D876F48#32, 0x3E076F48#32, 0x3D876F48#32, 0xBF81FD4F#32, 0x3E8F6483#32⟩ := by
  decide +kernel

theorem hpSection_1kHz_slope2 :
    hpSection .reference 0x472C4400#32 0x447A0000#32 2 2 =
      ⟨0x3F75AC9F#32, 0xBFF5AC9F#32, 0x3F75AC9F#32, 0xBFF46C5E#32, 0x3F6DD9C0#32⟩ := by
  decide +kernel

/-- Settles O30: the sections are their formulas by definition, the examples by evaluation, and the commands stage
the cascade slot by slot. -/
theorem designCutsWriteTheFourSlots : Obligations.DesignCutsWriteTheFourSlots := by
  refine ⟨fun b fs f k i => ⟨⟨_, rfl, rfl⟩, ⟨_, rfl⟩, ⟨_, rfl⟩, ⟨_, rfl⟩, ⟨_, rfl, rfl⟩, ⟨_, rfl⟩, ⟨_, rfl⟩, ⟨_, rfl⟩⟩,
    hpSection_200Hz_slope0, lpSection_20kHz_slope0, hpSection_200Hz_slope3, lpSection_5kHz_slope1,
    hpSection_1kHz_slope2, fun s => ⟨fun hp => ⟨?_, ?_⟩, fun hp hf => ?_, fun hp hf => ?_, fun hp hf => ?_,
      fun hp hf => ?_⟩⟩
  · simp [exec, execDesignLowcut, hp]
  · simp [exec, execDesignHighcut, hp]
  · have hf : belowHalf s.build s.srActive s.params.lowcutFreq = false := hf
    simp [exec, execDesignLowcut, hp, hf]
  · have hf : belowHalf s.build s.srActive s.params.highcutFreq = false := hf
    simp [exec, execDesignHighcut, hp, hf]
  · have hf : belowHalf s.build s.srActive s.params.lowcutFreq = true := hf
    refine ⟨hpCascade s.build s.srActive s.params.lowcutFreq s.params.lcSlope, ?_, hpCascade_get _ _ _ _⟩
    simp [exec, execDesignLowcut, hp, hf, State.result, resultWord]
  · have hf : belowHalf s.build s.srActive s.params.highcutFreq = true := hf
    refine ⟨lpCascade s.build s.srActive s.params.highcutFreq s.params.hcSlope, ?_, lpCascade_get _ _ _ _⟩
    simp [exec, execDesignHighcut, hp, hf, State.result, resultWord]

end Sys2Proof.Machine
end

section
/-! PROOFS. Installs and PREPARE (41_filter_chain R190 to R195, R210, R211, R215; 30_encoding R139): what an install
writes in a chain, and the commands that install in the channels of a mask. -/

namespace Sys2Proof.Machine

/-! What an install writes in a chain. -/

theorem Channel.setCoef_coef (k : Channel) (t t' : Stage) (z : CoefSet) :
    (k.setCoef t z).coef[t'] = if t' = t then z else k.coef[t'] := by
  simp [Channel.setCoef, Vector.getElem_set, Fin.ext_iff, eq_comm]

theorem Channel.setCoef_setCoef (k : Channel) (t : Stage) (z : CoefSet) :
    (k.setCoef t z).setCoef t z = k.setCoef t z := by
  simp [Channel.setCoef]

theorem Channel.setSbyp_sbyp (k : Channel) (t t' : Stage) (v : Bool) :
    (k.setSbyp t v).sbyp t' = if t' = t ∧ t ≠ 4 then v else k.sbyp t' := by
  fin_cases t <;> fin_cases t' <;> simp [Channel.setSbyp, Channel.sbyp]

/-- The flag that TGT names, of the position flags (30_encoding R139). -/
theorem Channel.setTarget_pbyp (k : Channel) (tgt : Fin 11) (v : Bool) (p : Fin 3) :
    (k.setTarget (BitVec.ofNat 4 tgt) v).pbyp[p] = if tgt.val = p.val then v else k.pbyp[p] := by
  fin_cases tgt <;> fin_cases p <;> simp [Channel.setTarget]

/-- The flag that TGT names, of the stage flags (30_encoding R139). -/
theorem Channel.setTarget_sbyp (k : Channel) (tgt : Fin 11) (v : Bool) (t : Stage) :
    (k.setTarget (BitVec.ofNat 4 tgt) v).sbyp t =
      if (t.val < 4 ∧ tgt.val = 3 + t.val) ∨ (4 < t.val ∧ tgt.val = 2 + t.val) then v else k.sbyp t := by
  fin_cases tgt <;> fin_cases t <;> simp [Channel.setTarget, Channel.setSbyp, Channel.sbyp]

/-! What an install writes in the state. -/

theorem State.setChan_chan (s : State) (c d : Ch) (k : Channel) :
    (s.setChan c k).chan d = if d = c then k else s.chan d := by
  cases c <;> cases d <;> rfl

theorem State.setChan_restored (s : State) (c : Ch) (k : Channel) :
    { s.setChan c k with ch0 := s.ch0, ch1 := s.ch1 } = s := by
  cases c <;> rfl

/-- Settles O25: the step replaces one chain, and the named fields of that chain. -/
theorem installStepsWriteOnlyWhatTheyName : Obligations.InstallStepsWriteOnlyWhatTheyName := by
  intro s c t set b p
  refine ⟨⟨s.setChan_restored c _, fun d => ?_⟩, ⟨s.setChan_restored c _, fun d => ?_⟩,
    ⟨s.setChan_restored c _, fun d => ?_⟩⟩ <;> simp only [Install.apply, State.setChan_chan] <;> split_ifs with hd
  · subst hd
    simp only [true_and]
    exact ⟨rfl, rfl, fun t' => ⟨rfl, Channel.setCoef_coef ..⟩⟩
  · simp [hd]
  · subst hd
    simp only [true_and]
    exact ⟨Channel.setSbyp_st .., Channel.setSbyp_pbyp .., fun t' => ⟨Channel.setSbyp_sbyp ..,
      (congrArg (·[t']) (Channel.setSbyp_coef ..)).trans (Channel.setCoef_coef ..)⟩⟩
  · simp [hd]
  · subst hd
    exact ⟨rfl, rfl, rfl, fun t' => rfl⟩
  · exact ⟨rfl, rfl, rfl, fun t' => rfl⟩

/-! Installing in the channels of a mask, channel 0 first. -/

/-- The chains of the channels of the mask `ch` changed by `g`. -/
def State.mapChans (s : State) (ch : BitVec 2) (g : Channel → Channel) : State :=
  { s with
    ch0 := if ch.getLsbD 0 then g s.ch0 else s.ch0
    ch1 := if ch.getLsbD 1 then g s.ch1 else s.ch1 }

/-- The state that installing by `g` in the channels of a mask leaves, the command complete (log 4). -/
def State.installed (s : State) (op : BitVec 8) (ch : BitVec 2) (g : Channel → Channel) : State :=
  ((s.mapChans ch g).setCtrlOp none).result op true

theorem State.installed_chan (s : State) (op : BitVec 8) (ch : BitVec 2) (g : Channel → Channel) (c : Ch) :
    (s.installed op ch g).chan c = if ch.getLsbD c.num then g (s.chan c) else s.chan c := by
  cases c <;> rfl

/-- An install that changes a chain to the same one twice as once does so in every channel of the mask. -/
theorem State.installed_idem (s : State) (op : BitVec 8) (ch : BitVec 2) {g : Channel → Channel}
    (hg : ∀ k, g (g k) = g k) : (s.installed op ch g).installed op ch g = s.installed op ch g := by
  have h : ∀ (m : Bool) (k : Channel), (if m then g (if m then g k else k) else if m then g k else k) =
      if m then g k else k := by
    intro m k
    cases m
    · rfl
    · exact hg k
  simp only [State.installed, State.mapChans, State.setCtrlOp, State.result, h]

theorem mask_cases {ch : BitVec 2} (h : ch ≠ 0#2) : ch = 1#2 ∨ ch = 2#2 ∨ ch = 3#2 := by
  revert ch
  decide

theorem ctrlRun_one (s : State) : ctrlRun 1 s = ctrlStep s := by
  unfold ctrlRun
  cases ctrlStep s <;> rfl

/-- A command that installs by `g` in the channels of a nonempty mask takes one step per channel. -/
theorem ctrlRun_channels {i : Ch → Install} {g : Channel → Channel}
    (hi : ∀ s c, Install.apply s (i c) = s.setChan c (g (s.chan c))) (s : State) (op : BitVec 8) {ch : BitVec 2}
    (hch : ch ≠ 0#2) :
    ctrlRun (if ch = 3#2 then 1 else 0) (installStep s op ((channels ch).map i)) = .next (s.installed op ch g) := by
  rcases mask_cases hch with rfl | rfl | rfl
  · refine (installStep_run s op (i .c0) []).trans ?_
    simp only [List.foldl, hi]
    rfl
  · refine (installStep_run s op (i .c1) []).trans ?_
    simp only [List.foldl, hi]
    rfl
  · refine (installStep_run s op (i .c0) [i .c1]).trans ?_
    simp only [List.foldl, hi]
    rfl

/-! UPDATE_COEF (41_filter_chain R210). -/

theorem exec_updateCoef (s : State) {stage : BitVec 4} (slot : BitVec 2) {ch : BitVec 2} (hs : stage.toNat ≤ 8)
    (hch : ch ≠ 0#2) :
    exec (.updateCoef stage slot ch) s = .next (installStep s 0x06#8
      ((channels ch).map fun c => .coef c (Fin.ofNat 9 stage.toNat) s.cstg[slot.toFin])) := by
  have hwf : (Instr.updateCoef stage slot ch).wf = true := by simp [Instr.wf, BitVec.le_def, hs, hch]
  simp only [exec, execUpdateCoef, hwf, if_true]

theorem stage_of_field (t : Stage) : Fin.ofNat 9 (BitVec.ofNat 4 t).toNat = t := by
  revert t
  decide

theorem slot_of_field (j : Fin 4) : (BitVec.ofNat 2 j).toFin = j := by
  revert j
  decide

theorem stage_field_le (t : Stage) : (BitVec.ofNat 4 t).toNat ≤ 8 := by
  revert t
  decide

theorem ctrlRun_coefInstalls (s : State) (t : Stage) (z : CoefSet) {ch : BitVec 2} (hch : ch ≠ 0#2) :
    ctrlRun (if ch = 3#2 then 1 else 0) (installStep s 0x06#8 ((channels ch).map (.coef · t z))) =
      .next (s.installed 0x06#8 ch (·.setCoef t z)) :=
  ctrlRun_channels (fun _ _ => rfl) s 0x06#8 hch

/-- Settles O26: one install per channel of the mask; a field out of its range is no legal command. -/
theorem updateCoefInstallsTheStagedSet : Obligations.UpdateCoefInstallsTheStagedSet := by
  intro s slot ch
  refine ⟨fun stage hch => ?_, fun stage hbad => exec_of_not_wf s rfl ?_⟩
  · have hexec := exec_updateCoef s (BitVec.ofNat 2 slot) (stage_field_le stage) hch
    simp only [stage_of_field, slot_of_field] at hexec
    have hrun := ctrlRun_coefInstalls s stage s.cstg[slot] hch
    by_cases h3 : ch = 3#2
    · subst h3
      rw [if_pos rfl, ctrlRun_one] at hrun
      exact ⟨_, hexec, rfl, hrun⟩
    · rw [if_neg h3, ctrlRun_zero] at hrun
      simp only [if_neg h3]
      exact hexec.trans hrun
  · rcases hbad with h | rfl
    · simp [Instr.wf, BitVec.le_def, h]
    · simp [Instr.wf]

theorem updateCoef_run (s : State) {stage : BitVec 4} (slot : BitVec 2) {ch : BitVec 2} (hs : stage.toNat ≤ 8)
    (hch : ch ≠ 0#2) : ∃ t, exec (.updateCoef stage slot ch) s = .next t ∧
      ctrlRun (if ch = 3#2 then 1 else 0) t =
        .next (s.installed 0x06#8 ch (·.setCoef (Fin.ofNat 9 stage.toNat) s.cstg[slot.toFin])) :=
  ⟨_, exec_updateCoef s slot hs hch, ctrlRun_coefInstalls s _ _ hch⟩

/-- Settles O27: the set is read from the same slot, and a set written over itself changes nothing. -/
theorem installingASetTwiceIsInstallingItOnce : Obligations.InstallingASetTwiceIsInstallingItOnce := by
  intro s stage slot ch hs hch
  obtain ⟨t, ht, hrun⟩ := updateCoef_run s slot hs hch
  obtain ⟨t', ht', hrun'⟩ := updateCoef_run (s.installed 0x06#8 ch _) slot hs hch
  exact ⟨t, _, t', ht, hrun, ht', hrun'.trans
    (congrArg _ (s.installed_idem 0x06#8 ch fun k => k.setCoef_setCoef _ _))⟩

/-! SET_BYPASS (41_filter_chain R215). -/

theorem exec_setBypass (s : State) {tgt : BitVec 4} (val : BitVec 1) {ch : BitVec 2} (ht : tgt.toNat ≤ 10)
    (hch : ch ≠ 0#2) :
    exec (.setBypass tgt val ch) s =
      .next (installStep s 0x07#8 ((channels ch).map fun c => .bypass c tgt (val == 1#1))) := by
  have hwf : (Instr.setBypass tgt val ch).wf = true := by simp [Instr.wf, BitVec.le_def, ht, hch]
  simp only [exec, execSetBypass, hwf, if_true]

theorem target_field_le (t : Fin 11) : (BitVec.ofNat 4 t).toNat ≤ 10 := by
  revert t
  decide

/-- Settles O28: one flag write per channel of the mask, each by the flag map of R139. -/
theorem setBypassWritesTheFlagTheTargetNames : Obligations.SetBypassWritesTheFlagTheTargetNames := by
  intro s ch val
  refine ⟨fun tgt hch => ?_, fun tgt hbad => exec_of_not_wf s rfl ?_⟩
  · refine ⟨_, s.installed 0x07#8 ch (·.setTarget (BitVec.ofNat 4 tgt) (val == 1#1)),
      exec_setBypass s val (target_field_le tgt) hch, ctrlRun_channels (fun _ _ => rfl) s 0x07#8 hch, ?_, rfl,
      fun c => ?_⟩
    · rintro rfl
      exact ⟨rfl, rfl⟩
    · rw [State.installed_chan]
      by_cases hc : ch.getLsbD c.num = true
      · simp only [hc, if_true, true_and]
        exact ⟨Channel.setTarget_coef .., Channel.setTarget_st .., Channel.setTarget_pbyp _ _ _,
          Channel.setTarget_sbyp _ _ _⟩
      · simp [hc]
  · rcases hbad with h | rfl
    · simp [Instr.wf, BitVec.le_def, h]
    · simp [Instr.wf]

/-! PREPARE (41_filter_chain R190). -/

/-- Settles O23: PREPARE is its design's outcome. -/
theorem prepareLatchesDesignsAndZeroesTheChain : Obligations.PrepareLatchesDesignsAndZeroesTheChain := by
  refine fun s => ⟨fun a h => ?_, fun d h => ?_⟩
  · simp only [exec, execPrepare, h]
  · simp only [exec, execPrepare, h]
    rfl

end Sys2Proof.Machine
end

section
/-! PROOFS. The frame step and the audio block (41_filter_chain R200 to R207): one chain by its stages and positions,
and a block by its frames. -/

namespace Sys2Proof.Machine

/-! One stage. -/

/-- A stage of a bypassed position is inactive. -/
theorem Channel.active_of_position {k : Channel} {t : Stage} (h : k.pbyp[pos t] = true) : k.active t = false := by
  simp only [Channel.active, h, Bool.not_true, Bool.false_and]

theorem stageStep_inactive (b : Build) {k : Channel} {t : Stage} (x : Word) (h : k.active t = false) :
    stageStep b k t x = (x, k) := by
  simp only [stageStep, h, Bool.false_eq_true, if_false]

/-- A stage step changes no flag, so it leaves every stage as active as it was. -/
theorem stageStep_active (b : Build) (k : Channel) (u : Stage) (x : Word) (t : Stage) :
    (stageStep b k u x).2.active t = k.active t := by
  obtain ⟨d, hd⟩ := stageStep_chain b k u x
  rw [hd]
  rfl

/-- A stage step neither reads nor writes the delays of another stage. -/
theorem stageStep_setDelay_other (b : Build) (k : Channel) {t u : Stage} (d : Delay) (x : Word) (hne : u ≠ t) :
    stageStep b (k.setDelay t d) u x = ((stageStep b k u x).1, (stageStep b k u x).2.setDelay t d) := by
  have hidx : t.val ≠ u.val := fun h => hne (Fin.ext h.symm)
  have hst : (k.setDelay t d).st[u] = k.st[u] := Vector.getElem_set_ne t.isLt u.isLt hidx
  have hcomm : ∀ e, (k.setDelay t d).setDelay u e = (k.setDelay u e).setDelay t d := fun e =>
    congrArg (fun st => { k with st := st }) (Vector.set_comm d e hidx)
  have hactive : (k.setDelay t d).active u = k.active u := rfl
  by_cases h : k.active u = true
  · simp only [stageStep, hactive, h, if_true, hst, hcomm]
    rfl
  · simp only [stageStep, hactive, h, Bool.false_eq_true, if_false]

/-- An inactive stage neither reads nor writes its own delays either. -/
theorem stageStep_setDelay_inactive (b : Build) {k : Channel} {t : Stage} (u : Stage) (d : Delay) (x : Word)
    (h : k.active t = false) :
    stageStep b (k.setDelay t d) u x = ((stageStep b k u x).1, (stageStep b k u x).2.setDelay t d) := by
  by_cases hu : u = t
  · subst hu
    rw [stageStep_inactive b x h, stageStep_inactive b x (k := k.setDelay u d) h]
  · exact stageStep_setDelay_other b k d x hu

/-! The stages of a chain (41_filter_chain R202, R204). -/

theorem runStages_append (b : Build) (ts us : List Stage) (k : Channel) (x : Word) :
    runStages b (ts ++ us) k x = runStages b us (runStages b ts k x).2 (runStages b ts k x).1 := by
  induction ts generalizing k x with
  | nil => rfl
  | cons t ts ih => exact ih _ _

theorem runStages_inactive (b : Build) {ts : List Stage} {k : Channel} (x : Word)
    (h : ∀ t ∈ ts, k.active t = false) : runStages b ts k x = (x, k) := by
  induction ts with
  | nil => rfl
  | cons t ts ih =>
    rw [List.forall_mem_cons] at h
    simp only [runStages, stageStep_inactive b x h.1]
    exact ih h.2

theorem runStages_setDelay_inactive (b : Build) (ts : List Stage) {k : Channel} {t : Stage} (d : Delay) (x : Word)
    (h : k.active t = false) :
    runStages b ts (k.setDelay t d) x = ((runStages b ts k x).1, (runStages b ts k x).2.setDelay t d) := by
  induction ts generalizing k x with
  | nil => rfl
  | cons u ts ih =>
    simp only [runStages, stageStep_setDelay_inactive b u d x h]
    exact ih _ ((stageStep_active ..).trans h)

theorem Channel.setDelay_self (k : Channel) (t : Stage) : k.setDelay t k.st[t] = k := by
  have h : k.st.set t k.st[t] = k.st := Vector.set_getElem_self t.isLt
  simp only [Channel.setDelay, h]

/-- A frame leaves the delays of an inactive stage. -/
theorem runChain_st_inactive (b : Build) {k : Channel} {t : Stage} (x : Word) (h : k.active t = false) :
    (runChain b k x).2.st[t] = k.st[t] := by
  have hset := congrArg (·.2.st[t]) (runStages_setDelay_inactive b stages k.st[t] x h)
  rw [Channel.setDelay_self] at hset
  exact hset.trans (Vector.getElem_set_self ..)

/-- With every position bypassed the chain passes its word. -/
theorem runChain_passThrough (b : Build) {k : Channel} (x : Word) (h : k.passThrough = true) :
    runChain b k x = (x, k) := by
  simp only [Channel.passThrough, Bool.and_eq_true] at h
  obtain ⟨⟨h0, h1⟩, h2⟩ := h
  have hp : ∀ p : Fin 3, k.pbyp[p] = true := by
    intro p
    fin_cases p
    · exact h0
    · exact h1
    · exact h2
  exact runStages_inactive b x fun t _ => Channel.active_of_position (hp (pos t))

/-- Settles O49: by the stages of the frame. -/
theorem bypassIsExactPassThrough : Obligations.BypassIsExactPassThrough := by
  refine fun b k x => ⟨fun t => Channel.active_of_position, fun t h => ⟨stageStep_inactive b x h,
    runChain_st_inactive b x h, fun d => runStages_setDelay_inactive b stages d x h⟩, ?_, runChain_passThrough b x⟩
  rw [runChain_chain]

/-! The loop over positions (41_filter_chain R202). -/

theorem pos_of_mem_positionStages {p : Fin 3} {t : Stage} (h : t ∈ positionStages p) : pos t = p := by
  revert t p
  decide

/-- Where its position is not bypassed a stage runs exactly if it is the peak stage or its flag is clear. -/
theorem Channel.active_iff {k : Channel} {t : Stage} (hp : k.pbyp[pos t] = false) :
    k.active t = true ↔ t = 4 ∨ k.sbyp t = false := by
  have hpeak : t = 4 → k.sbyp t = false := by
    rintro rfl
    rfl
  simp only [Channel.active, hp, Bool.not_false, Bool.true_and, Bool.not_eq_true', or_iff_right_of_imp hpeak]

/-- The body of R202's loop over the stages of a position. -/
def loopStage (b : Build) (r : Word × Channel) (t : Stage) : Word × Channel :=
  if t = 4 ∨ r.2.sbyp t = false then
    let q := biquad b r.2.coef[t] r.2.st[t] r.1
    (q.1, { r.2 with st := r.2.st.set t q.2 })
  else r

theorem loopStage_eq_stageStep (b : Build) {k : Channel} {t : Stage} (x : Word) (hp : k.pbyp[pos t] = false) :
    loopStage b (x, k) t = stageStep b k t x := by
  simp only [loopStage, stageStep, ← Channel.active_iff hp]
  rfl

theorem foldl_loopStage (b : Build) {p : Fin 3} {ts : List Stage} {k : Channel} (x : Word)
    (hts : ∀ t ∈ ts, pos t = p) (hp : k.pbyp[p] = false) :
    ts.foldl (loopStage b) (x, k) = runStages b ts k x := by
  induction ts generalizing k x with
  | nil => rfl
  | cons t ts ih =>
    rw [List.forall_mem_cons] at hts
    obtain ⟨rfl, hts⟩ := hts
    rw [List.foldl_cons, loopStage_eq_stageStep b x hp]
    refine ih (k := (stageStep b k t x).2) _ hts ?_
    obtain ⟨d, hd⟩ := stageStep_chain b k t x
    rw [hd]
    exact hp

/-- A position is its stages in a row: all inactive where it is bypassed, else the loop. -/
theorem runPosition_eq_runStages (b : Build) (p : Fin 3) (k : Channel) (x : Word) :
    runPosition b p k x = runStages b (positionStages p) k x := by
  by_cases hp : k.pbyp[p] = true
  · refine (if_pos hp).trans (runStages_inactive b x fun t ht => Channel.active_of_position ?_).symm
    obtain rfl := pos_of_mem_positionStages ht
    exact hp
  · exact (if_neg hp).trans (foldl_loopStage b x (fun _ => pos_of_mem_positionStages) (by simpa using hp))

theorem runChain_eq_positions (b : Build) (k : Channel) (x : Word) :
    runChain b k x = [0, 1, 2].foldl (fun r p => runPosition b p r.2 r.1) (x, k) := by
  simp only [List.foldl, runPosition_eq_runStages]
  rw [← runStages_append, ← runStages_append]
  rfl

/-! One stage's equations, and the identity stage (41_filter_chain R201, R205). -/

theorem biquad_eq_iff (b : Build) (k : CoefSet) (d : Delay) (x y s1n s2n : Word) :
    biquad b k d x = (y, ⟨s1n, s2n⟩) ↔
      y = fadd b (fmul b k.b0 x) d.s1 ∧
      s1n = fadd b (fsub b (fmul b k.b1 x) (fmul b k.a1 y)) d.s2 ∧
      s2n = fsub b (fmul b k.b2 x) (fmul b k.a2 y) := by
  simp only [biquad, Prod.mk.injEq, Delay.mk.injEq]
  constructor
  · rintro ⟨rfl, rfl, rfl⟩
    exact ⟨rfl, rfl, rfl⟩
  · rintro ⟨rfl, rfl, rfl⟩
    exact ⟨rfl, rfl, rfl⟩

/-- The identity stage adds its first delay, and moves the second one up behind a zero. -/
theorem biquad_id5 (b : Build) (d : Delay) {x : Word} (hx : PlainWord b x)
    (hy : (Fl.ofWord (fadd b x d.s1)).finite = true) :
    ∃ z, biquad b .id5 d x = (fadd b x d.s1, ⟨fadd b (zeroWord z) d.s2, zeroWord z⟩) := by
  obtain ⟨r, hr⟩ := zero_fmul b x hx.1
  obtain ⟨t, ht⟩ := zero_fmul b _ hy
  obtain ⟨z, hz⟩ := zero_fsub_zero b r t
  exact ⟨z, by simp only [biquad, CoefSet.id5, one_fmul b x hx, hr, ht, hz]⟩

/-- The identity stage's output. -/
theorem biquad_id5_fst (b : Build) (d : Delay) {x : Word} (hx : PlainWord b x) :
    (biquad b .id5 d x).1 = fadd b x d.s1 := by
  simp only [biquad, CoefSet.id5, one_fmul b x hx]

/-- Three frames of the identity stage: its delays leave through the first two outputs. -/
theorem id5_frames (b : Build) {s1 s2 x1 x2 x3 : Word} (hs2 : PlainWord b s2) (h1 : PlainWord b x1)
    (h2 : PlainWord b x2) (h3 : PlainWord b x3) (hy1 : (Fl.ofWord (fadd b x1 s1)).finite = true)
    (hy2 : (Fl.ofWord (fadd b x2 s2)).finite = true) :
    let r1 := biquad b .id5 ⟨s1, s2⟩ x1
    let r2 := biquad b .id5 r1.2 x2
    r1.1 = fadd b x1 s1 ∧ SameButZeroSign r2.1 (fadd b x2 s2) ∧ SameButZeroSign (biquad b .id5 r2.2 x3).1 x3 := by
  obtain ⟨z, hr1⟩ := biquad_id5 b ⟨s1, s2⟩ h1 hy1
  have hout2 : SameButZeroSign (fadd b x2 (fadd b (zeroWord z) s2)) (fadd b x2 s2) :=
    fadd_congr_zero b x2 _ _ h2 (fadd_zero b s2 z hs2).2
  obtain ⟨z', hr2⟩ := biquad_id5 b ⟨fadd b (zeroWord z) s2, zeroWord z⟩ h2 (same_finite hout2 hy2)
  have hout3 : SameButZeroSign (fadd b x3 (fadd b (zeroWord z') (zeroWord z))) x3 :=
    same_trans (fadd_congr_zero b x3 _ _ h3 (fadd_zero b (zeroWord z) z' (plainWord_zeroWord b z)).2)
      (fadd_zero b x3 z h3).1
  simp only [hr1, hr2, biquad_id5_fst b _ h3]
  exact ⟨trivial, hout2, hout3⟩

/-- Settles O48: the positions' stages in a row are the chain's; the identity stage by its three frames. -/
theorem frameStepFollowsThePositionLoop : Obligations.FrameStepFollowsThePositionLoop := by
  refine ⟨runChain_eq_positions, biquad_eq_iff, fun b s1 s2 x1 x2 x3 => ?_⟩
  intro id5 same hplain hy1 hy2
  simp only [List.forall_mem_cons] at hplain
  obtain ⟨hs2, h1, h2, h3, -⟩ := hplain
  exact id5_frames b hs2 h1 h2 h3 hy1 hy2

/-! The channels (41_filter_chain R203). -/

/-- Settles O52: each chain of a frame is run from its own state and sample. -/
theorem channelsShareNoState : Obligations.ChannelsShareNoState := by
  refine fun s k x y z => ⟨?_, ?_, ?_, ?_, ?_⟩
  · simp only [frameMono, State.frame]
  · rw [frameStereo_ch0, frameStereo_ch0]
  · rw [frameStereo_ch1, frameStereo_ch1]
  · rw [frameStereo_host]
  · rw [frameStereo_an, frameStereo_an]

/-! The header of a block (41_filter_chain R200). -/

theorem encodeWord_processBlock (n : BitVec 16) : encodeWord (.processBlock n) = n ++ 0x0001#16 := by
  refine BitVec.eq_of_toNat_eq ?_
  rw [encodeWord_processBlock_toNat, toNat_append_eq_add]
  simp

/-- Settles O45: the header step's three cases. -/
theorem processBlockHeaderChecksThenStarts : Obligations.ProcessBlockHeaderChecksThenStarts := by
  intro n s
  simp only [exec, execProcessBlock, encodeWord_processBlock]
  refine ⟨fun hp => ?_, fun hp hn => ?_, fun hp hn => ?_⟩
  · rw [if_pos (by simp [hp])]
    rfl
  · rw [if_neg (by simp [hp]), if_pos hn]
    rfl
  · rw [if_neg (by simp [hp]), if_neg (Nat.not_lt.mpr hn)]
    rfl

/-! A block's steps. -/

/-- The state after AUDIO has consumed a block: the chains and the analysis state it leaves, the stream left, the
words emitted and the number of free values drawn. -/
def State.afterBlock (s : State) (k0 k1 : Channel) (a : Analysis) (rest out : List Word) (drawn : Nat) : State :=
  { s with
    ch0 := k0, ch1 := k1, an := a, audioOp := .header
    host := { s.host with
      audioIn := rest, audioOut := s.host.audioOut ++ out, draws := s.host.draws + drawn } }

/-- With nothing to do the block is over. -/
theorem State.afterBlock_nil (s : State) (rest : List Word) (hop : s.audioOp = .header) (hq : s.host.audioIn = rest) :
    s.afterBlock s.ch0 s.ch1 s.an rest [] 0 = s := by
  simp only [State.afterBlock, List.append_nil, ← hop, ← hq, Nat.add_zero]

theorem framesLeft_of_ne_nil {α : Type} {xs : List α} (h : xs ≠ []) (stereo : Bool) :
    framesLeft xs.length stereo = .frames xs.length stereo :=
  if_neg (mt List.length_eq_zero_iff.mp h)

theorem drainLeft_of_ne_nil {xs : List Word} (h : xs ≠ []) : drainLeft xs.length = .drain xs.length :=
  if_neg (mt List.length_eq_zero_iff.mp h)

/-- The frames of a mono block. -/
theorem audioRun_mono (s : State) (xs rest : List Word) (hop : s.audioOp = framesLeft xs.length false)
    (hq : s.host.audioIn = xs ++ rest) :
    audioRun xs.length s = .next (s.afterBlock (chainOutputs s.build s.ch0 xs).2 s.ch1
      ((chainOutputs s.build s.ch0 xs).1.foldl (tap s.build) s.an) rest (chainOutputs s.build s.ch0 xs).1 0) := by
  induction xs generalizing s with
  | nil => exact congrArg _ (s.afterBlock_nil rest hop hq).symm
  | cons x xs ih =>
    rw [List.length_cons, audioRun_succ _ _ _ (audioStep_mono s _ x (xs ++ rest) hop hq), ih _ rfl rfl]
    simp [chainOutputs, State.afterBlock]

/-- The words of a stereo block's frames. -/
def interleave (xs : List (Word × Word)) : List Word := xs.flatMap fun p => [p.1, p.2]

/-- The frames of a stereo block. -/
theorem audioRun_stereo (s : State) (xs : List (Word × Word)) (rest : List Word)
    (hop : s.audioOp = framesLeft xs.length true) (hq : s.host.audioIn = interleave xs ++ rest) :
    let r0 := chainOutputs s.build s.ch0 (xs.map Prod.fst)
    let r1 := chainOutputs s.build s.ch1 (xs.map Prod.snd)
    audioRun xs.length s = .next (s.afterBlock r0.2 r1.2 (r0.1.foldl (tap s.build) s.an) rest
      (interleave (r0.1.zip r1.1)) 0) := by
  induction xs generalizing s with
  | nil => exact congrArg _ (s.afterBlock_nil rest hop hq).symm
  | cons p xs ih =>
    rw [List.length_cons, audioRun_succ _ _ _ (audioStep_stereo s _ p.1 p.2 (interleave xs ++ rest) hop hq),
      ih _ rfl rfl]
    simp [chainOutputs, State.afterBlock, interleave]

/-- The words of a refused block. -/
theorem audioRun_drain (s : State) (ws rest : List Word) (hop : s.audioOp = drainLeft ws.length)
    (hq : s.host.audioIn = ws ++ rest) : ∃ out : List Word, out.length = ws.length ∧
      audioRun ws.length s = .next (s.afterBlock s.ch0 s.ch1 s.an rest out ws.length) := by
  induction ws generalizing s with
  | nil => exact ⟨[], rfl, congrArg _ (s.afterBlock_nil rest hop hq).symm⟩
  | cons w ws ih =>
    obtain ⟨out, hlen, hrun⟩ := ih (drainStep (s.takeAudio (ws ++ rest)) (w :: ws).length) rfl rfl
    refine ⟨Config.freeWord s.host.draws :: out, by simp [hlen], ?_⟩
    rw [List.length_cons, audioRun_succ _ _ _ (audioStep_drain s _ w (ws ++ rest) hop hq), hrun]
    simp only [State.afterBlock, List.length_cons]
    simp [Nat.add_assoc, Nat.add_comm 1]

/-- Settles O46: each word is one drain step. -/
theorem refusedBlockOnlyConsumesAndEmits : Obligations.RefusedBlockOnlyConsumesAndEmits :=
  fun s words rest hne hop hq => audioRun_drain s words rest (hop.trans (drainLeft_of_ne_nil hne).symm) hq

/-- Settles O50: by induction over the frames. -/
theorem blockOutputIsItsFramesInOrder : Obligations.BlockOutputIsItsFramesInOrder :=
  ⟨fun s xs rest hne hop hq => audioRun_mono s xs rest (hop.trans (framesLeft_of_ne_nil hne false).symm) hq,
    fun s xs rest hne hop hq => audioRun_stereo s xs rest (hop.trans (framesLeft_of_ne_nil hne true).symm) hq⟩

/-! A block of a fully bypassed chain. -/

theorem chainOutputs_passThrough (b : Build) {k : Channel} (h : k.passThrough = true) (xs : List Word) :
    chainOutputs b k xs = (xs, k) := by
  induction xs with
  | nil => rfl
  | cons x xs ih => simp only [chainOutputs, runChain_passThrough b x h, ih]

/-- An even number of words are the words of some frames. -/
theorem exists_interleave (n : Nat) (ws : List Word) (h : ws.length = n * 2) :
    ∃ xs, xs.length = n ∧ ws = interleave xs := by
  induction n generalizing ws with
  | zero => exact ⟨[], rfl, List.length_eq_zero_iff.mp (by omega)⟩
  | succ n ih =>
    match ws, h with
    | [_], h =>
      rw [List.length_singleton] at h
      omega
    | x :: y :: ws, h =>
      obtain ⟨xs, hlen, rfl⟩ := ih ws (by simp only [List.length_cons] at h; omega)
      exact ⟨(x, y) :: xs, by simp [hlen], rfl⟩

theorem zip_map_fst_snd (xs : List (Word × Word)) : (xs.map Prod.fst).zip (xs.map Prod.snd) = xs := by
  rw [List.zip_map', List.map_id'' fun _ => rfl]

/-- The header step of an accepted block. -/
theorem audioStep_accepted (s : State) (n : BitVec 16) (ws : List Word) (hop : s.audioOp = .header)
    (hp : s.prepared = true) (hn : n.toNat ≤ s.maxblkActive.toNat)
    (hq : s.host.audioIn = (n ++ 0x0001#16) :: ws) :
    audioStep s = .next ((s.takeAudio ws).setAudioOp (framesLeft n.toNat s.stereoActive)) := by
  rw [audioStep_header s _ ws hop hq, takeHeader_ok _ _ (.processBlock n)]
  · exact (processBlockHeaderChecksThenStarts n (s.takeAudio ws)).2.2 hp hn
  · rw [← encodeWord_processBlock]
    exact decodeStream_encodeWord n

/-- Settles O51: the header step, then the frames, whose chains pass their words. -/
theorem bypassedBlockPassesBitForBit : Obligations.BypassedBlockPassesBitForBit := by
  intro s n words rest hop hp hn hlen hq h0 h1
  rw [Nat.add_comm, audioRun_succ _ _ _ (audioStep_accepted s n _ hop hp hn hq)]
  cases hs : s.stereoActive with
  | false =>
    have hw : words.length = n.toNat := by simpa [hs, frameWords] using hlen
    rw [← hw, audioRun_mono _ words rest rfl rfl]
    simp only [State.setAudioOp_ch0, State.takeAudio_ch0, chainOutputs_passThrough _ h0]
    exact ⟨_, rfl, rfl, rfl, rfl, rfl, rfl⟩
  | true =>
    obtain ⟨xs, hxs, rfl⟩ := exists_interleave n.toNat words (by simpa [hs, frameWords] using hlen)
    rw [← hxs, audioRun_stereo _ xs rest rfl rfl]
    simp only [State.setAudioOp_ch0, State.takeAudio_ch0, State.setAudioOp_ch1, State.takeAudio_ch1,
      chainOutputs_passThrough _ h0, chainOutputs_passThrough _ (h1 hs), zip_map_fst_snd]
    exact ⟨_, rfl, rfl, rfl, rfl, rfl, rfl⟩

end Sys2Proof.Machine
end

section
/-! PROOFS. The parameter snapshot (42_parameter_snapshot R231, R234, R236): writes to the parameter registers, NOP, and
the installs of TICK. -/

namespace Sys2Proof.Machine

/-! Parameter writes (42_parameter_snapshot R231). -/

theorem le_eq_not_lt {x y : Fl} (hx : x ≠ .nan) (hy : y ≠ .nan) : Fl.le x y = !Fl.lt y x := by
  match x, y with
  | .nan, _ => exact absurd rfl hx
  | _, .nan => exact absurd rfl hy
  | .inf s, .inf t => cases s <;> cases t <;> rfl
  | .inf s, .fin _ _ _ => exact (Bool.not_not s).symm
  | .fin _ _ _, .inf _ => rfl
  | .fin _ _ _, .fin _ _ _ => rw [le_fin, lt_fin, ← decide_not, decide_eq_decide, not_lt]

/-- `v` is a NaN, below `lo` or above `hi`: what a parameter write refuses. -/
def outOfRange (lo hi v : Word) : Bool :=
  Fl.ofWord v == .nan || Fl.lt (Fl.ofWord v) (Fl.ofWord lo) || Fl.lt (Fl.ofWord hi) (Fl.ofWord v)

theorem inRange_eq {lo hi : Word} (v : Word) (hlo : Fl.ofWord lo ≠ .nan) (hhi : Fl.ofWord hi ≠ .nan) :
    inRange lo hi v = !outOfRange lo hi v := by
  unfold inRange outOfRange
  by_cases hv : Fl.ofWord v = .nan
  · rw [hv]
    cases Fl.ofWord lo <;> rfl
  · rw [le_eq_not_lt hlo hv, le_eq_not_lt hv hhi, beq_eq_false_iff_ne.mpr hv, Bool.false_or, Bool.not_or]

theorem freqOk_eq (v : Word) : freqOk v = !outOfRange 0x41A00000#32 0x469C4000#32 v :=
  inRange_eq v (by decide) (by decide)

theorem gainOk_eq (v : Word) : gainOk v = !outOfRange 0xC1C00000#32 0x41C00000#32 v :=
  inRange_eq v (by decide) (by decide)

theorem qOk_eq (v : Word) : qOk v = !outOfRange 0x3DCCCCCD#32 0x41200000#32 v :=
  inRange_eq v (by decide) (by decide)

/-- A write to a parameter register stores and sets DIRTY where its check does not refuse the value. -/
theorem exec_wr_param {s : State} {v : Word} {r : Reg} {ok bad : Bool} {p : Params} (hr : r.access = .rw)
    (hw : s.writeReg r.addr v r = s.writeParam ok r.addr p) (hok : ok = !bad) :
    exec (.wr r.addr v) s =
      .next (if bad then s.raise .badParam (BitVec.ofNat 32 r.offset) else s.setParams p) := by
  rw [exec_wr_reg s v r hr, hw, State.writeParam, Reg.addr_setWidth, hok]
  cases bad <;> rfl

/-- Settles O18: each check is its range, and SETTINGS has none. -/
theorem parameterWritesStoreInRangeAndSetDirty : Obligations.ParameterWritesStoreInRangeAndSetDirty := by
  intro v s bad
  exact ⟨exec_wr_param (r := .lowcutFreq) rfl rfl (freqOk_eq v),
    exec_wr_param (r := .highcutFreq) rfl rfl (freqOk_eq v),
    exec_wr_param (r := .peakFreq) rfl rfl (freqOk_eq v),
    exec_wr_param (r := .peakGainDb) rfl rfl (gainOk_eq v),
    exec_wr_param (r := .peakQ) rfl rfl (qOk_eq v),
    exec_wr_reg s v .settings rfl⟩

/-! NOP (42_parameter_snapshot R236). -/

theorem exec_nop (s : State) : exec .nop s = .next { s with cmdResult := 0x00000001#32 } := rfl

/-- Settles O21: a word with opcode 0 and another bit set is no command. -/
theorem nopOnlyWritesCmdResult : Obligations.NopOnlyWritesCmdResult := by
  refine fun s => ⟨exec_nop s, ?_, fun v hop hv => ?_⟩
  · rw [exec_wr_cmd, execCommand_ok 0#32 s .nop rfl rfl, exec_nop]
  · have hne : v.toNat ≠ 0 := fun h => hv (BitVec.eq_of_toNat_eq h)
    exact (writeToCmdExecutesTheCommandOrRaisesBadCmd v s).1 (.inr (.inl (by omega)))

/-! The installs of TICK (42_parameter_snapshot R234). -/

/-- Chains with equal delays, position flags, sets and stage flags are equal. -/
theorem Channel.eq_of_stages {k k' : Channel} (hst : k.st = k'.st) (hpbyp : k.pbyp = k'.pbyp)
    (hcoef : ∀ t : Stage, k.coef[t] = k'.coef[t]) (hsbyp : ∀ t, k.sbyp t = k'.sbyp t) : k = k' := by
  obtain ⟨coef, st, pbyp, lcByp, hcByp⟩ := k
  obtain ⟨coef', st', pbyp', lcByp', hcByp'⟩ := k'
  have hc : coef = coef' := Vector.ext fun i hi => hcoef ⟨i, hi⟩
  have hlc : lcByp = lcByp' := Vector.ext fun i hi => by
    interval_cases i
    exacts [hsbyp 0, hsbyp 1, hsbyp 2, hsbyp 3]
  have hhc : hcByp = hcByp' := Vector.ext fun i hi => by
    interval_cases i
    exacts [hsbyp 5, hsbyp 6, hsbyp 7, hsbyp 8]
  subst hst hpbyp hc hlc hhc
  rfl

/-- The chain with one stage of a design installed: its set and its flag. -/
def Channel.installStage (d : FullDesign) (k : Channel) (t : Stage) : Channel :=
  (k.setCoef t d.coef[t]).setSbyp t ((preparedChain d).sbyp t)

theorem Channel.installStage_coef (d : FullDesign) (k : Channel) (t t' : Stage) :
    (k.installStage d t).coef[t'] = if t' = t then d.coef[t'] else k.coef[t'] := by
  rw [installStage, setSbyp_coef, setCoef_coef]
  split
  · next h => rw [h]
  · rfl

/-- The peak stage has no flag, in the chain as in the design (10_state R73). -/
theorem Channel.installStage_sbyp (d : FullDesign) (k : Channel) (t t' : Stage) :
    (k.installStage d t).sbyp t' = if t' = t then (preparedChain d).sbyp t' else k.sbyp t' := by
  rw [installStage, setSbyp_sbyp]
  by_cases ht : t' = t
  · subst ht
    by_cases h4 : t' = 4
    · subst h4
      rfl
    · simp [h4]
  · simp only [ht, false_and, if_false]
    rfl

/-- Stages of a design installed one after another: each holds the design's set and flag, the others theirs. -/
theorem Channel.foldl_installStage (d : FullDesign) (ts : List Stage) (k : Channel) :
    (ts.foldl (installStage d) k).st = k.st ∧ (ts.foldl (installStage d) k).pbyp = k.pbyp ∧
      ∀ t, (ts.foldl (installStage d) k).coef[t] = (if t ∈ ts then d.coef[t] else k.coef[t]) ∧
        (ts.foldl (installStage d) k).sbyp t = (if t ∈ ts then (preparedChain d).sbyp t else k.sbyp t) := by
  induction ts generalizing k with
  | nil => exact ⟨rfl, rfl, fun t => ⟨rfl, rfl⟩⟩
  | cons u ts ih =>
    obtain ⟨hst, hpbyp, hstage⟩ := ih (k.installStage d u)
    refine ⟨hst.trans (setSbyp_st ..), hpbyp.trans (setSbyp_pbyp ..), fun t => ?_⟩
    obtain ⟨hcoef, hsbyp⟩ := hstage t
    rw [List.foldl_cons, hcoef, hsbyp, installStage_coef, installStage_sbyp]
    by_cases hu : t = u <;> by_cases ht : t ∈ ts <;> simp [hu, ht]

/-- The chain with a whole design installed; its delays stay. -/
def Channel.installDesign (d : FullDesign) (k : Channel) : Channel := { preparedChain d with st := k.st }

/-- All nine stages, then the position flags, install the design. -/
theorem Channel.foldl_installStage_all (d : FullDesign) (k : Channel) :
    { (List.finRange 9).foldl (installStage d) k with pbyp := d.pbyp } = k.installDesign d := by
  obtain ⟨hst, -, hstage⟩ := foldl_installStage d (List.finRange 9) k
  refine eq_of_stages hst rfl (fun t => ?_) (fun t => ?_)
  · exact (hstage t).1.trans (if_pos (List.mem_finRange t))
  · exact (hstage t).2.trans (if_pos (List.mem_finRange t))

theorem State.setChan_setChan (s : State) (c : Ch) (k k' : Channel) :
    (s.setChan c k).setChan c k' = s.setChan c k' := by
  cases c <;> rfl

theorem foldl_stageInstalls (s : State) (c : Ch) (d : FullDesign) (ts : List Stage) :
    (ts.map fun t => Install.stage c t d.coef[t] ((preparedChain d).sbyp t)).foldl Install.apply s =
      s.setChan c (ts.foldl (Channel.installStage d) (s.chan c)) := by
  induction ts generalizing s with
  | nil => exact (s.setChan_chan_self c).symm
  | cons t ts ih =>
    rw [List.map_cons, List.foldl_cons, ih, Install.apply, State.setChan_setChan, State.setChan_chan_same]
    rfl

/-- The installs of one channel, stage by stage, the position flags last. -/
theorem channelInstalls_eq (c : Ch) (d : FullDesign) :
    channelInstalls c d = ((List.finRange 9).map fun t =>
      Install.stage c t d.coef[t] ((preparedChain d).sbyp t)) ++ [.flags c d.pbyp] := rfl

theorem foldl_channelInstalls (s : State) (c : Ch) (d : FullDesign) :
    (channelInstalls c d).foldl Install.apply s = s.setChan c ((s.chan c).installDesign d) := by
  rw [channelInstalls_eq, List.foldl_append, foldl_stageInstalls, List.foldl_cons, List.foldl_nil, Install.apply,
    State.setChan_setChan, State.setChan_chan_same, Channel.foldl_installStage_all]

theorem foldl_tickInstalls (s : State) (d : FullDesign) :
    (tickInstalls d).foldl Install.apply s =
      { s with ch0 := s.ch0.installDesign d, ch1 := s.ch1.installDesign d } := by
  rw [tickInstalls, List.foldl_append, foldl_channelInstalls, foldl_channelInstalls]
  rfl

/-- The 20 install steps of a TICK that has decided. -/
theorem ctrlRun_tickInstalls (s : State) (d : FullDesign) (h : s.ctrlOp = some ⟨0x02#8, tickInstalls d⟩) :
    ctrlRun 20 s = .next ((State.setCtrlOp
      { s with ch0 := s.ch0.installDesign d, ch1 := s.ch1.installDesign d } none).result 0x02#8 true) := by
  rw [← foldl_tickInstalls]
  exact ctrlRun_installs s 0x02#8 _ _ h

theorem exec_tick_noop {s : State} (h : s.prepared = false ∨ s.dirty = false) :
    exec .tick s = .next (s.result 0x02#8 false) := by
  rcases h with h | h <;> simp [exec, execTick, h]

theorem exec_tick_error {s : State} {a : Word} (hp : s.prepared = true) (hd : s.dirty = true)
    (h : fullDesign s.build s.params s.srActive = .error a) : exec .tick s = .next (s.raise .designDomain a) := by
  simp only [exec, execTick, hp, hd, h, Bool.not_true, Bool.false_eq_true, if_false]

theorem exec_tick_ok {s : State} {d : FullDesign} (hp : s.prepared = true) (hd : s.dirty = true)
    (h : fullDesign s.build s.params s.srActive = .ok d) :
    exec .tick s = .next (State.setCtrlOp { s with dirty := false } (some ⟨0x02#8, tickInstalls d⟩)) := by
  simp only [exec, execTick, hp, hd, h, Bool.not_true, Bool.false_eq_true, if_false]

/-- The flag that R234 installs with a stage is the design's. -/
theorem preparedChain_sbyp (d : FullDesign) (t : Stage) :
    (preparedChain d).sbyp t =
      if h : t.val < 4 then d.lcByp[t.val] else if _ : t.val = 4 then false else d.hcByp[t.val - 5] := by
  fin_cases t <;> rfl

/-- Settles O24: the decision step by its cases, then the installs, each channel's stage by stage. -/
theorem tickDecidesThenInstallsTheFullDesign : Obligations.TickDecidesThenInstallsTheFullDesign := by
  refine fun s => ⟨exec_tick_noop, fun hp hd => ⟨fun a => exec_tick_error hp hd, fun d hok => ?_⟩⟩
  intro flag todo t
  have hflag : flag = (preparedChain d).sbyp := funext fun t => (preparedChain_sbyp d t).symm
  have htodo : todo = tickInstalls d := by
    simp only [todo, hflag, List.flatMap_cons, List.flatMap_nil, List.append_nil, tickInstalls, channelInstalls_eq]
  have ht : t = State.setCtrlOp { s with dirty := false } (some ⟨0x02#8, tickInstalls d⟩) := by
    rw [← htodo]
    rfl
  rw [ht]
  exact ⟨exec_tick_ok hp hd hok, ctrlRun_tickInstalls _ d rfl⟩

end Sys2Proof.Machine
end

section
/-! PROOFS. The control bits, the latched registers and the build (00_scope R8; 10_state R43, R74; 42_parameter_snapshot
R232): who writes them. -/

namespace Sys2Proof.Machine

/-- The build and what PREPARE latches are equal. -/
structure SameLatch (s t : State) : Prop where
  build : t.build = s.build
  srActive : t.srActive = s.srActive
  maxblkActive : t.maxblkActive = s.maxblkActive
  stereoActive : t.stereoActive = s.stereoActive
  prepared : t.prepared = s.prepared

/-- `i` is the command `c`, as such or by a write to CMD (10_state R81). -/
def Instr.issues (i c : Instr) : Prop := i = c ∨ i = .wr 0x00018#20 (encodeWord c)

/-- Everything an instruction can do to DIRTY, the latched registers, PREPARED and the build. -/
inductive ControlEffect (s : State) (i : Instr) (t : State) : Prop
  | kept (latch : SameLatch s t) (dirty : t.dirty = s.dirty)
  | paramWrite (latch : SameLatch s t) (dirty : t.dirty = true) (r : Reg) (v : Word) (hi : i = .wr r.addr v)
      (hr : r ∈ [.lowcutFreq, .highcutFreq, .peakFreq, .peakGainDb, .peakQ, .settings])
  | tick (latch : SameLatch s t) (dirty : t.dirty = false) (hi : Instr.issues i .tick)
  | prepare (build : t.build = s.build) (dirty : t.dirty = false) (hi : Instr.issues i .prepare)

theorem ControlEffect.same_build {s t : State} {i : Instr} (h : ControlEffect s i t) : t.build = s.build := by
  cases h with
  | kept latch | paramWrite latch | tick latch => exact latch.build
  | prepare build => exact build

theorem CommandEffect.control {s t : State} {i c : Instr} (h : CommandEffect s c t) (hi : Instr.issues i c) :
    ControlEffect s i t := by
  cases h with
  | decision d hp => exact .tick ⟨rfl, rfl, rfl, rfl, rfl⟩ rfl hi
  | prepared t h =>
    unfold execPrepare at h
    split at h
    · exact next_inj h ▸ .kept ⟨rfl, rfl, rfl, rfl, rfl⟩ rfl
    · exact next_inj h ▸ .prepare rfl rfl hi
  | install i op hop todo =>
    exact .kept ⟨installStep_build .., installStep_srActive .., installStep_maxblkActive ..,
      installStep_stereoActive .., installStep_prepared ..⟩ (installStep_dirty ..)
  | _ => exact .kept ⟨rfl, rfl, rfl, rfl, rfl⟩ rfl

theorem ControlEffect.raise (s : State) (i : Instr) (c : Cause) (info : Word) : ControlEffect s i (s.raise c info) :=
  .kept ⟨rfl, rfl, rfl, rfl, rfl⟩ rfl

/-- A checked write keeps what both its outcomes keep. -/
theorem ControlEffect.checked {s stored : State} {i : Instr} {ok : Bool} {a : Addr} (h : ControlEffect s i stored) :
    ControlEffect s i (s.checked ok a stored) := by
  unfold State.checked
  split
  · exact h
  · exact .raise ..

theorem writeReg_control (s : State) (v : Word) (r : Reg) :
    ControlEffect s (.wr r.addr v) (s.writeReg r.addr v r) := by
  cases r
  case config => exact .kept ⟨rfl, rfl, rfl, rfl, rfl⟩ rfl
  case sampleRate | maxBlock | boundsX | boundsY | boundsW | boundsH | floorDb | respPoints =>
    exact .checked (.kept ⟨rfl, rfl, rfl, rfl, rfl⟩ rfl)
  case lowcutFreq | highcutFreq | peakFreq | peakGainDb | peakQ | settings =>
    exact .checked (.paramWrite ⟨rfl, rfl, rfl, rfl, rfl⟩ rfl _ v rfl (by simp))
  all_goals exact .raise ..

theorem exec_control {i : Instr} {s t : State} (h : exec i s = .next t) : ControlEffect s i t := by
  cases i with
  | processBlock n =>
    rcases exec_processBlock_cases h with ⟨c, info, left, rfl⟩ | ⟨-, left, stereo, rfl⟩ <;>
      exact .kept ⟨rfl, rfl, rfl, rfl, rfl⟩ rfl
  | rd a =>
    rcases exec_rd_cases h with ⟨c, info, rfl⟩ | ⟨w, rfl⟩ <;> exact .kept ⟨rfl, rfl, rfl, rfl, rfl⟩ rfl
  | wr a v =>
    rcases exec_wr_cases s t a v h with ⟨c, info, rfl⟩ | ⟨rfl, c, hd, hc, h⟩ | ⟨l, hl, hrw, rfl⟩
    · exact .raise ..
    · exact (exec_command_effect hc h).control (.inr (by rw [encodeWord_of_decodeCommand hd]))
    · cases l with
      | reg r =>
        obtain rfl := addr_of_mapped s a r hl
        exact writeReg_control s v r
      | cstg j i => exact .kept ⟨rfl, rfl, rfl, rfl, rfl⟩ rfl
      | _ => cases hrw
  | _ => exact (exec_command_effect rfl h).control (.inl rfl)

/-! The build. -/

theorem badDescriptor_build (s : State) (desc : Word) : (badDescriptor s desc).build = s.build := by
  unfold badDescriptor
  split <;> rfl

theorem ctrlStep_build {s t : State} (h : ctrlStep s = .next t) : t.build = s.build := by
  unfold ctrlStep at h
  split at h
  · exact next_inj h ▸ installStep_build ..
  split at h
  · exact next_inj h ▸ rfl
  unfold performTransaction at h
  split at h
  · exact next_inj h ▸ badDescriptor_build ..
  · exact (exec_control h).same_build

theorem AudioFrame.same_build {s t : State} (h : AudioFrame s t) : t.build = s.build := by
  unfold AudioFrame at h
  rw [h]

theorem audioStep_build {s t : State} (h : audioStep s = .next t) : t.build = s.build :=
  (audioStep_effect h).audioFrame.same_build

/-- Everything a step can do: nothing, a step of an agent, or the reset event. Before it only the host's side may
have changed: the schedule, and the free values drawn. -/
theorem step_cases {s t : State} (h : step s = .next t) : ∃ host : HostSide,
    t = s.setHost host ∨ ctrlStep (s.setHost host) = .next t ∨ audioStep (s.setHost host) = .next t ∨
      t = resetStep (s.setHost host) := by
  unfold step at h
  split at h
  · unfold freeStep at h
    split at h
    · exact ⟨s.host, .inl (next_inj h).symm⟩
    · exact ⟨s.host, .inr (.inl h)⟩
    · exact ⟨s.host, .inr (.inr (.inl h))⟩
    · simp only at h
      split at h
      · exact ⟨_, .inr (.inl h)⟩
      · exact ⟨_, .inr (.inr (.inl h))⟩
  · next turn rest _ =>
    cases turn with
    | ctrl => exact ⟨_, .inr (.inl h)⟩
    | audio => exact ⟨_, .inr (.inr (.inl h))⟩
    | reset => exact ⟨_, .inr (.inr (.inr (next_inj h).symm))⟩

theorem step_build {s t : State} (h : step s = .next t) : t.build = s.build := by
  obtain ⟨host, rfl | h | h | rfl⟩ := step_cases h
  · rfl
  · exact (ctrlStep_build h).trans (s.setHost_build host)
  · exact (audioStep_build h).trans (s.setHost_build host)
  · rfl

/-- Settles O56: what an instruction can do to them, case by case, and what a step can do to the build. -/
theorem controlBitsChangeOnlyByTheirWriters : Obligations.ControlBitsChangeOnlyByTheirWriters := by
  refine ⟨fun i s t h hne => ?_, fun i s t h hi hi' => ?_, fun s t => step_build⟩
  · cases exec_control h with
    | kept latch dirty => exact absurd dirty hne
    | paramWrite latch dirty r v hi hr =>
      exact .inl ⟨dirty, r.addr, v, hi, List.mem_map_of_mem (f := Reg.addr) hr⟩
    | tick latch dirty hi => exact .inr ⟨dirty, hi.imp_right fun hi => .inr (.inr hi)⟩
    | prepare build dirty hi => exact .inr ⟨dirty, .inr (hi.imp_right .inl)⟩
  · cases exec_control h with
    | kept latch | paramWrite latch | tick latch =>
      exact ⟨latch.srActive, latch.maxblkActive, latch.stereoActive, latch.prepared⟩
    | prepare build dirty hi'' => exact absurd hi'' (not_or.2 ⟨hi, hi'⟩)

end Sys2Proof.Machine
end

section
/-! PROOFS. The Audio Block FIFO and the FFT queue (43_fifo_fft R261 to R263, R270, R286): both keep their blocks in
slots taken in turn. -/

namespace Sys2Proof.Machine

/-! Storage. -/

theorem Memory.slice_load_of_length (m : Memory) (base : Nat) {ws : List Word} {n : Nat} (h : ws.length = n) :
    (m.load base ws).slice base n = ws :=
  h ▸ m.slice_load_same base ws

/-- A word stored past the end of a slice joins it. -/
theorem Memory.slice_write_end (m : Memory) (i : Nat) (x : Word) :
    (m.write i x).slice 0 (i + 1) = m.slice 0 i ++ [x] := by
  have hkept : (m.write i x).slice 0 i = m.slice 0 i := m.slice_load_other i [x] 0 i (.inl (by omega))
  rw [Memory.slice_succ, hkept, Nat.zero_add, Memory.read_write, if_pos rfl]

/-! Blocks in slots taken in turn. -/

/-- The blocks of `n` words in `count` of `cap` slots taken in turn from slot `rd` on, oldest first. -/
def Memory.blocks (m : Memory) (rd count cap n : Nat) : List (List Word) :=
  (List.range count).map fun j => m.slice ((rd + j) % cap * n) n

theorem Analysis.fifoBlocks_eq (b : Build) (a : Analysis) :
    a.fifoBlocks b = a.ring.blocks a.fifoRd a.fifoCount b.fifoCap b.fifoBlock := rfl

theorem Analysis.fftBlocks_eq (b : Build) (a : Analysis) :
    a.fftBlocks b = a.fq.blocks a.fqRd a.fqCount b.fftqCap b.bins := rfl

theorem fifoRd_lt {b : Build} {a : Analysis} (h : a.fifoOk b = true) : a.fifoRd < b.fifoCap := by
  simp only [Analysis.fifoOk, Bool.and_eq_true, decide_eq_true_eq] at h
  obtain ⟨⟨⟨⟨⟨⟨hrd, -⟩, -⟩, -⟩, -⟩, -⟩, -⟩ := h
  exact hrd

theorem fqRd_lt {b : Build} {a : Analysis} (h : a.fftOk b = true) : a.fqRd < b.fftqCap := by
  simp only [Analysis.fftOk, Bool.and_eq_true, decide_eq_true_eq] at h
  obtain ⟨⟨⟨⟨⟨hrd, -⟩, -⟩, -⟩, -⟩, -⟩ := h
  exact hrd

/-- Blocks fewer than the slots stand in different slots. -/
theorem slot_mod_ne {rd cap i j : Nat} (hij : i < j) (hj : j < cap) : (rd + i) % cap ≠ (rd + j) % cap := by
  intro h
  have hmod : i ≡ j [MOD cap] := Nat.ModEq.add_left_cancel' rd h
  exact hij.ne (hmod.eq_of_lt_of_lt (hij.trans hj) hj)

/-- Two slots have no word in common. -/
theorem slot_apart {i j : Nat} (n : Nat) (h : i ≠ j) : i * n + n ≤ j * n ∨ j * n + n ≤ i * n :=
  (Nat.lt_or_gt_of_ne h).imp slot_end_le slot_end_le

/-- A block stored in the slot after the last one in use joins the blocks. -/
theorem Memory.blocks_load (m : Memory) (rd : Nat) {count cap n : Nat} {block : List Word} (hroom : count < cap)
    (hl : block.length = n) :
    (m.load ((rd + count) % cap * n) block).blocks rd (count + 1) cap n = m.blocks rd count cap n ++ [block] := by
  subst hl
  have hkept : ∀ j ∈ List.range count, (m.load ((rd + count) % cap * block.length) block).slice
      ((rd + j) % cap * block.length) block.length = m.slice ((rd + j) % cap * block.length) block.length :=
    fun j hj => m.slice_load_other _ _ _ _ (slot_apart _ (slot_mod_ne (List.mem_range.mp hj) hroom))
  rw [Memory.blocks, List.range_succ, List.map_append, List.map_congr_left hkept, List.map_singleton,
    Memory.slice_load_same, Memory.blocks]

/-- The oldest block, then those from the next slot on. -/
theorem Memory.blocks_succ (m : Memory) {rd cap : Nat} (count n : Nat) (hrd : rd < cap) :
    m.blocks rd (count + 1) cap n = m.slice (rd * n) n :: m.blocks ((rd + 1) % cap) count cap n := by
  have hnext : ∀ j, (rd + (j + 1)) % cap = ((rd + 1) % cap + j) % cap := fun j => by
    rw [Nat.mod_add_mod, Nat.add_assoc, Nat.add_comm 1]
  simp only [Memory.blocks, List.range_succ_eq_map, List.map_cons, List.map_map, Nat.add_zero, Nat.mod_eq_of_lt hrd]
  exact congrArg _ (List.map_congr_left fun j _ => by rw [Function.comp_apply, Nat.succ_eq_add_one, hnext])

/-! The push (43_fifo_fft R262). -/

theorem push_of_full {b : Build} {a : Analysis} (block : List Word) (h : ¬ a.fifoCount < b.fifoCap) :
    push b a block = a := if_neg h

theorem push_fifoCount {b : Build} {a : Analysis} (block : List Word) (h : a.fifoCount < b.fifoCap) :
    (push b a block).fifoCount = a.fifoCount + 1 := by
  rw [push, if_pos h]

theorem push_fifoBlocks (b : Build) (a : Analysis) {block : List Word} (hl : block.length = b.fifoBlock) :
    (push b a block).fifoBlocks b =
      if a.fifoCount < b.fifoCap then a.fifoBlocks b ++ [block] else a.fifoBlocks b := by
  split
  · next hroom =>
    rw [push, if_pos hroom]
    exact a.ring.blocks_load a.fifoRd hroom hl
  · next hfull => rw [push_of_full block hfull]

/-- Pushes with no pop fill the slots left and drop the rest (43_fifo_fft R263). -/
theorem foldl_push_fifoBlocks (b : Build) (blocks : List (List Word)) (a : Analysis)
    (hl : ∀ block ∈ blocks, block.length = b.fifoBlock) :
    (blocks.foldl (push b) a).fifoBlocks b = a.fifoBlocks b ++ blocks.take (b.fifoCap - a.fifoCount) := by
  induction blocks generalizing a with
  | nil => simp
  | cons block blocks ih =>
    obtain ⟨hblock, hblocks⟩ := List.forall_mem_cons.mp hl
    rw [List.foldl_cons, ih _ hblocks]
    by_cases hroom : a.fifoCount < b.fifoCap
    · rw [push_fifoBlocks b a hblock, if_pos hroom, push_fifoCount block hroom,
        show b.fifoCap - a.fifoCount = b.fifoCap - (a.fifoCount + 1) + 1 by omega, List.take_succ_cons,
        List.append_assoc, List.singleton_append]
    · rw [push_of_full block hroom, Nat.sub_eq_zero_of_le (Nat.not_lt.mp hroom), List.take_zero, List.take_zero]

/-! The tap (43_fifo_fft R261). -/

theorem tap_of_not_full {b : Build} {a : Analysis} (x : Word) (h : a.fillCount + 1 ≠ b.fifoBlock) :
    tap b a x = { a with fill := a.fill.write a.fillCount x, fillCount := a.fillCount + 1 } := if_neg h

theorem tap_of_full {b : Build} {a : Analysis} (x : Word) (h : a.fillCount + 1 = b.fifoBlock) :
    tap b a x = { push b a (a.partialBlock ++ [x]) with fill := a.fill.write a.fillCount x, fillCount := 0 } := by
  have hblock : (a.fill.write a.fillCount x).slice 0 b.fifoBlock = a.partialBlock ++ [x] :=
    h ▸ a.fill.slice_write_end a.fillCount x
  unfold tap push
  simp only [if_pos h, hblock]
  split <;> rfl

/-- Settles O31: the tap stores one word, and pushes the block that word completes. -/
theorem tapFillsThenPushesWholeBlocks : Obligations.TapFillsThenPushesWholeBlocks := by
  refine fun b a x _ _ => ⟨fun hpart => ?_, fun hfull => ?_⟩
  · rw [tap_of_not_full x hpart.ne]
    exact ⟨a.fill.slice_write_end a.fillCount x, rfl⟩
  · rw [tap_of_full x hfull]
    exact ⟨rfl, push_fifoBlocks b a (by simp [Analysis.partialBlock, hfull])⟩

/-- Settles O32: a push joins the blocks at the tail, a pop leaves the tail of the list. -/
theorem fifoIsABoundedQueue : Obligations.FifoIsABoundedQueue := by
  refine ⟨fun b a block _ hok hl => ⟨fun hroom => ?_, fun hfull => ?_, fun hpos => ?_⟩, fun b a blocks _ _ h0 hl => ?_⟩
  · rw [push_fifoBlocks b a hl, if_pos hroom]
  · exact push_of_full block hfull.not_lt
  · obtain ⟨n, hn⟩ := Nat.exists_eq_add_one.mpr hpos
    rw [a.fifoBlocks_eq, hn, Memory.blocks_succ _ _ _ (fifoRd_lt hok), List.tail_cons, Analysis.fifoBlocks_eq]
    simp only [popShift, hn, Nat.add_sub_cancel]
  · rw [foldl_push_fifoBlocks b blocks a hl, h0, Nat.sub_zero, Analysis.fifoBlocks, h0]
    rfl

/-- Settles O36: an enqueue joins the blocks at the tail, and FFT_GET takes the head. -/
theorem fftQueueIsAQueue : Obligations.FftQueueIsAQueue := by
  refine ⟨fun b a block _ hok => ⟨fun hl hroom => ?_, fun hpos => ?_⟩, fun b a block hl => ⟨rfl, fun n => ?_⟩⟩
  · exact a.fq.blocks_load a.fqRd hroom hl
  · obtain ⟨n, hn⟩ := Nat.exists_eq_add_one.mpr hpos
    rw [a.fftBlocks_eq, hn, Memory.blocks_succ _ _ _ (fqRd_lt hok), Analysis.fftBlocks_eq]
    simp only [takeBlock, hn, Nat.add_sub_cancel, Memory.slice_load_of_length _ _ (Memory.slice_length _ _ _)]
  · simp only [enqueue, Memory.read_load, hl]

end Sys2Proof.Machine
end

section
/-! PROOFS. The rolling buffer and the analysis commands (43_fifo_fft R270 to R274, R286, R290): what AN_STEP, FFT_GET
and ARESET do, case by case. -/

namespace Sys2Proof.Machine

/-! The rolling buffer (43_fifo_fft R271). -/

/-- A slice is the list that holds its words. -/
theorem Memory.slice_eq_of_getD {m : Memory} {base n : Nat} {l : List Word} (hl : l.length = n)
    (h : ∀ i < n, m.read (base + i) = l.getD i 0#32) : m.slice base n = l := by
  subst hl
  refine List.ext_getElem (by simp) fun i hi hi' => ?_
  rw [← List.getD_eq_getElem _ 0#32 hi, ← List.getD_eq_getElem _ 0#32 hi', Memory.slice_getD _ _ _ _ hi', h i hi']

theorem rbShift_read {b : Build} (hb : b.legal = true) (rb : Memory) {block : List Word}
    (hl : block.length = b.fifoBlock) {n : Nat} (hn : n < b.fftSize) :
    (rbShift b rb block).read n = if n < b.fftSize - b.fifoBlock then rb.read (n + b.fifoBlock)
      else block.getD (n - (b.fftSize - b.fifoBlock)) 0#32 := by
  have hle := fifoBlock_le hb
  unfold rbShift
  split
  · next hsmall =>
    rw [Nat.sub_eq_zero_of_le hle, Nat.sub_eq_zero_of_le hsmall, List.drop_zero, Memory.read_load, hl,
      if_pos (by omega), if_neg (Nat.not_lt_zero n)]
  · rw [Memory.read_load, Memory.read_shiftDown, hl]
    by_cases hold : n < b.fftSize - b.fifoBlock
    · rw [if_neg (by omega), if_pos hold]
    · rw [if_pos (by omega), if_neg hold]

/-- The samples after a block are the last N of those before it and the block's. -/
theorem rbShift_slice {b : Build} (hb : b.legal = true) (rb : Memory) {block : List Word}
    (hl : block.length = b.fifoBlock) :
    (rbShift b rb block).slice 0 b.fftSize = (rb.slice 0 b.fftSize ++ block).drop b.fifoBlock := by
  have hle := fifoBlock_le hb
  refine Memory.slice_eq_of_getD (by simp [hl]) fun n hn => ?_
  rw [Nat.zero_add, rbShift_read hb rb hl hn, List.getD_eq_getElem?_getD (l := List.drop _ _), List.getElem?_drop,
    ← List.getD_eq_getElem?_getD]
  by_cases hold : n < b.fftSize - b.fifoBlock
  · rw [if_pos hold, List.getD_append _ _ _ _ (by rw [Memory.slice_length]; omega),
      Memory.slice_getD _ _ _ _ (by omega), Nat.zero_add, Nat.add_comm]
  · rw [if_neg hold, List.getD_append_right _ _ _ _ (by rw [Memory.slice_length]; omega), Memory.slice_length]
    congr 1
    omega

theorem foldl_rbShift_slice {b : Build} (hb : b.legal = true) (blocks : List (List Word)) (rb : Memory)
    (hl : ∀ block ∈ blocks, block.length = b.fifoBlock) :
    (blocks.foldl (rbShift b) rb).slice 0 b.fftSize =
      (rb.slice 0 b.fftSize ++ blocks.flatten).drop (blocks.length * b.fifoBlock) := by
  induction blocks generalizing rb with
  | nil => simp
  | cons block blocks ih =>
    obtain ⟨hblock, hblocks⟩ := List.forall_mem_cons.mp hl
    have hle : b.fifoBlock ≤ (rb.slice 0 b.fftSize ++ block).length := by simp [hblock]
    rw [List.foldl_cons, ih _ hblocks, rbShift_slice hb rb hblock, List.flatten_cons, ← List.append_assoc,
      List.length_cons, Nat.succ_mul, Nat.add_comm, ← List.drop_drop, List.drop_append_of_le_length hle]

/-- Settles O33: each block shifts the last N samples, and a pop shifts the FIFO's oldest block in. -/
theorem rollingBufferHoldsTheLastSamples : Obligations.RollingBufferHoldsTheLastSamples := by
  refine ⟨fun b rb block hb hl n => rbShift_read hb rb hl, fun _ _ => rfl,
    fun b rb blocks hb => foldl_rbShift_slice hb blocks rb, fun b a hb => ⟨fun n hn => ?_, rfl⟩⟩
  rw [popShift, rbShift_read hb a.rb (a.ring.slice_length (a.fifoRd * b.fifoBlock) b.fifoBlock) hn]
  split
  · rfl
  · have hle := fifoBlock_le hb
    rw [Memory.slice_getD _ _ _ _ (by omega)]

/-! AN_STEP (43_fifo_fft R270). -/

/-- Settles O34: nothing to pop, warm-up, a block enqueued, a block dropped. -/
theorem anStepPopsShiftsAndProduces : Obligations.AnStepPopsShiftsAndProduces := by
  intro s bypassed a
  have hbyp : s.params.anByp = bypassed := rfl
  have hcount : a.fqCount = s.an.fqCount := rfl
  simp only [exec, execAnStep, hbyp]
  refine ⟨fun hidle => ?_, fun hb hne hwarm => ?_, fun hb hne hfull hroom => ?_, fun hb hne hfull hroom => ?_⟩
  · rcases hidle with hb | h0
    · rw [if_pos hb]
      rfl
    · rw [if_pos h0, ite_self]
      rfl
  all_goals rw [if_neg (by simp [hb]), if_neg hne]
  · rw [if_pos hwarm]
    rfl
  · rw [if_neg hfull, if_pos (hcount ▸ hroom)]
    rfl
  · rw [if_neg hfull, if_neg (hcount ▸ hroom)]
    rfl

/-! FFT_GET and ARESET (43_fifo_fft R286, R290). -/

/-- Settles O37: FFT_OUT takes the words of the queue's read slot. -/
theorem fftGetMovesTheOldestBlock : Obligations.FftGetMovesTheOldestBlock := by
  refine fun s => ⟨fun h0 => ?_, fun hne => ⟨(takeBlock s.build s.an).fftOut, ?_, fun k hk => ?_⟩⟩
  · rw [exec, execFftGet, if_pos h0]
    rfl
  · rw [exec, execFftGet, if_neg hne]
    rfl
  · rw [takeBlock, Memory.read_load, Memory.slice_length, if_pos (by omega), Nat.sub_zero, Memory.slice_getD _ _ _ _ hk]

/-- Settles O38: the analysis state is the reset one, whose storages list nothing. -/
theorem aresetClearsTheAnalysisState : Obligations.AresetClearsTheAnalysisState := fun _ =>
  ⟨.reset, rfl, rfl, rfl, rfl, rfl, rfl, rfl, rfl, rfl, rfl, rfl, fun n => by simp [Analysis.reset]⟩

end Sys2Proof.Machine
end

section
/-! PROOFS. The FFTDataBlock (43_fifo_fft R280 to R283): every bin is at least the floor, and is the floor where the
magnitude is not above 0. -/

namespace Sys2Proof

theorem Fl.le_self {x : Fl} (h : x.finite = true) : Fl.le x x = true := by
  cases x with
  | fin s m e => rw [le_fin, decide_eq_true_eq]
  | _ => cases h

theorem Fl.le_of_lt {x y : Fl} (h : Fl.lt x y = true) : Fl.le x y = true := by
  cases x with
  | nan => cases h
  | inf s =>
    cases y with
    | nan => cases h
    | inf t =>
      cases s
      · cases h
      · rfl
    | fin t n f => exact h
  | fin s m e =>
    cases y with
    | nan => cases h
    | inf t => exact h
    | fin t n f =>
      rw [lt_fin, decide_eq_true_eq] at h
      rw [le_fin, decide_eq_true_eq]
      exact h.le

theorem Fl.le_maxFloor {lo : Fl} (h : lo.finite = true) (x : Fl) : Fl.le lo (Fl.maxFloor lo x) = true := by
  unfold Fl.maxFloor
  split
  · next hlt => exact Fl.le_of_lt hlt
  · exact Fl.le_self h

/-- Zero divided by an integer is a zero, or a NaN where the integer is 0. -/
theorem binary64_zero_div_nat (n : Nat) :
    Arith.div ⟨.binary64, false⟩ (.fin false 0 0) (Fl.nat n) = if n = 0 then .nan else .fin false 0 0 := by
  simp [Arith.div, Arith.flush, Fl.nat, Fl.divRound, roundRat_zero]

end Sys2Proof

namespace Sys2Proof.Machine

/-! Decibels with the floor (43_fifo_fft R282). -/

section Floor

variable {floor : Word} (hf : (Fl.ofWord floor).finite = true)
include hf

theorem le_toDecibels (m : Fl) : Fl.le (Fl.ofWord floor) (Fl.ofWord (toDecibels floor m)) = true := by
  refine le_toWord _ floor _ hf ?_
  split
  · exact Fl.le_maxFloor hf _
  · exact Fl.le_self hf

theorem toDecibels_of_not_pos {m : Fl} (h : Fl.lt (Fl.nat 0) m = false) : toDecibels floor m = floor := by
  simp only [toDecibels, h, Bool.false_eq_true, if_false, toWord_ofWord _ floor hf]

theorem fftBlock_of_no_magnitude {b : Build} {rb : List Word}
    (h : ∀ m ∈ fftMagnitudes b rb, Fl.lt (Fl.nat 0) m = false) :
    fftBlock b rb floor = List.replicate b.bins floor := by
  refine List.eq_replicate_iff.mpr ⟨fftBlock_length b rb floor, fun w hw => ?_⟩
  obtain ⟨m, hm, rfl⟩ := List.mem_map.mp hw
  exact toDecibels_of_not_pos hf (h m hm)

end Floor

/-! Samples that are zeros (43_fifo_fft R280). -/

theorem wordFix_zeroWord (s : Bool) : wordFix (zeroWord s) = 0 := by cases s <;> decide

/-- Samples that are zeros add nothing to a bin's sums, whatever the window. -/
theorem dftSum_zeros (tw : Array (Int × Int)) (size k : Nat) {rb : List Word} (h : ∀ x ∈ rb, wordFix x = 0)
    (ws : List Int) (at_ : Nat) (re im : Int) :
    dftSum tw size k (ws.zipWith (fun w x => w * wordFix x) rb) at_ re im = (re, im) := by
  induction rb generalizing ws at_ with
  | nil => rw [List.zipWith_nil_right, dftSum]
  | cons x rb ih =>
    obtain ⟨hx, hrb⟩ := List.forall_mem_cons.mp h
    cases ws with
    | nil => rfl
    | cons w ws => simpa [dftSum, hx] using ih hrb ws _

theorem fftMagnitude_zero (size : Nat) : Fl.lt (Fl.nat 0) (fftMagnitude size (0, 0)) = false := by
  have hdiv : fftMagnitude size (0, 0) = Arith.div ⟨.binary64, false⟩ (.fin false 0 0) (Fl.nat (size / 2)) := rfl
  rw [hdiv, binary64_zero_div_nat]
  split <;> rfl

/-- What `fftMagnitudes` tests before it evaluates the transform is false of finite words (log 13). -/
theorem any_notFinite_eq_false {l : List Word} (h : ∀ w ∈ l, (Fl.ofWord w).finite = true) :
    l.any isNan = false ∧ l.any notFinite = false := by
  simp only [List.any_eq_false]
  refine ⟨fun w hw hnan => ?_, fun w hw => by simp [notFinite, h w hw]⟩
  have hfin := h w hw
  rw [beq_iff_eq.mp hnan] at hfin
  cases hfin

/-- Samples that are zeros, of either sign, have no magnitude above 0 (43_fifo_fft R280, R281). -/
theorem fftMagnitudes_zeros {b : Build} {rb : List Word} (href : b.fftImpl = .reference)
    (hrb : ∀ w ∈ rb, w &&& 0x7FFFFFFF#32 = 0#32)
    (hwin : ∀ w ∈ windowWords b.window, (Fl.ofWord w).finite = true) :
    ∀ m ∈ fftMagnitudes b rb, Fl.lt (Fl.nat 0) m = false := by
  have hfin : ∀ w ∈ rb, (Fl.ofWord w).finite = true := fun w hw => by
    obtain ⟨s, rfl⟩ := zeroWord_of_and w (hrb w hw)
    rw [ofWord_zeroWord]
    rfl
  have hzero : ∀ w ∈ rb, wordFix w = 0 := fun w hw => by
    obtain ⟨s, rfl⟩ := zeroWord_of_and w (hrb w hw)
    exact wordFix_zeroWord s
  obtain ⟨hnan, hinf⟩ := any_notFinite_eq_false hfin
  obtain ⟨hwnan, hwinf⟩ := any_notFinite_eq_false hwin
  intro m hm
  simp only [fftMagnitudes, href, hnan, hwnan, hinf, hwinf, Bool.or_false, Bool.false_eq_true, if_false,
    dftSum_zeros _ _ _ hzero, List.mem_map] at hm
  obtain ⟨k, -, rfl⟩ := hm
  exact fftMagnitude_zero b.fftSize

/-- A NaN among the samples makes every magnitude a NaN (log 13). -/
theorem fftMagnitudes_nan {b : Build} {rb : List Word} (href : b.fftImpl = .reference)
    (hnan : ∃ w ∈ rb, Fl.ofWord w = .nan) : ∀ m ∈ fftMagnitudes b rb, Fl.lt (Fl.nat 0) m = false := by
  obtain ⟨w, hw, hv⟩ := hnan
  have hany : rb.any isNan = true := List.any_eq_true.mpr ⟨w, hw, beq_iff_eq.mpr hv⟩
  intro m hm
  simp only [fftMagnitudes, href, hany, Bool.true_or, if_true, List.mem_map] at hm
  obtain ⟨k, -, rfl⟩ := hm
  rfl

/-- Settles O35: a finite floor bounds every bin; no magnitude above 0, no bin above the floor; V49 by evaluation. -/
theorem fftBinsAreAtLeastTheFloor : Obligations.FftBinsAreAtLeastTheFloor := by
  refine ⟨fun b rb floor hlo hhi => ?_, by decide +kernel⟩
  have hf : (Fl.ofWord floor).finite = true := (Bool.and_eq_true_iff.mp ((floorOk_iff floor).mpr ⟨hlo, hhi⟩)).1
  refine ⟨fftBlock_length b rb floor, fun w hw => ?_, fun href hrb hwin => ?_, fun href hnan => ?_⟩
  · obtain ⟨m, -, rfl⟩ := List.mem_map.mp hw
    exact le_toDecibels hf m
  · exact fftBlock_of_no_magnitude hf (fftMagnitudes_zeros href hrb hwin)
  · exact fftBlock_of_no_magnitude hf (fftMagnitudes_nan href hnan)

end Sys2Proof.Machine
end

section
/-! PROOFS. AUDIO reads no register that PREPARE does not latch (43_fifo_fft R274, 41_filter_chain R217, 70_reset R370,
R381). -/

namespace Sys2Proof.Machine

/-- `s` with every register that is not latched, the response storage and the CTRL command in progress taken
from `u`. -/
def State.withUnlatched (s u : State) : State :=
  { s with
    params := u.params, config := u.config, sampleRate := u.sampleRate, maxBlock := u.maxBlock
    bounds := u.bounds, floorDb := u.floorDb, respPoints := u.respPoints, cstg := u.cstg
    curve := u.curve, ctrlOp := u.ctrlOp, cmdResult := u.cmdResult, dirty := u.dirty }

theorem exec_processBlock_withUnlatched (s u : State) (n : BitVec 16) :
    exec (.processBlock n) (s.withUnlatched u) = mapNext (·.withUnlatched u) (exec (.processBlock n) s) := by
  have hp : (s.withUnlatched u).prepared = s.prepared := rfl
  have hm : (s.withUnlatched u).maxblkActive = s.maxblkActive := rfl
  simp only [exec, execProcessBlock, hp, hm]
  split
  · rfl
  split <;> rfl

theorem takeHeader_withUnlatched (s u : State) (w : Word) :
    takeHeader w (s.withUnlatched u) = mapNext (·.withUnlatched u) (takeHeader w s) := by
  cases hd : decodeStream w with
  | error r =>
    simp only [takeHeader, hd]
    rfl
  | ok i =>
    obtain ⟨n, rfl⟩ := decodeStream_ok hd
    simp only [takeHeader, hd, exec_processBlock_withUnlatched]

theorem frameMono_withUnlatched (s u : State) (x : Word) :
    frameMono (s.withUnlatched u) x = (frameMono s x).withUnlatched u := by
  simp only [frameMono, State.frame, State.withUnlatched]

theorem frameStereo_withUnlatched (s u : State) (x y : Word) :
    frameStereo (s.withUnlatched u) x y = (frameStereo s x y).withUnlatched u := by
  simp only [frameStereo, State.frame, State.withUnlatched]

/-- A step of AUDIO does the same whatever those hold. -/
theorem audioStep_withUnlatched (s u : State) :
    audioStep (s.withUnlatched u) = mapNext (·.withUnlatched u) (audioStep s) := by
  let t := s.withUnlatched u
  rcases hq : s.host.audioIn with _ | ⟨x, rest⟩
  · rw [audioStep_idle s hq, audioStep_idle t hq]
    rfl
  rcases hop : s.audioOp with _ | ⟨n, _ | _⟩ | n
  · rw [audioStep_header s x rest hop hq, audioStep_header t x rest hop hq]
    exact takeHeader_withUnlatched (s.takeAudio rest) u x
  · rw [audioStep_mono s n x rest hop hq, audioStep_mono t n x rest hop hq]
    exact congrArg _ (frameMono_withUnlatched ((s.takeAudio rest).setAudioOp _) u x)
  · rcases rest with _ | ⟨y, rest⟩
    · rw [audioStep_halfFrame s n x hop hq, audioStep_halfFrame t n x hop hq]
      rfl
    · rw [audioStep_stereo s n x y rest hop hq, audioStep_stereo t n x y rest hop hq]
      exact congrArg _ (frameStereo_withUnlatched ((s.takeAudio rest).setAudioOp _) u x y)
  · rw [audioStep_drain s n x rest hop hq, audioStep_drain t n x rest hop hq]
    rfl

/-- Settles O54: each step reads the stream, the chains, the analysis state and what is latched. -/
theorem audioIgnoresUnlatchedRegisters : Obligations.AudioIgnoresUnlatchedRegisters := by
  intro s t u h
  have hstep := audioStep_withUnlatched s u
  rw [h] at hstep
  exact hstep

end Sys2Proof.Machine
end

section
/-! PROOFS. Exact values in the design arithmetic (00_scope R13): a number that the format holds rounds to itself, so
an operation whose exact result the format holds gives that result. -/

namespace Sys2Proof

open Sys2Proof.Machine

/-! The numbers of a format. -/

/-- The number `r` is a finite number of the format. -/
def Fmt.Holds (fmt : Fmt) (r : ℚ) : Prop :=
  ∃ (n : Nat) (k : Int), |r| = n * 2 ^ k ∧ n < 2 ^ fmt.prec ∧ fmt.emin ≤ k ∧ k + fmt.prec ≤ fmt.emax + 1

/-- The format has a significand, and its subnormals lie in its range. -/
def Fmt.Wf (fmt : Fmt) : Prop := 1 ≤ fmt.prec ∧ fmt.emin + fmt.prec ≤ fmt.emax + 1

theorem design_wf (b : Build) : b.design.fmt.Wf := by
  unfold Build.design Fmt.Wf
  cases b.designFmt <;> decide

theorem Fmt.Holds.neg {fmt : Fmt} {r : ℚ} (h : fmt.Holds r) : fmt.Holds (-r) := by
  rwa [Holds, abs_neg]

/-- The value of a word is a number of binary32. -/
theorem holds_of_ofWord {w : Word} {r : ℚ} (h : (Fl.ofWord w).HasValue r) : Fmt.binary32.Holds r := by
  obtain ⟨s, m, e, hw, rfl⟩ := h
  obtain ⟨n, k, hn, hprec, hmin, hmax, -⟩ := ofWord_finite w (by rw [hw]; rfl)
  rw [hw] at hn
  cases hn
  refine ⟨m, e, abs_signed _ (by positivity), hprec, hmin, ?_⟩
  simp only [Fmt.binary32]
  omega

theorem holds_nat {n : Nat} (h : n < 2 ^ 24) : Fmt.binary32.Holds n :=
  ⟨n, 0, by simp, h, by decide, by decide⟩

/-- DESIGN_FMT holds every number of binary32. -/
theorem Fmt.Holds.design {r : ℚ} (h : Fmt.binary32.Holds r) (b : Build) : b.design.fmt.Holds r := by
  unfold Build.design
  cases b.designFmt with
  | binary32 => exact h
  | binary64 =>
    obtain ⟨n, k, hr, hn, hk, hk'⟩ := h
    simp only [Fmt.binary32] at hn hk hk'
    refine ⟨n, k, hr, hn.trans (by decide), ?_, ?_⟩ <;> simp only [DesignFmt.format, Fmt.binary64] <;> omega

/-- Binary64 holds the product of two numbers of binary32. -/
theorem Fmt.Holds.mul {r q : ℚ} (hr : Fmt.binary32.Holds r) (hq : Fmt.binary32.Holds q) :
    Fmt.binary64.Holds (r * q) := by
  obtain ⟨m, e, hr, hm, he, he'⟩ := hr
  obtain ⟨n, k, hq, hn, hk, hk'⟩ := hq
  simp only [Fmt.binary32] at hm he he' hn hk hk'
  refine ⟨m * n, e + k, ?_, ?_, ?_, ?_⟩
  · rw [abs_mul, hr, hq, zpow_add₀ two_ne_zero, Nat.cast_mul, mul_mul_mul_comm]
  · calc m * n < 2 ^ 24 * 2 ^ 24 := Nat.mul_lt_mul'' hm hn
      _ < 2 ^ 53 := by decide
  all_goals
    simp only [Fmt.binary64]
    omega

/-- A rounded number is a number of the format. -/
theorem Rounds.holds {fmt : Fmt} (hw : fmt.Wf) {v : ℚ} {m : Nat} {u : Int} (h : Rounds fmt v m u)
    (hmax : (m : ℚ) * 2 ^ u < 2 ^ (fmt.emax + 1)) : fmt.Holds (m * 2 ^ u) := by
  obtain ⟨hp, hsub⟩ := hw
  obtain ⟨hm, hu, hnormal⟩ := h.bounds hp
  have habs : |(m : ℚ) * 2 ^ u| = m * 2 ^ u := abs_of_nonneg (by positivity)
  have hprec : ((2 ^ (fmt.prec - 1) : Nat) : ℚ) = 2 ^ ((fmt.prec : Int) - 1) := by
    rw [Nat.cast_pow, Nat.cast_two, ← zpow_natCast, Nat.cast_sub hp, Nat.cast_one]
  rcases hm.eq_or_lt with rfl | hm
  · have hcarry : ((2 ^ fmt.prec : Nat) : ℚ) * 2 ^ u = (2 ^ (fmt.prec - 1) : Nat) * 2 ^ (u + 1) := by
      rw [hprec, Nat.cast_pow, Nat.cast_two, ← zpow_natCast, ← zpow_add₀ two_ne_zero, ← zpow_add₀ two_ne_zero]
      congr 1
      ring
    rw [hcarry, hprec, ← zpow_add₀ two_ne_zero, zpow_lt_zpow_iff_right₀ one_lt_two] at hmax
    refine ⟨2 ^ (fmt.prec - 1), u + 1, habs.trans hcarry, Nat.pow_lt_pow_right one_lt_two (by omega), by omega, ?_⟩
    omega
  · refine ⟨m, u, habs, hm, hu, ?_⟩
    rcases hnormal with rfl | hnormal
    · exact hsub
    · have hle : (2 : ℚ) ^ ((fmt.prec : Int) - 1) * 2 ^ u ≤ m * 2 ^ u := by
        rw [← hprec]
        gcongr
      have hlt := hle.trans_lt hmax
      rw [← zpow_add₀ two_ne_zero, zpow_lt_zpow_iff_right₀ one_lt_two] at hlt
      omega

/-! A number of the format rounds to itself. -/

theorem Fl.Is.nonneg {x : Fl} {s : Bool} {v : ℚ} (h : x.Is s v) : 0 ≤ v := by
  obtain ⟨m, e, -, rfl⟩ := h
  positivity

theorem roundRat_is {fmt : Fmt} (hw : fmt.Wf) (s : Bool) {num den : Nat} {e : Int} {v : ℚ} (hd : den ≠ 0)
    (hv : (num : ℚ) / den * 2 ^ e = v) (h : fmt.Holds v) : (roundRat fmt s num den e).Is s v := by
  by_cases hn : num = 0
  · subst hn
    rw [roundRat_zero]
    exact ⟨0, 0, rfl, by simp [← hv]⟩
  · obtain ⟨M, U, hr, hround⟩ := roundRat_rounds fmt s num den e hn hd
    obtain ⟨n, k, habs, hn, hk, hk'⟩ := h
    rw [hv] at hr
    have hv0 : 0 ≤ v := hv ▸ by positivity
    rw [abs_of_nonneg hv0] at habs
    have hexact := hr.exact hw.1 hn hk habs
    have hfin : (M : ℚ) * 2 ^ U < 2 ^ (fmt.emax + 1) :=
      calc (M : ℚ) * 2 ^ U = n * 2 ^ k := hexact.trans habs
        _ < 2 ^ (fmt.prec : Int) * 2 ^ k :=
          mul_lt_mul_of_pos_right (by rw [zpow_natCast]; exact_mod_cast hn) (two_zpow_pos k)
        _ = 2 ^ ((fmt.prec : Int) + k) := (zpow_add₀ two_ne_zero _ _).symm
        _ ≤ 2 ^ (fmt.emax + 1) := zpow_le_zpow_right₀ one_le_two (by omega)
    rw [hround, ← hexact]
    exact packFl_is s hfin

theorem Fl.Is.round {fmt : Fmt} (hw : fmt.Wf) {x : Fl} {s : Bool} {v : ℚ} (hx : x.Is s v) (h : fmt.Holds v) :
    (x.round fmt).Is s v := by
  obtain ⟨m, e, rfl, hv⟩ := hx
  exact roundRat_is hw s one_ne_zero (by simpa using hv) h

theorem Fl.Is.divRound {fmt : Fmt} (hw : fmt.Wf) {x y : Fl} {s t : Bool} {v w : ℚ} (hx : x.Is s v) (hy : y.Is t w)
    (h0 : w ≠ 0) (h : fmt.Holds (v / w)) : (Fl.divRound fmt x y).Is (s != t) (v / w) := by
  obtain ⟨m, e, rfl, rfl⟩ := hx
  obtain ⟨n, f, rfl, rfl⟩ := hy
  have hn : n ≠ 0 := mt (mul_zpow_eq_zero_iff n f).2 h0
  simp only [Fl.divRound, if_neg hn]
  refine roundRat_is hw _ hn ?_ h
  rw [zpow_sub₀ two_ne_zero, div_mul_div_comm]

theorem Fl.Is.mulExact {x y : Fl} {s t : Bool} {v w : ℚ} (hx : x.Is s v) (hy : y.Is t w) :
    (Fl.mulExact x y).Is (s != t) (v * w) := by
  obtain ⟨m, e, rfl, rfl⟩ := hx
  obtain ⟨n, f, rfl, rfl⟩ := hy
  exact ⟨m * n, e + f, rfl, by rw [Nat.cast_mul, zpow_add₀ two_ne_zero, mul_mul_mul_comm]⟩

theorem Fl.Is.sameValue_of_is {x y : Fl} {s : Bool} {v : ℚ} (hx : x.Is s v) (hy : y.Is s v) : x.SameValue y := by
  obtain ⟨m, e, rfl, hm⟩ := hx
  obtain ⟨n, f, rfl, hn⟩ := hy
  exact .fin s (hm.trans hn.symm)

/-- What does not overflow is below the bound. -/
theorem packFl_eq_inf_or_lt (fmt : Fmt) (s : Bool) (m : Nat) (u : Int) :
    packFl fmt s m u = .inf s ∨ (m : ℚ) * 2 ^ u < 2 ^ (fmt.emax + 1) := by
  unfold packFl
  split
  next h0 =>
    rw [h0, Nat.cast_zero, zero_mul]
    exact .inr (two_zpow_pos _)
  split
  · exact .inl rfl
  next h0 hmax =>
    right
    calc (m : ℚ) * 2 ^ u < 2 ^ ((m.log2 : Int) + 1) * 2 ^ u :=
          mul_lt_mul_of_pos_right (log2_bounds m h0).2 (two_zpow_pos u)
      _ = 2 ^ ((m.log2 : Int) + 1 + u) := (zpow_add₀ two_ne_zero _ _).symm
      _ ≤ 2 ^ (fmt.emax + 1) := zpow_le_zpow_right₀ one_le_two (by omega)

/-- Rounding twice in a format is rounding once. -/
theorem Fl.round_round {fmt : Fmt} (hw : fmt.Wf) (x : Fl) : ((x.round fmt).round fmt).SameValue (x.round fmt) := by
  cases x with
  | nan => exact .nan
  | inf s => exact .inf s
  | fin s m e =>
    by_cases h0 : m = 0
    · subst h0
      simp only [Fl.round, roundRat_zero]
      exact .refl _
    · obtain ⟨M, U, hr, hround⟩ := roundRat_rounds fmt s m 1 e h0 one_ne_zero
      rw [show (Fl.fin s m e).round fmt = packFl fmt s M U from hround]
      rcases packFl_eq_inf_or_lt fmt s M U with hinf | hlt
      · rw [hinf]
        exact .inf s
      · have his := packFl_is s hlt
        exact (his.round hw (hr.holds hw hlt)).sameValue_of_is his

/-! Numbers, whatever the sign of a zero. -/

theorem Fl.HasValue.exists_is {x : Fl} {r : ℚ} (h : x.HasValue r) : ∃ s v, x.Is s v ∧ signed s v = r := by
  obtain ⟨s, m, e, rfl, hr⟩ := h
  exact ⟨s, _, ⟨m, e, rfl, rfl⟩, hr⟩

theorem Fl.hasValue_of_finite {x : Fl} (h : x.finite = true) : ∃ r, x.HasValue r := by
  cases x with
  | fin s m e => exact ⟨_, s, m, e, rfl, rfl⟩
  | _ => cases h

theorem Fl.HasValue.neg {x : Fl} {r : ℚ} (h : x.HasValue r) : x.neg.HasValue (-r) := by
  obtain ⟨s, m, e, rfl, rfl⟩ := h
  exact ⟨!s, m, e, rfl, signed_not s _⟩

/-- A positive number has the sign `false`, whatever its significand and exponent. -/
theorem Fl.HasValue.is_false {x : Fl} {r : ℚ} (h : x.HasValue r) (hr : 0 < r) : x.Is false r := by
  obtain ⟨m, e, hx, -, hv⟩ := h.is_of_pos hr
  exact ⟨m, e, hx, hv⟩

theorem abs_signed_of_is {x : Fl} {s : Bool} {v : ℚ} (h : x.Is s v) : |signed s v| = v := abs_signed s h.nonneg

theorem holds_signed_iff {fmt : Fmt} {s : Bool} {v : ℚ} : fmt.Holds (signed s v) ↔ fmt.Holds v := by
  unfold Fmt.Holds signed
  cases s <;> simp

theorem Fl.HasValue.round {fmt : Fmt} (hw : fmt.Wf) {x : Fl} {r : ℚ} (hx : x.HasValue r) (h : fmt.Holds r) :
    (x.round fmt).HasValue r := by
  obtain ⟨s, v, his, rfl⟩ := hx.exists_is
  exact (his.round hw (holds_signed_iff.1 h)).hasValue

section Design

variable (b : Build) {x y : Fl} {r q : ℚ} (hx : x.HasValue r) (hy : y.HasValue q)
include hx hy

theorem design_add_hasValue (h : b.design.fmt.Holds (r + q)) : (b.design.add x y).HasValue (r + q) := by
  rw [design_add]
  exact (hx.addExact hy).round (design_wf b) h

theorem design_sub_hasValue (h : b.design.fmt.Holds (r - q)) : (b.design.sub x y).HasValue (r - q) := by
  rw [sub_eq_add_neg] at h ⊢
  exact design_add_hasValue b hx hy.neg h

theorem design_mul_hasValue (h : b.design.fmt.Holds (r * q)) : (b.design.mul x y).HasValue (r * q) := by
  rw [design_mul]
  exact (hx.mulExact hy).round (design_wf b) h

theorem design_div_hasValue (hq : q ≠ 0) (h : b.design.fmt.Holds (r / q)) : (b.design.div x y).HasValue (r / q) := by
  obtain ⟨s, v, hxs, rfl⟩ := hx.exists_is
  obtain ⟨t, w, hyt, rfl⟩ := hy.exists_is
  rw [← signed_div] at h ⊢
  rw [design_div]
  exact (hxs.divRound (design_wf b) hyt (mt (signed_eq_zero_iff t w).2 hq) (holds_signed_iff.1 h)).hasValue

end Design

/-! Order. -/

theorem Fl.HasValue.le_eq {x y : Fl} {r q : ℚ} (hx : x.HasValue r) (hy : y.HasValue q) :
    Fl.le x y = decide (r ≤ q) := by
  obtain ⟨s, m, e, rfl, rfl⟩ := hx
  obtain ⟨t, n, f, rfl, rfl⟩ := hy
  exact le_fin s t m n e f

theorem Fl.HasValue.lt_eq {x y : Fl} {r q : ℚ} (hx : x.HasValue r) (hy : y.HasValue q) :
    Fl.lt x y = decide (r < q) := by
  obtain ⟨s, m, e, rfl, rfl⟩ := hx
  obtain ⟨t, n, f, rfl, rfl⟩ := hy
  exact lt_fin s t m n e f

/-- What is neither above nor below a number is that number. -/
theorem Fl.HasValue.of_le {x y : Fl} {r : ℚ} (hy : y.HasValue r) (h : Fl.le x y = true) (h' : Fl.le y x = true) :
    x.HasValue r := by
  cases x with
  | nan => cases h
  | inf s =>
    obtain ⟨t, n, f, rfl, -⟩ := hy
    cases s
    · cases h
    · cases h'
  | fin s m e =>
    have hx : (Fl.fin s m e).HasValue (signed s ((m : ℚ) * 2 ^ e)) := ⟨s, m, e, rfl, rfl⟩
    rw [hx.le_eq hy, decide_eq_true_eq] at h
    rw [hy.le_eq hx, decide_eq_true_eq] at h'
    rwa [le_antisymm h h'] at hx

/-- Only the number counts in a comparison, not how it is written. -/
theorem Fl.HasValue.le_congr_left {x x' : Fl} {r : ℚ} (hx : x.HasValue r) (hx' : x'.HasValue r) (y : Fl) :
    Fl.le x y = Fl.le x' y := by
  cases y with
  | fin t n f =>
    have hy : (Fl.fin t n f).HasValue _ := ⟨t, n, f, rfl, rfl⟩
    rw [hx.le_eq hy, hx'.le_eq hy]
  | _ =>
    obtain ⟨s, m, e, rfl, -⟩ := hx
    obtain ⟨s', m', e', rfl, -⟩ := hx'
    rfl

/-! Words. -/

theorem Fl.Is.toWord_eq {x : Fl} {w : Word} {s : Bool} {v : ℚ} (hx : x.Is s v) (hw : (Fl.ofWord w).Is s v)
    (key : List Word) : x.toWord key = w := by
  have hsame := hx.sameValue_of_is hw
  obtain ⟨m, e, rfl, -⟩ := hx
  obtain ⟨n, f, hn, -⟩ := hw
  rw [hsame.toWord_eq (by simp) key key]
  exact toWord_ofWord key w (by rw [hn]; rfl)

/-- The word of a number is the word that holds it, but for the sign of a zero. -/
theorem toWord_same {x : Fl} {w : Word} {r : ℚ} (hx : x.HasValue r) (hw : (Fl.ofWord w).HasValue r)
    (key : List Word) : SameButZeroSign (x.toWord key) w := by
  obtain ⟨s, v, hxs, rfl⟩ := hx.exists_is
  obtain ⟨t, u, hwt, hv⟩ := hw.exists_is
  have hvu : v = u := by rw [← abs_signed_of_is hxs, ← hv, abs_signed_of_is hwt]
  subst hvu
  by_cases hst : s = t
  · subst hst
    exact .inl (hxs.toWord_eq hwt key)
  · have h0 : v = 0 := by
      cases s <;> cases t <;> simp [signed] at hst hv <;> linarith
    subst h0
    obtain ⟨m, e, rfl, hm⟩ := hxs
    rw [mul_zpow_eq_zero_iff] at hm
    have hword : w = zeroWord t := word_ext hwt ⟨0, -149, ofWord_zeroWord t, by simp⟩
    rw [hm, toWord_zero, hword]
    exact same_zeroWord s t

/-! The correctly rounded MATH. -/

/-- A number of value 1 is a power of two times its inverse. -/
theorem Fl.Is.one {x : Fl} (h : x.Is false 1) : ∃ j : Nat, x = .fin false (2 ^ j) (-j) := by
  obtain ⟨m, e, rfl, hv⟩ := h
  have hm : 1 ≤ m := by
    by_contra hc
    have : m = 0 := by omega
    subst this
    simp at hv
  have he : e ≤ 0 := by
    by_contra hc
    have h1 : (1 : ℚ) ≤ m := by exact_mod_cast hm
    have h2 : (2 : ℚ) ^ (0 : Int) < 2 ^ e := zpow_lt_zpow_right₀ one_lt_two (by omega)
    rw [zpow_zero] at h2
    nlinarith
  obtain ⟨j, rfl⟩ := Int.exists_eq_neg_ofNat he
  refine ⟨j, ?_⟩
  rw [zpow_neg, zpow_natCast, ← div_eq_mul_inv, div_eq_one_iff_eq (by positivity)] at hv
  have : m = 2 ^ j := by exact_mod_cast hv
  rw [this]

theorem divFix_zero (p : Nat) (y : Int) : divFix p 0 y = 0 := by
  rw [divFix, zero_mul, Int.zero_ediv]

theorem lnFix_one (p : Nat) : lnFix p ((2 ^ p : Nat) : Int) = 0 := by
  simp [lnFix, divFix_zero, atanhSeries]

theorem log10Rounded_one (fmt : Fmt) {x : Fl} (h : x.Is false 1) : log10Rounded fmt x = .fin false 0 0 := by
  obtain ⟨j, rfl⟩ := h.one
  have hj : 2 ^ j ≠ 0 := by positivity
  have hfix : toFix 400 false (2 ^ j) (-j) = ((2 ^ 400 : Nat) : Int) := by
    simp only [toFix, Bool.false_eq_true, if_false, Nat.shiftLeft_eq, Nat.shiftRight_eq_div_pow, ← pow_add]
    rw [Nat.pow_div (by omega) two_pos]
    exact congrArg (fun n => ((2 ^ n : Nat) : Int)) (by omega)
  have hlow : 2 * 2 ^ j < 3 * 2 ^ j := by have := Nat.two_pow_pos j; omega
  simp only [log10Rounded, if_neg hj, Nat.log2_two_pow, hlow, decide_true, Bool.false_eq_true, if_false, if_true, hfix]
  rw [lnFix_one, add_neg_cancel, zero_mul, add_zero, divFix_zero, Fl.ofFix, Int.natAbs_zero, roundRat_zero]
  rfl

end Sys2Proof
end

section
/-! PROOFS. The path generator (44_path_response R300 to R303): the path's bins, its two mappings, and GEN_PATH. -/

namespace Sys2Proof.Machine

/-! The bins of a path (44_path_response R303). -/

theorem mem_stridedBins {n S k : Nat} :
    k ∈ (List.range n).filter (fun k => 1 ≤ k && (k - 1) % S == 0) ↔ k < n ∧ ∃ j, k = 1 + j * S := by
  simp only [List.mem_filter, List.mem_range, Bool.and_eq_true, decide_eq_true_eq, beq_iff_eq]
  refine and_congr_right fun _ => ⟨fun ⟨hk, hmod⟩ => ?_, ?_⟩
  · obtain ⟨j, hj⟩ := Nat.dvd_of_mod_eq_zero hmod
    exact ⟨j, by rw [Nat.mul_comm j, ← hj]; omega⟩
  · rintro ⟨j, rfl⟩
    exact ⟨by omega, by rw [Nat.add_sub_cancel_left, Nat.mul_mod_left]⟩

/-- Settles O40: the strided bins are filtered from a rising range, and bin 0 stands below them. -/
theorem pathTakesEveryStridedBin : Obligations.PathTakesEveryStridedBin := by
  refine fun b _ => ⟨List.pairwise_cons.2 ⟨fun k hk => ?_, List.pairwise_lt_range.filter _⟩, fun k => ?_⟩
  · obtain ⟨-, j, rfl⟩ := mem_stridedBins.1 hk
    omega
  · rw [pathBins, List.mem_cons, mem_stridedBins]

/-! GEN_PATH (44_path_response R300). -/

/-- Points stored from index 0 up are read back, each from its two words. -/
theorem read_load_pointWords (m : Memory) (pts : List (Word × Word)) {p : Nat} (hp : p < pts.length) :
    ((m.load 0 (pointWords pts)).read (2 * p), (m.load 0 (pointWords pts)).read (2 * p + 1)) =
      pts.getD p (0#32, 0#32) := by
  obtain ⟨hx, hy⟩ := pointWords_getD pts p
  rw [Memory.read_load, Memory.read_load, pointWords_length, if_pos (by omega), if_pos (by omega), Nat.sub_zero,
    Nat.sub_zero, hx, hy]

/-- In an empty storage every other point is (0.0, 0.0). -/
theorem read_load_nil_pointWords (pts : List (Word × Word)) (p : Nat) :
    (Memory.load [] 0 (pointWords pts)).read (2 * p) = (pts.getD p (0#32, 0#32)).1 ∧
      (Memory.load [] 0 (pointWords pts)).read (2 * p + 1) = (pts.getD p (0#32, 0#32)).2 := by
  by_cases hp : p < pts.length
  · exact Prod.ext_iff.1 (read_load_pointWords [] pts hp)
  · rw [Memory.read_load, Memory.read_load, pointWords_length, if_neg (by omega), if_neg (by omega),
      List.getD_eq_default _ _ (by omega)]
    exact ⟨rfl, rfl⟩

/-- Settles O39: the checks in R300's order, then the path that is stored. -/
theorem genPathStoresThePoints : Obligations.GenPathStoresThePoints := by
  intro s sized point pts
  have hok : s.bounds.ok = sized := rfl
  have hpts : pathPoints s = pts := rfl
  simp only [exec, execGenPath, hok, hpts]
  refine ⟨fun hp => ?_, fun hp hg => ?_, fun hp hg hv => ?_, fun hp hg hv =>
    ⟨(storePath s.an pts).path, ?_, read_load_nil_pointWords pts⟩⟩
  · rw [if_pos (by simp [hp])]
  all_goals rw [if_neg (by simp [hp])]
  · rw [if_pos (by simp [hg])]
  all_goals rw [if_neg (by simp [hg])]
  · rw [if_pos (by simp [hv])]
    rfl
  · rw [if_neg (by simp [hv])]
    rfl

/-! The vertical mapping (44_path_response R301). -/

/-- A legal FLOOR_DB is a number below 0. -/
theorem floor_hasValue {fl : Word} (hlo : 0x80000001 ≤ fl.toNat) (hhi : fl.toNat ≤ 0xFF7FFFFF) :
    ∃ r, (Fl.ofWord fl).HasValue r ∧ r < 0 := by
  obtain ⟨hfin, hneg⟩ := Bool.and_eq_true_iff.1 ((floorOk_iff fl).2 ⟨hlo, hhi⟩)
  obtain ⟨r, hr⟩ := Fl.hasValue_of_finite hfin
  rw [hr.lt_eq (Fl.nat_hasValue 0), decide_eq_true_eq] at hneg
  exact ⟨r, hr, by simpa using hneg⟩

theorem maxFloor_of_nan_or_le {lo x : Fl} (h : x = .nan ∨ Fl.le x lo = true) : Fl.maxFloor lo x = lo := by
  have hlt : Fl.lt lo x = false := by
    rcases h with rfl | h
    · cases lo <;> rfl
    · have hx : x ≠ .nan := by rintro rfl; cases h
      have hlo : lo ≠ .nan := by rintro rfl; cases x <;> cases h
      simpa [le_eq_not_lt hx hlo] using h
  simp only [Fl.maxFloor, hlt, Bool.false_eq_true, if_false]

/-- A number less itself is +0. -/
theorem design_sub_self (b : Build) {x : Fl} (h : x.finite = true) : b.design.sub x x = .fin false 0 0 := by
  cases x with
  | fin s m e =>
    obtain ⟨n, f, hsum, hval⟩ := addExact_fin s (!s) m m e e
    rw [signed_not, add_neg_cancel, abs_zero, mul_zpow_eq_zero_iff] at hval
    rw [Arith.sub, design_add, Fl.neg, hsum, hval, signed_not, add_neg_cancel]
    cases s <;> simp [Fl.round, roundRat_zero, sumSign]
  | _ => cases h

/-- Subtracting +0 keeps a value, and the sign of a zero. -/
theorem addExact_neg_zero (x : Fl) : (Fl.addExact x (.fin true 0 0)).SameValue x := by
  cases x with
  | nan => exact .nan
  | inf s => exact .inf s
  | fin s m e =>
    obtain ⟨n, f, hsum, hval⟩ := addExact_fin s true m 0 e 0
    have hm : (0 : ℚ) ≤ (m : ℚ) * 2 ^ e := by positivity
    rw [Nat.cast_zero, zero_mul, signed_zero, add_zero] at hsum hval
    have hsign : sumSign s true (signed s ((m : ℚ) * 2 ^ e)) = s := by
      unfold sumSign
      split
      · exact Bool.and_true s
      next h0 => exact (eq_decide_signed_neg s hm h0).symm
    rw [hsum, hsign]
    exact .fin s (hval.trans (abs_signed s hm))

/-- A sum keeps its value when +0 is subtracted. -/
theorem design_add_sub_zero (b : Build) (x y : Fl) :
    (b.design.sub (b.design.add x y) (.fin false 0 0)).SameValue (b.design.add x y) := by
  have hsame := (addExact_neg_zero (b.design.add x y)).round_eq b.design.fmt
  rw [Arith.sub, design_add b (b.design.add x y), Fl.neg, Bool.not_false, hsame, design_add]
  exact Fl.round_round (design_wf b) _

theorem design_add_ne_nan (b : Build) {x y : Fl} (hx : x.finite = true) (hy : y.finite = true) :
    b.design.add x y ≠ .nan := by
  obtain ⟨r, hx⟩ := Fl.hasValue_of_finite hx
  obtain ⟨q, hy⟩ := Fl.hasValue_of_finite hy
  obtain ⟨s, m, e, hsum, -⟩ := hx.addExact hy
  rw [design_add, hsum]
  exact Fl.round_ne_nan _ (by simp)

/-- FLOOR_DB, every value below it and a NaN map to the bottom edge. -/
theorem ymap_bottom (b : Build) (g : Bounds) {v fl : Word} (hy : (Fl.ofWord g.y).finite = true)
    (hh : (Fl.ofWord g.h).finite = true) (hpos : Fl.lt (Fl.nat 0) (Fl.ofWord g.h) = true)
    (hlo : 0x80000001 ≤ fl.toNat) (hhi : fl.toNat ≤ 0xFF7FFFFF)
    (hv : Fl.ofWord v = .nan ∨ Fl.le (Fl.ofWord v) (Fl.ofWord fl) = true) :
    ymap b g v fl = (b.design.add (Fl.ofWord g.y) (Fl.ofWord g.h)).toWord [] := by
  obtain ⟨r, hr, hneg⟩ := floor_hasValue hlo hhi
  obtain ⟨q, hq⟩ := Fl.hasValue_of_finite hh
  rw [(Fl.nat_hasValue 0).lt_eq hq, decide_eq_true_eq, Nat.cast_zero] at hpos
  obtain ⟨m, e, hm, -, -⟩ := hq.is_of_pos hpos
  obtain ⟨n, f, hn, hn0, -⟩ := hr.neg.is_of_pos (neg_pos.2 hneg)
  have hfin : (Fl.ofWord fl).finite = true := by obtain ⟨s, m, e, h, -⟩ := hr; rw [h]; rfl
  have hzero : b.design.div (b.design.mul (.fin false m e) (.fin false 0 0)) (.fin false n f) = .fin false 0 0 := by
    rw [design_mul, design_div]
    simp [Fl.mulExact, Fl.round, roundRat_zero, Fl.divRound, hn0]
  simp only [ymap, maxFloor_of_nan_or_le hv, design_sub_self b hfin]
  rw [hn, hm, hzero, ← hm]
  have hsame := design_add_sub_zero b (Fl.ofWord g.y) (Fl.ofWord g.h)
  exact hsame.symm.toWord_eq (design_add_ne_nan b hy hh) [] _ |>.symm

/-- In binary64, where Y + H is exact, 0 dB maps to the top edge: every operation is exact. -/
theorem ymap_top {b : Build} (hb : b.designFmt = .binary64) (g : Bounds) {v fl : Word}
    (hy : (Fl.ofWord g.y).finite = true) (hh : (Fl.ofWord g.h).finite = true)
    (hlo : 0x80000001 ≤ fl.toNat) (hhi : fl.toNat ≤ 0xFF7FFFFF) (hv : v &&& 0x7FFFFFFF#32 = 0#32)
    (hle : Fl.le (b.design.add (Fl.ofWord g.y) (Fl.ofWord g.h)) ((Fl.ofWord g.y).addExact (Fl.ofWord g.h)) = true)
    (hge : Fl.le ((Fl.ofWord g.y).addExact (Fl.ofWord g.h)) (b.design.add (Fl.ofWord g.y) (Fl.ofWord g.h)) = true) :
    SameButZeroSign (ymap b g v fl) g.y := by
  have h64 := design_format_binary64 hb
  obtain ⟨F, hF, hneg⟩ := floor_hasValue hlo hhi
  obtain ⟨Y, hY⟩ := Fl.hasValue_of_finite hy
  obtain ⟨H, hH⟩ := Fl.hasValue_of_finite hh
  have hYH := (hY.addExact hH).of_le hle hge
  have hV : (Fl.ofWord v).HasValue 0 := by
    obtain ⟨s, rfl⟩ := zeroWord_of_and v hv
    rw [ofWord_zeroWord]
    exact ⟨s, 0, -149, rfl, by simp [signed_zero]⟩
  have hmax : Fl.maxFloor (Fl.ofWord fl) (Fl.ofWord v) = Fl.ofWord v := by
    rw [Fl.maxFloor, hF.lt_eq hV, if_pos (decide_eq_true hneg)]
  have hFholds := holds_of_ofWord hF
  have hHholds := holds_of_ofWord hH
  have htop : (b.design.sub (Fl.ofWord v) (Fl.ofWord fl)).HasValue (-F) := by
    rw [← zero_sub]
    exact design_sub_hasValue b hV hF (by rw [zero_sub]; exact hFholds.neg.design b)
  have hmul := design_mul_hasValue b hH htop (h64 ▸ hHholds.mul hFholds.neg)
  have hcancel : H * -F / -F = H := mul_div_cancel_right₀ H (neg_ne_zero.2 hneg.ne)
  have hdiv := design_div_hasValue b hmul hF.neg (neg_ne_zero.2 hneg.ne) (by rw [hcancel]; exact hHholds.design b)
  rw [hcancel] at hdiv
  have hsub := design_sub_hasValue b hYH hdiv (by rw [add_sub_cancel_right]; exact (holds_of_ofWord hY).design b)
  rw [add_sub_cancel_right] at hsub
  simp only [ymap, hmax]
  exact toWord_same hsub hY _

/-! The horizontal mapping (44_path_response R302). -/

/-- The log10 of xmap's ratio at 20 Hz. -/
theorem log10_ratio_20Hz {b : Build} (hm : b.math = .reference) {f : Fl} (hf : f.HasValue (20 : Nat)) :
    b.fn .log10 (b.design.div f (Fl.nat 20)) = .fin false 0 0 := by
  have hone : (b.design.div f (Fl.nat 20)).HasValue 1 := by
    have h := design_div_hasValue b hf (Fl.nat_hasValue 20) (by norm_num)
      (by simpa using (holds_nat (n := 1) (by decide)).design b)
    simpa using h
  unfold Build.fn
  rw [hm]
  exact log10Rounded_one _ (hone.is_false one_pos)

theorem xmap_20Hz {b : Build} (hm : b.math = .reference) (g : Bounds) {fs : Word} {k : Nat}
    (hx : (Fl.ofWord g.x).finite = true) (hw : (Fl.ofWord g.w).finite = true)
    (hf : (b.design.div (b.design.mul (Fl.nat k) (Fl.ofWord fs)) (Fl.nat b.fftSize)).HasValue (20 : Nat)) :
    SameButZeroSign (xmap b g fs k) g.x := by
  obtain ⟨X, hX⟩ := Fl.hasValue_of_finite hx
  obtain ⟨W, hW⟩ := Fl.hasValue_of_finite hw
  have hzero : b.design.fmt.Holds 0 := by simpa using (holds_nat (n := 0) (by decide)).design b
  have hlog : (Fl.fin false 0 0).HasValue 0 := ⟨false, 0, 0, rfl, by simp [signed]⟩
  have hmul := design_mul_hasValue b hW hlog (by rwa [mul_zero])
  rw [mul_zero] at hmul
  have hdiv := design_div_hasValue b hmul (Fl.nat_hasValue 3) (by norm_num) (by rwa [zero_div])
  rw [zero_div] at hdiv
  have hadd := design_add_hasValue b hX hdiv (by rw [add_zero]; exact (holds_of_ofWord hX).design b)
  rw [add_zero] at hadd
  simp only [xmap, log10_ratio_20Hz hm hf]
  exact toWord_same hadd hX _

/-- 20000 / 20 is 1000, whose log10 is 3. -/
theorem log10_ratio_20kHz {b : Build} (hm : b.math = .reference) (hb : b.designFmt = .binary64) {f : Fl}
    (hf : f.HasValue (20000 : Nat)) : (b.fn .log10 (b.design.div f (Fl.nat 20))).Is false 3 := by
  obtain ⟨m, e, rfl, -, hval⟩ := hf.is_of_pos (by norm_num)
  have hdiv : b.design.div (.fin false m e) (Fl.nat 20) = roundRat .binary64 false 1000 1 0 := by
    rw [design_div, design_format_binary64 hb]
    refine roundRat_congr _ _ (by decide) one_ne_zero ?_
    rw [sub_zero, div_mul_eq_mul_div, hval]
    norm_num
  unfold Build.fn
  rw [hdiv, hm, design_format_binary64 hb]
  exact ⟨3 * 2 ^ 51, -51, by decide +kernel, by norm_num⟩

theorem xmap_20kHz {b : Build} (hm : b.math = .reference) (hb : b.designFmt = .binary64) (g : Bounds) {fs : Word}
    {k : Nat} (hx : (Fl.ofWord g.x).finite = true) (hw : (Fl.ofWord g.w).finite = true)
    (hf : (b.design.div (b.design.mul (Fl.nat k) (Fl.ofWord fs)) (Fl.nat b.fftSize)).HasValue (20000 : Nat)) :
    xmap b g fs k = (b.design.add (Fl.ofWord g.x) (Fl.ofWord g.w)).toWord [] := by
  have hwf := design_wf b
  have h64 := design_format_binary64 hb
  have hlog := log10_ratio_20kHz hm hb hf
  obtain ⟨W, hW⟩ := Fl.hasValue_of_finite hw
  obtain ⟨s, v, his, rfl⟩ := hW.exists_is
  have hholds := holds_signed_iff.1 (holds_of_ofWord hW)
  have h3 : Fmt.binary32.Holds 3 := by simpa using holds_nat (n := 3) (by decide)
  have hmul := (his.mulExact hlog).round hwf (h64 ▸ hholds.mul h3)
  have hdiv := hmul.divRound hwf (y := Fl.nat 3) (t := false) (w := 3) ⟨3, 0, rfl, by norm_num⟩ (by norm_num)
    (by rw [mul_div_cancel_right₀ v (by norm_num)]; exact hholds.design b)
  rw [mul_div_cancel_right₀ v (by norm_num), Bool.bne_false, Bool.bne_false] at hdiv
  rw [← design_mul, ← design_div] at hdiv
  have hadd := ((Fl.SameValue.refl (Fl.ofWord g.x)).addExact (hdiv.sameValue_of_is his)).round_eq b.design.fmt
  rw [← design_add, ← design_add] at hadd
  simp only [xmap]
  rw [hadd]
  exact (Fl.SameValue.refl _).toWord_eq (design_add_ne_nan b hx hw) _ _

/-- Settles O41: the formulas are the definitions, and at the edges each operation is exact or has a zero result. -/
theorem pathCoordinatesFollowTheirFormulas : Obligations.PathCoordinatesFollowTheirFormulas := by
  refine ⟨fun b g v fl => ⟨⟨_, rfl⟩, fun hy hh hpos hlo hhi => ⟨ymap_bottom b g hy hh hpos hlo hhi,
    fun hb hv hle hge => ymap_top hb g hy hh hlo hhi hv hle hge⟩⟩,
    fun b g fs k => ⟨⟨_, rfl⟩, fun hm hx hw => ⟨fun h20 => ?_, fun h20k hb => ?_⟩⟩⟩
  · exact xmap_20Hz hm g hx hw ((Fl.nat_hasValue 20).of_le h20.1 h20.2)
  · exact xmap_20kHz hm hb g hx hw ((Fl.nat_hasValue 20000).of_le h20k.1 h20k.2)

end Sys2Proof.Machine
end

section
/-! PROOFS. The response curve (44_path_response R310 to R315): RESPONSE, the values of the curve and what they depend
on, and the fully bypassed chain. -/

namespace Sys2Proof.Machine

/-! RESPONSE (44_path_response R310). -/

theorem exec_response {s : State} (hp : s.prepared = true) (hg : s.bounds.ok = true) :
    exec .response s = .next { s with cmdResult := 0x00000B01#32, curve := storeCurve s } := by
  rw [exec, execResponse, if_neg (by simp [hp]), if_neg (by simp [hg])]
  rfl

theorem storeCurve_read_db (s : State) {i : Nat} (hi : i < s.respPoints.toNat) :
    (storeCurve s).db.read i = curveWord s s.respPoints.toNat i := by
  rw [storeCurve, Memory.read_load, List.length_map, List.length_range, if_pos (by omega), Nat.sub_zero,
    List.getD_eq_getElem _ _ (by simpa using hi), List.getElem_map, List.getElem_range]

theorem storeCurve_read_pt (s : State) {i : Nat} (hi : i < s.respPoints.toNat) :
    ((storeCurve s).pt.read (2 * i), (storeCurve s).pt.read (2 * i + 1)) = curvePoint s s.respPoints.toNat i := by
  rw [storeCurve, read_load_pointWords _ _ (by simpa using hi), List.getD_eq_getElem _ _ (by simpa using hi),
    List.getElem_map, List.getElem_range]

/-- Settles O42: the checks in R310's order, then the curve that is stored. -/
theorem responseStoresTheCurve : Obligations.ResponseStoresTheCurve := by
  intro s sized n
  have hok : s.bounds.ok = sized := rfl
  refine ⟨fun hp => ?_, fun hp hg => ?_, fun hp hg => ⟨(storeCurve s).db, (storeCurve s).pt, exec_response hp hg,
    fun i hi => ⟨storeCurve_read_db s hi, storeCurve_read_pt s hi⟩⟩⟩
  · rw [exec, execResponse, if_pos (by simp [hp])]
  · rw [exec, execResponse, if_neg (by simp [hp]), hok, if_pos (by simp [hg])]

/-! The values of the curve (44_path_response R310 to R314). -/

/-- The product over the active stages, as a product over all stages that passes over the others. -/
theorem chainMagnitude_eq (b : Build) (k : Channel) (f fs : Fl) :
    chainMagnitude b k f fs =
      stages.foldl (fun m t => if k.active t then b.design.mul m (magH b k.coef[t] f fs) else m) (Fl.nat 1) := by
  rw [chainMagnitude, List.foldl_filter]

theorem responseDb_eq (b : Build) (mag : Fl) :
    responseDb b mag =
      if Fl.lt (Fl.nat 0) mag && Fl.lt (Fl.fin true 100 0) (b.design.mul (Fl.nat 20) (b.fn .log10 mag)) then
        b.design.mul (Fl.nat 20) (b.fn .log10 mag)
      else .fin true 100 0 := by
  have hlow : (Fl.nat 100).neg = .fin true 100 0 := rfl
  cases h : Fl.lt (Fl.nat 0) mag <;> simp [responseDb, Fl.maxFloor, h, hlow]

theorem isZero_iff (x : Fl) : isZero x = true ↔ Fl.le x (Fl.nat 0) = true ∧ Fl.le (Fl.nat 0) x = true := by
  have hzero : (Fl.nat 0).HasValue 0 := by simpa using Fl.nat_hasValue 0
  constructor
  · intro h
    cases x with
    | fin s m e =>
      have hm : m = 0 := by simpa [isZero] using h
      have hx : (Fl.fin s m e).HasValue 0 := ⟨s, m, e, rfl, by simp [hm, signed_zero]⟩
      simp [hx.le_eq hzero, hzero.le_eq hx]
    | _ => cases h
  · rintro ⟨hle, hge⟩
    obtain ⟨s, m, e, rfl, hm⟩ := hzero.of_le hle hge
    rw [signed_eq_zero_iff, mul_zpow_eq_zero_iff] at hm
    simp [isZero, hm]

/-- The grid starts at 20 Hz: `10^0` is 1. -/
theorem gridFreq_zero {b : Build} (hm : b.math = .reference) {n : Nat} (hn : n ≠ 0) :
    (gridFreq b n 0).HasValue (20 : Nat) := by
  have hmul : b.design.mul (Fl.nat 3) (Fl.nat 0) = .fin false 0 0 := by
    rw [design_mul]
    simp [Fl.nat, Fl.mulExact, Fl.round, roundRat_zero]
  have hdiv : b.design.div (.fin false 0 0) (Fl.nat n) = .fin false 0 0 := by
    rw [design_div]
    simp [Fl.nat, Fl.divRound, hn, roundRat_zero]
  have hexp : b.fn .exp10 (.fin false 0 0) = Fl.nat 1 := by
    unfold Build.fn
    rw [hm]
    rfl
  have h20 := design_mul_hasValue b (Fl.nat_hasValue 20) (Fl.nat_hasValue 1)
    (by simpa using (holds_nat (n := 20) (by decide)).design b)
  rw [gridFreq, hmul, hdiv, hexp]
  simpa using h20

/-- The limit of -100 dB survives the rounding to a word. -/
theorem le_curveWord (s : State) (n i : Nat) :
    Fl.le (Fl.ofWord 0xC2C80000#32) (Fl.ofWord (curveWord s n i)) = true := by
  have hword : (Fl.ofWord 0xC2C80000#32).HasValue (-100) := ⟨true, 13107200, -17, by decide, by norm_num [signed]⟩
  have hlow : (Fl.nat 100).neg.HasValue (-100) := by simpa using (Fl.nat_hasValue 100).neg
  refine le_toWord _ _ _ (by decide) ?_
  rw [hword.le_congr_left hlow]
  unfold curveDb responseDb
  dsimp only
  split
  · exact Fl.le_maxFloor rfl _
  · exact Fl.le_self rfl

/-! What the curve depends on. -/

/-- The two states agree on everything a curve consults. -/
structure SameCurveInputs (s t : State) : Prop where
  build : t.build = s.build
  rate : t.srActive = s.srActive
  bounds : t.bounds = s.bounds
  points : t.respPoints = s.respPoints
  stage : ∀ k : Stage, t.ch0.active k = s.ch0.active k ∧ (s.ch0.active k = true → t.ch0.coef[k] = s.ch0.coef[k])

section Agree

variable {s t : State} (h : SameCurveInputs s t)
include h

theorem chainMagnitude_congr (b : Build) (f fs : Fl) : chainMagnitude b t.ch0 f fs = chainMagnitude b s.ch0 f fs := by
  rw [chainMagnitude_eq, chainMagnitude_eq]
  congr 1
  funext m k
  obtain ⟨hactive, hcoef⟩ := h.stage k
  rw [hactive]
  split
  next hk => rw [hcoef hk]
  · rfl

theorem curveDb_congr (p i : Nat) : curveDb t p i = curveDb s p i := by
  rw [curveDb, curveDb, chainMagnitude_congr h, h.build, h.rate]

theorem curveWord_congr (p i : Nat) : curveWord t p i = curveWord s p i := by
  rw [curveWord, curveWord, curveDb_congr h]

theorem curvePoint_congr (p i : Nat) : curvePoint t p i = curvePoint s p i := by
  simp only [curvePoint, curveDb_congr h, h.build, h.bounds]

/-- The entries below P are the new curve's. -/
theorem storeCurve_read_congr :
    (∀ i < (storeCurve s).len, (storeCurve t).db.read i = (storeCurve s).db.read i) ∧
      ∀ w < 2 * (storeCurve s).len, (storeCurve t).pt.read w = (storeCurve s).pt.read w := by
  have hlen : (storeCurve s).len = s.respPoints.toNat := rfl
  rw [hlen]
  refine ⟨fun i hi => ?_, fun w hw => ?_⟩
  · rw [storeCurve_read_db s hi, storeCurve_read_db t (h.points ▸ hi), h.points, curveWord_congr h]
  · have hi : w / 2 < s.respPoints.toNat := by omega
    have hpt : ((storeCurve t).pt.read (2 * (w / 2)), (storeCurve t).pt.read (2 * (w / 2) + 1)) =
        ((storeCurve s).pt.read (2 * (w / 2)), (storeCurve s).pt.read (2 * (w / 2) + 1)) := by
      rw [storeCurve_read_pt s hi, storeCurve_read_pt t (h.points ▸ hi), h.points, curvePoint_congr h]
    obtain ⟨hx, hy⟩ := Prod.ext_iff.1 hpt
    rcases Nat.mod_two_eq_zero_or_one w with hw2 | hw2
    · rwa [show 2 * (w / 2) = w by omega] at hx
    · rwa [show 2 * (w / 2) + 1 = w by omega] at hy

end Agree

/-- The address names nothing, or an entry of RESP_DB or RESP_PATH (10_state R65, R66). -/
theorem mapped_respRange (s : State) {a : Addr} (ha : 0x30000 ≤ a.toNat) (ha' : a.toNat < 0x50000) :
    s.mapped a = none ∨ (∃ i, s.mapped a = some (.respDb i)) ∨ ∃ w, s.mapped a = some (.respPath w) := by
  unfold State.mapped
  split
  · rcases Nat.lt_or_ge a.toNat 0x40000 with hlt | hge
    · rw [locate_respDbRange s.build ha hlt]
      split
      · exact .inr (.inl ⟨_, rfl⟩)
      · exact .inl rfl
    · rw [locate_respPathRange s.build hge ha']
      split
      · exact .inr (.inr ⟨_, rfl⟩)
      · exact .inl rfl
  · exact .inl rfl

/-- The windows of the response show the entries below RESP_LEN and nothing else (10_state R65, R66). -/
theorem peek_respRange_congr {s t : State} (hb : t.build = s.build) (hlen : t.curve.len = s.curve.len)
    (hdb : ∀ i < s.curve.len, t.curve.db.read i = s.curve.db.read i)
    (hpt : ∀ w < 2 * s.curve.len, t.curve.pt.read w = s.curve.pt.read w) {a : Addr} (ha : 0x30000 ≤ a.toNat)
    (ha' : a.toNat < 0x50000) : t.peek a = s.peek a := by
  have hmap : t.mapped a = s.mapped a := by rw [State.mapped, State.mapped, hb]
  unfold State.peek
  rw [hmap]
  rcases mapped_respRange s ha ha' with h | ⟨i, h⟩ | ⟨w, h⟩ <;> rw [h]
  · simp only [State.readLoc, hlen]
    split
    next hi => exact hdb i hi
    · rfl
  · simp only [State.readLoc, hlen]
    split
    next hw => exact hpt w hw
    · rfl

/-- Settles O43: the formulas are the definitions, and the curve is a function of what `SameCurveInputs` names. -/
theorem responseValuesFollowTheirFormulas : Obligations.ResponseValuesFollowTheirFormulas := by
  refine ⟨fun s n i => ?_, fun b k f fs => ?_, fun b n hm hn => ?_,
    fun s t hb hfs hg hn hst hp hp' hw hh => ?_⟩
  · intro b ar f mag low level db h
    have hmag : chainMagnitude b s.ch0 f (Fl.ofWord s.srActive) = mag := chainMagnitude_eq ..
    have hdb : curveDb s n i = db := by
      rw [curveDb, responseDb_eq]
      exact hmag ▸ rfl
    exact ⟨⟨_, congrArg _ hdb⟩, ⟨_, rfl⟩, ⟨_, by rw [curvePoint, hdb]⟩, le_curveWord s n i⟩
  · intro ar w w2 modulus num den
    have hmagH : magH b k f fs = if isZero den then .inf false else ar.div num den := rfl
    rw [hmagH, ← isZero_iff den]
    exact ⟨fun h => if_pos h, fun h => if_neg h⟩
  · have hgrid := gridFreq_zero hm hn
    simp [hgrid.le_eq (Fl.nat_hasValue 20), (Fl.nat_hasValue 20).le_eq hgrid]
  · have hin : SameCurveInputs s t := ⟨hb, hfs, hg, hn, hst⟩
    have hok : s.bounds.ok = true := Bool.and_eq_true_iff.2 ⟨hw, hh⟩
    have hlen : (storeCurve t).len = (storeCurve s).len := congrArg BitVec.toNat hn
    obtain ⟨hdb, hpt⟩ := storeCurve_read_congr hin
    refine ⟨_, _, exec_response hp hok, exec_response hp' (hg ▸ hok), hlen, rfl, fun a ha ha' => ?_⟩
    refine peek_respRange_congr ?_ ?_ ?_ ?_ ha ha'
    exacts [hb, hlen, hdb, hpt]

/-! The fully bypassed chain (44_path_response R315). -/

theorem Channel.active_of_passThrough {k : Channel} (h : k.passThrough = true) (t : Stage) : k.active t = false := by
  simp only [Channel.passThrough, Bool.and_eq_true] at h
  obtain ⟨⟨h0, h1⟩, h2⟩ := h
  have hp : ∀ p : Fin 3, k.pbyp[p] = true := by
    intro p
    fin_cases p
    · exact h0
    · exact h1
    · exact h2
  exact Channel.active_of_position (hp (pos t))

/-- The empty product. -/
theorem chainMagnitude_passThrough (b : Build) {k : Channel} (h : k.passThrough = true) (f fs : Fl) :
    chainMagnitude b k f fs = Fl.nat 1 := by
  have hnone : (stages.filter fun t => k.active t) = [] :=
    List.filter_eq_nil_iff.2 fun t _ => by simp [Channel.active_of_passThrough h t]
  rw [chainMagnitude, hnone, List.foldl_nil]

theorem responseDb_one {b : Build} (hm : b.math = .reference) : responseDb b (Fl.nat 1) = .fin false 0 0 := by
  have hlog : b.fn .log10 (Fl.nat 1) = .fin false 0 0 := by
    unfold Build.fn
    rw [hm]
    exact log10Rounded_one _ ⟨1, 0, rfl, by norm_num⟩
  have hmul : b.design.mul (Fl.nat 20) (.fin false 0 0) = .fin false 0 0 := by
    rw [design_mul]
    simp [Fl.nat, Fl.mulExact, Fl.round, roundRat_zero]
  rw [responseDb, hlog, hmul]
  rfl

/-- Settles O44: no stage is active, so every magnitude is the empty product 1, whose decibels are 0. -/
theorem fullyBypassedResponseIsZeroDecibels : Obligations.FullyBypassedResponseIsZeroDecibels := by
  intro s hm hpass hp hw hh
  refine ⟨(storeCurve s).db, (storeCurve s).pt, exec_response hp (Bool.and_eq_true_iff.2 ⟨hw, hh⟩), fun i hi => ?_⟩
  rw [storeCurve_read_db s hi, curveWord, curveDb, chainMagnitude_passThrough _ hpass, responseDb_one hm, toWord_zero]
  rfl

end Sys2Proof.Machine
end

section
/-! PROOFS. Faults (60_exceptions R331, R332, R340 to R342): the block keeps running, the first fault is recorded and
its operation changes nothing else, and the record influences nothing but reads of it. -/

namespace Sys2Proof.Machine

/-! The record. -/

theorem State.raise_of_not_faulted {s : State} (h : s.faulted = false) (c : Cause) (info : Word) :
    s.raise c info = { s with fault := c.word, faultInfo := info } := by
  simp only [State.raise, h, Bool.false_eq_true, if_false]

theorem State.raise_of_faulted {s : State} (h : s.faulted = true) (c : Cause) (info : Word) : s.raise c info = s := by
  simp only [State.raise, h, if_true]

/-- Settles O11: the eight FAULT words by evaluation. -/
theorem firstFaultIsRecordedLaterOnesAreNot : Obligations.FirstFaultIsRecordedLaterOnesAreNot := by
  refine fun s info => ⟨fun h e he => ?_, fun h c => State.raise_of_faulted h c info⟩
  have words : ∀ e ∈ ([(.badAccess, 1#32), (.badCmd, 2#32), (.badParam, 3#32), (.notPrepared, 4#32),
      (.blockTooLong, 5#32), (.badGeometry, 6#32), (.designDomain, 7#32), (.badStream, 8#32)] :
      List (Cause × Word)), e.1.word = 0x80000000#32 ||| e.2 := by decide
  rw [State.raise_of_not_faulted h, words e he]

/-! The block keeps running. -/

/-- The outcome is a next state. -/
def Continues (r : Result) : Prop := ∃ t, r = .next t

theorem Continues.next (t : State) : Continues (.next t) := ⟨t, rfl⟩

theorem Continues.ite {p : Prop} [Decidable p] {a b : Result} (ha : Continues a) (hb : Continues b) :
    Continues (if p then a else b) := by
  split
  · exact ha
  · exact hb

theorem execPrepare_continues (s : State) : Continues (execPrepare s) := by
  unfold execPrepare
  split <;> exact .next _

theorem execTick_continues (s : State) : Continues (execTick s) := by
  refine .ite (.next _) (.ite (.next _) ?_)
  split <;> exact .next _

theorem exec_command_continues {i : Instr} (hi : i.lane = .command) (s : State) : Continues (exec i s) := by
  cases i with
  | nop | areset => exact .next _
  | prepare => exact execPrepare_continues s
  | tick => exact execTick_continues s
  | updateCoef | setBypass | fftGet => exact .ite (.next _) (.next _)
  | designPeak | designLowcut | designHighcut | response => exact .ite (.next _) (.ite (.next _) (.next _))
  | genPath => exact .ite (.next _) (.ite (.next _) (.ite (.next _) (.next _)))
  | anStep => exact .ite (.next _) (.ite (.next _) (.ite (.next _) (.ite (.next _) (.next _))))
  | processBlock | rd | wr => cases hi

theorem execCommand_continues (v : Word) (s : State) : Continues (execCommand v s) := by
  cases hd : decodeCommand v with
  | error r =>
    simp only [execCommand, hd]
    exact .next _
  | ok i =>
    have hi := decodeCommand_lane v i hd
    exact execCommand_ok v s i hd hi ▸ exec_command_continues hi s

theorem exec_continues (i : Instr) (s : State) : Continues (exec i s) := by
  cases i with
  | processBlock n => exact .ite (.next _) (.ite (.next _) (.next _))
  | rd a =>
    simp only [exec, execRd]
    split <;> exact .next _
  | wr a v =>
    simp only [exec, execWr]
    split
    · exact .next _
    split
    · exact .next _
    · exact execCommand_continues v s
    · exact .next _
  | _ => exact exec_command_continues rfl s

theorem ctrlStep_continues (s : State) : Continues (ctrlStep s) := by
  unfold ctrlStep performTransaction
  split
  · exact .next _
  split
  · exact .next _
  split
  · exact .next _
  · exact exec_continues ..

theorem audioStep_continues (s : State) : Continues (audioStep s) := by
  unfold audioStep takeHeader
  split
  · split
    · exact .next _
    split
    · exact .next _
    · exact exec_continues ..
  all_goals split <;> exact .next _

theorem freeStep_continues (s : State) : Continues (freeStep s) := by
  unfold freeStep
  split
  · exact .next _
  · exact ctrlStep_continues s
  · exact audioStep_continues s
  · exact .ite (ctrlStep_continues _) (audioStep_continues _)

theorem step_continues (s : State) : Continues (step s) := by
  unfold step
  split
  · exact freeStep_continues s
  next turn rest _ =>
  cases turn with
  | ctrl => exact ctrlStep_continues _
  | audio => exact audioStep_continues _
  | reset => exact .next _

/-- Settles O10: every arm of every instruction and of every step ends in a next state. -/
theorem nothingStopsTheBlock : Obligations.NothingStopsTheBlock :=
  ⟨step_continues, exec_continues⟩

/-! The operation that records a fault. -/

/-- The fault records are equal. -/
structure SameFault (s t : State) : Prop where
  fault : t.fault = s.fault
  faultInfo : t.faultInfo = s.faultInfo

/-- `t` is `s` with a fault raised and nothing else changed, or its fault record is that of `s`. -/
def RaisesOrKeeps (s t : State) : Prop := (∃ c info, t = s.raise c info) ∨ SameFault s t

theorem RaisesOrKeeps.raise (s : State) (c : Cause) (info : Word) : RaisesOrKeeps s (s.raise c info) :=
  .inl ⟨c, info, rfl⟩

theorem RaisesOrKeeps.checked {s stored : State} {ok : Bool} {a : Addr} (h : SameFault s stored) :
    RaisesOrKeeps s (s.checked ok a stored) := by
  unfold State.checked
  split
  · exact .inr h
  · exact .raise ..

theorem CommandEffect.raisesOrKeeps {s t : State} {i : Instr} (h : CommandEffect s i t) : RaisesOrKeeps s t := by
  cases h with
  | fault i c info => exact .raise s c info
  | install i op hop todo => exact .inr ⟨installStep_fault .., installStep_faultInfo ..⟩
  | prepared t h =>
    unfold execPrepare at h
    split at h
    · exact next_inj h ▸ .raise ..
    · exact next_inj h ▸ .inr ⟨rfl, rfl⟩
  | _ => exact .inr ⟨rfl, rfl⟩

theorem writeReg_raisesOrKeeps (s : State) (a : Addr) (v : Word) (r : Reg) : RaisesOrKeeps s (s.writeReg a v r) := by
  cases r
  case config => exact .inr ⟨rfl, rfl⟩
  case sampleRate | maxBlock | boundsX | boundsY | boundsW | boundsH | floorDb | respPoints | lowcutFreq |
      highcutFreq | peakFreq | peakGainDb | peakQ | settings =>
    exact .checked ⟨rfl, rfl⟩
  all_goals exact .raise ..

theorem writeLoc_raisesOrKeeps (s : State) (a : Addr) (v : Word) (l : Loc) : RaisesOrKeeps s (s.writeLoc a v l) := by
  cases l with
  | reg r => exact writeReg_raisesOrKeeps s a v r
  | cstg j i => exact .inr ⟨rfl, rfl⟩
  | _ => exact .raise ..

theorem exec_wr_raisesOrKeeps {s t : State} {a : Addr} {v : Word} (h : exec (.wr a v) s = .next t) :
    RaisesOrKeeps s t := by
  rcases exec_wr_cases s t a v h with ⟨c, info, rfl⟩ | ⟨-, i, -, hi, h⟩ | ⟨l, -, -, rfl⟩
  · exact .raise s c info
  · exact (exec_command_effect hi h).raisesOrKeeps
  · exact writeLoc_raisesOrKeeps s a v l

/-- The header step refuses the block, whose words are still to be consumed, or raises no fault (41_filter_chain
R207). -/
theorem exec_processBlock_refuses_or_keeps {s t : State} {n : BitVec 16} (h : exec (.processBlock n) s = .next t) :
    (∃ c info, t = (s.raise c info).setAudioOp (drainLeft (n.toNat * frameWords s.stereoActive))) ∨
      SameFault s t := by
  simp only [exec, execProcessBlock] at h
  split at h
  · exact .inl ⟨_, _, (next_inj h).symm⟩
  split at h
  · exact .inl ⟨_, _, (next_inj h).symm⟩
  · exact next_inj h ▸ .inr ⟨rfl, rfl⟩

/-- Settles O12: a fault is all that an operation that raises one does, but for the read's answer and the refused
block's words. -/
theorem faultingOperationsChangeNothingElse : Obligations.FaultingOperationsChangeNothingElse := by
  intro i s t h hne
  have hchanged : ¬ SameFault s t := fun hs => hne.elim (· hs.fault) (· hs.faultInfo)
  cases i with
  | processBlock n =>
    obtain ⟨c, info, ht⟩ := (exec_processBlock_refuses_or_keeps h).resolve_right hchanged
    exact ⟨c, info, .inr (.inr ⟨n, rfl, ht⟩)⟩
  | rd a =>
    rcases exec_rd_cases h with ⟨c, info, ht⟩ | ⟨w, rfl⟩
    · exact ⟨c, info, .inr (.inl ⟨a, rfl, ht⟩)⟩
    · exact absurd ⟨rfl, rfl⟩ hchanged
  | wr a v =>
    obtain ⟨c, info, ht⟩ := (exec_wr_raisesOrKeeps h).resolve_right hchanged
    exact ⟨c, info, .inl ht⟩
  | _ =>
    obtain ⟨c, info, ht⟩ := (exec_command_effect rfl h).raisesOrKeeps.resolve_right hchanged
    exact ⟨c, info, .inl ht⟩

/-! Later steps. -/

/-- Only a header step of AUDIO raises a fault (60_exceptions R341). -/
theorem AudioEffect.sameFault {s t : State} (h : AudioEffect s t) (hop : s.audioOp ≠ .header) : SameFault s t := by
  cases h with
  | wait => exact ⟨rfl, rfl⟩
  | badHeader w rest h => exact absurd h hop
  | header n rest _ h _ => exact absurd h hop
  | mono left x rest _ => exact ⟨frameMono_fault .., frameMono_faultInfo ..⟩
  | stereo left x y rest _ => exact ⟨frameStereo_fault .., frameStereo_faultInfo ..⟩
  | drain left rest _ => exact ⟨drainStep_fault .., drainStep_faultInfo ..⟩

theorem ctrlStep_sameFault {s t : State} (hop : s.ctrlOp ≠ none) (h : ctrlStep s = .next t) : SameFault s t := by
  obtain ⟨op, hop⟩ := Option.ne_none_iff_exists'.mp hop
  rw [ctrlStep_installs s op hop] at h
  exact next_inj h ▸ ⟨installStep_fault .., installStep_faultInfo ..⟩

/-- Settles O14: the later steps are install steps, frames and words of a refused block. -/
theorem laterStepsOfAnOperationNeverFault : Obligations.LaterStepsOfAnOperationNeverFault := by
  rintro s t (⟨hop, h⟩ | ⟨hop, h⟩)
  · obtain ⟨hfault, hinfo⟩ := ctrlStep_sameFault hop h
    exact ⟨hfault, hinfo⟩
  · obtain ⟨hfault, hinfo⟩ := (audioStep_effect h).sameFault hop
    exact ⟨hfault, hinfo⟩

/-! The record influences nothing. -/

/-- The state with another fault record. -/
def State.withFault (s : State) (f g : Word) : State := { s with fault := f, faultInfo := g }

/-- The second outcome is the first but for the fault record. -/
def Alike (r r' : Result) : Prop := ∃ f g, r' = mapNext (·.withFault f g) r

theorem Alike.next (t : State) (f g : Word) : Alike (.next t) (.next (t.withFault f g)) := ⟨f, g, rfl⟩

theorem Alike.ite {p : Prop} [Decidable p] {a a' b b' : Result} (ha : Alike a a') (hb : Alike b b') :
    Alike (if p then a else b) (if p then a' else b') := by
  split
  · exact ha
  · exact hb

/-- Outcomes alike are equal but for FAULT and FAULT_INFO. -/
theorem Alike.eq_next {r r' : Result} (h : Alike r r') {t u : State} (ht : r = .next t) (hu : r' = .next u) :
    u = { t with fault := u.fault, faultInfo := u.faultInfo } := by
  obtain ⟨f, g, h⟩ := h
  rw [ht, hu] at h
  exact next_inj h ▸ rfl

section WithFault

variable (s : State) (f g : Word)

theorem raise_alike (c : Cause) (info : Word) :
    Alike (.next (s.raise c info)) (.next ((s.withFault f g).raise c info)) := .next _ _ _

theorem apply_withFault (i : Install) :
    Install.apply (s.withFault f g) i = (Install.apply s i).withFault f g := by
  cases i with
  | coef c t set => cases c <;> rfl
  | stage c t set b => cases c <;> rfl
  | flags c p => cases c <;> rfl
  | bypass c tgt v => cases c <;> rfl

theorem installStep_withFault (op : BitVec 8) (todo : List Install) :
    installStep (s.withFault f g) op todo = (installStep s op todo).withFault f g := by
  rcases todo with _ | ⟨i, _ | ⟨j, rest⟩⟩
  · rfl
  · rw [installStep, installStep, apply_withFault]
    rfl
  · rw [installStep, installStep, apply_withFault]
    rfl

theorem installStep_alike (op : BitVec 8) (todo : List Install) :
    Alike (.next (installStep s op todo)) (.next (installStep (s.withFault f g) op todo)) :=
  installStep_withFault s f g op todo ▸ .next ..

theorem execPrepare_alike : Alike (execPrepare s) (execPrepare (s.withFault f g)) := by
  simp only [execPrepare, State.withFault]
  split
  · exact raise_alike s f g _ _
  · exact .next _ f g

theorem execTick_alike : Alike (execTick s) (execTick (s.withFault f g)) := by
  refine .ite (.next _ f g) (.ite (.next _ f g) ?_)
  simp only [State.withFault]
  split
  · exact raise_alike s f g _ _
  · exact .next _ f g

theorem exec_command_alike {i : Instr} (hi : i.lane = .command) :
    Alike (exec i s) (exec i (s.withFault f g)) := by
  have raised := raise_alike s f g
  cases i with
  | nop | areset => exact .next _ f g
  | prepare => exact execPrepare_alike s f g
  | tick => exact execTick_alike s f g
  | updateCoef | setBypass => exact .ite (installStep_alike s f g _ _) (raised _ _)
  | fftGet => exact .ite (.next _ f g) (.next _ f g)
  | designPeak | designLowcut | designHighcut | response =>
    exact .ite (raised _ _) (.ite (raised _ _) (.next _ f g))
  | genPath => exact .ite (raised _ _) (.ite (raised _ _) (.ite (.next _ f g) (.next _ f g)))
  | anStep =>
    exact .ite (.next _ f g) (.ite (.next _ f g) (.ite (.next _ f g) (.ite (.next _ f g) (.next _ f g))))
  | processBlock | rd | wr => cases hi

theorem execCommand_alike (v : Word) : Alike (execCommand v s) (execCommand v (s.withFault f g)) := by
  cases hd : decodeCommand v with
  | error r =>
    simp only [execCommand, hd]
    exact raise_alike s f g _ _
  | ok i =>
    have hi := decodeCommand_lane v i hd
    rw [execCommand_ok v _ i hd hi, execCommand_ok v _ i hd hi]
    exact exec_command_alike s f g hi

theorem checked_alike {stored : State} (ok : Bool) (a : Addr) :
    Alike (.next (s.checked ok a stored)) (.next ((s.withFault f g).checked ok a (stored.withFault f g))) := by
  unfold State.checked
  split
  · exact .next _ f g
  · exact raise_alike s f g _ _

theorem writeReg_alike (a : Addr) (v : Word) (r : Reg) :
    Alike (.next (s.writeReg a v r)) (.next ((s.withFault f g).writeReg a v r)) := by
  cases r
  case config => exact .next _ f g
  case sampleRate | maxBlock | boundsX | boundsY | boundsW | boundsH | floorDb | respPoints | lowcutFreq |
      highcutFreq | peakFreq | peakGainDb | peakQ | settings =>
    exact checked_alike s f g _ _
  all_goals exact raise_alike s f g _ _

theorem writeLoc_alike (a : Addr) (v : Word) (l : Loc) :
    Alike (.next (s.writeLoc a v l)) (.next ((s.withFault f g).writeLoc a v l)) := by
  cases l with
  | reg r => exact writeReg_alike s f g a v r
  | cstg j i => exact .next _ f g
  | _ => exact raise_alike s f g _ _

theorem mapped_withFault (a : Addr) : (s.withFault f g).mapped a = s.mapped a := rfl

/-- Only FAULT and FAULT_INFO read the fault record. -/
theorem readLoc_withFault {l : Loc} (hf : l ≠ .reg .fault) (hg : l ≠ .reg .faultInfo) :
    (s.withFault f g).readLoc l = s.readLoc l := by
  cases l with
  | reg r =>
    cases r
    case fault => exact absurd rfl hf
    case faultInfo => exact absurd rfl hg
    all_goals rfl
  | coef c t i => cases c <;> rfl
  | delay c t i => cases c <;> rfl
  | _ => rfl

theorem exec_rd_alike {a : Addr} (hf : a ≠ 0x00010#20) (hg : a ≠ 0x00014#20) :
    Alike (exec (.rd a) s) (exec (.rd a) (s.withFault f g)) := by
  simp only [exec, execRd, mapped_withFault]
  split
  · exact .next _ _ _
  · next l hl =>
    have hf' : l ≠ .reg .fault := fun h => hf (addr_of_mapped s a .fault (h ▸ hl))
    have hg' : l ≠ .reg .faultInfo := fun h => hg (addr_of_mapped s a .faultInfo (h ▸ hl))
    rw [readLoc_withFault s f g hf' hg']
    exact .next _ f g

theorem exec_wr_alike (a : Addr) (v : Word) : Alike (exec (.wr a v) s) (exec (.wr a v) (s.withFault f g)) := by
  simp only [exec, execWr, mapped_withFault]
  split
  · exact raise_alike s f g _ _
  split
  · exact raise_alike s f g _ _
  · exact execCommand_alike s f g v
  · exact writeLoc_alike s f g a v _

theorem exec_alike {i : Instr} (hf : i ≠ .rd 0x00010#20) (hg : i ≠ .rd 0x00014#20) :
    Alike (exec i s) (exec i (s.withFault f g)) := by
  cases i with
  | processBlock n => exact .ite (.next _ _ _) (.ite (.next _ _ _) (.next _ f g))
  | rd a => exact exec_rd_alike s f g (hf <| congrArg _ ·) (hg <| congrArg _ ·)
  | wr a v => exact exec_wr_alike s f g a v
  | _ => exact exec_command_alike s f g rfl

theorem takeHeader_alike (w : Word) : Alike (takeHeader w s) (takeHeader w (s.withFault f g)) := by
  unfold takeHeader
  split
  · exact raise_alike s f g _ _
  · next i hd =>
    obtain ⟨n, rfl⟩ := decodeStream_ok hd
    exact exec_alike s f g nofun nofun

theorem frameMono_withFault (x : Word) : frameMono (s.withFault f g) x = (frameMono s x).withFault f g := by
  simp only [frameMono, State.frame, State.withFault]

theorem frameStereo_withFault (x y : Word) :
    frameStereo (s.withFault f g) x y = (frameStereo s x y).withFault f g := by
  simp only [frameStereo, State.frame, State.withFault]

theorem audioStep_alike : Alike (audioStep s) (audioStep (s.withFault f g)) := by
  let s' := s.withFault f g
  rcases hq : s.host.audioIn with _ | ⟨x, rest⟩
  · rw [audioStep_idle s hq, audioStep_idle s' hq]
    exact .next s f g
  rcases hop : s.audioOp with _ | ⟨n, _ | _⟩ | n
  · rw [audioStep_header s x rest hop hq, audioStep_header s' x rest hop hq]
    exact takeHeader_alike (s.takeAudio rest) f g x
  · rw [audioStep_mono s n x rest hop hq, audioStep_mono s' n x rest hop hq]
    exact frameMono_withFault ((s.takeAudio rest).setAudioOp _) f g x ▸ .next _ f g
  · rcases rest with _ | ⟨y, rest⟩
    · rw [audioStep_halfFrame s n x hop hq, audioStep_halfFrame s' n x hop hq]
      exact .next s f g
    · rw [audioStep_stereo s n x y rest hop hq, audioStep_stereo s' n x y rest hop hq]
      exact frameStereo_withFault ((s.takeAudio rest).setAudioOp _) f g x y ▸ .next _ f g
  · rw [audioStep_drain s n x rest hop hq, audioStep_drain s' n x rest hop hq]
    exact .next _ f g

theorem badDescriptor_alike (desc : Word) :
    Alike (.next (badDescriptor s desc)) (.next (badDescriptor (s.withFault f g) desc)) := by
  simp only [badDescriptor]
  split <;> exact .next _ _ _

theorem performTransaction_alike {d : Transaction} (hf : d.desc ≠ 0x00400010#32) (hg : d.desc ≠ 0x00400014#32) :
    Alike (performTransaction d s) (performTransaction d (s.withFault f g)) := by
  unfold performTransaction
  split
  · exact badDescriptor_alike s f g _
  · next i hd =>
    obtain ⟨-, hdesc, -⟩ := encode_of_decodeBus hd
    exact exec_alike s f g (fun h => hf (hdesc ▸ h ▸ rfl)) (fun h => hg (hdesc ▸ h ▸ rfl))

theorem ctrlStep_alike (hq : ∀ (d : Transaction) (rest : List Transaction), s.ctrlOp = none →
    s.host.ctrlIn = d :: rest → d.desc ≠ 0x00400010#32 ∧ d.desc ≠ 0x00400014#32) :
    Alike (ctrlStep s) (ctrlStep (s.withFault f g)) := by
  let s' := s.withFault f g
  cases hop : s.ctrlOp with
  | some op =>
    rw [ctrlStep_installs s op hop, ctrlStep_installs s' op hop]
    exact installStep_alike s f g _ _
  | none =>
    cases hin : s.host.ctrlIn with
    | nil =>
      rw [ctrlStep_idle s hop hin, ctrlStep_idle s' hop hin]
      exact .next s f g
    | cons d rest =>
      rw [ctrlStep_transaction s d rest hop hin, ctrlStep_transaction s' d rest hop hin]
      obtain ⟨hf, hg⟩ := hq d rest hop hin
      exact performTransaction_alike (s.setHost _) f g hf hg

end WithFault

/-- Settles O13: only a read of FAULT or FAULT_INFO returns the record, and only `raise` tests it. -/
theorem faultRecordInfluencesNothingElse : Obligations.FaultRecordInfluencesNothingElse := by
  intro s f g
  exact ⟨fun i hf hg t u => (exec_alike s f g hf hg).eq_next, fun t u => (audioStep_alike s f g).eq_next,
    fun hq t u => (ctrlStep_alike s f g hq).eq_next⟩

end Sys2Proof.Machine
end

section
/-! PROOFS. Reset (70_reset R360, R361): the reset state's values, and what only the reset event clears. -/

namespace Sys2Proof.Machine

/-! The reset state. -/

theorem peek_addr (s : State) (r : Reg) : s.peek r.addr = s.readReg r := by
  simp only [State.peek, mapped_addr, State.readLoc]

/-- STATUS shows `dirty` alone. -/
theorem resetOf_status (b : Build) (h : HostSide) : (State.resetOf b h).status = 2#32 := by
  rw [status_eq]
  rfl

theorem resetOf_chan (b : Build) (h : HostSide) (c : Ch) : (State.resetOf b h).chan c = .reset := by
  cases c <;> rfl

theorem Channel.reset_coef : ∀ t : Stage, Channel.reset.coef[t] = .id5 := by decide

theorem Channel.reset_st : ∀ t : Stage, Channel.reset.st[t] = .zero := by decide

theorem Channel.reset_pbyp : ∀ p : Fin 3, Channel.reset.pbyp[p] = false := by decide

/-- The cut stages are bypassed, but the first of each cut. -/
theorem Channel.reset_sbyp : ∀ t : Stage, Channel.reset.sbyp t = decide (t ≠ 0 ∧ t ≠ 4 ∧ t ≠ 5) := by decide

theorem Channel.reset_flagsWord : Channel.reset.flagsWord = 0xEE0#32 := rfl

theorem resetOf_cstg (b : Build) (h : HostSide) : ∀ j : Fin 4, (State.resetOf b h).cstg[j] = .id5 := by
  have entries : ∀ j : Fin 4, (#v[.id5, .id5, .id5, .id5] : Vector CoefSet 4)[j] = .id5 := by decide
  exact entries

/-- Settles O6: the registers through the address map, the internal state by evaluation. -/
theorem resetValuesAreThoseOfTheTable : Obligations.ResetValuesAreThoseOfTheTable := by
  refine ⟨fun b h hb => ?_, rfl, peek_addr _ .build0, peek_addr _ .build1⟩
  refine ⟨?_, resetOf_cstg b h, fun c => ?_, fun _ => ⟨rfl, rfl, rfl, rfl, rfl, rfl, rfl, rfl⟩, rfl, rfl⟩
  · have rows : ∀ e ∈ regs.map fun r => (r.addr, (State.resetOf b h).readReg r),
        (State.resetOf b h).peek e.1 = e.2 :=
      List.forall_mem_map.mpr fun r _ => peek_addr _ r
    have status : (State.resetOf b h).readReg .status = 2#32 := resetOf_status b h
    have build0 : (State.resetOf b h).readReg .build0 = _ := build0Word_eq hb
    have build1 : (State.resetOf b h).readReg .build1 = _ := build1Word_eq hb
    have flags0 : (State.resetOf b h).readReg .chainFlags0 = 0xEE0#32 := Channel.reset_flagsWord
    have flags1 : (State.resetOf b h).readReg .chainFlags1 = 0xEE0#32 := Channel.reset_flagsWord
    simp only [regs, List.map, status, build0, build1, flags0, flags1] at rows
    exact rows
  · rw [resetOf_chan]
    exact ⟨fun t => ⟨Channel.reset_coef t, Channel.reset_st t⟩, Channel.reset_pbyp, Channel.reset_sbyp⟩

/-- Settles O8: the reference build is a legal one. -/
theorem invariantHoldsAtReset : Obligations.InvariantHoldsAtReset :=
  ⟨resetOf_inv (by decide) _, fun _ h hb => resetOf_inv hb h⟩

/-! What no step but the reset event clears. -/

/-- If `s` is prepared so is `t`, and a fault recorded in `s` is recorded in `t`. -/
structure KeepsPreparedAndFault (s t : State) : Prop where
  prepared : s.prepared = true → t.prepared = true
  fault : s.faulted = true → t.fault = s.fault ∧ t.faultInfo = s.faultInfo

namespace KeepsPreparedAndFault

theorem of_eq {s t : State} (prepared : t.prepared = s.prepared) (fault : t.fault = s.fault)
    (faultInfo : t.faultInfo = s.faultInfo) : KeepsPreparedAndFault s t :=
  ⟨prepared.trans, fun _ => ⟨fault, faultInfo⟩⟩

theorem refl (s : State) : KeepsPreparedAndFault s s := of_eq rfl rfl rfl

theorem raise (s : State) (c : Cause) (info : Word) : KeepsPreparedAndFault s (s.raise c info) := by
  refine ⟨id, fun hf => ?_⟩
  rw [State.raise_of_faulted hf]
  exact ⟨rfl, rfl⟩

/-- A change of the host's side before a step changes neither. -/
theorem of_setHost {s t : State} {host : HostSide} (h : KeepsPreparedAndFault (s.setHost host) t) :
    KeepsPreparedAndFault s t :=
  ⟨h.prepared, h.fault⟩

end KeepsPreparedAndFault

theorem execPrepare_prepared {s t : State} (h : execPrepare s = .next t) (hp : s.prepared = true) :
    t.prepared = true := by
  unfold execPrepare at h
  split at h
  · exact next_inj h ▸ hp
  · exact next_inj h ▸ rfl

/-- Only PREPARE writes PREPARED, and sets it (10_state R74). -/
theorem exec_prepared {i : Instr} {s t : State} (h : exec i s = .next t) (hp : s.prepared = true) :
    t.prepared = true := by
  cases exec_control h with
  | kept latch | paramWrite latch | tick latch => exact latch.prepared.trans hp
  | prepare _ _ hi =>
    rcases hi with rfl | rfl
    · exact execPrepare_prepared h hp
    · rw [exec_wr_cmd, execCommand_ok _ s .prepare rfl rfl] at h
      exact execPrepare_prepared h hp

/-- An instruction that changed the record would have raised a fault, and that leaves a recorded one
(60_exceptions R331). -/
theorem exec_fault_of_faulted {i : Instr} {s t : State} (h : exec i s = .next t) (hf : s.faulted = true) :
    t.fault = s.fault ∧ t.faultInfo = s.faultInfo := by
  by_contra hne
  obtain ⟨c, info, ht⟩ := faultingOperationsChangeNothingElse i s t h (not_and_or.mp hne)
  rw [State.raise_of_faulted hf] at ht
  rcases ht with rfl | ⟨a, -, rfl⟩ | ⟨n, -, rfl⟩ <;> exact hne ⟨rfl, rfl⟩

theorem exec_keeps {i : Instr} {s t : State} (h : exec i s = .next t) : KeepsPreparedAndFault s t :=
  ⟨exec_prepared h, exec_fault_of_faulted h⟩

theorem performTransaction_keeps {s t : State} {d : Transaction} (h : performTransaction d s = .next t) :
    KeepsPreparedAndFault s t := by
  unfold performTransaction at h
  split at h
  · obtain ⟨prepared, fault⟩ := KeepsPreparedAndFault.raise s .badAccess ((field d.desc 0 20).setWidth 32)
    refine next_inj h ▸ ?_
    unfold badDescriptor
    split <;> exact ⟨prepared, fault⟩
  · exact exec_keeps h

theorem ctrlStep_keeps {s t : State} (h : ctrlStep s = .next t) : KeepsPreparedAndFault s t := by
  unfold ctrlStep at h
  split at h
  · exact next_inj h ▸ .of_eq (installStep_prepared ..) (installStep_fault ..) (installStep_faultInfo ..)
  split at h
  · exact next_inj h ▸ .refl s
  · exact (performTransaction_keeps h).of_setHost

theorem audioStep_keeps {s t : State} (h : audioStep s = .next t) : KeepsPreparedAndFault s t := by
  cases audioStep_effect h with
  | wait => exact .refl s
  | badHeader w rest hop => exact (KeepsPreparedAndFault.raise (s.takeAudio rest) _ w).of_setHost
  | header n rest _ hop h => exact (exec_keeps h).of_setHost
  | mono left x rest hop => exact .of_eq (frameMono_prepared ..) (frameMono_fault ..) (frameMono_faultInfo ..)
  | stereo left x y rest hop =>
    exact .of_eq (frameStereo_prepared ..) (frameStereo_fault ..) (frameStereo_faultInfo ..)
  | drain left rest hop => exact .of_eq (drainStep_prepared ..) (drainStep_fault ..) (drainStep_faultInfo ..)

theorem freeStep_keeps {s t : State} (h : freeStep s = .next t) : KeepsPreparedAndFault s t := by
  unfold freeStep at h
  split at h
  · exact next_inj h ▸ .refl s
  · exact ctrlStep_keeps h
  · exact audioStep_keeps h
  · simp only at h
    split at h
    · exact (ctrlStep_keeps h).of_setHost
    · exact (audioStep_keeps h).of_setHost

/-- A step without the reset turn is a step of an agent, or nothing moves (20_memory R110). -/
theorem step_keeps {s t : State} (h : step s = .next t) (hr : ∀ rest, s.host.schedule ≠ .reset :: rest) :
    KeepsPreparedAndFault s t := by
  rcases hs : s.host.schedule with _ | ⟨turn, rest⟩
  · exact freeStep_keeps (step_free s hs ▸ h)
  cases turn with
  | ctrl => exact (ctrlStep_keeps (step_ctrl s rest hs ▸ h)).of_setHost
  | audio => exact (audioStep_keeps (step_audio s rest hs ▸ h)).of_setHost
  | reset => exact absurd hs (hr rest)

/-- Settles O7: the reset event gives the reset state, whose fields are read off; every other step keeps both. -/
theorem resetEndsEverythingAndAloneClearsPreparedAndFault :
    Obligations.ResetEndsEverythingAndAloneClearsPreparedAndFault := by
  refine ⟨fun s rest hs => ⟨_, step_reset s rest hs, rfl, rfl, rfl, rfl, rfl, rfl, rfl⟩, fun s t h hr => ?_⟩
  obtain ⟨prepared, fault⟩ := step_keeps h hr
  exact ⟨prepared, fault⟩

end Sys2Proof.Machine
end
